-- ==== Sys2Proof/Word.lean ====
section
/-!
DEFINITION. The word types of CM-CORE and their plainest conversions (spec/00_scope.md R12, spec/10_state.md R21).
-/

namespace Sys2Proof

/-- A 32-bit register, address or instruction word (10_state.md R21, R25; 30_encoding.md R90). -/
abbrev Word := BitVec 32

/-- A byte of local memory, the smallest addressable unit (10_state.md R29). -/
abbrev Byte := BitVec 8

/-- A 4-bit register field, naming r0 to r15 (10_state.md R21). -/
abbrev Reg := BitVec 4

/-- A field element as it is stored: a 16-bit unsigned value (00_scope.md R14). -/
abbrev Gf := BitVec 16

/-- A 64-bit unsigned value: a sort element, a transpose row, a Keccak lane, the pivot mask (20_memory.md R61). -/
abbrev Lane := BitVec 64

end Sys2Proof
end

