-- ==== Sys2Proof/Syntax.lean ====
section
/-!
DEFINITION. The instructions of CMC-ISA version 1: one constructor for each row of spec/opcode_table.json
(spec/30_encoding.md R101). Fields are pulled out of the word here once: register numbers are 4 bits, a shift amount is 5,
a PARAM index is 4 (its other words are illegal, R102), and BENES's fn16 is the Boolean `rev`.
-/

namespace Sys2Proof

/-- An instruction with its operand fields (30_encoding.md R92 to R98, operand order of R105). -/
inductive Instr where
  -- register-register ALU, format R (48_base.md R231 to R241)
  | add (rd rs1 rs2 : Reg)
  | sub (rd rs1 rs2 : Reg)
  | and (rd rs1 rs2 : Reg)
  | or (rd rs1 rs2 : Reg)
  | xor (rd rs1 rs2 : Reg)
  | sll (rd rs1 rs2 : Reg)
  | srl (rd rs1 rs2 : Reg)
  | sra (rd rs1 rs2 : Reg)
  | slt (rd rs1 rs2 : Reg)
  | sltu (rd rs1 rs2 : Reg)
  | mul (rd rs1 rs2 : Reg)
  -- register-immediate ALU, format I (48_base.md R242 to R250)
  | addi (rd rs1 : Reg) (imm : BitVec 16)
  | andi (rd rs1 : Reg) (imm : BitVec 16)
  | ori (rd rs1 : Reg) (imm : BitVec 16)
  | xori (rd rs1 : Reg) (imm : BitVec 16)
  | slli (rd rs1 : Reg) (sh : BitVec 5)
  | srli (rd rs1 : Reg) (sh : BitVec 5)
  | srai (rd rs1 : Reg) (sh : BitVec 5)
  | lui (rd : Reg) (imm : BitVec 16)
  | param (rd : Reg) (idx : BitVec 4)
  -- loads, format I, and stores, format S (48_base.md R252 to R257)
  | lbu (rd rs1 : Reg) (imm : BitVec 16)
  | lhu (rd rs1 : Reg) (imm : BitVec 16)
  | lw (rd rs1 : Reg) (imm : BitVec 16)
  | sb (rs2 rs1 : Reg) (imm : BitVec 16)
  | sh (rs2 rs1 : Reg) (imm : BitVec 16)
  | sw (rs2 rs1 : Reg) (imm : BitVec 16)
  -- branches, format B, jumps and HALT (48_base.md R259 to R267)
  | beq (rs1 rs2 : Reg) (off : BitVec 16)
  | bne (rs1 rs2 : Reg) (off : BitVec 16)
  | blt (rs1 rs2 : Reg) (off : BitVec 16)
  | bge (rs1 rs2 : Reg) (off : BitVec 16)
  | bltu (rs1 rs2 : Reg) (off : BitVec 16)
  | bgeu (rs1 rs2 : Reg) (off : BitVec 16)
  | jal (rd : Reg) (off : BitVec 20)
  | jalr (rd rs1 : Reg) (imm : BitVec 16)
  | halt
  -- the GF(2^m) unit, format R (41_gf.md R121 to R126)
  | gfMul (rd rs1 rs2 : Reg)
  | gfSq (rd rs1 : Reg)
  | gfInv (rd rs1 : Reg)
  | gfFrac (rd rs1 rs2 : Reg)
  | gfIsz (rd rs1 : Reg)
  | gfBitrev (rd rs1 : Reg)
  -- the engines, format E (30_encoding.md R98): result register and first register of the operand group
  | sort32 (rd rb : Reg)
  | sort64 (rd rb : Reg)
  | transpose (rd rb : Reg)
  | benes (rd rb : Reg) (rev : Bool)
  | cbits (rd rb : Reg)
  | support (rd rb : Reg)
  | polymul (rd rb : Reg)
  | genpoly (rd rb : Reg)
  | eval (rd rb : Reg)
  | root (rd rb : Reg)
  | bm (rd rb : Reg)
  | synd (rd rb : Reg)
  | pkgen (rd rb : Reg)
  | gene (rd rb : Reg)
  | encode (rd rb : Reg)
  | decrypt (rd rb : Reg)
  | shake256 (rd rb : Reg)
  deriving DecidableEq, Repr

end Sys2Proof
end

