-- ==== Sys2Proof/WellFormed.lean ====
section
/-!
DEFINITION. When an instruction term stands for a legal word. Every other legality condition of spec/30_encoding.md R102
is met by the types of `Instr`'s fields, so the one check left is condition 4: an engine's operand group ends at r15.
-/

namespace Sys2Proof

/-- The number k of registers in an engine's operand group with its first register, for an E-format instruction
(30_encoding.md R98 and the column k of R101). -/
def Instr.group : Instr → Option (Reg × Nat)
  | .sort32 _ rb => some (rb, 2)
  | .sort64 _ rb => some (rb, 2)
  | .transpose _ rb => some (rb, 2)
  | .benes _ rb _ => some (rb, 2)
  | .cbits _ rb => some (rb, 2)
  | .support _ rb => some (rb, 2)
  | .polymul _ rb => some (rb, 3)
  | .genpoly _ rb => some (rb, 2)
  | .eval _ rb => some (rb, 2)
  | .root _ rb => some (rb, 3)
  | .bm _ rb => some (rb, 2)
  | .synd _ rb => some (rb, 4)
  | .pkgen _ rb => some (rb, 5)
  | .gene _ rb => some (rb, 2)
  | .encode _ rb => some (rb, 3)
  | .decrypt _ rb => some (rb, 4)
  | .shake256 _ rb => some (rb, 4)
  | .add .. | .sub .. | .and .. | .or .. | .xor .. | .sll .. | .srl .. | .sra .. | .slt .. | .sltu .. | .mul .. => none
  | .addi .. | .andi .. | .ori .. | .xori .. | .slli .. | .srli .. | .srai .. | .lui .. | .param .. => none
  | .lbu .. | .lhu .. | .lw .. | .sb .. | .sh .. | .sw .. => none
  | .beq .. | .bne .. | .blt .. | .bge .. | .bltu .. | .bgeu .. | .jal .. | .jalr .. | .halt => none
  | .gfMul .. | .gfSq .. | .gfInv .. | .gfFrac .. | .gfIsz .. | .gfBitrev .. => none

/-- A group of k registers from rb lies within r0..r15; `rb + k > 16` is illegal (30_encoding.md R98, R102 condition 4). -/
def groupFits (rb : Reg) (k : Nat) : Bool := rb.toNat + k ≤ 16

/-- The instruction stands for a legal word (30_encoding.md R102). -/
def WellFormed (i : Instr) : Bool :=
  match i.group with
  | some (rb, k) => groupFits rb k
  | none => true

end Sys2Proof
end

