-- ==== Sys2Proof/Decode.lean ====
section
/-!
DEFINITION. The decoder of CMC-ISA version 1 (spec/30_encoding.md R90 to R104), total on any bytes and rejecting by name,
and after it the encoder, written from the same format tables (R92 to R98).
-/

namespace Sys2Proof

/-- Why a word is illegal (30_encoding.md R102), or that there are fewer than four bytes. -/
inductive DecodeError where
  /-- fewer than four bytes were given: never raised by SEQ, whose fetch reads four (20_memory.md R62) -/
  | truncated
  /-- R102 condition 1: the opcode is not in the map of R101 -/
  | unassignedOpcode
  /-- R102 conditions 2 and 3: a must-be-zero range is not zero, or PARAM's index exceeds 15 -/
  | mustBeZero
  /-- R102 condition 4: the operand group would run past r15 -/
  | operandGroup
  /-- R102 condition 5: fn16 is not a value the engine has -/
  | engineFunction
  deriving DecidableEq, Repr

-- The fields of a word (30_encoding.md R92 to R98, R104).

/-- Bits [7:0], the opcode (30_encoding.md R91). -/
def fieldOp (w : Word) : BitVec 8 := w.extractLsb' 0 8

/-- Bits [11:8]: rd, the data register of format S, rs1 of format B. -/
def fieldA (w : Word) : Reg := w.extractLsb' 8 4

/-- Bits [15:12]: rs1, the base of format S, rs2 of format B, rb of format E. -/
def fieldB (w : Word) : Reg := w.extractLsb' 12 4

/-- Bits [19:16]: rs2 of format R, the index of PARAM. -/
def fieldC (w : Word) : Reg := w.extractLsb' 16 4

/-- Bits [31:16]: imm16, off16, fn16. -/
def fieldImm (w : Word) : BitVec 16 := w.extractLsb' 16 16

/-- Bits [20:16]: the shift amount imm16[4:0] of SLLI, SRLI and SRAI (30_encoding.md R99). -/
def fieldSh (w : Word) : BitVec 5 := w.extractLsb' 16 5

/-- Bits [31:12]: off20. -/
def fieldOff20 (w : Word) : BitVec 20 := w.extractLsb' 12 20

/-- The bits of w from position lo up are zero. -/
def zeroFrom (w : Word) (lo : Nat) : Bool := w >>> lo == 0#32

-- One function per format: the must-be-zero ranges of the format are checked, then the constructor is applied.

/-- Format R (30_encoding.md R92): bits [31:20] must be 0. -/
def decodeR (w : Word) (mk : Reg → Reg → Reg → Instr) : Except DecodeError Instr :=
  if zeroFrom w 20 then .ok (mk (fieldA w) (fieldB w) (fieldC w)) else .error .mustBeZero

/-- Format R of a unary GF instruction: bits [31:16] must be 0 (30_encoding.md R101). -/
def decodeR2 (w : Word) (mk : Reg → Reg → Instr) : Except DecodeError Instr :=
  if zeroFrom w 16 then .ok (mk (fieldA w) (fieldB w)) else .error .mustBeZero

/-- Formats I and S, and format B, whose two register fields stand in the order of the bits [11:8], [15:12]
(30_encoding.md R93, R94, R95). No bit must be zero. -/
def decodeI (w : Word) (mk : Reg → Reg → BitVec 16 → Instr) : Except DecodeError Instr :=
  .ok (mk (fieldA w) (fieldB w) (fieldImm w))

/-- Format I of an immediate shift: bits [31:21] must be 0 (30_encoding.md R101). -/
def decodeShift (w : Word) (mk : Reg → Reg → BitVec 5 → Instr) : Except DecodeError Instr :=
  if zeroFrom w 21 then .ok (mk (fieldA w) (fieldB w) (fieldSh w)) else .error .mustBeZero

/-- LUI: the rs1 field must be 0 (30_encoding.md R101). -/
def decodeLui (w : Word) : Except DecodeError Instr :=
  if fieldB w = 0#4 then .ok (.lui (fieldA w) (fieldImm w)) else .error .mustBeZero

/-- PARAM: the rs1 field must be 0 and imm16 at most 15 (30_encoding.md R101, R102 condition 3). -/
def decodeParam (w : Word) : Except DecodeError Instr :=
  if fieldB w = 0#4 && zeroFrom w 20 then .ok (.param (fieldA w) (fieldC w)) else .error .mustBeZero

/-- Format J (30_encoding.md R96). -/
def decodeJ (w : Word) (mk : Reg → BitVec 20 → Instr) : Except DecodeError Instr :=
  .ok (mk (fieldA w) (fieldOff20 w))

/-- Format N: bits [31:8] must be 0 (30_encoding.md R97). -/
def decodeN (w : Word) (i : Instr) : Except DecodeError Instr :=
  if zeroFrom w 8 then .ok i else .error .mustBeZero

/-- Format E with k operands and fn16 = 0, checked in the order of 30_encoding.md R104. -/
def decodeE (w : Word) (k : Nat) (mk : Reg → Reg → Instr) : Except DecodeError Instr :=
  if groupFits (fieldB w) k then
    if fieldImm w = 0#16 then .ok (mk (fieldA w) (fieldB w)) else .error .engineFunction
  else .error .operandGroup

/-- BENES, whose fn16 is rev, 0 or 1 (30_encoding.md R98, R102 condition 5). -/
def decodeBenes (w : Word) : Except DecodeError Instr :=
  if groupFits (fieldB w) 2 then
    if fieldImm w = 0#16 then .ok (.benes (fieldA w) (fieldB w) false)
    else if fieldImm w = 1#16 then .ok (.benes (fieldA w) (fieldB w) true)
    else .error .engineFunction
  else .error .operandGroup

/-- Decoding of one word: the opcode alone selects the row (30_encoding.md R91, R101, R104). -/
def decodeWord (w : Word) : Except DecodeError Instr :=
  match (fieldOp w).toNat with
  | 0x01 => decodeR w .add
  | 0x02 => decodeR w .sub
  | 0x03 => decodeR w .and
  | 0x04 => decodeR w .or
  | 0x05 => decodeR w .xor
  | 0x06 => decodeR w .sll
  | 0x07 => decodeR w .srl
  | 0x08 => decodeR w .sra
  | 0x09 => decodeR w .slt
  | 0x0A => decodeR w .sltu
  | 0x0B => decodeR w .mul
  | 0x10 => decodeI w .addi
  | 0x11 => decodeI w .andi
  | 0x12 => decodeI w .ori
  | 0x13 => decodeI w .xori
  | 0x14 => decodeShift w .slli
  | 0x15 => decodeShift w .srli
  | 0x16 => decodeShift w .srai
  | 0x17 => decodeLui w
  | 0x18 => decodeParam w
  | 0x20 => decodeI w .lbu
  | 0x21 => decodeI w .lhu
  | 0x22 => decodeI w .lw
  | 0x28 => decodeI w .sb
  | 0x29 => decodeI w .sh
  | 0x2A => decodeI w .sw
  | 0x30 => decodeI w .beq
  | 0x31 => decodeI w .bne
  | 0x32 => decodeI w .blt
  | 0x33 => decodeI w .bge
  | 0x34 => decodeI w .bltu
  | 0x35 => decodeI w .bgeu
  | 0x38 => decodeJ w .jal
  | 0x39 => decodeI w .jalr
  | 0x3F => decodeN w .halt
  | 0x40 => decodeR w .gfMul
  | 0x41 => decodeR2 w .gfSq
  | 0x42 => decodeR2 w .gfInv
  | 0x43 => decodeR w .gfFrac
  | 0x44 => decodeR2 w .gfIsz
  | 0x45 => decodeR2 w .gfBitrev
  | 0x50 => decodeE w 2 .sort32
  | 0x51 => decodeE w 2 .sort64
  | 0x54 => decodeE w 2 .transpose
  | 0x55 => decodeBenes w
  | 0x56 => decodeE w 2 .cbits
  | 0x57 => decodeE w 2 .support
  | 0x58 => decodeE w 3 .polymul
  | 0x59 => decodeE w 2 .genpoly
  | 0x5A => decodeE w 2 .eval
  | 0x5B => decodeE w 3 .root
  | 0x5C => decodeE w 2 .bm
  | 0x5D => decodeE w 4 .synd
  | 0x60 => decodeE w 5 .pkgen
  | 0x68 => decodeE w 2 .gene
  | 0x69 => decodeE w 3 .encode
  | 0x6A => decodeE w 4 .decrypt
  | 0x70 => decodeE w 4 .shake256
  | _ => .error .unassignedOpcode

/-- The word whose bytes in memory are b0, b1, b2, b3, lowest address first (20_memory.md R61, R62). -/
def wordOfBytes (b0 b1 b2 b3 : Byte) : Word := b3 ++ b2 ++ b1 ++ b0

/-- Decoding at the head of a list of bytes: the instruction and the bytes after it (30_encoding.md R90). -/
def decode : List Byte → Except DecodeError (Instr × List Byte)
  | b0 :: b1 :: b2 :: b3 :: rest =>
    match decodeWord (wordOfBytes b0 b1 b2 b3) with
    | .ok i => .ok (i, rest)
    | .error e => .error e
  | _ => .error .truncated

-- The encoder, from the format tables of 30_encoding.md R92 to R98.

/-- Format R (30_encoding.md R92). -/
def formR (op : BitVec 8) (rd rs1 rs2 : Reg) : Word := 0#12 ++ rs2 ++ rs1 ++ rd ++ op

/-- The 16-bit-immediate formats: a is bits [11:8], b bits [15:12] (30_encoding.md R93, R94, R95, R98). -/
def formI (op : BitVec 8) (a b : Reg) (imm : BitVec 16) : Word := imm ++ b ++ a ++ op

/-- Format I of an immediate shift (30_encoding.md R99). -/
def formShift (op : BitVec 8) (rd rs1 : Reg) (sh : BitVec 5) : Word := 0#11 ++ sh ++ rs1 ++ rd ++ op

/-- Format J (30_encoding.md R96). -/
def formJ (op : BitVec 8) (rd : Reg) (off : BitVec 20) : Word := off ++ rd ++ op

/-- The word of an instruction. For a term that is not well formed it is the illegal word it would be written as. -/
def encode : Instr → Word
  | .add rd rs1 rs2 => formR 0x01 rd rs1 rs2
  | .sub rd rs1 rs2 => formR 0x02 rd rs1 rs2
  | .and rd rs1 rs2 => formR 0x03 rd rs1 rs2
  | .or rd rs1 rs2 => formR 0x04 rd rs1 rs2
  | .xor rd rs1 rs2 => formR 0x05 rd rs1 rs2
  | .sll rd rs1 rs2 => formR 0x06 rd rs1 rs2
  | .srl rd rs1 rs2 => formR 0x07 rd rs1 rs2
  | .sra rd rs1 rs2 => formR 0x08 rd rs1 rs2
  | .slt rd rs1 rs2 => formR 0x09 rd rs1 rs2
  | .sltu rd rs1 rs2 => formR 0x0A rd rs1 rs2
  | .mul rd rs1 rs2 => formR 0x0B rd rs1 rs2
  | .addi rd rs1 imm => formI 0x10 rd rs1 imm
  | .andi rd rs1 imm => formI 0x11 rd rs1 imm
  | .ori rd rs1 imm => formI 0x12 rd rs1 imm
  | .xori rd rs1 imm => formI 0x13 rd rs1 imm
  | .slli rd rs1 sh => formShift 0x14 rd rs1 sh
  | .srli rd rs1 sh => formShift 0x15 rd rs1 sh
  | .srai rd rs1 sh => formShift 0x16 rd rs1 sh
  | .lui rd imm => formI 0x17 rd 0 imm
  | .param rd idx => formR 0x18 rd 0 idx
  | .lbu rd rs1 imm => formI 0x20 rd rs1 imm
  | .lhu rd rs1 imm => formI 0x21 rd rs1 imm
  | .lw rd rs1 imm => formI 0x22 rd rs1 imm
  | .sb rs2 rs1 imm => formI 0x28 rs2 rs1 imm
  | .sh rs2 rs1 imm => formI 0x29 rs2 rs1 imm
  | .sw rs2 rs1 imm => formI 0x2A rs2 rs1 imm
  | .beq rs1 rs2 off => formI 0x30 rs1 rs2 off
  | .bne rs1 rs2 off => formI 0x31 rs1 rs2 off
  | .blt rs1 rs2 off => formI 0x32 rs1 rs2 off
  | .bge rs1 rs2 off => formI 0x33 rs1 rs2 off
  | .bltu rs1 rs2 off => formI 0x34 rs1 rs2 off
  | .bgeu rs1 rs2 off => formI 0x35 rs1 rs2 off
  | .jal rd off => formJ 0x38 rd off
  | .jalr rd rs1 imm => formI 0x39 rd rs1 imm
  | .halt => 0x3F
  | .gfMul rd rs1 rs2 => formR 0x40 rd rs1 rs2
  | .gfSq rd rs1 => formR 0x41 rd rs1 0
  | .gfInv rd rs1 => formR 0x42 rd rs1 0
  | .gfFrac rd rs1 rs2 => formR 0x43 rd rs1 rs2
  | .gfIsz rd rs1 => formR 0x44 rd rs1 0
  | .gfBitrev rd rs1 => formR 0x45 rd rs1 0
  | .sort32 rd rb => formI 0x50 rd rb 0
  | .sort64 rd rb => formI 0x51 rd rb 0
  | .transpose rd rb => formI 0x54 rd rb 0
  | .benes rd rb rev => formI 0x55 rd rb (if rev then 1 else 0)
  | .cbits rd rb => formI 0x56 rd rb 0
  | .support rd rb => formI 0x57 rd rb 0
  | .polymul rd rb => formI 0x58 rd rb 0
  | .genpoly rd rb => formI 0x59 rd rb 0
  | .eval rd rb => formI 0x5A rd rb 0
  | .root rd rb => formI 0x5B rd rb 0
  | .bm rd rb => formI 0x5C rd rb 0
  | .synd rd rb => formI 0x5D rd rb 0
  | .pkgen rd rb => formI 0x60 rd rb 0
  | .gene rd rb => formI 0x68 rd rb 0
  | .encode rd rb => formI 0x69 rd rb 0
  | .decrypt rd rb => formI 0x6A rd rb 0
  | .shake256 rd rb => formI 0x70 rd rb 0

/-- Byte j of a word in memory order (20_memory.md R61, R62). -/
def wordByte (w : Word) (j : Nat) : Byte := w.extractLsb' (8 * j) 8

/-- The four bytes of a word, lowest address first. -/
def bytesOfWord (w : Word) : List Byte := [wordByte w 0, wordByte w 1, wordByte w 2, wordByte w 3]

/-- What the decoder reads from a table row's word: the low nbits bits of w, every bit above them zero, laid out in
memory as the hardware stores it (30_encoding.md R90). -/
def decodeTableWord (nbits w : Nat) : Option Instr :=
  match decode (bytesOfWord (BitVec.ofNat 32 (w % 2 ^ nbits))) with
  | .ok (i, _) => some i
  | .error _ => none

end Sys2Proof
end

