-- ==== Sys2Proof/Config.lean ====
section
/-!
DEFINITION. What is fixed when an instance of CM-CORE is built (spec/00_scope.md R7, R11), and the one free value the
spec leaves open (spec/93_implementation_defined.md U2).
-/

namespace Sys2Proof

/-- The ten parameter sets, VARIANT 0 to 9 in the order of the table of 00_scope.md R7. -/
inductive Variant where
  | mceliece348864
  | mceliece348864f
  | mceliece460896
  | mceliece460896f
  | mceliece6688128
  | mceliece6688128f
  | mceliece6960119
  | mceliece6960119f
  | mceliece8192128
  | mceliece8192128f
  deriving DecidableEq, Repr

/-- The two fields, GF(2^12) and GF(2^13) (00_scope.md R9). -/
inductive Field where
  | m12
  | m13
  deriving DecidableEq, Repr

/-- The build parameters of one instance: VARIANT (00_scope.md R7), and LMEM_BYTES, a power of two from 2^16 to 2^24
(00_scope.md R11), held as the exponent less 16 so that no other size can be written. -/
structure Build where
  variant : Variant
  lmemLog : Fin 9
  deriving DecidableEq, Repr

/-- The build of `State.reset`: VARIANT 0, and LMEM_BYTES at its default 2^21 (00_scope.md R11). DESIGN CHOICE, unsafe
only for a claim about `State.reset` itself: log 6. -/
def Build.standard : Build := { variant := .mceliece348864, lmemLog := 5 }

/-- What the HOST reads from the PC register while SEQ runs: any 32-bit value, a fresh one at each read
(93_implementation_defined.md U2). It has no body, so nothing can be proved of its values: log 5. -/
opaque Config.freePcRead : Nat → Word

end Sys2Proof
end

