-- ==== Sys2Proof/Machine/State.lean ====
section
/-!
DEFINITION. The state of one CM-CORE instance (spec/10_state.md R20), the reasons a step can stop, and the state after
reset (spec/70_reset_and_hazards.md R301).
-/

namespace Sys2Proof.Machine

/-- The cause of a fault, the content of STATUS.CAUSE (60_exceptions.md R271; no other code is ever written). -/
inductive Cause where
  | none
  | illegal
  | fetchAccess
  | fetchMisaligned
  | loadMisaligned
  | loadAccess
  | storeMisaligned
  | storeAccess
  | engineAccess
  | badPerm
  deriving DecidableEq, Repr

/-- One thing that happens next: a move of SEQ, or what the world outside SEQ does between two moves of SEQ
(70_reset_and_hazards.md R308). The offset is one of the 32 MiB of the host port (10_state.md R31); the width is in
bytes. -/
inductive HostEvent where
  /-- the HOST does nothing and SEQ moves -/
  | idle
  /-- SEQ begins an instruction: what follows, up to SEQ's next move, happens while it executes (60_exceptions.md R278):
  log 16 -/
  | begins
  /-- a read of the host port -/
  | read (off : BitVec 25) (width : Nat)
  /-- a write of the host port -/
  | write (off : BitVec 25) (width : Nat) (data : Word)
  /-- the platform's reset event (70_reset_and_hazards.md R300) -/
  | reset
  deriving DecidableEq, Repr

/-- The state of one instance: the elements of 10_state.md R20, its build, the instruction in progress (`begun`), and three
fields of the model's own (`host`, `hostData`, `draws`). The constants ID and VERSION, the VARIANT and LMEMSZ registers, the words CTRL and
STATUS and the output IRQ are computed from these fields (`Machine/Ops.lean`). -/
structure State where
  /-- the build parameters; configuration, changed by no step (10_state.md R20): log 6 -/
  build : Build
  /-- r1 to r15: `regs[j]` is r(j+1) (10_state.md R21, R22) -/
  regs : Vector Word 15
  /-- the program counter of SEQ (10_state.md R25) -/
  pc : Word
  /-- local memory: the bytes written since reset, addresses strictly rising (10_state.md R29; log 3) -/
  mem : List Host.Cell
  /-- CTRL.IE_DONE (10_state.md R36) -/
  ieDone : Bool
  /-- CTRL.IE_FAULT -/
  ieFault : Bool
  /-- CTRL.IE_STOP -/
  ieStop : Bool
  /-- STATUS.RUN (10_state.md R37) -/
  run : Bool
  /-- STATUS.DONE -/
  isDone : Bool
  /-- STATUS.FAULT -/
  isFault : Bool
  /-- STATUS.STOPPED -/
  isStopped : Bool
  /-- STATUS.HERR -/
  herr : Bool
  /-- STATUS.CAUSE -/
  cause : Cause
  /-- bits [31:2] of ENTRY_PC; bits [1:0] are hardwired 0 (10_state.md R38) -/
  entry : BitVec 30
  /-- the HOST-visible PC register (10_state.md R39) -/
  pcReg : Word
  /-- FAULT_INFO (10_state.md R40) -/
  faultInfo : Word
  /-- FAULT_INSN (10_state.md R41) -/
  faultInsn : Word
  /-- STOPREQ, the pending stop request (10_state.md R46) -/
  stopReq : Bool
  /-- SEQ has begun the instruction at pc and not completed it, so STOPREQ is not tested before it completes
  (60_exceptions.md R278; 70_reset_and_hazards.md R300): log 16 -/
  begun : Bool
  /-- the model's own: what the world outside will do, first event next: log 4 -/
  host : List HostEvent
  /-- the model's own: what the HOST's latest read returned: log 5 -/
  hostData : Word
  /-- the model's own: how many free values have been drawn (93_implementation_defined.md U2): log 5 -/
  draws : Nat
  deriving DecidableEq, Repr

/-- Why the model stops where the spec asks for a model fault. The causes of 60_exceptions.md R271 are not here: they
are next states (R272). -/
inductive Fault where
  /-- A byte of LMEM that nothing has written since reset was read, by a fetch, a load, an engine or the HOST. Raised by
  `withRead` and nothing else. Safe: a chip returns some byte there, and the model stops
  (93_implementation_defined.md U3): log 3. -/
  | unwritten (addr : Nat)
  deriving DecidableEq, Repr

/-- Why the model gives an instruction no meaning. -/
inductive Refusal where
  /-- Raised only by an arm of `exec` whose instruction has no meaning yet; no arm does so. Safe. -/
  | notModelled (mnemonic : String)
  deriving DecidableEq, Repr

/-- The state after reset of an instance of the given build (70_reset_and_hazards.md R301). r1 to r15 and pc have no
reset value in the spec and are 0 here: DESIGN CHOICE, unsafe, log 1 and log 2. -/
def State.resetOf (b : Build) : State where
  build := b
  regs := Vector.replicate 15 0#32
  pc := 0#32
  mem := []
  ieDone := false
  ieFault := false
  ieStop := false
  run := false
  isDone := false
  isFault := false
  isStopped := false
  herr := false
  cause := .none
  entry := 0#30
  pcReg := 0#32
  faultInfo := 0#32
  faultInsn := 0#32
  stopReq := false
  begun := false
  host := []
  hostData := 0#32
  draws := 0

/-- The machine right after reset: the standard build, SEQ stopped, nothing written (70_reset_and_hazards.md R301, R302;
log 6). -/
def State.reset : State := State.resetOf Build.standard

end Sys2Proof.Machine
end

