-- ==== Sys2Proof/Machine/Memory.lean ====
section
/-!
DEFINITION. Local memory as a sorted list of cells, and its three operations: the read of one byte, the read of a run of
bytes and the write of a run of bytes (spec/20_memory.md R60, R61). Every wider access is built from these, so the byte
order is decided once, in `leNat` and `leBytes`.
-/

namespace Sys2Proof.Machine

/-- Local memory: (address, byte) pairs. -/
abbrev Memory := List Host.Cell

/-- The canonical form: addresses strictly rising. No listed byte equals what an unlisted address reads as, since that
is no byte at all (`Memory.unlisted`). -/
abbrev Memory.wf (m : Memory) : Prop := m.Pairwise fun c d => c.1 < d.1

/-- What an address that is not listed reads as: nothing, since its content is unspecified until it is written and its
read is a model fault (10_state.md R29; 93_implementation_defined.md U3; log 3). -/
def Memory.unlisted : Option Byte := none

/-- The byte at an address, if one has been written there. -/
def Memory.byte (m : Memory) (a : Nat) : Option Byte :=
  match m.lookup a with
  | some b => some b
  | none => Memory.unlisted

/-- The `len` bytes from address `a` up, lowest first; or the first address among them that has no byte. -/
def Memory.read (m : Memory) (a : Nat) : Nat → Except Nat (List Byte)
  | 0 => .ok []
  | len + 1 =>
    match m.byte a with
    | none => .error a
    | some b =>
      match Memory.read m (a + 1) len with
      | .error e => .error e
      | .ok bs => .ok (b :: bs)

/-- The cells of a run of bytes from address `a` up. -/
def Memory.cells (a : Nat) : List Byte → Memory
  | [] => []
  | b :: bs => (a, b) :: Memory.cells (a + 1) bs

/-- Memory after the bytes `bs` are written from address `a` up: all other bytes as before (20_memory.md R61, R70). -/
def Memory.write (m : Memory) (a : Nat) (bs : List Byte) : Memory :=
  m.filter (fun c => c.1 < a) ++ (Memory.cells a bs ++ m.filter (fun c => a + bs.length ≤ c.1))

/-- The little-endian value of a run of bytes, lowest address first: the sum of LMEM[a + j] * 2^(8j) (20_memory.md R61). -/
def leNat : List Byte → Nat
  | [] => 0
  | b :: bs => b.toNat + 256 * leNat bs

/-- The k bytes that `MemWrite(a, k, v)` stores, lowest address first (20_memory.md R61). -/
def leBytes : Nat → Nat → List Byte
  | 0, _ => []
  | k + 1, v => BitVec.ofNat 8 v :: leBytes k (v / 256)

end Sys2Proof.Machine
end

