-- ==== Sys2Proof/Machine/Params.lean ====
section
/-!
DEFINITION. The parameters of each variant and the sizes computed from them (spec/00_scope.md R7, R8, R9, R10, R11), and
the table that PARAM reads (spec/48_base.md R250).
-/

namespace Sys2Proof

/-- The VARIANT number (00_scope.md R7). -/
def Variant.number : Variant → Nat
  | .mceliece348864 => 0
  | .mceliece348864f => 1
  | .mceliece460896 => 2
  | .mceliece460896f => 3
  | .mceliece6688128 => 4
  | .mceliece6688128f => 5
  | .mceliece6960119 => 6
  | .mceliece6960119f => 7
  | .mceliece8192128 => 8
  | .mceliece8192128f => 9

/-- The field of the variant: GFBITS = 12 for VARIANT 0 and 1, 13 for the others (00_scope.md R7). -/
def Variant.field : Variant → Field
  | .mceliece348864 | .mceliece348864f => .m12
  | .mceliece460896 | .mceliece460896f | .mceliece6688128 | .mceliece6688128f
  | .mceliece6960119 | .mceliece6960119f | .mceliece8192128 | .mceliece8192128f => .m13

/-- SYS_N = n (00_scope.md R7). -/
def Variant.n : Variant → Nat
  | .mceliece348864 | .mceliece348864f => 3488
  | .mceliece460896 | .mceliece460896f => 4608
  | .mceliece6688128 | .mceliece6688128f => 6688
  | .mceliece6960119 | .mceliece6960119f => 6960
  | .mceliece8192128 | .mceliece8192128f => 8192

/-- SYS_T = t (00_scope.md R7). -/
def Variant.t : Variant → Nat
  | .mceliece348864 | .mceliece348864f => 64
  | .mceliece460896 | .mceliece460896f => 96
  | .mceliece6688128 | .mceliece6688128f => 128
  | .mceliece6960119 | .mceliece6960119f => 119
  | .mceliece8192128 | .mceliece8192128f => 128

/-- FAST, the "f" flavour (00_scope.md R7). -/
def Variant.fast : Variant → Bool
  | .mceliece348864 | .mceliece460896 | .mceliece6688128 | .mceliece6960119 | .mceliece8192128 => false
  | .mceliece348864f | .mceliece460896f | .mceliece6688128f | .mceliece6960119f | .mceliece8192128f => true

/-- m = GFBITS of a field (00_scope.md R9). -/
def Field.m : Field → Nat
  | .m12 => 12
  | .m13 => 13

/-- m = GFBITS (00_scope.md R7). -/
def Variant.m (v : Variant) : Nat := v.field.m

/-- NFULL = N = 2^m (00_scope.md R8). -/
def Variant.nfull (v : Variant) : Nat := 2 ^ v.m

/-- IRR_BYTES = 2t (00_scope.md R8). -/
def Variant.irrBytes (v : Variant) : Nat := 2 * v.t

/-- COND_BYTES = (2m - 1) * 2^(m - 4) (00_scope.md R8). -/
def Variant.condBytes (v : Variant) : Nat := (2 * v.m - 1) * 2 ^ (v.m - 4)

/-- PK_NROWS = m * t (00_scope.md R8). -/
def Variant.pkNrows (v : Variant) : Nat := v.m * v.t

/-- PK_NCOLS = n - m * t (00_scope.md R8). -/
def Variant.pkNcols (v : Variant) : Nat := v.n - v.m * v.t

/-- PK_ROW_BYTES = ceil(PK_NCOLS / 8) (00_scope.md R8). -/
def Variant.pkRowBytes (v : Variant) : Nat := (v.pkNcols + 7) / 8

/-- PK_BYTES = PK_NROWS * PK_ROW_BYTES (00_scope.md R8). -/
def Variant.pkBytes (v : Variant) : Nat := v.pkNrows * v.pkRowBytes

/-- SYND_BYTES = ceil(m * t / 8) (00_scope.md R8). -/
def Variant.syndBytes (v : Variant) : Nat := (v.m * v.t + 7) / 8

/-- E_BYTES = n / 8 (00_scope.md R8). -/
def Variant.eBytes (v : Variant) : Nat := v.n / 8

/-- SK_BYTES = 32 + 8 + IRR_BYTES + COND_BYTES + n / 8 (00_scope.md R8). -/
def Variant.skBytes (v : Variant) : Nat := 32 + 8 + v.irrBytes + v.condBytes + v.n / 8

/-- CT_BYTES = SYND_BYTES + 32 (00_scope.md R8). -/
def Variant.ctBytes (v : Variant) : Nat := v.syndBytes + 32

/-- GE_RAND_BYTES = 4t if n < 2^m, else 2t (00_scope.md R8). -/
def Variant.geRandBytes (v : Variant) : Nat := if v.n < v.nfull then 4 * v.t else 2 * v.t

/-- The terms (k, c) of F(y) - y^t, the variant's modulus less its leading term (00_scope.md R10; 44_poly.md R170). -/
def Variant.ringTerms : Variant → List (Nat × Gf)
  | .mceliece348864 | .mceliece348864f => [(3, 1), (1, 1), (0, 2)]
  | .mceliece460896 | .mceliece460896f => [(10, 1), (9, 1), (6, 1), (0, 1)]
  | .mceliece6960119 | .mceliece6960119f => [(8, 1), (0, 1)]
  | .mceliece6688128 | .mceliece6688128f | .mceliece8192128 | .mceliece8192128f => [(7, 1), (2, 1), (1, 1), (0, 1)]

/-- LMEM_BYTES, a power of two from 2^16 to 2^24 (00_scope.md R11). -/
def Build.lmemBytes (b : Build) : Nat := 2 ^ (16 + b.lmemLog.val)

/-- The VERSION register (10_state.md R33). -/
def versionValue : Word := 0x00010000

/-- The ID register, the bytes "CMC1" (10_state.md R33). -/
def idValue : Word := 0x31434D43

/-- The VARIANT register: bits [3:0] the number, bit 4 FAST (10_state.md R34). -/
def Build.variantReg (b : Build) : Word := BitVec.ofNat 32 (b.variant.number + 16 * b.variant.fast.toNat)

/-- PARAMTAB (48_base.md R250). -/
def Build.paramTab (b : Build) (idx : BitVec 4) : Word :=
  match idx.toNat with
  | 0 => BitVec.ofNat 32 b.variant.number
  | 1 => BitVec.ofNat 32 b.variant.m
  | 2 => BitVec.ofNat 32 b.variant.n
  | 3 => BitVec.ofNat 32 b.variant.t
  | 4 => BitVec.ofNat 32 b.variant.fast.toNat
  | 5 => BitVec.ofNat 32 b.variant.irrBytes
  | 6 => BitVec.ofNat 32 b.variant.condBytes
  | 7 => BitVec.ofNat 32 b.variant.pkNrows
  | 8 => BitVec.ofNat 32 b.variant.pkRowBytes
  | 9 => BitVec.ofNat 32 b.variant.syndBytes
  | 10 => BitVec.ofNat 32 b.variant.skBytes
  | 11 => BitVec.ofNat 32 b.variant.pkBytes
  | 12 => BitVec.ofNat 32 b.variant.ctBytes
  | 13 => BitVec.ofNat 32 b.variant.geRandBytes
  | 14 => BitVec.ofNat 32 b.lmemBytes
  | _ => versionValue

end Sys2Proof
end

