-- ==== Sys2Proof/Machine/Ops.lean ====
section
/-!
DEFINITION. The named operations over registers, memory and the run state: every instruction's meaning is written in
these. Fault entry (spec/60_exceptions.md R272), HALT (R277) and an honoured STOP (R278) are one operation each.
-/

namespace Sys2Proof.Machine

-- Registers.

/-- `x[i]`: r0 reads 0 (00_scope.md R13, 10_state.md R22, 30_encoding.md R100). -/
def State.reg (s : State) (i : Reg) : Word :=
  if h : i = 0#4 then 0#32
  else s.regs[i.toNat - 1]'(by have := i.isLt; have : i.toNat ≠ 0 := fun e => h (BitVec.eq_of_toNat_eq e); omega)

/-- `x[i] <- v`: a write of r0 has no effect (00_scope.md R13, 10_state.md R22, 30_encoding.md R100). -/
def State.setReg (s : State) (i : Reg) (v : Word) : State :=
  if h : i = 0#4 then s
  else { s with
    regs := s.regs.set (i.toNat - 1) v
      (by have := i.isLt; have : i.toNat ≠ 0 := fun e => h (BitVec.eq_of_toNat_eq e); omega) }

/-- `pc <- target` (00_scope.md R13). -/
def State.setPc (s : State) (target : Word) : State := { s with pc := target }

/-- `pc <- pc + 4`, modulo 2^32 (10_state.md R26). -/
def State.advance (s : State) : State := s.setPc (s.pc + 4)

-- Local memory.

/-- The size of local memory of this instance (00_scope.md R11). -/
def State.lmemBytes (s : State) : Nat := s.build.lmemBytes

/-- The byte at an address, if one has been written there. -/
def State.byte (s : State) (a : Nat) : Option Byte := Memory.byte s.mem a

/-- The state after the bytes `bs` are written from address `a` up. -/
def State.writeMem (s : State) (a : Nat) (bs : List Byte) : State := { s with mem := Memory.write s.mem a bs }

/-- Go on with the `len` bytes from address `a` up; a byte that nothing has written is a model fault
(93_implementation_defined.md U3; log 3). -/
def withRead (s : State) (a len : Nat)
    (k : List Byte → Host.Outcome State Fault Refusal) : Host.Outcome State Fault Refusal :=
  match Memory.read s.mem a len with
  | .ok bs => k bs
  | .error addr => .fault (.unwritten addr)

-- The ends of a run (70_reset_and_hazards.md R304).

/-- Fault entry, taken by the instruction at pc: cause c, information `info`, instruction word `insn` (60_exceptions.md
R272). Nothing else changes. -/
def State.raise (s : State) (c : Cause) (info insn : Word) : State :=
  { s with
    run := false
    isFault := true
    cause := c
    pcReg := s.pc
    faultInfo := info
    faultInsn := insn
    stopReq := false }

/-- HALT ends the run: pc does not advance and a pending STOP is dropped (48_base.md R267, 60_exceptions.md R277). -/
def State.halt (s : State) : State :=
  { s with run := false, isDone := true, pcReg := s.pc, stopReq := false }

/-- A pending STOP is honoured at an instruction boundary; PC is the next instruction, not executed (60_exceptions.md R278). -/
def State.honourStop (s : State) : State :=
  { s with run := false, isStopped := true, pcReg := s.pc, stopReq := false }

/-- At an instruction boundary a STOP is pending, and ends the run there; while an instruction executes it waits for the
next boundary (60_exceptions.md R274, R278). -/
def State.stopTaken (s : State) : Bool := s.stopReq && !s.begun

/-- SEQ begins the instruction at pc, unless it is stopped or the boundary's test of STOPREQ stops it (60_exceptions.md
R278; log 16). -/
def State.beginInstr (s : State) : State :=
  if s.run = false then s
  else if s.stopTaken then s.honourStop
  else { s with begun := true }

/-- The state in which the instruction at pc takes effect: it is no longer in progress after it (60_exceptions.md R278;
log 16). -/
def State.finish (s : State) : State := { s with begun := false }

/-- START, when it acts: a run begins, at an instruction boundary, at ENTRY_PC with the status of the last run cleared (10_state.md R36). -/
def State.start (s : State) : State :=
  { s with
    pc := s.entry ++ 0#2
    run := true
    isDone := false
    isFault := false
    isStopped := false
    cause := .none
    faultInfo := 0
    faultInsn := 0
    stopReq := false
    begun := false }

-- The outcomes of instructions.

/-- The instruction writes v to rd and goes on to the next one. -/
def writeBack (s : State) (rd : Reg) (v : Word) : Host.Outcome State Fault Refusal :=
  .next (s.setReg rd v).advance

/-- The instruction, whose word is w, faults with cause c and information `info`: `raise c(info)` of the spec's
pseudocode (00_scope.md R13, 60_exceptions.md R272). -/
def raiseFault (s : State) (c : Cause) (info w : Word) : Host.Outcome State Fault Refusal :=
  .next (s.raise c info w)

-- The words the HOST sees.

/-- The code of a cause in STATUS.CAUSE (60_exceptions.md R271). -/
def Cause.code : Cause → Nat
  | .none => 0
  | .illegal => 1
  | .fetchAccess => 2
  | .fetchMisaligned => 3
  | .loadMisaligned => 4
  | .loadAccess => 5
  | .storeMisaligned => 6
  | .storeAccess => 7
  | .engineAccess => 8
  | .badPerm => 9

/-- The IRQ output (10_state.md R44, 60_exceptions.md R279). -/
def State.irq (s : State) : Bool := (s.isDone && s.ieDone) || (s.isFault && s.ieFault) || (s.isStopped && s.ieStop)

/-- CTRL as it reads: START, STOP and the reserved bits read 0 (10_state.md R36). -/
def State.ctrlWord (s : State) : Word :=
  BitVec.ofNat 32 (2 ^ 8 * s.ieDone.toNat + 2 ^ 9 * s.ieFault.toNat + 2 ^ 10 * s.ieStop.toNat)

/-- STATUS as it reads (10_state.md R37). -/
def State.statusWord (s : State) : Word :=
  BitVec.ofNat 32 (s.run.toNat + 2 * s.isDone.toNat + 4 * s.isFault.toNat + 8 * s.isStopped.toNat + 16 * s.herr.toNat
    + 2 ^ 8 * s.cause.code + 2 ^ 16 * s.irq.toNat)

/-- ENTRY_PC as it reads, bits [1:0] hardwired 0 (10_state.md R38). -/
def State.entryPc (s : State) : Word := s.entry ++ 0#2

end Sys2Proof.Machine
end

