-- ==== Sys2Proof/Machine/HostPort.lean ====
section
/-!
DEFINITION. The host port: what a HOST access of any offset, width and direction does (spec/10_state.md R31 to R44,
spec/20_memory.md R79, spec/70_reset_and_hazards.md R308), and the reset event (spec/70_reset_and_hazards.md R300).
-/

namespace Sys2Proof.Machine

/-- Where an offset of the host port leads (10_state.md R31, R33 to R42; 20_memory.md R79). -/
inductive PortTarget where
  | id
  | version
  | variant
  | lmemsz
  | ctrl
  | status
  | entryPc
  | pc
  | faultInfo
  | faultInsn
  | gpr (i : Reg)
  | lmem (addr : Nat)
  | reserved
  deriving DecidableEq, Repr

/-- The target of an offset. The GPR window is 0x100 + 4 i, i = 0..15; the LMEM window is 0x1000000 + a, a < LMEMSZ;
every offset that no rule lists is reserved (10_state.md R32). -/
def portTarget (b : Build) (off : BitVec 25) : PortTarget :=
  let o := off.toNat
  if 0x1000000 ≤ o then
    if o - 0x1000000 < b.lmemBytes then .lmem (o - 0x1000000) else .reserved
  else if 0x100 ≤ o ∧ o < 0x140 then .gpr (BitVec.ofNat 4 ((o - 0x100) / 4))
  else match o / 4 with
    | 0 => .id
    | 1 => .version
    | 2 => .variant
    | 3 => .lmemsz
    | 4 => .ctrl
    | 5 => .status
    | 6 => .entryPc
    | 7 => .pc
    | 8 => .faultInfo
    | 9 => .faultInsn
    | _ => .reserved

/-- The access has a width and an alignment its target takes: 1, 2 or 4 bytes aligned to their size in the LMEM window,
4 bytes aligned elsewhere (20_memory.md R79). -/
def portWidthOk (off : BitVec 25) (width : Nat) : PortTarget → Bool
  | .lmem _ => (width = 1 || width = 2 || width = 4) && off.toNat % width = 0
  | _ => width = 4 && off.toNat % 4 = 0

/-- A HOST access that is refused sets HERR and changes nothing else (60_exceptions.md R281). -/
def State.refuse (s : State) : State := { s with herr := true }

/-- The HOST's latest read returned d: log 5. -/
def State.give (s : State) (d : Word) : State := { s with hostData := d }

/-- A read of the host port. Refused: a wrong width or alignment, a reserved offset, and the GPR and LMEM windows while
RUN = 1; it then returns 0 (10_state.md R32, R42; 20_memory.md R79). The PC register while RUN = 1 reads a fresh free
value, without HERR (10_state.md R39; 93_implementation_defined.md U2). Other reads have no side effect (20_memory.md
R70). An LMEM byte that nothing has written is a model fault (93_implementation_defined.md U3). -/
def hostRead (s : State) (off : BitVec 25) (width : Nat) : Host.Outcome State Fault Refusal :=
  let target := portTarget s.build off
  if portWidthOk off width target then
    match target with
    | .id => .next (s.give idValue)
    | .version => .next (s.give versionValue)
    | .variant => .next (s.give s.build.variantReg)
    | .lmemsz => .next (s.give (BitVec.ofNat 32 s.lmemBytes))
    | .ctrl => .next (s.give s.ctrlWord)
    | .status => .next (s.give s.statusWord)
    | .entryPc => .next (s.give s.entryPc)
    | .pc =>
      if s.run then .next { s.give (Config.freePcRead s.draws) with draws := s.draws + 1 }
      else .next (s.give s.pcReg)
    | .faultInfo => .next (s.give s.faultInfo)
    | .faultInsn => .next (s.give s.faultInsn)
    | .gpr i => if s.run then .next (s.give 0).refuse else .next (s.give (s.reg i))
    | .lmem a =>
      if s.run then .next (s.give 0).refuse
      else withRead s a width fun bs => .next (s.give (BitVec.ofNat 32 (leNat bs)))
    | .reserved => .next (s.give 0).refuse
  else .next (s.give 0).refuse

/-- A write of CTRL: the IE bits always; START if RUN = 0; otherwise STOP (10_state.md R36). -/
def State.writeCtrl (s : State) (d : Word) : State :=
  let s' := { s with ieDone := d.getLsbD 8, ieFault := d.getLsbD 9, ieStop := d.getLsbD 10 }
  if s.run then { s' with stopReq := s.stopReq || d.getLsbD 1 }
  else if d.getLsbD 0 then s'.start
  else s'

/-- A write of STATUS: writing 1 clears HERR, and DONE, FAULT and STOPPED while RUN = 0 (10_state.md R37). -/
def State.writeStatus (s : State) (d : Word) : State :=
  if s.run then { s with herr := s.herr && !d.getLsbD 4 }
  else { s with
    isDone := s.isDone && !d.getLsbD 1
    isFault := s.isFault && !d.getLsbD 2
    isStopped := s.isStopped && !d.getLsbD 3
    herr := s.herr && !d.getLsbD 4 }

/-- A write of the host port. Refused as a read is, and ENTRY_PC also while RUN = 1 (10_state.md R38). Writes of the
read-only registers are ignored without HERR (10_state.md R33 to R35; for PC, FAULT_INFO and FAULT_INSN DEDUCED: log 9).
A write of r0's offset is ignored without HERR (10_state.md R42). -/
def hostWrite (s : State) (off : BitVec 25) (width : Nat) (d : Word) : State :=
  let target := portTarget s.build off
  if portWidthOk off width target then
    match target with
    | .id | .version | .variant | .lmemsz | .pc | .faultInfo | .faultInsn => s
    | .ctrl => s.writeCtrl d
    | .status => s.writeStatus d
    | .entryPc => if s.run then s.refuse else { s with entry := d.extractLsb' 2 30 }
    | .gpr i => if s.run then s.refuse else s.setReg i d
    | .lmem a => if s.run then s.refuse else s.writeMem a (leBytes width d.toNat)
    | .reserved => s.refuse
  else s.refuse

/-- The reset event (70_reset_and_hazards.md R300, R301): every element of the architectural state gets its reset value.
The model's own fields `host` and `draws`, and the build, are not part of what is reset: log 11. -/
def State.resetEvent (s : State) : State :=
  { State.resetOf s.build with host := s.host, draws := s.draws }

/-- The HOST's coming events are now `rest`: log 4. -/
def State.withHost (s : State) (rest : List HostEvent) : State := { s with host := rest }

/-- One event of the world outside, or none and a move of SEQ, which `seq` gives (log 4). -/
def hostStep (seq : State → Host.Outcome State Fault Refusal) (s : State) : Host.Outcome State Fault Refusal :=
  match s.host with
  | [] => seq s
  | .idle :: rest => seq (s.withHost rest)
  | .begins :: rest => .next (s.withHost rest).beginInstr
  | .read off width :: rest => hostRead (s.withHost rest) off width
  | .write off width d :: rest => .next (hostWrite (s.withHost rest) off width d)
  | .reset :: rest => .next (s.withHost rest).resetEvent

end Sys2Proof.Machine
end

