-- ==== Sys2Proof/Machine/Flags.lean ====
section
/-!
DEFINITION. CM-CORE has no flags (spec/10_state.md R27): conditions are values in general registers. This file holds the
conditions the instructions compute: the comparisons of SLT and SLTU, the six branch conditions, and the status an
engine writes to rd.
-/

namespace Sys2Proof.Machine

/-- A condition as a register value, 1 or 0 (10_state.md R27). -/
def boolWord (b : Bool) : Word := if b then 1 else 0

/-- `s(a) < s(b)`, the signed comparison (48_base.md R230, R239). -/
def lessSigned (a b : Word) : Bool := a.toInt < b.toInt

/-- `u(a) < u(b)`, the unsigned comparison (48_base.md R230, R240). -/
def lessUnsigned (a b : Word) : Bool := a.toNat < b.toNat

/-- The status a fallible engine writes to rd: 0 for success, 1 for failure (10_state.md R27, 30_encoding.md R98). -/
def statusOf (ok : Bool) : Word := if ok then 0 else 1

end Sys2Proof.Machine
end

