-- ==== Sys2Proof/Machine/Operands.lean ====
section
/-!
DEFINITION. Every operand form: immediates and addresses (spec/30_encoding.md R99), scalar accesses with their checks
(spec/20_memory.md R64), the operand group and the buffers of an engine (spec/30_encoding.md R98, spec/20_memory.md R66,
R67), and the arrays and bit strings held in buffers (spec/20_memory.md R61, R68; spec/00_scope.md R15).
-/

namespace Sys2Proof.Machine

-- Immediates and addresses.

/-- `sext_32(imm16)` (30_encoding.md R99). -/
def sext16 (imm : BitVec 16) : Word := imm.signExtend 32

/-- `zext_32(imm16)` (30_encoding.md R99). -/
def zext16 (imm : BitVec 16) : Word := imm.zeroExtend 32

/-- `ea = x[rs1] + sext_32(imm16)`, modulo 2^32 (48_base.md R251, R266). -/
def effectiveAddr (s : State) (rs1 : Reg) (imm : BitVec 16) : Word := s.reg rs1 + sext16 imm

/-- The target of a branch, `pc + sext_32(off16) * 4` (30_encoding.md R99, 48_base.md R258). -/
def branchTarget (pc : Word) (off : BitVec 16) : Word := pc + sext16 off * 4

/-- The target of JAL, `pc + sext_32(off20) * 4` (30_encoding.md R99, 48_base.md R265). -/
def jumpTarget (pc : Word) (off : BitVec 20) : Word := pc + off.signExtend 32 * 4

-- Scalar accesses.

/-- A load of k bytes by the instruction whose word is w: alignment, then range, then the read, zero-extended
(20_memory.md R64, 48_base.md R251). -/
def loadOp (k : Nat) (w : Word) (rd rs1 : Reg) (imm : BitVec 16) (s : State) : Host.Outcome State Fault Refusal :=
  let ea := effectiveAddr s rs1 imm
  if ea.toNat % k ≠ 0 then raiseFault s .loadMisaligned ea w
  else if s.lmemBytes < ea.toNat + k then raiseFault s .loadAccess ea w
  else withRead s ea.toNat k fun bs => writeBack s rd (BitVec.ofNat 32 (leNat bs))

/-- A store of the low k bytes of x[rs2] by the instruction whose word is w: alignment, then range, then the write
(20_memory.md R64, 48_base.md R251). -/
def storeOp (k : Nat) (w : Word) (rs2 rs1 : Reg) (imm : BitVec 16) (s : State) : Host.Outcome State Fault Refusal :=
  let ea := effectiveAddr s rs1 imm
  if ea.toNat % k ≠ 0 then raiseFault s .storeMisaligned ea w
  else if s.lmemBytes < ea.toNat + k then raiseFault s .storeAccess ea w
  else .next (s.writeMem ea.toNat (leBytes k (s.reg rs2).toNat)).advance

/-- A conditional branch (48_base.md R258). -/
def branchOp (taken : Bool) (off : BitVec 16) (s : State) : Host.Outcome State Fault Refusal :=
  .next (if taken then s.setPc (branchTarget s.pc off) else s.advance)

-- Engine operands.

/-- o_j = x[rb + j] (30_encoding.md R98). -/
def State.operand (s : State) (rb : Reg) (j : Nat) : Word := s.reg (rb + BitVec.ofNat 4 j)

/-- A buffer operand: its start address and its length in bytes (20_memory.md R66). -/
abbrev Buffer := Word × Nat

/-- CheckBuf: a buffer of length 0 always passes, another must end within local memory (20_memory.md R66). -/
def State.bufOk (s : State) (b : Buffer) : Bool := b.2 = 0 || b.1.toNat + b.2 ≤ s.lmemBytes

/-- The first buffer of a list that fails CheckBuf (20_memory.md R66). -/
def State.badBuf (s : State) (bufs : List Buffer) : Option Buffer := bufs.find? fun b => !s.bufOk b

/-- The checks that begin engine instruction i, before it reads or writes anything: the operand group ends at r15
(30_encoding.md R102 condition 4, which decoding has already checked: log 10), then every buffer in the order listed
(20_memory.md R66, 60_exceptions.md R273, R274). -/
def engineChecks (i : Instr) (s : State) (bufs : List Buffer)
    (k : Host.Outcome State Fault Refusal) : Host.Outcome State Fault Refusal :=
  if WellFormed i then
    match s.badBuf bufs with
    | some b => raiseFault s .engineAccess b.1 (encode i)
    | none => k
  else raiseFault s .illegal (encode i) (encode i)

/-- Go on with the content of an input buffer. -/
def withBuf (s : State) (b : Buffer)
    (k : List Byte → Host.Outcome State Fault Refusal) : Host.Outcome State Fault Refusal :=
  withRead s b.1.toNat b.2 k

/-- The outputs of an engine written in the order its rule lists them, so that the later wins where they overlap
(20_memory.md R67). -/
def State.writeBufs (s : State) : List (Word × List Byte) → State
  | [] => s
  | (a, bs) :: rest => (s.writeMem a.toNat bs).writeBufs rest

/-- The end of an engine instruction: its outputs are written, rd gets v, and SEQ goes on (30_encoding.md R98). -/
def engineDone (s : State) (rd : Reg) (v : Word) (outs : List (Word × List Byte)) : Host.Outcome State Fault Refusal :=
  .next ((s.writeBufs outs).setReg rd v).advance

-- Arrays in buffers.

/-- The u16 elements of a buffer, `MemRead(a + 2i, 2)` (20_memory.md R61). -/
def elems16 : List Byte → List (BitVec 16)
  | b0 :: b1 :: rest => (b1 ++ b0) :: elems16 rest
  | _ => []

/-- The u32 elements of a buffer, `MemRead(a + 4i, 4)` (20_memory.md R61). -/
def elems32 : List Byte → List Word
  | b0 :: b1 :: b2 :: b3 :: rest => (b3 ++ b2 ++ b1 ++ b0) :: elems32 rest
  | _ => []

/-- The u64 elements of a buffer, `MemRead(a + 8i, 8)` (20_memory.md R61). -/
def elems64 : List Byte → List Lane
  | b0 :: b1 :: b2 :: b3 :: b4 :: b5 :: b6 :: b7 :: rest =>
    (b7 ++ b6 ++ b5 ++ b4 ++ b3 ++ b2 ++ b1 ++ b0) :: elems64 rest
  | _ => []

/-- The bytes of a list of elements of k bytes each, as `MemWrite` stores them (20_memory.md R61). -/
def bytesOf {w : Nat} (k : Nat) (xs : List (BitVec w)) : List Byte := xs.flatMap fun x => leBytes k x.toNat

-- Bit strings (00_scope.md R15).

/-- Bit i of the bit string held in the given bytes: bit (i mod 8) of byte floor(i / 8) (00_scope.md R13, R15). -/
def bitAt (bs : Array Byte) (i : Nat) : Bool := (bs.getD (i / 8) 0).getLsbD (i % 8)

/-- The number whose bit i is element i of the list. -/
def natOfBits : List Bool → Nat
  | [] => 0
  | b :: bs => b.toNat + 2 * natOfBits bs

/-- The bytes of the bit string of length `len` whose bit i is f i, its padding bits 0 (00_scope.md R15). -/
def packBits (len : Nat) (f : Nat → Bool) : List Byte :=
  (List.range ((len + 7) / 8)).map fun q =>
    BitVec.ofNat 8 (natOfBits ((List.range 8).map fun j => decide (8 * q + j < len) && f (8 * q + j)))

/-- The array whose element i is f i, for i below n. -/
def tabulate {α : Type} (n : Nat) (f : Nat → α) : Array α := ((List.range n).map f).toArray

end Sys2Proof.Machine
end

