-- ==== Sys2Proof/Machine/Alu.lean ====
section
/-!
DEFINITION. The register-register and register-immediate ALU instructions, LUI and PARAM (spec/48_base.md R230 to R250).
-/

namespace Sys2Proof.Machine

/-- The shift amount of a register shift, bits [4:0] of the operand (48_base.md R230). -/
def shiftAmount (v : Word) : Nat := v.toNat % 32

/-- ADD (48_base.md R231). -/
def execAdd (rd rs1 rs2 : Reg) (s : State) : Host.Outcome State Fault Refusal :=
  writeBack s rd (s.reg rs1 + s.reg rs2)

/-- SUB (48_base.md R232). -/
def execSub (rd rs1 rs2 : Reg) (s : State) : Host.Outcome State Fault Refusal :=
  writeBack s rd (s.reg rs1 - s.reg rs2)

/-- AND (48_base.md R233). -/
def execAnd (rd rs1 rs2 : Reg) (s : State) : Host.Outcome State Fault Refusal :=
  writeBack s rd (s.reg rs1 &&& s.reg rs2)

/-- OR (48_base.md R234). -/
def execOr (rd rs1 rs2 : Reg) (s : State) : Host.Outcome State Fault Refusal :=
  writeBack s rd (s.reg rs1 ||| s.reg rs2)

/-- XOR (48_base.md R235). -/
def execXor (rd rs1 rs2 : Reg) (s : State) : Host.Outcome State Fault Refusal :=
  writeBack s rd (s.reg rs1 ^^^ s.reg rs2)

/-- SLL (48_base.md R236). -/
def execSll (rd rs1 rs2 : Reg) (s : State) : Host.Outcome State Fault Refusal :=
  writeBack s rd (s.reg rs1 <<< shiftAmount (s.reg rs2))

/-- SRL (48_base.md R237). -/
def execSrl (rd rs1 rs2 : Reg) (s : State) : Host.Outcome State Fault Refusal :=
  writeBack s rd (s.reg rs1 >>> shiftAmount (s.reg rs2))

/-- SRA (48_base.md R238). -/
def execSra (rd rs1 rs2 : Reg) (s : State) : Host.Outcome State Fault Refusal :=
  writeBack s rd ((s.reg rs1).sshiftRight (shiftAmount (s.reg rs2)))

/-- SLT (48_base.md R239). -/
def execSlt (rd rs1 rs2 : Reg) (s : State) : Host.Outcome State Fault Refusal :=
  writeBack s rd (boolWord (lessSigned (s.reg rs1) (s.reg rs2)))

/-- SLTU (48_base.md R240). -/
def execSltu (rd rs1 rs2 : Reg) (s : State) : Host.Outcome State Fault Refusal :=
  writeBack s rd (boolWord (lessUnsigned (s.reg rs1) (s.reg rs2)))

/-- MUL, the low 32 bits of the product (48_base.md R241). -/
def execMul (rd rs1 rs2 : Reg) (s : State) : Host.Outcome State Fault Refusal :=
  writeBack s rd (s.reg rs1 * s.reg rs2)

/-- ADDI (48_base.md R242). -/
def execAddi (rd rs1 : Reg) (imm : BitVec 16) (s : State) : Host.Outcome State Fault Refusal :=
  writeBack s rd (s.reg rs1 + sext16 imm)

/-- ANDI (48_base.md R243). -/
def execAndi (rd rs1 : Reg) (imm : BitVec 16) (s : State) : Host.Outcome State Fault Refusal :=
  writeBack s rd (s.reg rs1 &&& zext16 imm)

/-- ORI (48_base.md R244). -/
def execOri (rd rs1 : Reg) (imm : BitVec 16) (s : State) : Host.Outcome State Fault Refusal :=
  writeBack s rd (s.reg rs1 ||| zext16 imm)

/-- XORI (48_base.md R245). -/
def execXori (rd rs1 : Reg) (imm : BitVec 16) (s : State) : Host.Outcome State Fault Refusal :=
  writeBack s rd (s.reg rs1 ^^^ zext16 imm)

/-- SLLI (48_base.md R246). -/
def execSlli (rd rs1 : Reg) (sh : BitVec 5) (s : State) : Host.Outcome State Fault Refusal :=
  writeBack s rd (s.reg rs1 <<< sh.toNat)

/-- SRLI (48_base.md R247). -/
def execSrli (rd rs1 : Reg) (sh : BitVec 5) (s : State) : Host.Outcome State Fault Refusal :=
  writeBack s rd (s.reg rs1 >>> sh.toNat)

/-- SRAI (48_base.md R248). -/
def execSrai (rd rs1 : Reg) (sh : BitVec 5) (s : State) : Host.Outcome State Fault Refusal :=
  writeBack s rd ((s.reg rs1).sshiftRight sh.toNat)

/-- LUI (48_base.md R249). -/
def execLui (rd : Reg) (imm : BitVec 16) (s : State) : Host.Outcome State Fault Refusal :=
  writeBack s rd (imm ++ 0#16)

/-- PARAM, a build constant of the instance (48_base.md R250). -/
def execParam (rd : Reg) (idx : BitVec 4) (s : State) : Host.Outcome State Fault Refusal :=
  writeBack s rd (s.build.paramTab idx)

end Sys2Proof.Machine
end

