-- ==== Sys2Proof/Machine/Gf.lean ====
section
/-!
DEFINITION. The GF(2^m) unit: its functions, which the engines use too, and its six instructions (spec/41_gf.md R120 to
R126; spec/00_scope.md R9, R14).
-/

namespace Sys2Proof

/-- The low m bits of a 16-bit value, `v AND GFMASK` (00_scope.md R14). -/
def gfMask (f : Field) (a : Gf) : Gf :=
  match f with
  | .m12 => a &&& 0x0FFF
  | .m13 => a &&& 0x1FFF

/-- Carry-less multiplication of two 16-bit values (00_scope.md R14). -/
def clmul (a b : Gf) : Word :=
  (List.range 16).foldl (fun p i => if b.getLsbD i then p ^^^ (a.zeroExtend 32 <<< i) else p) 0

/-- One reduction step of the multiplier for m = 12: the product bits under the mask are folded down (41_gf.md R121). -/
def fold12 (mask p : Word) : Word :=
  let t := p &&& mask
  p ^^^ (t >>> 9) ^^^ (t >>> 12)

/-- One reduction step of the multiplier for m = 13 (41_gf.md R121). -/
def fold13 (mask p : Word) : Word :=
  let t := p &&& mask
  p ^^^ (t >>> 9) ^^^ (t >>> 10) ^^^ (t >>> 12) ^^^ (t >>> 13)

/-- The multiplier datapath: all 16 bits of the first operand, the low m bits of the second (41_gf.md R121). -/
def gfMul (f : Field) (a b : Gf) : Gf :=
  let p := clmul a (gfMask f b)
  match f with
  | .m12 => gfMask .m12 ((fold12 0x003000 (fold12 0x7FC000 p)).truncate 16)
  | .m13 => gfMask .m13 ((fold13 0x000E000 (fold13 0x1FF0000 p)).truncate 16)

/-- The square of the low m bits (41_gf.md R122). -/
def gfSq (f : Field) (a : Gf) : Gf := gfMul f (gfMask f a) (gfMask f a)

/-- acc times the squares q = p^2, p^4, ..., p^(2^k): the exponents of p add up to 2^(k+1) - 2. -/
def gfInvLoop (f : Field) : Nat → Gf → Gf → Gf
  | 0, acc, _ => acc
  | k + 1, acc, p =>
    let q := gfSq f p
    gfInvLoop f k (gfMul f acc q) q

/-- `a^(2^m - 2)` of the low m bits of a, by the chain of squarings and multiplications whose exponents 2, 4, ...,
2^(m-1) add up to 2^m - 2; 0 gives 0 (41_gf.md R123: "any chain gives the same value"). -/
def gfInv (f : Field) (a : Gf) : Gf := gfInvLoop f (f.m - 1) 1 (gfMask f a)

/-- num / den, in the argument order `gf_frac(den, num)` (41_gf.md R124). -/
def gfFrac (f : Field) (den num : Gf) : Gf := gfMul f (gfInv f den) (gfMask f num)

/-- The zero test of all 16 bits: 0x1FFF for zero, else 0 (41_gf.md R125). -/
def gfIsz (a : Gf) : Gf := if a = 0 then 0x1FFF else 0

/-- The low m bits in reverse order: bit j of the result is bit m - 1 - j (41_gf.md R126). -/
def gfRev (f : Field) (a : Gf) : Gf :=
  BitVec.ofNat 16 (Machine.natOfBits ((List.range f.m).map fun j => a.getLsbD (f.m - 1 - j)))

end Sys2Proof

namespace Sys2Proof.Machine

/-- The field of this instance (00_scope.md R7, R9). -/
def State.field (s : State) : Field := s.build.variant.field

/-- The field operand in a register: its low 16 bits (41_gf.md R120). -/
def State.gfReg (s : State) (i : Reg) : Gf := (s.reg i).truncate 16

/-- A field element as a register value, zero-extended (41_gf.md R120). -/
def gfWord (a : Gf) : Word := a.zeroExtend 32

/-- GF.MUL (41_gf.md R121). -/
def execGfMul (rd rs1 rs2 : Reg) (s : State) : Host.Outcome State Fault Refusal :=
  writeBack s rd (gfWord (gfMul s.field (s.gfReg rs1) (s.gfReg rs2)))

/-- GF.SQ (41_gf.md R122). -/
def execGfSq (rd rs1 : Reg) (s : State) : Host.Outcome State Fault Refusal :=
  writeBack s rd (gfWord (gfSq s.field (s.gfReg rs1)))

/-- GF.INV (41_gf.md R123). -/
def execGfInv (rd rs1 : Reg) (s : State) : Host.Outcome State Fault Refusal :=
  writeBack s rd (gfWord (gfInv s.field (s.gfReg rs1)))

/-- GF.FRAC: rs1 is the denominator, rs2 the numerator (41_gf.md R124). -/
def execGfFrac (rd rs1 rs2 : Reg) (s : State) : Host.Outcome State Fault Refusal :=
  writeBack s rd (gfWord (gfFrac s.field (s.gfReg rs1) (s.gfReg rs2)))

/-- GF.ISZ (41_gf.md R125). -/
def execGfIsz (rd rs1 : Reg) (s : State) : Host.Outcome State Fault Refusal :=
  writeBack s rd (gfWord (gfIsz (s.gfReg rs1)))

/-- GF.BITREV (41_gf.md R126). -/
def execGfBitrev (rd rs1 : Reg) (s : State) : Host.Outcome State Fault Refusal :=
  writeBack s rd (gfWord (gfRev s.field (s.gfReg rs1)))

/-- The field elements of a buffer, each masked to m bits (20_memory.md R68). -/
def gfElems (f : Field) (bs : List Byte) : List Gf := (elems16 bs).map (gfMask f)

/-- The field element i of an array, 0 past its end. -/
def gfAt (xs : Array Gf) (i : Nat) : Gf := xs.getD i 0

end Sys2Proof.Machine
end

