-- ==== Sys2Proof/Machine/Sort.lean ====
section
/-!
DEFINITION. The sorting engine (spec/42_sort.md R140 to R142). Only the sorted arrangement is architectural, so the
definition is a plain insertion sort; which network a build uses is not visible (R140).
-/

namespace Sys2Proof.Machine

/-- `x` inserted before the first element that `le` says it may stand before. -/
def insertBy {α : Type} (le : α → α → Bool) (x : α) : List α → List α
  | [] => [x]
  | y :: ys => if le x y then x :: y :: ys else y :: insertBy le x ys

/-- The list in non-decreasing order under `le` (42_sort.md R140). -/
def sortBy {α : Type} (le : α → α → Bool) : List α → List α
  | [] => []
  | x :: xs => insertBy le x (sortBy le xs)

/-- The order of SORT32, signed (42_sort.md R141). -/
def leSigned (a b : Word) : Bool := a.toInt ≤ b.toInt

/-- The order of SORT64, unsigned (42_sort.md R142). -/
def leUnsigned (a b : Lane) : Bool := a.toNat ≤ b.toNat

/-- `SortS`: signed non-decreasing order (42_sort.md R141, 43_benes.md R155). -/
def sortSigned (xs : List Word) : List Word := sortBy leSigned xs

/-- Unsigned non-decreasing order (42_sort.md R142, 45_pkgen.md R191). -/
def sortUnsigned (xs : List Lane) : List Lane := sortBy leUnsigned xs

/-- SORT32: o_0 the array's address, o_1 its element count (42_sort.md R141). -/
def execSort32 (rd rb : Reg) (s : State) : Host.Outcome State Fault Refusal :=
  let x := s.operand rb 0
  let n := (s.operand rb 1).toNat
  engineChecks (.sort32 rd rb) s [(x, 4 * n)] <|
  withBuf s (x, 4 * n) fun bs =>
  engineDone s rd 0 [(x, bytesOf 4 (sortSigned (elems32 bs)))]

/-- SORT64: o_0 the array's address, o_1 its element count (42_sort.md R142). -/
def execSort64 (rd rb : Reg) (s : State) : Host.Outcome State Fault Refusal :=
  let x := s.operand rb 0
  let n := (s.operand rb 1).toNat
  engineChecks (.sort64 rd rb) s [(x, 8 * n)] <|
  withBuf s (x, 8 * n) fun bs =>
  engineDone s rd 0 [(x, bytesOf 8 (sortUnsigned (elems64 bs)))]

end Sys2Proof.Machine
end

