-- ==== Sys2Proof/Machine/Benes.lean ====
section
/-!
DEFINITION. The transpose, the Benes network, its control bits and the support (spec/43_benes.md R150 to R157).
-/

namespace Sys2Proof.Machine

-- Transpose.

/-- Row i of the transpose: bit j of out[i] is bit i of in[j] (43_benes.md R150). -/
def transposeRow (w : Array Lane) (i : Nat) : Lane :=
  BitVec.ofNat 64 (natOfBits ((List.range 64).map fun j => (w.getD j 0).getLsbD i))

/-- The transpose of a 64 by 64 bit matrix (43_benes.md R150). -/
def transposeRows (w : List Lane) : List Lane := (List.range 64).map (transposeRow w.toArray)

/-- TRANSPOSE: o_0 = out, o_1 = in (43_benes.md R150). -/
def execTranspose (rd rb : Reg) (s : State) : Host.Outcome State Fault Refusal :=
  let out := s.operand rb 0
  let inp := s.operand rb 1
  engineChecks (.transpose rd rb) s [(out, 512), (inp, 512)] <|
  withBuf s (inp, 512) fun bs =>
  engineDone s rd 0 [(out, bytesOf 8 (transposeRows (elems64 bs)))]

-- The Benes network.

/-- The stride exponent e of layer l of the network for m (43_benes.md R151). -/
def strideExp (m l : Nat) : Nat := if l < m then l else 2 * m - 2 - l

/-- The lower position of pair k of a layer with stride exponent e (43_benes.md R151). -/
def pairLo (e k : Nat) : Nat := ((k >>> e) <<< (e + 1)) ||| (k % 2 ^ e)

/-- The upper position of pair k (43_benes.md R151). -/
def pairHi (e k : Nat) : Nat := pairLo e k + 2 ^ e

/-- The pair that position i is in: the k whose lower or upper position is i. -/
def pairOf (e i : Nat) : Nat := ((i >>> (e + 1)) <<< e) ||| (i % 2 ^ e)

/-- The other position of the pair that position i is in: i with bit e flipped. -/
def pairMate (e i : Nat) : Nat := i ^^^ 2 ^ e

/-- The control bit of pair k of layer l: bit l * N/2 + k of the control-bit string (43_benes.md R152). -/
def controlBit (m : Nat) (c : Array Byte) (l k : Nat) : Bool := bitAt c (l * 2 ^ (m - 1) + k)

/-- Layer l applied to a vector: the two positions of a pair are swapped when the pair's control bit is 1, that is,
every position takes the value of the other position of its pair (43_benes.md R151). -/
def applyLayer {α : Type} (m : Nat) (c : Array Byte) (l : Nat) (v : Array α) : Array α :=
  v.mapIdx fun i x =>
    if controlBit m c l (pairOf (strideExp m l) i) then v.getD (pairMate (strideExp m l) i) x else x

/-- Layers applied one after the other, first of the list first. -/
def applyLayers {α : Type} (m : Nat) (c : Array Byte) (ls : List Nat) (v : Array α) : Array α :=
  ls.foldl (fun v l => applyLayer m c l v) v

/-- The network: layers 0 to 2m-2 for rev = 0, the same layers backwards for rev = 1 (43_benes.md R153). -/
def benesPass {α : Type} (m : Nat) (rev : Bool) (c : Array Byte) (v : Array α) : Array α :=
  applyLayers m c (if rev then (List.range (2 * m - 1)).reverse else List.range (2 * m - 1)) v

/-- The N bits held in the bytes of a bit vector (43_benes.md, introduction; 00_scope.md R15). -/
def bitVector (n : Nat) (bs : List Byte) : Array Bool :=
  let a := bs.toArray
  tabulate n (bitAt a)

/-- The bytes of a bit vector (00_scope.md R15). -/
def bitVectorBytes (v : Array Bool) : List Byte := packBits v.size fun i => v.getD i false

/-- BENES: o_0 = the vector, in place, o_1 = the control bits (43_benes.md R153). -/
def execBenes (rd rb : Reg) (rev : Bool) (s : State) : Host.Outcome State Fault Refusal :=
  let v := s.build.variant
  let r := s.operand rb 0
  let bits := s.operand rb 1
  engineChecks (.benes rd rb rev) s [(r, v.nfull / 8), (bits, v.condBytes)] <|
  withBuf s (r, v.nfull / 8) fun rBytes =>
  withBuf s (bits, v.condBytes) fun cBytes =>
  engineDone s rd 0 [(r, bitVectorBytes (benesPass v.m rev cBytes.toArray (bitVector v.nfull rBytes)))]

-- Control bits.

/-- Element x of a working array of the control-bit algorithm. -/
def at32 (a : Array Word) (x : Nat) : Word := a.getD x 0

/-- The signed minimum of the control-bit algorithm (43_benes.md R155). -/
def minSigned (a b : Word) : Word := if leSigned a b then a else b

/-- `SortS` on a working array (43_benes.md R155). -/
def sortArray (a : Array Word) : Array Word := (sortSigned a.toList).toArray

/-- Bit `pos` of the output XORed with b, `out ^= b at pos` (43_benes.md R155). -/
def flipAt (out : Array Bool) (pos : Nat) (b : Bool) : Array Bool := out.modify pos fun o => o ^^ b

/-- The low 16 bits of a word, `w AND 0xFFFF`. -/
def low16 (w : Word) : Word := w &&& 0xFFFF

/-- The word less its low 16 bits, `w AND NOT 0xFFFF`. -/
def high16 (w : Word) : Word := w &&& 0xFFFF0000

/-- The start of the control-bit algorithm, up to the branch on w: the arrays A and B (43_benes.md R155). -/
def cbStart (n : Nat) (pi : Array Word) : Array Word × Array Word :=
  let a := sortArray (tabulate n fun x => ((at32 pi x ^^^ 1) <<< 16) ||| at32 pi (x ^^^ 1))
  let b := tabulate n fun x =>
    let px := low16 (at32 a x)
    (px <<< 16) ||| minSigned px (BitVec.ofNat 32 x)
  let a := sortArray (tabulate n fun x => (at32 a x <<< 16) ||| BitVec.ofNat 32 x)
  let a := sortArray (tabulate n fun x => (at32 a x <<< 16) + (at32 b x).sshiftRight 16)
  (a, b)

/-- One round i of the loop for w at most 10, on the array B (43_benes.md R155). -/
def cbSmallRound (n : Nat) (b : Array Word) : Array Word :=
  let a := sortArray (tabulate n fun x => ((at32 b x &&& 0xFFFFFC00) <<< 6) ||| BitVec.ofNat 32 x)
  let a := sortArray (tabulate n fun x => (at32 a x <<< 20) ||| at32 b x)
  tabulate n fun x =>
    let ppcpx := at32 a x &&& 0xFFFFF
    let ppcx := (at32 a x &&& 0xFFC00) ||| (at32 b x &&& 0x3FF)
    minSigned ppcx ppcpx

/-- The branch for w at most 10: B at its end (43_benes.md R155). -/
def cbSmall (w n : Nat) (a b : Array Word) : Array Word :=
  let b := tabulate n fun x => (low16 (at32 a x) <<< 10) ||| (at32 b x &&& 0x3FF)
  let b := (List.range (w - 2)).foldl (fun b _ => cbSmallRound n b) b
  tabulate n fun x => at32 b x &&& 0x3FF

/-- One round i of the loop for w above 10, on the array B; `last` is i = w - 2 (43_benes.md R155). -/
def cbLargeRound (n : Nat) (last : Bool) (b : Array Word) : Array Word :=
  let a := sortArray (tabulate n fun x => high16 (at32 b x) ||| BitVec.ofNat 32 x)
  let a := tabulate n fun x => (at32 a x <<< 16) ||| low16 (at32 b x)
  let b :=
    if last then b
    else
      let b := sortArray (tabulate n fun x => high16 (at32 a x) ||| (at32 b x).sshiftRight 16)
      tabulate n fun x => (at32 b x <<< 16) ||| low16 (at32 a x)
  let a := sortArray a
  tabulate n fun x => minSigned (at32 b x) (high16 (at32 b x) ||| low16 (at32 a x))

/-- The branch for w above 10: B at its end. Round number j, from 0, is i = j + 1 (43_benes.md R155). -/
def cbLarge (w n : Nat) (a b : Array Word) : Array Word :=
  let b := tabulate n fun x => (at32 a x <<< 16) ||| low16 (at32 b x)
  let b := (List.range (w - 2)).foldl (fun b j => cbLargeRound n (decide (j + 1 = w - 2)) b) b
  tabulate n fun x => low16 (at32 b x)

/-- `cbrecursion(out, pos, step, pi[0..n-1], w, n)` with n = 2^w (43_benes.md R155). The first layer's bits stand at
pos + j * step, the last layer's at pos + (2w - 2) * step * n/2 + k * step, and the two halves go on at
pos + step * n/2 and step further. -/
def cbRecursion : Nat → Nat → Nat → Array Word → Array Bool → Array Bool
  | 0, _, _, _, out => out
  | 1, pos, _, pi, out => flipAt out pos ((at32 pi 0).getLsbD 0)
  | w + 2, pos, step, pi, out =>
    let n := 2 ^ (w + 2)
    let ab := cbStart n pi
    let b := if w + 2 ≤ 10 then cbSmall (w + 2) n ab.1 ab.2 else cbLarge (w + 2) n ab.1 ab.2
    let a := sortArray (tabulate n fun x => (at32 pi x <<< 16) + BitVec.ofNat 32 x)
    -- the first layer: f_j is bit 0 of B[2j], F_x = x + f_j for x = 2j, and F_(x+1) = F_x XOR 1
    let out := (List.range (n / 2)).foldl (fun out j => flipAt out (pos + j * step) ((at32 b (2 * j)).getLsbD 0)) out
    let b := sortArray (tabulate n fun x =>
      let fx := BitVec.ofNat 32 (2 * (x / 2)) + (at32 b (2 * (x / 2)) &&& 1)
      (at32 a x <<< 16) ||| (if x % 2 = 0 then fx else fx ^^^ 1))
    -- the last layer: l_k is bit 0 of B[2k], L_y = y + l_k for y = 2k, and L_(y+1) = L_y XOR 1
    let last := pos + step * (n / 2) + (2 * (w + 2) - 3) * step * (n / 2)
    let out := (List.range (n / 2)).foldl (fun out k => flipAt out (last + k * step) ((at32 b (2 * k)).getLsbD 0)) out
    let a := sortArray (tabulate n fun y =>
      let ly := BitVec.ofNat 32 (2 * (y / 2)) + (at32 b (2 * (y / 2)) &&& 1)
      ((if y % 2 = 0 then ly else ly ^^^ 1) <<< 16) ||| low16 (at32 b y))
    -- the inner layers
    let inner := pos + step * (n / 2)
    let q0 := tabulate (n / 2) fun j => low16 (at32 a (2 * j)) >>> 1
    let q1 := tabulate (n / 2) fun j => low16 (at32 a (2 * j + 1)) >>> 1
    cbRecursion (w + 1) (inner + step) (2 * step) q1 (cbRecursion (w + 1) inner (2 * step) q0 out)

/-- The control-bit string of a permutation, `CBITS_ALG` (43_benes.md R154, R155). -/
def controlBits (m : Nat) (pi : List (BitVec 16)) : Array Bool :=
  cbRecursion m 0 1 (pi.map fun p => p.zeroExtend 32).toArray (Array.replicate ((2 * m - 1) * 2 ^ (m - 1)) false)

/-- The entries are 0..N-1 in some order: as sets, {pi[0], ..., pi[N-1]} = {0, ..., N-1} (43_benes.md R156). -/
def isPermutation (n : Nat) (pi : List (BitVec 16)) : Bool :=
  (pi.all fun p => p.toNat < n) && (List.range n).all fun x => pi.any fun p => p.toNat == x

/-- CBITS: o_0 = out, o_1 = pi (43_benes.md R156). -/
def execCbits (rd rb : Reg) (s : State) : Host.Outcome State Fault Refusal :=
  let v := s.build.variant
  let out := s.operand rb 0
  let pi := s.operand rb 1
  engineChecks (.cbits rd rb) s [(out, v.condBytes), (pi, 2 * v.nfull)] <|
  withBuf s (pi, 2 * v.nfull) fun piBytes =>
  if isPermutation v.nfull (elems16 piBytes) then
    engineDone s rd 0 [(out, bitVectorBytes (controlBits v.m (elems16 piBytes)))]
  else raiseFault s .badPerm pi (encode (.cbits rd rb))

-- Support.

/-- Bit plane j of the support: the forward pass on the vector whose bit k is bit j of bitrev(k) (43_benes.md R157). -/
def supportPlane (f : Field) (c : Array Byte) (j : Nat) : Array Bool :=
  benesPass f.m false c (tabulate (2 ^ f.m) fun k => (gfRev f (BitVec.ofNat 16 k)).getLsbD j)

/-- The first n elements of the support: element i has bit j of plane j (43_benes.md R157). -/
def supportOf (f : Field) (n : Nat) (c : List Byte) : List Gf :=
  let cs := c.toArray
  let planes := (List.range f.m).map (supportPlane f cs)
  (List.range n).map fun i => BitVec.ofNat 16 (natOfBits (planes.map fun y => y.getD i false))

/-- SUPPORT: o_0 = out, o_1 = control bits (43_benes.md R157). -/
def execSupport (rd rb : Reg) (s : State) : Host.Outcome State Fault Refusal :=
  let v := s.build.variant
  let out := s.operand rb 0
  let cbits := s.operand rb 1
  engineChecks (.support rd rb) s [(out, 2 * v.n), (cbits, v.condBytes)] <|
  withBuf s (cbits, v.condBytes) fun cBytes =>
  engineDone s rd 0 [(out, bytesOf 2 (supportOf v.field v.n cBytes))]

end Sys2Proof.Machine
end

