-- ==== Sys2Proof/Machine/Control.lean ====
section
/-!
DEFINITION. Branches, jumps and HALT (spec/48_base.md R258 to R267).
-/

namespace Sys2Proof.Machine

/-- BEQ (48_base.md R259). -/
def execBeq (rs1 rs2 : Reg) (off : BitVec 16) (s : State) : Host.Outcome State Fault Refusal :=
  branchOp (s.reg rs1 == s.reg rs2) off s

/-- BNE (48_base.md R260). -/
def execBne (rs1 rs2 : Reg) (off : BitVec 16) (s : State) : Host.Outcome State Fault Refusal :=
  branchOp (s.reg rs1 != s.reg rs2) off s

/-- BLT (48_base.md R261). -/
def execBlt (rs1 rs2 : Reg) (off : BitVec 16) (s : State) : Host.Outcome State Fault Refusal :=
  branchOp (lessSigned (s.reg rs1) (s.reg rs2)) off s

/-- BGE (48_base.md R262). -/
def execBge (rs1 rs2 : Reg) (off : BitVec 16) (s : State) : Host.Outcome State Fault Refusal :=
  branchOp (!lessSigned (s.reg rs1) (s.reg rs2)) off s

/-- BLTU (48_base.md R263). -/
def execBltu (rs1 rs2 : Reg) (off : BitVec 16) (s : State) : Host.Outcome State Fault Refusal :=
  branchOp (lessUnsigned (s.reg rs1) (s.reg rs2)) off s

/-- BGEU (48_base.md R264). -/
def execBgeu (rs1 rs2 : Reg) (off : BitVec 16) (s : State) : Host.Outcome State Fault Refusal :=
  branchOp (!lessUnsigned (s.reg rs1) (s.reg rs2)) off s

/-- JAL: the link is the address after the JAL (48_base.md R265). -/
def execJal (rd : Reg) (off : BitVec 20) (s : State) : Host.Outcome State Fault Refusal :=
  .next ((s.setPc (jumpTarget s.pc off)).setReg rd (s.pc + 4))

/-- JALR: the target is read before rd is written; a target that is not a multiple of 4 faults, rd and pc unchanged
(48_base.md R266). -/
def execJalr (rd rs1 : Reg) (imm : BitVec 16) (s : State) : Host.Outcome State Fault Refusal :=
  let target := effectiveAddr s rs1 imm
  if target.toNat % 4 ≠ 0 then raiseFault s .fetchMisaligned target (encode (.jalr rd rs1 imm))
  else .next ((s.setPc target).setReg rd (s.pc + 4))

/-- HALT (48_base.md R267). -/
def execHalt (s : State) : Host.Outcome State Fault Refusal :=
  .next s.halt

end Sys2Proof.Machine
end

