-- ==== Sys2Proof/Machine/LoadStore.lean ====
section
/-!
DEFINITION. The loads and stores (spec/48_base.md R251 to R257), over the scalar accesses of Machine/Operands.
-/

namespace Sys2Proof.Machine

/-- LBU (48_base.md R252). -/
def execLbu (rd rs1 : Reg) (imm : BitVec 16) (s : State) : Host.Outcome State Fault Refusal :=
  loadOp 1 (encode (.lbu rd rs1 imm)) rd rs1 imm s

/-- LHU (48_base.md R253). -/
def execLhu (rd rs1 : Reg) (imm : BitVec 16) (s : State) : Host.Outcome State Fault Refusal :=
  loadOp 2 (encode (.lhu rd rs1 imm)) rd rs1 imm s

/-- LW (48_base.md R254). -/
def execLw (rd rs1 : Reg) (imm : BitVec 16) (s : State) : Host.Outcome State Fault Refusal :=
  loadOp 4 (encode (.lw rd rs1 imm)) rd rs1 imm s

/-- SB (48_base.md R255). -/
def execSb (rs2 rs1 : Reg) (imm : BitVec 16) (s : State) : Host.Outcome State Fault Refusal :=
  storeOp 1 (encode (.sb rs2 rs1 imm)) rs2 rs1 imm s

/-- SH (48_base.md R256). -/
def execSh (rs2 rs1 : Reg) (imm : BitVec 16) (s : State) : Host.Outcome State Fault Refusal :=
  storeOp 2 (encode (.sh rs2 rs1 imm)) rs2 rs1 imm s

/-- SW (48_base.md R257). -/
def execSw (rs2 rs1 : Reg) (imm : BitVec 16) (s : State) : Host.Outcome State Fault Refusal :=
  storeOp 4 (encode (.sw rs2 rs1 imm)) rs2 rs1 imm s

end Sys2Proof.Machine
end

