-- ==== Sys2Proof/Machine/Poly.lean ====
section
/-!
DEFINITION. Polynomial algebra over GF(2^m): the ring R_t, minimal polynomials, evaluation, Berlekamp-Massey and the
decoding syndrome (spec/44_poly.md R170 to R181).
-/

namespace Sys2Proof.Machine

/-- The sum (XOR) of a list of field elements (41_gf.md R127). -/
def gfSum (xs : List Gf) : Gf := xs.foldl (· ^^^ ·) 0

-- The ring R_t.

/-- Coefficient k of the product before reduction: the sum of a_i b_(k-i) over the i for which both exist
(44_poly.md R170). -/
def productCoeff (f : Field) (t : Nat) (a b : Array Gf) (k : Nat) : Gf :=
  gfSum ((List.range t).map fun i => if i ≤ k ∧ k - i < t then gfMul f (gfAt a i) (gfAt b (k - i)) else 0)

/-- The reduction of coefficient i: its value is added into the lower coefficients by the terms of F(y) - y^t
(44_poly.md R170). -/
def reduceCoeff (v : Variant) (prod : Array Gf) (i : Nat) : Array Gf :=
  v.ringTerms.foldl (fun p kc => p.modify (i - v.t + kc.1) fun x => x ^^^ gfMul v.field (gfAt prod i) kc.2) prod

/-- `polymul(a, b)` in R_t (44_poly.md R170). -/
def polymul (v : Variant) (a b : Array Gf) : Array Gf :=
  let t := v.t
  let prod := tabulate (2 * t - 1) (productCoeff v.field t a b)
  let red := ((List.range (t - 1)).map fun j => 2 * t - 2 - j).foldl (reduceCoeff v) prod
  tabulate t (gfAt red)

/-- POLYMUL: o_0 = out, o_1 = a, o_2 = b (44_poly.md R171). -/
def execPolymul (rd rb : Reg) (s : State) : Host.Outcome State Fault Refusal :=
  let v := s.build.variant
  let out := s.operand rb 0
  let a := s.operand rb 1
  let b := s.operand rb 2
  engineChecks (.polymul rd rb) s [(out, 2 * v.t), (a, 2 * v.t), (b, 2 * v.t)] <|
  withBuf s (a, 2 * v.t) fun aBytes =>
  withBuf s (b, 2 * v.t) fun bBytes =>
  engineDone s rd 0
    [(out, bytesOf 2 (polymul v (gfElems v.field aBytes).toArray (gfElems v.field bBytes).toArray).toList)]

-- Minimal polynomials.

/-- The powers P_0 = 1, P_1 = f, ..., P_k of f in R_t, last first (44_poly.md R172). -/
def powersRev (v : Variant) (f : Array Gf) : Nat → List (Array Gf)
  | 0 => [tabulate v.t fun k => if k = 0 then 1 else 0]
  | 1 => [tabulate v.t (gfAt f), tabulate v.t fun k => if k = 0 then 1 else 0]
  | c + 2 =>
    match powersRev v f (c + 1) with
    | p :: ps => polymul v p f :: p :: ps
    | [] => []

/-- An entry mat[c][k] of the elimination (44_poly.md R173). -/
def matAt (mat : Array (Array Gf)) (c k : Nat) : Gf := gfAt (mat.getD c #[]) k

/-- `for c = j..t: mat[c][k] <- g mat[c]` (44_poly.md R173). -/
def matCol (mat : Array (Array Gf)) (j k : Nat) (g : Array Gf → Gf) : Array (Array Gf) :=
  mat.mapIdx fun c row => if j ≤ c then row.setIfInBounds k (g row) else row

/-- Step j of the elimination: the pivot mat[j][j] is made non-zero if it can be, scaled to 1, and cleared from the
other columns; the flag says whether the pivot was non-zero (44_poly.md R173). -/
def elimStep (f : Field) (t : Nat) (acc : Bool × Array (Array Gf)) (j : Nat) : Bool × Array (Array Gf) :=
  let mat := ((List.range t).filter (j < ·)).foldl (fun mat k =>
    let mask := gfIsz (matAt mat j j)
    matCol mat j j fun row => gfAt row j ^^^ (gfAt row k &&& mask)) acc.2
  let pivot := matAt mat j j
  let inv := gfInv f pivot
  let mat := matCol mat j j fun row => gfMul f (gfAt row j) inv
  let mat := ((List.range t).filter (· ≠ j)).foldl (fun mat k =>
    let tk := matAt mat j k
    matCol mat j k fun row => gfAt row k ^^^ gfMul f (gfAt row j) tk) mat
  (acc.1 && pivot != 0, mat)

/-- `genpoly`: the success flag and, on success, the t low coefficients of the minimal polynomial of f
(44_poly.md R172, R173). -/
def minimalPoly (v : Variant) (f : Array Gf) : Bool × List Gf :=
  let mat := (powersRev v f v.t).reverse.toArray
  let r := (List.range v.t).foldl (elimStep v.field v.t) (true, mat)
  (r.1, (List.range v.t).map (matAt r.2 v.t))

/-- GENPOLY: o_0 = out, o_1 = f; out is unchanged on failure (44_poly.md R174). -/
def execGenpoly (rd rb : Reg) (s : State) : Host.Outcome State Fault Refusal :=
  let v := s.build.variant
  let out := s.operand rb 0
  let f := s.operand rb 1
  engineChecks (.genpoly rd rb) s [(out, 2 * v.t), (f, 2 * v.t)] <|
  withBuf s (f, 2 * v.t) fun fBytes =>
  let r := minimalPoly v (gfElems v.field fBytes).toArray
  engineDone s rd (statusOf r.1) (if r.1 then [(out, bytesOf 2 r.2)] else [])

-- Evaluation.

/-- Horner's rule: the sum of F[i] a^i (44_poly.md R175). -/
def evalPoly (f : Field) (coeffs : List Gf) (a : Gf) : Gf := coeffs.foldr (fun c r => gfMul f r a ^^^ c) 0

/-- EVAL: o_0 = address of f, o_1 = the element; the value goes to rd (44_poly.md R175). -/
def execEval (rd rb : Reg) (s : State) : Host.Outcome State Fault Refusal :=
  let v := s.build.variant
  let f := s.operand rb 0
  let a := gfMask v.field ((s.operand rb 1).truncate 16)
  engineChecks (.eval rd rb) s [(f, 2 * (v.t + 1))] <|
  withBuf s (f, 2 * (v.t + 1)) fun fBytes =>
  engineDone s rd (gfWord (evalPoly v.field (gfElems v.field fBytes) a)) []

/-- ROOT: o_0 = out, o_1 = f, o_2 = L (44_poly.md R176). -/
def execRoot (rd rb : Reg) (s : State) : Host.Outcome State Fault Refusal :=
  let v := s.build.variant
  let out := s.operand rb 0
  let f := s.operand rb 1
  let l := s.operand rb 2
  engineChecks (.root rd rb) s [(out, 2 * v.n), (f, 2 * (v.t + 1)), (l, 2 * v.n)] <|
  withBuf s (f, 2 * (v.t + 1)) fun fBytes =>
  withBuf s (l, 2 * v.n) fun lBytes =>
  engineDone s rd 0
    [(out, bytesOf 2 ((gfElems v.field lBytes).map (evalPoly v.field (gfElems v.field fBytes))))]

-- Berlekamp-Massey.

/-- The variables of the Berlekamp-Massey computation (44_poly.md R177). -/
structure BmState where
  c : Array Gf
  b : Array Gf
  len : Nat
  last : Gf
  deriving DecidableEq, Repr

/-- One iteration N of the Berlekamp-Massey computation (44_poly.md R177). -/
def bmStep (f : Field) (t : Nat) (s : Array Gf) (st : BmState) (i : Nat) : BmState :=
  let d := gfSum ((List.range (min i t + 1)).map fun j => gfMul f (gfAt st.c j) (gfAt s (i - j)))
  let mne := d != 0
  let mle := mne && decide (2 * st.len ≤ i)
  let q := gfFrac f st.last d
  let c := if mne then tabulate (t + 1) fun j => gfAt st.c j ^^^ gfMul f q (gfAt st.b j) else st.c
  let b := if mle then st.c else st.b
  { c := c
    b := tabulate (t + 1) fun j => if j = 0 then 0 else gfAt b (j - 1)
    len := if mle then i + 1 - st.len else st.len
    last := if mle then d else st.last }

/-- The start of the Berlekamp-Massey computation: C = 1, B = x, L = 0, b = 1 (44_poly.md R177). -/
def bmStart (t : Nat) : BmState :=
  { c := tabulate (t + 1) fun j => if j = 0 then 1 else 0
    b := tabulate (t + 1) fun j => if j = 1 then 1 else 0
    len := 0
    last := 1 }

/-- The variables after the first k iterations on the syndrome values s (44_poly.md R177). -/
def bmRun (f : Field) (t : Nat) (s : Array Gf) (k : Nat) : BmState := (List.range k).foldl (bmStep f t s) (bmStart t)

/-- `bm`: the locator polynomial of 2t syndrome values, t + 1 coefficients, C reversed (44_poly.md R177). -/
def locator (f : Field) (t : Nat) (s : Array Gf) : List Gf :=
  let c := (bmRun f t s (2 * t)).c
  (List.range (t + 1)).map fun i => gfAt c (t - i)

/-- BM: o_0 = out, o_1 = s (44_poly.md R178). -/
def execBm (rd rb : Reg) (s : State) : Host.Outcome State Fault Refusal :=
  let v := s.build.variant
  let out := s.operand rb 0
  let syn := s.operand rb 1
  engineChecks (.bm rd rb) s [(out, 2 * (v.t + 1)), (syn, 4 * v.t)] <|
  withBuf s (syn, 4 * v.t) fun sBytes =>
  engineDone s rd 0 [(out, bytesOf 2 (locator v.field v.t (gfElems v.field sBytes).toArray))]

-- The decoding syndrome.

/-- The values e, e x, e x^2, ..., k of them (44_poly.md R180). -/
def gfSeries (f : Field) (x : Gf) : Nat → Gf → List Gf
  | 0, _ => []
  | k + 1, e => e :: gfSeries f x k (gfMul f e x)

/-- `synd(g, L, r)`: for every position with r_i = 1, the series of 1 / g(L_i)^2 times the powers of L_i, summed
(44_poly.md R180). -/
def syndrome (f : Field) (t : Nat) (g l : List Gf) (r : List Bool) : List Gf :=
  (l.zip r).foldl (fun out lr =>
    if lr.2 then
      let e := evalPoly f g lr.1
      out.zipWith (· ^^^ ·) (gfSeries f lr.1 (2 * t) (gfInv f (gfMul f e e)))
    else out) (List.replicate (2 * t) 0)

/-- SYND: o_0 = out, o_1 = g, o_2 = L, o_3 = r (44_poly.md R181). -/
def execSynd (rd rb : Reg) (s : State) : Host.Outcome State Fault Refusal :=
  let v := s.build.variant
  let out := s.operand rb 0
  let g := s.operand rb 1
  let l := s.operand rb 2
  let r := s.operand rb 3
  engineChecks (.synd rd rb) s [(out, 4 * v.t), (g, 2 * (v.t + 1)), (l, 2 * v.n), (r, v.n / 8)] <|
  withBuf s (g, 2 * (v.t + 1)) fun gBytes =>
  withBuf s (l, 2 * v.n) fun lBytes =>
  withBuf s (r, v.n / 8) fun rBytes =>
  engineDone s rd 0
    [(out, bytesOf 2 (syndrome v.field v.t (gfElems v.field gBytes) (gfElems v.field lBytes)
      (bitVector v.n rBytes).toList))]

end Sys2Proof.Machine
end

