-- ==== Sys2Proof/Machine/Niederreiter.lean ====
section
/-!
DEFINITION. The Niederreiter layer: error vectors, encoding and decryption (spec/46_niederreiter.md R200 to R202).
-/

namespace Sys2Proof.Machine

/-- The accepted indices of a batch of random values: the first t of those below n (46_niederreiter.md R200). -/
def acceptedIndices (v : Variant) (rand : List Gf) : List Nat :=
  ((rand.map fun x => x.toNat).filter (· < v.n)).take v.t

/-- The batch succeeds: t indices, no two equal (46_niederreiter.md R200). -/
def indicesOk (v : Variant) (ind : List Nat) : Bool := ind.length == v.t && decide ind.Nodup

/-- The n-bit vector with a 1 at every index of the list (46_niederreiter.md R200). -/
def errorVectorBytes (v : Variant) (ind : List Nat) : List Byte := packBits v.n fun j => ind.contains j

/-- GENE: o_0 = e, o_1 = rand; e is unchanged on failure (46_niederreiter.md R200). -/
def execGene (rd rb : Reg) (s : State) : Host.Outcome State Fault Refusal :=
  let v := s.build.variant
  let e := s.operand rb 0
  let rand := s.operand rb 1
  engineChecks (.gene rd rb) s [(e, v.eBytes), (rand, v.geRandBytes)] <|
  withBuf s (rand, v.geRandBytes) fun randBytes =>
  let ind := acceptedIndices v (gfElems v.field randBytes)
  let ok := indicesOk v ind
  engineDone s rd (statusOf ok) (if ok then [(e, errorVectorBytes v ind)] else [])

/-- Bit q of the Niederreiter syndrome [I | T] e, row q of T beginning at byte q * PK_ROW_BYTES
(46_niederreiter.md R201). -/
def syndromeBit (v : Variant) (pk e : Array Byte) (q : Nat) : Bool :=
  (List.range v.pkNcols).foldl
    (fun p c => p ^^ (bitAt pk (8 * (q * v.pkRowBytes) + c) && bitAt e (v.pkNrows + c))) (bitAt e q)

/-- The syndrome's bytes (46_niederreiter.md R201). -/
def encodeBytes (v : Variant) (pk e : List Byte) : List Byte :=
  let pk := pk.toArray
  let e := e.toArray
  packBits v.pkNrows (syndromeBit v pk e)

/-- ENCODE: o_0 = s, o_1 = pk, o_2 = e (46_niederreiter.md R201). -/
def execEncode (rd rb : Reg) (s : State) : Host.Outcome State Fault Refusal :=
  let v := s.build.variant
  let syn := s.operand rb 0
  let pk := s.operand rb 1
  let e := s.operand rb 2
  engineChecks (.encode rd rb) s [(syn, v.syndBytes), (pk, v.pkBytes), (e, v.eBytes)] <|
  withBuf s (pk, v.pkBytes) fun pkBytes =>
  withBuf s (e, v.eBytes) fun eBytes =>
  engineDone s rd 0 [(syn, encodeBytes v pkBytes eBytes)]

/-- The reconstructed error vector and whether the re-check passes, from g (with its leading 1), the support and the
received word (46_niederreiter.md R202). -/
def decodeWordWith (v : Variant) (g l : List Gf) (r : List Bool) : List Bool × Bool :=
  let f := v.field
  let syn := syndrome f v.t g l r
  let loc := locator f v.t syn.toArray
  let e := l.map fun x => evalPoly f loc x == 0
  (e, (e.filter id).length == v.t && syndrome f v.t g l e == syn)

/-- The received word: the SYND_BYTES bytes of the ciphertext as they are, then zeros (46_niederreiter.md R202). -/
def receivedWord (v : Variant) (c : List Byte) : List Bool := (bitVector v.n c).toList

/-- DECRYPT: o_0 = e, o_1 = g, o_2 = control bits, o_3 = c; e is written whatever the status (46_niederreiter.md R202). -/
def execDecrypt (rd rb : Reg) (s : State) : Host.Outcome State Fault Refusal :=
  let v := s.build.variant
  let e := s.operand rb 0
  let g := s.operand rb 1
  let cbits := s.operand rb 2
  let c := s.operand rb 3
  engineChecks (.decrypt rd rb) s [(e, v.eBytes), (g, 2 * v.t), (cbits, v.condBytes), (c, v.syndBytes)] <|
  withBuf s (g, 2 * v.t) fun gBytes =>
  withBuf s (cbits, v.condBytes) fun cbBytes =>
  withBuf s (c, v.syndBytes) fun cBytes =>
  let r := decodeWordWith v (gfElems v.field gBytes ++ [1]) (supportOf v.field v.n cbBytes) (receivedWord v cBytes)
  engineDone s rd (statusOf r.2) [(e, bitVectorBytes r.1.toArray)]

end Sys2Proof.Machine
end

