-- ==== Sys2Proof/Machine/PkGen.lean ====
section
/-!
DEFINITION. The systematic public-key generator (spec/45_pkgen.md R190 to R195). A binary matrix row of n columns is a
bit vector of width n, bit j being column j.
-/

namespace Sys2Proof.Machine

/-- A row of the binary matrix (45_pkgen.md, notation). -/
abbrev Row (n : Nat) := BitVec n

-- Step 1, permutation and support.

/-- `(P[i] << 31) OR i` (45_pkgen.md R191). -/
def sortKey (i : Nat) (p : Word) : Lane :=
  let q : Lane := p.zeroExtend 64
  (q <<< 31) ||| BitVec.ofNat 64 i

/-- The list buf of the keys with their positions, sorted (45_pkgen.md R191). -/
def sortedKeys (keys : List Word) : List Lane := sortUnsigned (keys.mapIdx sortKey)

/-- Two neighbours of the sorted list have the same key (45_pkgen.md R191). -/
def keyCollision : List Lane → Bool
  | a :: b :: rest => (a >>> 31 == b >>> 31) || keyCollision (b :: rest)
  | _ => false

/-- The position part of a sorted key (45_pkgen.md R191). -/
def positionOf (f : Field) (k : Lane) : Gf := gfMask f (k.truncate 16)

-- Step 2, the parity-check matrix.

/-- A row of the matrix: column j is bit k of element j (45_pkgen.md R192). -/
def bitRow (n : Nat) (xs : List Gf) (k : Nat) : Row n := BitVec.ofNat n (natOfBits (xs.map fun x => x.getLsbD k))

/-- The m rows of each of `count` powers i: row i m + k has bit k of inv[j] L[j]^i in column j (45_pkgen.md R192). -/
def parityRows (f : Field) (n : Nat) (l : List Gf) : Nat → List Gf → List (Row n)
  | 0, _ => []
  | count + 1, inv =>
    (List.range f.m).map (bitRow n inv) ++ parityRows f n l count (inv.zipWith (gfMul f) l)

/-- The parity-check matrix H of m t rows (45_pkgen.md R192); g is given with its leading 1. -/
def parityMatrix (v : Variant) (g l : List Gf) : Array (Row v.n) :=
  (parityRows v.field v.n l v.t (l.map fun x => gfInv v.field (evalPoly v.field g x))).toArray

-- Step 3, reduction to systematic form.

/-- The pivot row of step r: row r, with the first row q > r that has bit r added when row r has not (45_pkgen.md R193;
which rows are added does not matter: log 12). None if no row q >= r has bit r. -/
def pivotRow {n : Nat} (h : Array (Row n)) (r : Nat) : Option (Row n) :=
  let row := h.getD r 0
  if row.getLsbD r then some row
  else ((h.toList.drop (r + 1)).find? fun q => q.getLsbD r).map fun q => row ^^^ q

/-- Step r of the elimination: row r becomes the pivot row, which is added to every other row with bit r
(45_pkgen.md R193). None if the pivot column is zero from row r down. -/
def reduceStep {n : Nat} (h : Array (Row n)) (r : Nat) : Option (Array (Row n)) :=
  (pivotRow h r).map fun p => h.mapIdx fun q row => if q = r then p else if row.getLsbD r then row ^^^ p else row

/-- Steps for the pivot columns of the list in order (45_pkgen.md R193). -/
def reduceSteps {n : Nat} : List Nat → Array (Row n) → Option (Array (Row n))
  | [], h => some h
  | r :: rs, h =>
    match reduceStep h r with
    | none => none
    | some h' => reduceSteps rs h'

-- Step 3f, the moved pivot columns.

/-- The index of the lowest set bit, none for 0 (45_pkgen.md R194 item 3). -/
def lowestBit (u : Lane) : Option Nat := (List.range 64).find? fun i => u.getLsbD i

/-- The pivot search on the window's rows: the columns s_i, or none if the window's rank is too low
(45_pkgen.md R194 item 3). -/
def windowPivots : Nat → List Lane → Option (List Nat)
  | 0, _ => some []
  | _ + 1, [] => some []
  | k + 1, w :: ws =>
    match lowestBit (ws.foldl (· ||| ·) w) with
    | none => none
    | some s =>
      let w' := ws.foldl (fun w x => if w.getLsbD s then w else w ^^^ x) w
      match windowPivots k (ws.map fun x => if x.getLsbD s then x ^^^ w' else x) with
      | none => none
      | some ss => some (s :: ss)

/-- Columns a and b of a row exchanged (45_pkgen.md R194 item 5). -/
def swapColumns {n : Nat} (a b : Nat) (row : Row n) : Row n :=
  if row.getLsbD a = row.getLsbD b then row else row ^^^ (BitVec.twoPow n a ||| BitVec.twoPow n b)

/-- The matrix, the permutation and the pivot mask of an elimination. -/
structure PkResult (n : Nat) where
  h : Array (Row n)
  pi : Array Gf
  pivots : Lane

/-- Step 3 for FAST = 0 (45_pkgen.md R190, R193). -/
def plainElim (v : Variant) (h : Array (Row v.n)) (pi : Array Gf) : Option (PkResult v.n) :=
  (reduceSteps (List.range v.pkNrows) h).map fun h' => { h := h', pi := pi, pivots := 0x00000000FFFFFFFF }

/-- Step 3f for FAST = 1, items 1 to 6 (45_pkgen.md R194). -/
def fastElim (v : Variant) (h : Array (Row v.n)) (pi : Array Gf) : Option (PkResult v.n) :=
  let r0 := v.pkNrows - 32
  match reduceSteps (List.range r0) h with
  | none => none
  | some h1 =>
    match windowPivots 32 ((h1.toList.drop r0).map fun row => row.extractLsb' r0 64) with
    | none => none
    | some ss =>
      let moves := (List.range 32).zip ss
      let pi' := moves.foldl (fun p js => p.swapIfInBounds (r0 + js.1) (r0 + js.2)) pi
      let h2 := h1.map fun row => moves.foldl (fun row js => swapColumns (r0 + js.1) (r0 + js.2) row) row
      let piv := ss.foldl (fun m s => m ||| BitVec.twoPow 64 s) 0
      (reduceSteps ((List.range 32).map (r0 + ·)) h2).map fun h3 => { h := h3, pi := pi', pivots := piv }

/-- The whole computation of PKGEN on the polynomial and the keys; none is its failure (45_pkgen.md R190). -/
def publicKey (v : Variant) (g : List Gf) (keys : List Word) : Option (PkResult v.n) :=
  let buf := sortedKeys keys
  if keyCollision buf then none
  else
    let pi := buf.map (positionOf v.field)
    let l := (pi.take v.n).map (gfRev v.field)
    let h := parityMatrix v g l
    if v.fast then fastElim v h pi.toArray else plainElim v h pi.toArray

/-- The public key's bytes: row q is the bit string of columns R to n - 1 of row q of H (45_pkgen.md R195). -/
def publicKeyBytes (v : Variant) (h : Array (Row v.n)) : List Byte :=
  h.toList.flatMap fun row => packBits v.pkNcols fun c => row.getLsbD (v.pkNrows + c)

/-- PKGEN: o_0 = pk, o_1 = g, o_2 = perm, o_3 = pi, o_4 = pivots; nothing is written on failure (45_pkgen.md R190). -/
def execPkgen (rd rb : Reg) (s : State) : Host.Outcome State Fault Refusal :=
  let v := s.build.variant
  let pk := s.operand rb 0
  let g := s.operand rb 1
  let perm := s.operand rb 2
  let pi := s.operand rb 3
  let pivots := s.operand rb 4
  engineChecks (.pkgen rd rb) s
    [(pk, v.pkBytes), (g, 2 * v.t), (perm, 4 * v.nfull), (pi, 2 * v.nfull), (pivots, 8)] <|
  withBuf s (g, 2 * v.t) fun gBytes =>
  withBuf s (perm, 4 * v.nfull) fun permBytes =>
  let r := publicKey v (gfElems v.field gBytes ++ [1]) (elems32 permBytes)
  engineDone s rd (statusOf r.isSome)
    (match r with
    | some k => [(pk, publicKeyBytes v k.h), (pi, bytesOf 2 k.pi.toList), (pivots, leBytes 8 k.pivots.toNat)]
    | none => [])

end Sys2Proof.Machine
end

