-- ==== Sys2Proof/Machine/Shake.lean ====
section
/-!
DEFINITION. The SHAKE256 engine (spec/47_shake.md R220 to R225).
-/

namespace Sys2Proof.Machine

/-- The Keccak state: lane A[x][y] is element x + 5 y (47_shake.md R220). -/
abbrev Keccak := Array Lane

/-- A[x][y], indices taken mod 5 (47_shake.md R220). -/
def lane (a : Keccak) (x y : Nat) : Lane := a.getD (x % 5 + 5 * (y % 5)) 0

/-- The round constants RC[0], ..., RC[23] (47_shake.md R221). -/
def roundConstants : List Lane :=
  [0x0000000000000001, 0x0000000000008082, 0x800000000000808A, 0x8000000080008000,
   0x000000000000808B, 0x0000000080000001, 0x8000000080008081, 0x8000000000008009]
  ++ [0x000000000000008A, 0x0000000000000088, 0x0000000080008009, 0x000000008000000A,
   0x000000008000808B, 0x800000000000008B, 0x8000000000008089, 0x8000000000008003]
  ++ [0x8000000000008002, 0x8000000000000080, 0x000000000000800A, 0x800000008000000A,
   0x8000000080008081, 0x8000000000008080, 0x0000000080000001, 0x8000000080008008]

/-- The rotation offsets ROT[x][y], row by row of the table of 47_shake.md R222: element x + 5 y. -/
def rotationOffsets : Array Nat :=
  #[0, 1, 62, 28, 27,
    36, 44, 6, 55, 20,
    3, 10, 43, 25, 39,
    41, 45, 15, 21, 8,
    18, 2, 61, 56, 14]

/-- C[x] of the step theta (47_shake.md R223). -/
def thetaColumns (a : Keccak) : Keccak :=
  tabulate 5 fun x => lane a x 0 ^^^ lane a x 1 ^^^ lane a x 2 ^^^ lane a x 3 ^^^ lane a x 4

/-- The step theta: D[x] = C[x-1] XOR ROL(C[x+1], 1) is added to every lane of column x (47_shake.md R223). -/
def theta (a : Keccak) : Keccak :=
  let c := thetaColumns a
  let d := tabulate 5 fun x => c.getD ((x + 4) % 5) 0 ^^^ (c.getD ((x + 1) % 5) 0).rotateLeft 1
  tabulate 25 fun i => a.getD i 0 ^^^ d.getD (i % 5) 0

/-- The steps rho and pi: B[y][2x + 3y] = ROL(A[x][y], ROT[x][y]). The lane that reaches position (u, w) is the one of
x = u + 3w, y = u, since then 2x + 3y = 5u + 6w = w mod 5 (47_shake.md R222, R223). -/
def rhoPi (a : Keccak) : Keccak :=
  tabulate 25 fun i =>
    let u := i % 5
    let w := i / 5
    let x := (u + 3 * w) % 5
    (lane a x u).rotateLeft (rotationOffsets.getD (x + 5 * u) 0)

/-- The step chi (47_shake.md R223). -/
def chi (b : Keccak) : Keccak :=
  tabulate 25 fun i =>
    let x := i % 5
    let y := i / 5
    lane b x y ^^^ (~~~(lane b (x + 1) y) &&& lane b (x + 2) y)

/-- One round with its constant; the step iota is the last (47_shake.md R223). -/
def keccakRound (a : Keccak) (rc : Lane) : Keccak := (chi (rhoPi (theta a))).modify 0 fun l => l ^^^ rc

/-- Keccak-f[1600] (47_shake.md R223). -/
def keccakF (a : Keccak) : Keccak := roundConstants.foldl keccakRound a

/-- The all-zero state (47_shake.md R224). -/
def keccakZero : Keccak := Array.replicate 25 0

/-- The rate in bytes (47_shake.md R224). -/
def rateBytes : Nat := 136

/-- The last block: the remaining bytes (fewer than 136), 0x1F, zeros, and 0x80 into the last byte (47_shake.md R224). -/
def padBlock (m : List Byte) : List Byte :=
  ((m ++ [0x1F]) ++ List.replicate (rateBytes - (m.length + 1)) 0).modify (rateBytes - 1) fun b => b ||| 0x80

/-- A block of 136 bytes XORed into the first 17 lanes, then the permutation (47_shake.md R220, R224). -/
def absorbBlock (a : Keccak) (block : List Byte) : Keccak :=
  let p := (elems64 block).toArray
  keccakF (tabulate 25 fun i => if i < 17 then a.getD i 0 ^^^ p.getD i 0 else a.getD i 0)

/-- The absorption of `blocks` full blocks and then the padded rest (47_shake.md R224). -/
def absorb : Nat → List Byte → Keccak → Keccak
  | 0, m, a => absorbBlock a (padBlock m)
  | blocks + 1, m, a => absorb blocks (m.drop rateBytes) (absorbBlock a (m.take rateBytes))

/-- Bytes 0 to 135 of the state (47_shake.md R220, R224). -/
def squeezeBlock (a : Keccak) : List Byte := (bytesOf 8 a.toList).take rateBytes

/-- `extra + 1` output blocks, with the permutation between them, as a list of blocks (47_shake.md R224). -/
def squeezeBlocks : Nat → Keccak → List (List Byte)
  | 0, a => [squeezeBlock a]
  | extra + 1, a => squeezeBlock a :: squeezeBlocks extra (keccakF a)

/-- SHAKE256(M, L): the first L bytes of the output stream, of which one block more than L / 136 is made
(47_shake.md R224). -/
def shake256 (m : List Byte) (len : Nat) : List Byte :=
  (squeezeBlocks (len / rateBytes) (absorb (m.length / rateBytes) m keccakZero)).flatten.take len

/-- SHAKE256: o_0 = out, o_1 = outlen, o_2 = in, o_3 = inlen (47_shake.md R225). -/
def execShake256 (rd rb : Reg) (s : State) : Host.Outcome State Fault Refusal :=
  let out := s.operand rb 0
  let outlen := (s.operand rb 1).toNat
  let inp := s.operand rb 2
  let inlen := (s.operand rb 3).toNat
  engineChecks (.shake256 rd rb) s [(out, outlen), (inp, inlen)] <|
  withBuf s (inp, inlen) fun m =>
  engineDone s rd 0 [(out, shake256 m outlen)]

end Sys2Proof.Machine
end

