-- ==== Sys2Proof/Machine/Dispatch.lean ====
section
/-!
DEFINITION. The dispatch of an instruction to its meaning: one arm per constructor of `Instr`, one direct call per arm
(spec/30_encoding.md R101).
-/

namespace Sys2Proof.Machine

-- Execution of one instruction: the effect its rule gives it, fault entry included.
def exec (i : Instr) (s : State) : Host.Outcome State Fault Refusal :=
  match i with
  | .add rd rs1 rs2 => Sys2Proof.Machine.execAdd rd rs1 rs2 s
  | .sub rd rs1 rs2 => Sys2Proof.Machine.execSub rd rs1 rs2 s
  | .and rd rs1 rs2 => Sys2Proof.Machine.execAnd rd rs1 rs2 s
  | .or rd rs1 rs2 => Sys2Proof.Machine.execOr rd rs1 rs2 s
  | .xor rd rs1 rs2 => Sys2Proof.Machine.execXor rd rs1 rs2 s
  | .sll rd rs1 rs2 => Sys2Proof.Machine.execSll rd rs1 rs2 s
  | .srl rd rs1 rs2 => Sys2Proof.Machine.execSrl rd rs1 rs2 s
  | .sra rd rs1 rs2 => Sys2Proof.Machine.execSra rd rs1 rs2 s
  | .slt rd rs1 rs2 => Sys2Proof.Machine.execSlt rd rs1 rs2 s
  | .sltu rd rs1 rs2 => Sys2Proof.Machine.execSltu rd rs1 rs2 s
  | .mul rd rs1 rs2 => Sys2Proof.Machine.execMul rd rs1 rs2 s
  | .addi rd rs1 imm => Sys2Proof.Machine.execAddi rd rs1 imm s
  | .andi rd rs1 imm => Sys2Proof.Machine.execAndi rd rs1 imm s
  | .ori rd rs1 imm => Sys2Proof.Machine.execOri rd rs1 imm s
  | .xori rd rs1 imm => Sys2Proof.Machine.execXori rd rs1 imm s
  | .slli rd rs1 sh => Sys2Proof.Machine.execSlli rd rs1 sh s
  | .srli rd rs1 sh => Sys2Proof.Machine.execSrli rd rs1 sh s
  | .srai rd rs1 sh => Sys2Proof.Machine.execSrai rd rs1 sh s
  | .lui rd imm => Sys2Proof.Machine.execLui rd imm s
  | .param rd idx => Sys2Proof.Machine.execParam rd idx s
  | .lbu rd rs1 imm => Sys2Proof.Machine.execLbu rd rs1 imm s
  | .lhu rd rs1 imm => Sys2Proof.Machine.execLhu rd rs1 imm s
  | .lw rd rs1 imm => Sys2Proof.Machine.execLw rd rs1 imm s
  | .sb rs2 rs1 imm => Sys2Proof.Machine.execSb rs2 rs1 imm s
  | .sh rs2 rs1 imm => Sys2Proof.Machine.execSh rs2 rs1 imm s
  | .sw rs2 rs1 imm => Sys2Proof.Machine.execSw rs2 rs1 imm s
  | .beq rs1 rs2 off => Sys2Proof.Machine.execBeq rs1 rs2 off s
  | .bne rs1 rs2 off => Sys2Proof.Machine.execBne rs1 rs2 off s
  | .blt rs1 rs2 off => Sys2Proof.Machine.execBlt rs1 rs2 off s
  | .bge rs1 rs2 off => Sys2Proof.Machine.execBge rs1 rs2 off s
  | .bltu rs1 rs2 off => Sys2Proof.Machine.execBltu rs1 rs2 off s
  | .bgeu rs1 rs2 off => Sys2Proof.Machine.execBgeu rs1 rs2 off s
  | .jal rd off => Sys2Proof.Machine.execJal rd off s
  | .jalr rd rs1 imm => Sys2Proof.Machine.execJalr rd rs1 imm s
  | .halt => Sys2Proof.Machine.execHalt s
  | .gfMul rd rs1 rs2 => Sys2Proof.Machine.execGfMul rd rs1 rs2 s
  | .gfSq rd rs1 => Sys2Proof.Machine.execGfSq rd rs1 s
  | .gfInv rd rs1 => Sys2Proof.Machine.execGfInv rd rs1 s
  | .gfFrac rd rs1 rs2 => Sys2Proof.Machine.execGfFrac rd rs1 rs2 s
  | .gfIsz rd rs1 => Sys2Proof.Machine.execGfIsz rd rs1 s
  | .gfBitrev rd rs1 => Sys2Proof.Machine.execGfBitrev rd rs1 s
  | .sort32 rd rb => Sys2Proof.Machine.execSort32 rd rb s
  | .sort64 rd rb => Sys2Proof.Machine.execSort64 rd rb s
  | .transpose rd rb => Sys2Proof.Machine.execTranspose rd rb s
  | .benes rd rb rev => Sys2Proof.Machine.execBenes rd rb rev s
  | .cbits rd rb => Sys2Proof.Machine.execCbits rd rb s
  | .support rd rb => Sys2Proof.Machine.execSupport rd rb s
  | .polymul rd rb => Sys2Proof.Machine.execPolymul rd rb s
  | .genpoly rd rb => Sys2Proof.Machine.execGenpoly rd rb s
  | .eval rd rb => Sys2Proof.Machine.execEval rd rb s
  | .root rd rb => Sys2Proof.Machine.execRoot rd rb s
  | .bm rd rb => Sys2Proof.Machine.execBm rd rb s
  | .synd rd rb => Sys2Proof.Machine.execSynd rd rb s
  | .pkgen rd rb => Sys2Proof.Machine.execPkgen rd rb s
  | .gene rd rb => Sys2Proof.Machine.execGene rd rb s
  | .encode rd rb => Sys2Proof.Machine.execEncode rd rb s
  | .decrypt rd rb => Sys2Proof.Machine.execDecrypt rd rb s
  | .shake256 rd rb => Sys2Proof.Machine.execShake256 rd rb s

end Sys2Proof.Machine
end

