-- ==== Sys2Proof/Machine/Sequencer.lean ====
section
/-!
DEFINITION. One move of SEQ: the test of STOPREQ at the instruction boundary, the fetch, and the execution of the fetched
word (spec/60_exceptions.md R274, R278; spec/20_memory.md R62).
-/

namespace Sys2Proof.Machine

/-- Execution of the four bytes fetched at pc: the decoded instruction, or ILLEGAL with the word (30_encoding.md R102,
60_exceptions.md R271). -/
def runBytes (bs : List Byte) (s : State) : Host.Outcome State Fault Refusal :=
  match decode bs with
  | .ok (i, _) => exec i s
  | .error _ => raiseFault s .illegal (BitVec.ofNat 32 (leNat bs)) (BitVec.ofNat 32 (leNat bs))

/-- Fetch and execution of the instruction at pc. The fetch is checked against the end of local memory before it is made
(20_memory.md R62). -/
def fetchAndRun (s : State) : Host.Outcome State Fault Refusal :=
  if s.lmemBytes < s.pc.toNat + 4 then raiseFault s .fetchAccess s.pc 0
  else withRead s s.pc.toNat 4 fun bs => runBytes bs s

/-- One move of SEQ. While RUN = 0 it executes nothing and the state stays as it is (60_exceptions.md R272, R288;
70_reset_and_hazards.md R302; log 7). At a boundary a pending STOP is taken before the fetch (60_exceptions.md R274, R278; log 8); an instruction that
has begun completes whatever STOPREQ is (R278; log 16). -/
def seqStep (s : State) : Host.Outcome State Fault Refusal :=
  if s.run = false then .next s
  else if s.stopTaken then .next s.honourStop
  else fetchAndRun s.finish

end Sys2Proof.Machine
end

