-- ==== Sys2Proof/Machine/Step.lean ====
section
/-!
DEFINITION. The step of the machine: the next event of the HOST, or a move of SEQ (log 4); and the placing of a word
where the next step fetches it (log 13).
-/

namespace Sys2Proof.Machine

/-- One step: the first event of the list takes place, or SEQ moves. -/
def step : State → Host.Outcome State Fault Refusal :=
  hostStep seqStep

/-- The state in which the very next step fetches and runs the instruction word w: its bytes are written at pc, as the
HOST's writes of the LMEM window would, SEQ runs and is at an instruction boundary, no STOP is pending and the HOST does nothing (log 13). -/
def State.withFetchWord (s : State) (nbits w : Nat) : State :=
  { s.writeMem s.pc.toNat (bytesOfWord (BitVec.ofNat 32 (w % 2 ^ nbits))) with
    run := true
    stopReq := false
    begun := false
    host := [] }

end Sys2Proof.Machine
end

