-- ==== Sys2Proof/Safety.lean ====
section
/-!
DEFINITION. The terms the claims are stated in. They are written from the spec and not from the meanings: what an
instruction that completes leaves, what a fault leaves, which words are legal, what each instruction may write, the
invariant of the machine, and the plain arithmetic of bits and field elements that the rules of the engines use.
-/

namespace Sys2Proof.Machine

-- What a step leaves.

/-- What no instruction changes: the build, what only the HOST changes (CTRL, STATUS.HERR, ENTRY_PC), whether an instruction
is in progress, and the model's own fields (10_state.md R20, R36, R37, R38; 60_exceptions.md R278). -/
structure SameHostSide (s t : State) : Prop where
  build : t.build = s.build
  ieDone : t.ieDone = s.ieDone
  ieFault : t.ieFault = s.ieFault
  ieStop : t.ieStop = s.ieStop
  herr : t.herr = s.herr
  entry : t.entry = s.entry
  begun : t.begun = s.begun
  host : t.host = s.host
  hostData : t.hostData = s.hostData
  draws : t.draws = s.draws

/-- What only a START, a clearing by the HOST or the end of a run changes (10_state.md R37, R39 to R41, R46). -/
structure SameRun (s t : State) : Prop where
  run : t.run = s.run
  isDone : t.isDone = s.isDone
  isFault : t.isFault = s.isFault
  isStopped : t.isStopped = s.isStopped
  cause : t.cause = s.cause
  pcReg : t.pcReg = s.pcReg
  faultInfo : t.faultInfo = s.faultInfo
  faultInsn : t.faultInsn = s.faultInsn
  stopReq : t.stopReq = s.stopReq

/-- The byte that runs of bytes, written one after the other, leave at address x: the latest run that covers x decides
(20_memory.md R67). None where no run covers it. -/
def storedByte : List (Word × List Byte) → Nat → Option Byte
  | [], _ => none
  | (a, bs) :: rest, x => (storedByte rest x).or (if a.toNat ≤ x then bs[x - a.toNat]? else none)

/-- Everything an instruction that goes on leaves: v in rd (nothing, if rd is r0), the new pc, the runs of bytes `outs`
written in order (an address that none of them covers keeps its byte), and nothing else changed (10_state.md R22, R26; 30_encoding.md R100; 20_memory.md R67, R70). -/
structure Changed (s t : State) (rd : Reg) (v pc : Word) (outs : List (Word × List Byte)) : Prop where
  reg : ∀ i, t.reg i = if i = rd ∧ i ≠ 0#4 then v else s.reg i
  pc : t.pc = pc
  mem : ∀ a, t.byte a = (storedByte outs a).or (s.byte a)
  hostSide : SameHostSide s t
  runState : SameRun s t

/-- The outcome is a next state, and that state is s with exactly these changes. -/
def Completes (s : State) (o : Host.Outcome State Fault Refusal) (rd : Reg) (v pc : Word)
    (outs : List (Word × List Byte)) : Prop :=
  ∃ t, o = .next t ∧ Changed s t rd v pc outs

/-- Everything fault entry leaves: cause c, information `info`, instruction word w (60_exceptions.md R272). -/
structure FaultEntry (s t : State) (c : Cause) (info w : Word) : Prop where
  reg : ∀ i, t.reg i = s.reg i
  pc : t.pc = s.pc
  mem : t.mem = s.mem
  hostSide : SameHostSide s t
  run : t.run = false
  isFault : t.isFault = true
  isDone : t.isDone = s.isDone
  isStopped : t.isStopped = s.isStopped
  cause : t.cause = c
  pcReg : t.pcReg = s.pc
  faultInfo : t.faultInfo = info
  faultInsn : t.faultInsn = w
  stopReq : t.stopReq = false

/-- The outcome is the next state of fault entry (60_exceptions.md R272). -/
def Faults (s : State) (o : Host.Outcome State Fault Refusal) (c : Cause) (info w : Word) : Prop :=
  ∃ t, o = .next t ∧ FaultEntry s t c info w

-- Fetching and decoding.

/-- SEQ makes the next move, and executes an instruction in it: it runs, the HOST does nothing, and the instruction is in
progress or, at a boundary, no STOP is pending (60_exceptions.md R278). The instruction takes effect on `s.finish`, which
is s at a boundary. -/
structure Running (s : State) : Prop where
  run : s.run = true
  goesOn : s.begun = true ∨ s.stopReq = false
  host : s.host = []

/-- SEQ makes the next move and executes the word w, fetched at pc (20_memory.md R62). -/
structure Fetches (s : State) (w : Word) : Prop where
  running : Running s
  fits : s.pc.toNat + 4 ≤ s.lmemBytes
  bytes : Memory.read s.mem s.pc.toNat 4 = .ok (bytesOfWord w)

/-- A row of the opcode map: the opcode, the bits above it that must be 0, and the engine operand count, 0 for a row of
another format (30_encoding.md R101). -/
structure EncodingRow where
  op : BitVec 8
  mustBeZero : Word
  k : Nat
  deriving DecidableEq, Repr

/-- The opcode map in the order of 30_encoding.md R101. The must-be-zero bits include those of an unused fn16 (R102
condition 5, which leaves bit 16 to BENES) and of PARAM's index (R102 condition 3). -/
def encodingRows : List EncodingRow :=
  [⟨0x01, 0xFFF00000, 0⟩, ⟨0x02, 0xFFF00000, 0⟩, ⟨0x03, 0xFFF00000, 0⟩, ⟨0x04, 0xFFF00000, 0⟩,
   ⟨0x05, 0xFFF00000, 0⟩, ⟨0x06, 0xFFF00000, 0⟩, ⟨0x07, 0xFFF00000, 0⟩, ⟨0x08, 0xFFF00000, 0⟩,
   ⟨0x09, 0xFFF00000, 0⟩, ⟨0x0A, 0xFFF00000, 0⟩, ⟨0x0B, 0xFFF00000, 0⟩, ⟨0x10, 0x00000000, 0⟩,
   ⟨0x11, 0x00000000, 0⟩, ⟨0x12, 0x00000000, 0⟩, ⟨0x13, 0x00000000, 0⟩, ⟨0x14, 0xFFE00000, 0⟩,
   ⟨0x15, 0xFFE00000, 0⟩, ⟨0x16, 0xFFE00000, 0⟩, ⟨0x17, 0x0000F000, 0⟩, ⟨0x18, 0xFFF0F000, 0⟩]
  ++ [⟨0x20, 0x00000000, 0⟩, ⟨0x21, 0x00000000, 0⟩, ⟨0x22, 0x00000000, 0⟩, ⟨0x28, 0x00000000, 0⟩,
   ⟨0x29, 0x00000000, 0⟩, ⟨0x2A, 0x00000000, 0⟩, ⟨0x30, 0x00000000, 0⟩, ⟨0x31, 0x00000000, 0⟩,
   ⟨0x32, 0x00000000, 0⟩, ⟨0x33, 0x00000000, 0⟩, ⟨0x34, 0x00000000, 0⟩, ⟨0x35, 0x00000000, 0⟩,
   ⟨0x38, 0x00000000, 0⟩, ⟨0x39, 0x00000000, 0⟩, ⟨0x3F, 0xFFFFFF00, 0⟩]
  ++ [⟨0x40, 0xFFF00000, 0⟩, ⟨0x41, 0xFFFF0000, 0⟩, ⟨0x42, 0xFFFF0000, 0⟩, ⟨0x43, 0xFFF00000, 0⟩,
   ⟨0x44, 0xFFFF0000, 0⟩, ⟨0x45, 0xFFFF0000, 0⟩]
  ++ [⟨0x50, 0xFFFF0000, 2⟩, ⟨0x51, 0xFFFF0000, 2⟩, ⟨0x54, 0xFFFF0000, 2⟩, ⟨0x55, 0xFFFE0000, 2⟩,
   ⟨0x56, 0xFFFF0000, 2⟩, ⟨0x57, 0xFFFF0000, 2⟩, ⟨0x58, 0xFFFF0000, 3⟩, ⟨0x59, 0xFFFF0000, 2⟩,
   ⟨0x5A, 0xFFFF0000, 2⟩, ⟨0x5B, 0xFFFF0000, 3⟩, ⟨0x5C, 0xFFFF0000, 2⟩, ⟨0x5D, 0xFFFF0000, 4⟩,
   ⟨0x60, 0xFFFF0000, 5⟩, ⟨0x68, 0xFFFF0000, 2⟩, ⟨0x69, 0xFFFF0000, 3⟩, ⟨0x6A, 0xFFFF0000, 4⟩,
   ⟨0x70, 0xFFFF0000, 4⟩]

/-- A word is legal: it is a row of the map, its must-be-zero bits are 0, and its operand group ends at r15
(30_encoding.md R102, R103). -/
def LegalWord (w : Word) : Prop :=
  ∃ row ∈ encodingRows,
    w.extractLsb' 0 8 = row.op ∧ w &&& row.mustBeZero = 0#32 ∧ (w.extractLsb' 12 4).toNat + row.k ≤ 16

-- Operands.

/-- `ea`, and the target of JALR: `(u(x[rs1]) + u(sext_32(imm16))) mod 2^32` (48_base.md R251, R266). -/
def dataAddress (s : State) (rs1 : Reg) (imm : BitVec 16) : Word := BitVec.ofInt 32 ((s.reg rs1).toNat + imm.toInt)

/-- A buffer passes CheckBuf (20_memory.md R66). -/
def Fits (s : State) (b : Buffer) : Prop := b.2 = 0 ∨ b.1.toNat + b.2 ≤ s.lmemBytes

/-- The checks of an engine instruction whose rule lists the buffers `bufs`: if one fails, the instruction faults for the
first that does, and changes nothing (20_memory.md R66; 60_exceptions.md R273, R274). -/
def FaultsAtFirstBadBuffer (i : Instr) (s : State) (bufs : List Buffer) : Prop :=
  ∀ before b after, bufs = before ++ b :: after → (∀ c ∈ before, Fits s c) → ¬ Fits s b →
    Faults s (exec i s) .engineAccess b.1 (encode i)

/-- The bytes `bs` stand at address a. -/
def Holds (s : State) (a : Word) (bs : List Byte) : Prop := Memory.read s.mem a.toNat bs.length = .ok bs

/-- PARAMTAB by its printed columns, indices 0 to 13 (48_base.md R250). -/
def paramColumn : Variant → List Nat
  | .mceliece348864 => [0, 12, 3488, 64, 0, 128, 5888, 768, 340, 96, 6492, 261120, 128, 256]
  | .mceliece348864f => [1, 12, 3488, 64, 1, 128, 5888, 768, 340, 96, 6492, 261120, 128, 256]
  | .mceliece460896 => [2, 13, 4608, 96, 0, 192, 12800, 1248, 420, 156, 13608, 524160, 188, 384]
  | .mceliece460896f => [3, 13, 4608, 96, 1, 192, 12800, 1248, 420, 156, 13608, 524160, 188, 384]
  | .mceliece6688128 => [4, 13, 6688, 128, 0, 256, 12800, 1664, 628, 208, 13932, 1044992, 240, 512]
  | .mceliece6688128f => [5, 13, 6688, 128, 1, 256, 12800, 1664, 628, 208, 13932, 1044992, 240, 512]
  | .mceliece6960119 => [6, 13, 6960, 119, 0, 238, 12800, 1547, 677, 194, 13948, 1047319, 226, 476]
  | .mceliece6960119f => [7, 13, 6960, 119, 1, 238, 12800, 1547, 677, 194, 13948, 1047319, 226, 476]
  | .mceliece8192128 => [8, 13, 8192, 128, 0, 256, 12800, 1664, 816, 208, 14120, 1357824, 240, 256]
  | .mceliece8192128f => [9, 13, 8192, 128, 1, 256, 12800, 1664, 816, 208, 14120, 1357824, 240, 256]

/-- PARAMTAB[idx] of an instance, with LMEM_BYTES at index 14 and VERSION at index 15 (48_base.md R250; 00_scope.md R11). -/
def paramValue (b : Build) (idx : BitVec 4) : Nat :=
  (paramColumn b.variant ++ [2 ^ (16 + b.lmemLog.val), 0x00010000]).getD idx.toNat 0

-- Bits, elements and sums.

/-- Bit p of the bit string held in bytes (00_scope.md R15). -/
def bit (bs : List Byte) (p : Nat) : Bool := (bs.getD (p / 8) 0).getLsbD (p % 8)

/-- The 16-bit value i of an array in bytes (20_memory.md R61). -/
def half (bs : List Byte) (i : Nat) : BitVec 16 := bs.getD (2 * i + 1) 0 ++ bs.getD (2 * i) 0

/-- The 32-bit value i of an array in bytes (20_memory.md R61). -/
def word (bs : List Byte) (i : Nat) : Word :=
  bs.getD (4 * i + 3) 0 ++ bs.getD (4 * i + 2) 0 ++ bs.getD (4 * i + 1) 0 ++ bs.getD (4 * i) 0

/-- The 64-bit value i of an array in bytes (20_memory.md R61). -/
def quad (bs : List Byte) (i : Nat) : Lane := word bs (2 * i + 1) ++ word bs (2 * i)

/-- A field element read by an engine: the low m bits of the 16-bit value i (20_memory.md R68). -/
def element (f : Field) (bs : List Byte) (i : Nat) : Gf := half bs i &&& BitVec.ofNat 16 (2 ^ f.m - 1)

/-- The first n field elements of a buffer. -/
def elementArray (f : Field) (n : Nat) (bs : List Byte) : Array Gf := tabulate n (element f bs)

/-- The field operand of GF.SQ, GF.INV and GF.FRAC, and of EVAL, in a register: its low m bits (41_gf.md R120;
44_poly.md R175). -/
def regElement (s : State) (i : Reg) : Gf :=
  (s.reg i).extractLsb' 0 16 &&& BitVec.ofNat 16 (2 ^ s.build.variant.m - 1)

/-- A field element is canonical: it is below 2^m (00_scope.md R14). -/
def Canonical (f : Field) (a : Gf) : Prop := a.toNat < 2 ^ f.m

/-- The reduction polynomial p(z) as its bits (00_scope.md R9). -/
def fieldPoly : Field → Gf
  | .m12 => 0x1009
  | .m13 => 0x201B

/-- p lists 0, ..., n - 1 in some order (43_benes.md R156). -/
def IsPermutation (n : Nat) (p : Nat → Nat) : Prop := (∀ i < n, p i < n) ∧ ∀ x < n, ∃ i < n, p i = x

/-- The parity of the number of i below n with b i: `XOR over i`. -/
def parity : Nat → (Nat → Bool) → Bool
  | 0, _ => false
  | n + 1, b => parity n b ^^ b n

/-- The number of i below n with b i. -/
def weight (n : Nat) (b : Nat → Bool) : Nat := ((List.range n).filter b).length

/-- The sum, XOR, of the field elements g i over i below n (41_gf.md R127). -/
def gfXor : Nat → (Nat → Gf) → Gf
  | 0, _ => 0
  | n + 1, g => gfXor n g ^^^ g n

/-- `a^k` in the field (00_scope.md R14). -/
def gfPow (f : Field) (a : Gf) : Nat → Gf
  | 0 => 1
  | k + 1 => gfMul f (gfPow f a k) a

/-- The value at a of the polynomial whose coefficient of y^i is c i, for i below n (44_poly.md R175). -/
def polyValue (f : Field) (n : Nat) (c : Nat → Gf) (a : Gf) : Gf := gfXor n fun i => gfMul f (c i) (gfPow f a i)

/-- The coefficient of y^k of F(y), its leading 1 among them, by the table of 00_scope.md R10: y^64 + y^3 + y + z with
z = 2, y^96 + y^10 + y^9 + y^6 + 1, y^119 + y^8 + 1, and y^128 + y^7 + y^2 + y + 1. -/
def modulusCoeff : Variant → Nat → Gf
  | .mceliece348864, k | .mceliece348864f, k => if k = 64 ∨ k = 3 ∨ k = 1 then 1 else if k = 0 then 2 else 0
  | .mceliece460896, k | .mceliece460896f, k => if k = 96 ∨ k = 10 ∨ k = 9 ∨ k = 6 ∨ k = 0 then 1 else 0
  | .mceliece6960119, k | .mceliece6960119f, k => if k = 119 ∨ k = 8 ∨ k = 0 then 1 else 0
  | .mceliece6688128, k | .mceliece6688128f, k | .mceliece8192128, k | .mceliece8192128f, k =>
    if k = 128 ∨ k = 7 ∨ k = 2 ∨ k = 1 ∨ k = 0 then 1 else 0

/-- The power `f^j` in the ring R_t (44_poly.md R172). -/
def ringPow (v : Variant) (f : Array Gf) : Nat → Array Gf
  | 0 => tabulate v.t fun k => if k = 0 then 1 else 0
  | j + 1 => polymul v (ringPow v f j) f

/-- The sum of g_j f^j over j below t, coefficient of y^k (44_poly.md R172). -/
def ringCombination (v : Variant) (f : Array Gf) (g : Nat → Gf) (k : Nat) : Gf :=
  gfXor v.t fun j => gfMul v.field (g j) (gfAt (ringPow v f j) k)

/-- Layer l of the Benes network takes the vector x to y, with the control bits in the bytes c: pair k of the layer is
swapped when bit l * N/2 + k of c is 1, and left when it is 0 (43_benes.md R151, R152). -/
def LayerSwaps (m : Nat) (c : List Byte) (l : Nat) (x y : Nat → Bool) : Prop :=
  ∀ k < 2 ^ (m - 1),
    if bit c (l * 2 ^ (m - 1) + k)
    then y (pairLo (strideExp m l) k) = x (pairHi (strideExp m l) k) ∧
      y (pairHi (strideExp m l) k) = x (pairLo (strideExp m l) k)
    else y (pairLo (strideExp m l) k) = x (pairLo (strideExp m l) k) ∧
      y (pairHi (strideExp m l) k) = x (pairHi (strideExp m l) k)

/-- σ_c: where the forward pass of the network with control bits c takes the entries of the identity vector
(43_benes.md R153). -/
def networkPerm (m : Nat) (c : List Byte) (i : Nat) : Nat :=
  (benesPass m false c.toArray (Array.range (2 ^ m))).getD i 0

/-- The coefficient j of the decoding syndrome, for the polynomial with n coefficients g and the support L, over the
positions below `len` that r selects (44_poly.md R180). -/
def syndromeValue (f : Field) (n : Nat) (g : Nat → Gf) (len : Nat) (l : Nat → Gf) (r : Nat → Bool) (j : Nat) : Gf :=
  gfXor len fun i =>
    if r i then
      gfMul f (gfInv f (gfMul f (polyValue f n g (l i)) (polyValue f n g (l i)))) (gfPow f (l i) j)
    else 0

/-- π lists the positions of the keys, each once, in increasing order of their keys (45_pkgen.md R191). -/
structure SortsKeys (v : Variant) (keys : List Word) (pi : Array Gf) : Prop where
  size : pi.size = v.nfull
  perm : IsPermutation v.nfull fun i => (gfAt pi i).toNat
  order : ∀ i j, i < j → j < v.nfull →
    (keys.getD (gfAt pi i).toNat 0).toNat < (keys.getD (gfAt pi j).toNat 0).toNat

/-- Column c of the sum of the rows that z selects among the first `rows` (45_pkgen.md, notation). -/
def rowSum {n : Nat} (rows : Nat) (h : Array (Row n)) (z : Nat → Bool) (c : Nat) : Bool :=
  parity rows fun q => z q && (h.getD q 0).getLsbD c

/-- s_j: the index of the j-th set bit of the pivot mask, from 0 (45_pkgen.md R194 items 3, 4). -/
def maskBit (pivots : Lane) (j : Nat) : Nat := ((List.range 64).filter fun b => pivots.getLsbD b).getD j 0

/-- The column that position i holds after the swaps of positions r0 + j and r0 + s_j for j = 0, ..., count - 1
(45_pkgen.md R194 item 5). -/
def movedColumn (r0 : Nat) (s : Nat → Nat) : Nat → Nat → Nat
  | 0, i => i
  | j + 1, i => movedColumn r0 s j (if i = r0 + j then r0 + s j else if i = r0 + s j then r0 + j else i)

/-- ROT[x][y], the table of 47_shake.md R222: one list for each row y. -/
def rotationOffset (x y : Nat) : Nat :=
  (([[0, 1, 62, 28, 27], [36, 44, 6, 55, 20], [3, 10, 43, 25, 39], [41, 45, 15, 21, 8], [18, 2, 61, 56, 14]] :
    List (List Nat)).getD y []).getD x 0

/-- (x, y) after s moves (x, y) <- (y, 2x + 3y mod 5) from (1, 0) (47_shake.md R222). -/
def rotationWalk : Nat → Nat × Nat
  | 0 => (1, 0)
  | s + 1 => ((rotationWalk s).2, (2 * (rotationWalk s).1 + 3 * (rotationWalk s).2) % 5)

/-- The register of the LFSR x^8 + x^6 + x^5 + x^4 + 1 after t steps from 1, bit i the coefficient of x^i
(47_shake.md R221). -/
def lfsr : Nat → BitVec 8
  | 0 => 1
  | t + 1 =>
    let r := lfsr t
    if r.getLsbD 7 then (r <<< 1) ^^^ 0x71 else r <<< 1

/-- RC[ir] by its definition: bit 2^j - 1 is the output of the LFSR after j + 7 ir steps, for j = 0, ..., 6, and every
other bit is 0 (47_shake.md R221). -/
def roundConstant (ir : Nat) : Lane :=
  (List.range 7).foldl
    (fun c j => if (lfsr (j + 7 * ir)).getLsbD 0 then c ||| BitVec.twoPow 64 (2 ^ j - 1) else c) 0

/-- P of SHAKE256: the message, 0x1F, and zeros up to a multiple of 136 bytes, with 0x80 ORed into the last byte
(47_shake.md R224). -/
def paddedMessage (m : List Byte) : List Byte :=
  let z := m ++ 0x1F :: List.replicate ((136 - (m.length + 1) % 136) % 136) 0
  z.modify (z.length - 1) fun b => b ||| 0x80

/-- The state after all blocks of the padded message are absorbed (47_shake.md R224). -/
def absorbed (m : List Byte) : Keccak :=
  (List.range ((paddedMessage m).length / 136)).foldl
    (fun a j => absorbBlock a (((paddedMessage m).drop (136 * j)).take 136)) keccakZero

/-- Keccak-f applied n times. -/
def keccakIterate : Nat → Keccak → Keccak
  | 0, a => a
  | n + 1, a => keccakF (keccakIterate n a)

-- The host port.

/-- The offset of the host port leads to no register, no general register and no byte of LMEM (10_state.md R31, R32). -/
def ReservedOffset (s : State) (off : BitVec 25) : Prop :=
  (0x28 ≤ off.toNat ∧ off.toNat < 0x100) ∨ (0x140 ≤ off.toNat ∧ off.toNat < 0x1000000) ∨
    0x1000000 + s.lmemBytes ≤ off.toNat

/-- The access has a width or an alignment that its part of the host port does not take (20_memory.md R79). -/
def BadAccess (off : BitVec 25) (width : Nat) : Prop :=
  if off.toNat < 0x1000000 then width ≠ 4 ∨ off.toNat % 4 ≠ 0
  else (width ≠ 1 ∧ width ≠ 2 ∧ width ≠ 4) ∨ off.toNat % width ≠ 0

/-- What the table of 70_reset_and_hazards.md R301 fixes after reset, and that no instruction is in progress (R300). The
general registers, pc and LMEM are not in it. -/
structure ResetValues (s : State) : Prop where
  zero : s.reg 0#4 = 0#32
  ctrl : s.ieDone = false ∧ s.ieFault = false ∧ s.ieStop = false
  status : s.run = false ∧ s.isDone = false ∧ s.isFault = false ∧ s.isStopped = false ∧ s.herr = false ∧ s.cause = .none
  entry : s.entry = 0#30
  pcReg : s.pcReg = 0#32
  faultInfo : s.faultInfo = 0#32
  faultInsn : s.faultInsn = 0#32
  irq : s.irq = false
  stopReq : s.stopReq = false
  begun : s.begun = false

-- What each instruction may write.

/-- The register an instruction writes; r0, that is none, for stores, branches and HALT (30_encoding.md R92 to R98). -/
def destReg : Instr → Reg
  | .add rd _ _ | .sub rd _ _ | .and rd _ _ | .or rd _ _ | .xor rd _ _ | .sll rd _ _ | .srl rd _ _ | .sra rd _ _
  | .slt rd _ _ | .sltu rd _ _ | .mul rd _ _ => rd
  | .addi rd _ _ | .andi rd _ _ | .ori rd _ _ | .xori rd _ _ | .slli rd _ _ | .srli rd _ _ | .srai rd _ _
  | .lui rd _ | .param rd _ => rd
  | .lbu rd _ _ | .lhu rd _ _ | .lw rd _ _ => rd
  | .sb _ _ _ | .sh _ _ _ | .sw _ _ _ => 0#4
  | .beq _ _ _ | .bne _ _ _ | .blt _ _ _ | .bge _ _ _ | .bltu _ _ _ | .bgeu _ _ _ => 0#4
  | .jal rd _ | .jalr rd _ _ => rd
  | .halt => 0#4
  | .gfMul rd _ _ | .gfSq rd _ | .gfInv rd _ | .gfFrac rd _ _ | .gfIsz rd _ | .gfBitrev rd _ => rd
  | .sort32 rd _ | .sort64 rd _ | .transpose rd _ | .benes rd _ _ | .cbits rd _ | .support rd _ | .polymul rd _
  | .genpoly rd _ | .eval rd _ | .root rd _ | .bm rd _ | .synd rd _ | .pkgen rd _ | .gene rd _ | .encode rd _
  | .decrypt rd _ | .shake256 rd _ => rd

/-- The runs of memory an instruction may write, as address and length in bytes: the bytes of a store, the output
buffers of an engine (48_base.md R255 to R257, and the rule of each engine). -/
def storedRuns (s : State) : Instr → List (Nat × Nat)
  | .add .. | .sub .. | .and .. | .or .. | .xor .. | .sll .. | .srl .. | .sra .. | .slt .. | .sltu .. | .mul .. => []
  | .addi .. | .andi .. | .ori .. | .xori .. | .slli .. | .srli .. | .srai .. | .lui .. | .param .. => []
  | .lbu .. | .lhu .. | .lw .. => []
  | .sb _ rs1 imm => [((dataAddress s rs1 imm).toNat, 1)]
  | .sh _ rs1 imm => [((dataAddress s rs1 imm).toNat, 2)]
  | .sw _ rs1 imm => [((dataAddress s rs1 imm).toNat, 4)]
  | .beq .. | .bne .. | .blt .. | .bge .. | .bltu .. | .bgeu .. | .jal .. | .jalr .. | .halt => []
  | .gfMul .. | .gfSq .. | .gfInv .. | .gfFrac .. | .gfIsz .. | .gfBitrev .. => []
  | .sort32 _ rb => [((s.reg rb).toNat, 4 * (s.reg (rb + 1#4)).toNat)]
  | .sort64 _ rb => [((s.reg rb).toNat, 8 * (s.reg (rb + 1#4)).toNat)]
  | .transpose _ rb => [((s.reg rb).toNat, 512)]
  | .benes _ rb _ => [((s.reg rb).toNat, s.build.variant.nfull / 8)]
  | .cbits _ rb => [((s.reg rb).toNat, s.build.variant.condBytes)]
  | .support _ rb => [((s.reg rb).toNat, 2 * s.build.variant.n)]
  | .polymul _ rb => [((s.reg rb).toNat, 2 * s.build.variant.t)]
  | .genpoly _ rb => [((s.reg rb).toNat, 2 * s.build.variant.t)]
  | .eval .. => []
  | .root _ rb => [((s.reg rb).toNat, 2 * s.build.variant.n)]
  | .bm _ rb => [((s.reg rb).toNat, 2 * (s.build.variant.t + 1))]
  | .synd _ rb => [((s.reg rb).toNat, 4 * s.build.variant.t)]
  | .pkgen _ rb =>
    [((s.reg rb).toNat, s.build.variant.pkBytes), ((s.reg (rb + 3#4)).toNat, 2 * s.build.variant.nfull),
      ((s.reg (rb + 4#4)).toNat, 8)]
  | .gene _ rb => [((s.reg rb).toNat, s.build.variant.eBytes)]
  | .encode _ rb => [((s.reg rb).toNat, s.build.variant.syndBytes)]
  | .decrypt _ rb => [((s.reg rb).toNat, s.build.variant.eBytes)]
  | .shake256 _ rb => [((s.reg rb).toNat, (s.reg (rb + 1#4)).toNat)]

-- The invariant.

/-- What holds of every state a run reaches: memory is in canonical form and lists no address outside LMEM, pc and PC
are multiples of 4, while RUN = 1 the record of the last run is clear, and while RUN = 0 no STOP is pending and no
instruction is in progress (10_state.md R25, R29, R37, R46; 60_exceptions.md R278). -/
structure Inv (s : State) : Prop where
  memWf : Memory.wf s.mem
  memRange : ∀ c ∈ s.mem, c.1 < s.lmemBytes
  pcAligned : s.pc.toNat % 4 = 0
  pcRegAligned : s.pcReg.toNat % 4 = 0
  runClear : s.run = true → s.isDone = false ∧ s.isFault = false ∧ s.isStopped = false ∧ s.cause = .none ∧
    s.faultInfo = 0#32 ∧ s.faultInsn = 0#32
  stopRuns : s.stopReq = true → s.run = true
  begunRuns : s.begun = true → s.run = true
  faultCause : s.isFault = true → s.cause ≠ .none

end Sys2Proof.Machine
end

