-- ==== Sys2Proof/Certificates/Slice0/Obligations.lean ====
section
/-!
DEFINITION. The statements for the provers, from the numbered rules of spec/. A statement about an instruction is about
every operand form. It says what the instruction leaves through `Completes`, which names everything that changes, and
what a fault leaves through `Faults`. Where an engine or a load reads memory, a hypothesis says that those bytes have
been written (log 3).
-/

open Sys2Proof Sys2Proof.Machine

-- Encoding.

/-- O1. Every well-formed instruction is read back from its word, and from its bytes with any bytes after them
(30_encoding.md R90 to R98, R101, R104). -/
def Obligations.DecodeOfEncode : Prop :=
  ∀ (i : Instr) (rest : List Byte), WellFormed i = true →
    decodeWord (encode i) = .ok i ∧ decode (bytesOfWord (encode i) ++ rest) = .ok (i, rest)

/-- O2. A word that decodes is the word of the instruction it decodes to, and that instruction is well formed
(30_encoding.md R103: every legal word is one row with its conditions). -/
def Obligations.EncodeOfDecode : Prop :=
  ∀ (w : Word) (i : Instr), decodeWord w = .ok i → encode i = w ∧ WellFormed i = true

/-- O3. A word decodes exactly when it is legal by the opcode map, and fetching an illegal one raises ILLEGAL(word) with
no other effect (30_encoding.md R102). -/
def Obligations.IllegalWordRaisesIllegal : Prop :=
  (∀ w : Word, LegalWord w ↔ ∃ i, decodeWord w = .ok i) ∧
  ∀ (s : State) (w : Word), Fetches s w → ¬ LegalWord w → Faults s.finish (step s) .illegal w w

/-- O4. The words of the syntax table of 30_encoding.md R105, and one more of each family, written out from the formats,
decode to what they stand for. -/
def Obligations.SampleWordsDecode : Prop :=
  decodeWord 0x00032101 = .ok (.add 1 2 3) ∧
  decodeWord 0xFFFF0110 = .ok (.addi 1 0 0xFFFF) ∧
  decodeWord 0x12340217 = .ok (.lui 2 0x1234) ∧
  decodeWord 0x00030118 = .ok (.param 1 3) ∧
  decodeWord 0x00086522 = .ok (.lw 5 6 8) ∧
  decodeWord 0xFFFC652A = .ok (.sw 5 6 0xFFFC) ∧
  decodeWord 0xFFFE2130 = .ok (.beq 1 2 0xFFFE) ∧
  decodeWord 0x00003F38 = .ok (.jal 15 3) ∧
  decodeWord 0x0000F039 = .ok (.jalr 0 15 0) ∧
  decodeWord 0x0000003F = .ok .halt ∧
  decodeWord 0x00004342 = .ok (.gfInv 3 4) ∧
  decodeWord 0x00004050 = .ok (.sort32 0 4) ∧
  decodeWord 0x00012055 = .ok (.benes 0 2 true) ∧
  decodeWord 0x00005158 = .ok (.polymul 1 5) ∧
  decodeWord 0x0000B160 = .ok (.pkgen 1 11) ∧
  decodeWord 0x0000C26A = .ok (.decrypt 2 12) ∧
  decodeWord 0x0000C070 = .ok (.shake256 0 12) ∧
  decodeWord 0x0000D070 = .error .operandGroup ∧
  decodeWord 0x00000000 = .error .unassignedOpcode ∧
  decodeWord 0xFFFFFFFF = .error .unassignedOpcode

-- One move of SEQ.

/-- O5. When the word at pc decodes to i, the step is exec of i at that state, with nothing around it; where i had already
begun, whatever STOPREQ is, at the state in which it is no longer in progress; and where the HOST idles first, at the
state whose event list has lost that idle (20_memory.md R62; logs 4, 16). -/
def Obligations.StepRunsDecodedInstruction : Prop :=
  ∀ (s : State) (w : Word) (i : Instr), Fetches s w → decodeWord w = .ok i →
    step s = exec i s.finish ∧
    (s.begun = false → step s = exec i s) ∧
    ∀ rest, step (s.withHost (.idle :: rest)) = exec i (s.finish.withHost rest)

/-- O6. Fetch raises FETCH_ACCESS(pc) when pc + 4 passes the end of local memory, and otherwise reads the word whose bits
[7:0] are the byte at pc; pc is a multiple of 4 where the invariant holds (20_memory.md R62). -/
def Obligations.FetchChecksThenReads : Prop :=
  (∀ s : State, Running s → s.lmemBytes < s.pc.toNat + 4 → Faults s.finish (step s) .fetchAccess s.pc 0#32) ∧
  (∀ (s : State) (b0 b1 b2 b3 : Byte), Running s → s.pc.toNat + 4 ≤ s.lmemBytes →
    s.byte s.pc.toNat = some b0 → s.byte (s.pc.toNat + 1) = some b1 → s.byte (s.pc.toNat + 2) = some b2 →
    s.byte (s.pc.toNat + 3) = some b3 →
    ∃ w : Word, Fetches s w ∧ w.extractLsb' 0 8 = b0 ∧ w.extractLsb' 8 8 = b1 ∧ w.extractLsb' 16 8 = b2 ∧
      w.extractLsb' 24 8 = b3 ∧
      ((∃ i, decodeWord w = .ok i ∧ step s = exec i s.finish) ∨ Faults s.finish (step s) .illegal w w)) ∧
  ∀ s : State, Inv s → s.pc.toNat % 4 = 0

/-- O7. A pending STOP is honoured at the boundary, before the fetch: RUN clears, STOPPED sets, PC is the next
instruction, STOPREQ clears and nothing else changes. SEQ begins an instruction only where none is pending, and an
instruction that has begun completes with STOPREQ set: a HALT ends the run as DONE and a fault as FAULT, STOPREQ cleared
and STOPPED not set, and after any other the request waits for the boundary. While RUN = 0 SEQ executes nothing
(60_exceptions.md R272, R274, R278; 70_reset_and_hazards.md R302; the step of its own for the STOP is log 8, the idle
step log 7, the instruction in progress log 16). -/
def Obligations.StopHonouredAndStoppedSeqIdle : Prop :=
  (∀ s : State, s.run = true → s.begun = false → s.stopReq = true → s.host = [] →
    step s = .next { s with run := false, isStopped := true, pcReg := s.pc, stopReq := false }) ∧
  (∀ (s : State) (rest : List HostEvent), s.run = true → s.begun = false → s.host = .begins :: rest →
    (s.stopReq = false → step s = .next { s with host := rest, begun := true }) ∧
    (s.stopReq = true → step s = .next { s with
      host := rest
      run := false
      isStopped := true
      pcReg := s.pc
      stopReq := false })) ∧
  (∀ s : State, s.run = true → s.begun = true → s.stopReq = true → s.host = [] →
    (Fetches s (encode .halt) → step s = .next { s with
      begun := false
      run := false
      isDone := true
      pcReg := s.pc
      stopReq := false }) ∧
    ∀ t, step s = .next t → t.begun = false ∧ t.isStopped = s.isStopped ∧
      (t.run = false → t.stopReq = false ∧ (t.isDone = true ∨ t.isFault = true)) ∧ (t.run = true → t.stopReq = true)) ∧
  ∀ s : State, s.run = false → s.host = [] ∨ s.host = [.begins] → step s = .next (s.withHost [])

-- Integer instructions.

/-- O8. The register-register ALU instructions: the value of rd for all operands (nothing written if rd is r0), pc + 4,
and nothing else changed (48_base.md R231 to R241). -/
def Obligations.AluRegisterResults : Prop :=
  ∀ (s : State) (rd rs1 rs2 : Reg),
    let a := s.reg rs1
    let b := s.reg rs2
    let sh := b.toNat % 32
    (fieldOp (encode (.add rd rs1 rs2)) = 0x01 ∧
      Completes s (exec (.add rd rs1 rs2) s) rd (BitVec.ofNat 32 (a.toNat + b.toNat)) (s.pc + 4) []) ∧
    (fieldOp (encode (.sub rd rs1 rs2)) = 0x02 ∧
      Completes s (exec (.sub rd rs1 rs2) s) rd (BitVec.ofInt 32 ((a.toNat : Int) - b.toNat)) (s.pc + 4) []) ∧
    (fieldOp (encode (.and rd rs1 rs2)) = 0x03 ∧
      Completes s (exec (.and rd rs1 rs2) s) rd (a &&& b) (s.pc + 4) []) ∧
    (fieldOp (encode (.or rd rs1 rs2)) = 0x04 ∧
      Completes s (exec (.or rd rs1 rs2) s) rd (a ||| b) (s.pc + 4) []) ∧
    (fieldOp (encode (.xor rd rs1 rs2)) = 0x05 ∧
      Completes s (exec (.xor rd rs1 rs2) s) rd (a ^^^ b) (s.pc + 4) []) ∧
    (fieldOp (encode (.sll rd rs1 rs2)) = 0x06 ∧
      Completes s (exec (.sll rd rs1 rs2) s) rd (BitVec.ofNat 32 (a.toNat * 2 ^ sh)) (s.pc + 4) []) ∧
    (fieldOp (encode (.srl rd rs1 rs2)) = 0x07 ∧
      Completes s (exec (.srl rd rs1 rs2) s) rd (BitVec.ofNat 32 (a.toNat / 2 ^ sh)) (s.pc + 4) []) ∧
    (fieldOp (encode (.sra rd rs1 rs2)) = 0x08 ∧
      Completes s (exec (.sra rd rs1 rs2) s) rd (BitVec.ofInt 32 (a.toInt.fdiv (2 ^ sh))) (s.pc + 4) []) ∧
    (fieldOp (encode (.slt rd rs1 rs2)) = 0x09 ∧
      Completes s (exec (.slt rd rs1 rs2) s) rd (if a.toInt < b.toInt then 1 else 0) (s.pc + 4) []) ∧
    (fieldOp (encode (.sltu rd rs1 rs2)) = 0x0A ∧
      Completes s (exec (.sltu rd rs1 rs2) s) rd (if a.toNat < b.toNat then 1 else 0) (s.pc + 4) []) ∧
    (fieldOp (encode (.mul rd rs1 rs2)) = 0x0B ∧
      Completes s (exec (.mul rd rs1 rs2) s) rd (BitVec.ofNat 32 (a.toNat * b.toNat)) (s.pc + 4) [])

/-- O9. The register-immediate ALU instructions and LUI: the value of rd for all operands, pc + 4, and nothing else
changed; and a word of a shift whose imm16[15:5] is not 0, or of LUI whose rs1 field is not 0, does not decode
(48_base.md R242 to R249). -/
def Obligations.AluImmediateResults : Prop :=
  (∀ (s : State) (rd rs1 : Reg) (imm : BitVec 16) (sh : BitVec 5),
    let a := s.reg rs1
    (fieldOp (encode (.addi rd rs1 imm)) = 0x10 ∧
      Completes s (exec (.addi rd rs1 imm) s) rd (BitVec.ofInt 32 (a.toNat + imm.toInt)) (s.pc + 4) []) ∧
    (fieldOp (encode (.andi rd rs1 imm)) = 0x11 ∧
      Completes s (exec (.andi rd rs1 imm) s) rd (a &&& (0#16 ++ imm)) (s.pc + 4) []) ∧
    (fieldOp (encode (.ori rd rs1 imm)) = 0x12 ∧
      Completes s (exec (.ori rd rs1 imm) s) rd (a ||| (0#16 ++ imm)) (s.pc + 4) []) ∧
    (fieldOp (encode (.xori rd rs1 imm)) = 0x13 ∧
      Completes s (exec (.xori rd rs1 imm) s) rd (a ^^^ (0#16 ++ imm)) (s.pc + 4) []) ∧
    (fieldOp (encode (.slli rd rs1 sh)) = 0x14 ∧
      Completes s (exec (.slli rd rs1 sh) s) rd (BitVec.ofNat 32 (a.toNat * 2 ^ sh.toNat)) (s.pc + 4) []) ∧
    (fieldOp (encode (.srli rd rs1 sh)) = 0x15 ∧
      Completes s (exec (.srli rd rs1 sh) s) rd (BitVec.ofNat 32 (a.toNat / 2 ^ sh.toNat)) (s.pc + 4) []) ∧
    (fieldOp (encode (.srai rd rs1 sh)) = 0x16 ∧
      Completes s (exec (.srai rd rs1 sh) s) rd (BitVec.ofInt 32 (a.toInt.fdiv (2 ^ sh.toNat))) (s.pc + 4) []) ∧
    (fieldOp (encode (.lui rd imm)) = 0x17 ∧
      Completes s (exec (.lui rd imm) s) rd (BitVec.ofNat 32 (imm.toNat * 2 ^ 16)) (s.pc + 4) [])) ∧
  (∀ w : Word, (fieldOp w = 0x14 ∨ fieldOp w = 0x15 ∨ fieldOp w = 0x16) → w.extractLsb' 21 11 ≠ 0#11 →
    decodeWord w = .error .mustBeZero) ∧
  ∀ w : Word, fieldOp w = 0x17 → w.extractLsb' 12 4 ≠ 0#4 → decodeWord w = .error .mustBeZero

/-- O10. PARAM reads the build constant of its index, by the printed columns of its table for all ten variants and by
LMEM_BYTES and VERSION; it reads no register and no memory; and a word of it whose rs1 field is not 0 or whose imm16 is
above 15 does not decode (48_base.md R250). -/
def Obligations.ParamReadsBuildTable : Prop :=
  (∀ (s : State) (rd : Reg) (idx : BitVec 4),
    fieldOp (encode (.param rd idx)) = 0x18 ∧
    Completes s (exec (.param rd idx) s) rd (BitVec.ofNat 32 (paramValue s.build idx)) (s.pc + 4) []) ∧
  ∀ w : Word, fieldOp w = 0x18 → (w.extractLsb' 12 4 ≠ 0#4 ∨ 15 < (w.extractLsb' 16 16).toNat) →
    decodeWord w = .error .mustBeZero

-- Loads and stores.

/-- O11. The loads: LOAD_MISALIGNED before LOAD_ACCESS, and otherwise the zero-extended little-endian bytes at ea go to rd
(48_base.md R252 to R254). -/
def Obligations.LoadResults : Prop :=
  ∀ (s : State) (rd rs1 : Reg) (imm : BitVec 16) (b0 b1 b2 b3 : Byte),
    let ea := dataAddress s rs1 imm
    (s.lmemBytes ≤ ea.toNat → Faults s (exec (.lbu rd rs1 imm) s) .loadAccess ea (encode (.lbu rd rs1 imm))) ∧
    (ea.toNat < s.lmemBytes → s.byte ea.toNat = some b0 →
      Completes s (exec (.lbu rd rs1 imm) s) rd (0#24 ++ b0) (s.pc + 4) []) ∧
    (ea.toNat % 2 ≠ 0 → Faults s (exec (.lhu rd rs1 imm) s) .loadMisaligned ea (encode (.lhu rd rs1 imm))) ∧
    (ea.toNat % 2 = 0 → s.lmemBytes < ea.toNat + 2 →
      Faults s (exec (.lhu rd rs1 imm) s) .loadAccess ea (encode (.lhu rd rs1 imm))) ∧
    (ea.toNat % 2 = 0 → ea.toNat + 2 ≤ s.lmemBytes → s.byte ea.toNat = some b0 → s.byte (ea.toNat + 1) = some b1 →
      Completes s (exec (.lhu rd rs1 imm) s) rd (0#16 ++ b1 ++ b0) (s.pc + 4) []) ∧
    (ea.toNat % 4 ≠ 0 → Faults s (exec (.lw rd rs1 imm) s) .loadMisaligned ea (encode (.lw rd rs1 imm))) ∧
    (ea.toNat % 4 = 0 → s.lmemBytes < ea.toNat + 4 →
      Faults s (exec (.lw rd rs1 imm) s) .loadAccess ea (encode (.lw rd rs1 imm))) ∧
    (ea.toNat % 4 = 0 → ea.toNat + 4 ≤ s.lmemBytes → s.byte ea.toNat = some b0 → s.byte (ea.toNat + 1) = some b1 →
      s.byte (ea.toNat + 2) = some b2 → s.byte (ea.toNat + 3) = some b3 →
      Completes s (exec (.lw rd rs1 imm) s) rd (b3 ++ b2 ++ b1 ++ b0) (s.pc + 4) [])

/-- O12. The stores: STORE_MISALIGNED before STORE_ACCESS, and otherwise the low bytes of x[rs2] go to ea, lowest first,
every other byte and every register unchanged (48_base.md R255 to R257). -/
def Obligations.StoreResults : Prop :=
  ∀ (s : State) (rs2 rs1 : Reg) (imm : BitVec 16),
    let ea := dataAddress s rs1 imm
    let d := s.reg rs2
    (s.lmemBytes ≤ ea.toNat → Faults s (exec (.sb rs2 rs1 imm) s) .storeAccess ea (encode (.sb rs2 rs1 imm))) ∧
    (ea.toNat < s.lmemBytes →
      Completes s (exec (.sb rs2 rs1 imm) s) 0#4 0#32 (s.pc + 4) [(ea, [d.extractLsb' 0 8])]) ∧
    (ea.toNat % 2 ≠ 0 → Faults s (exec (.sh rs2 rs1 imm) s) .storeMisaligned ea (encode (.sh rs2 rs1 imm))) ∧
    (ea.toNat % 2 = 0 → s.lmemBytes < ea.toNat + 2 →
      Faults s (exec (.sh rs2 rs1 imm) s) .storeAccess ea (encode (.sh rs2 rs1 imm))) ∧
    (ea.toNat % 2 = 0 → ea.toNat + 2 ≤ s.lmemBytes →
      Completes s (exec (.sh rs2 rs1 imm) s) 0#4 0#32 (s.pc + 4) [(ea, [d.extractLsb' 0 8, d.extractLsb' 8 8])]) ∧
    (ea.toNat % 4 ≠ 0 → Faults s (exec (.sw rs2 rs1 imm) s) .storeMisaligned ea (encode (.sw rs2 rs1 imm))) ∧
    (ea.toNat % 4 = 0 → s.lmemBytes < ea.toNat + 4 →
      Faults s (exec (.sw rs2 rs1 imm) s) .storeAccess ea (encode (.sw rs2 rs1 imm))) ∧
    (ea.toNat % 4 = 0 → ea.toNat + 4 ≤ s.lmemBytes →
      Completes s (exec (.sw rs2 rs1 imm) s) 0#4 0#32 (s.pc + 4)
        [(ea, [d.extractLsb' 0 8, d.extractLsb' 8 8, d.extractLsb' 16 8, d.extractLsb' 24 8])])

/-- O13. Memory is little-endian: a read of k bytes is the sum of the bytes times 2^(8j), a write of k bytes puts
v[8j+7:8j] at a + j and leaves every other byte, and a 4-byte value reads back as its low half at a and its high half at
a + 2 (20_memory.md R61, R70). -/
def Obligations.MemoryIsLittleEndian : Prop :=
  (∀ (m : Memory) (a k : Nat) (bs : List Byte), Memory.read m a k = .ok bs →
    leNat bs = ∑ j ∈ Finset.range k, (bs.getD j 0).toNat * 2 ^ (8 * j) ∧
    ∀ j < k, Memory.byte m (a + j) = some (bs.getD j 0)) ∧
  (∀ (m : Memory) (a k v x : Nat), Memory.byte (Memory.write m a (leBytes k v)) x =
    if a ≤ x ∧ x < a + k then some (BitVec.ofNat 8 (v / 2 ^ (8 * (x - a)))) else Memory.byte m x) ∧
  ∀ (m : Memory) (a : Nat) (w : Word), ∃ lo hi,
    Memory.read (Memory.write m a (leBytes 4 w.toNat)) a 2 = .ok lo ∧
    Memory.read (Memory.write m a (leBytes 4 w.toNat)) (a + 2) 2 = .ok hi ∧
    leNat lo = w.toNat % 2 ^ 16 ∧ leNat hi = w.toNat / 2 ^ 16

-- Control transfer.

/-- O14. The branches: pc goes to pc + 4 * off16 when the condition holds and to pc + 4 when it does not, and nothing
else changes (48_base.md R258 to R264). -/
def Obligations.BranchResults : Prop :=
  ∀ (s : State) (rs1 rs2 : Reg) (off : BitVec 16),
    let a := s.reg rs1
    let b := s.reg rs2
    let target := BitVec.ofInt 32 (s.pc.toNat + 4 * off.toInt)
    (fieldOp (encode (.beq rs1 rs2 off)) = 0x30 ∧
      Completes s (exec (.beq rs1 rs2 off) s) 0#4 0#32 (if a = b then target else s.pc + 4) []) ∧
    (fieldOp (encode (.bne rs1 rs2 off)) = 0x31 ∧
      Completes s (exec (.bne rs1 rs2 off) s) 0#4 0#32 (if a ≠ b then target else s.pc + 4) []) ∧
    (fieldOp (encode (.blt rs1 rs2 off)) = 0x32 ∧
      Completes s (exec (.blt rs1 rs2 off) s) 0#4 0#32 (if a.toInt < b.toInt then target else s.pc + 4) []) ∧
    (fieldOp (encode (.bge rs1 rs2 off)) = 0x33 ∧
      Completes s (exec (.bge rs1 rs2 off) s) 0#4 0#32 (if b.toInt ≤ a.toInt then target else s.pc + 4) []) ∧
    (fieldOp (encode (.bltu rs1 rs2 off)) = 0x34 ∧
      Completes s (exec (.bltu rs1 rs2 off) s) 0#4 0#32 (if a.toNat < b.toNat then target else s.pc + 4) []) ∧
    (fieldOp (encode (.bgeu rs1 rs2 off)) = 0x35 ∧
      Completes s (exec (.bgeu rs1 rs2 off) s) 0#4 0#32 (if b.toNat ≤ a.toNat then target else s.pc + 4) [])

/-- O15. JAL jumps by 4 * off20 from itself and JALR to x[rs1] + imm16, read before rd is written; both link pc + 4; a
JALR target that is not a multiple of 4 raises FETCH_MISALIGNED(target) instead (48_base.md R265, R266). -/
def Obligations.JumpResults : Prop :=
  (∀ (s : State) (rd : Reg) (off : BitVec 20),
    fieldOp (encode (.jal rd off)) = 0x38 ∧
    Completes s (exec (.jal rd off) s) rd (s.pc + 4) (BitVec.ofInt 32 (s.pc.toNat + 4 * off.toInt)) []) ∧
  ∀ (s : State) (rd rs1 : Reg) (imm : BitVec 16),
    let target := dataAddress s rs1 imm
    fieldOp (encode (.jalr rd rs1 imm)) = 0x39 ∧
    (target.toNat % 4 ≠ 0 →
      Faults s (exec (.jalr rd rs1 imm) s) .fetchMisaligned target (encode (.jalr rd rs1 imm))) ∧
    (target.toNat % 4 = 0 → Completes s (exec (.jalr rd rs1 imm) s) rd (s.pc + 4) target [])

/-- O16. HALT clears RUN and STOPREQ, sets DONE, puts its own address in PC and changes nothing else; where the invariant
holds, CAUSE, FAULT_INFO and FAULT_INSN are 0 after it (48_base.md R267; 60_exceptions.md R277). -/
def Obligations.HaltEndsRun : Prop :=
  ∀ s : State,
    exec .halt s = .next { s with run := false, isDone := true, pcReg := s.pc, stopReq := false } ∧
    (Inv s → s.run = true → ∃ t, exec .halt s = .next t ∧ t.pc = s.pc ∧ t.cause = .none ∧ t.faultInfo = 0#32 ∧
      t.faultInsn = 0#32)

-- The GF unit.

/-- O17. GF.MUL is its datapath for every 16-bit first operand and the low m bits of the second; `clmul` is carry-less
multiplication (41_gf.md R121; 00_scope.md R14). -/
def Obligations.GfMulDatapath : Prop :=
  (∀ (a b : Gf) (k : Nat), k < 32 → (clmul a b).getLsbD k = parity (k + 1) fun i => a.getLsbD i && b.getLsbD (k - i)) ∧
  (∀ (s : State) (rd rs1 rs2 : Reg), s.build.variant.m = 12 →
    let p := clmul ((s.reg rs1).extractLsb' 0 16) ((s.reg rs2).extractLsb' 0 16 &&& 0x0FFF)
    let p1 := p ^^^ ((p &&& 0x7FC000) >>> 9) ^^^ ((p &&& 0x7FC000) >>> 12)
    let p2 := p1 ^^^ ((p1 &&& 0x003000) >>> 9) ^^^ ((p1 &&& 0x003000) >>> 12)
    Completes s (exec (.gfMul rd rs1 rs2) s) rd (p2 &&& 0x0FFF) (s.pc + 4) []) ∧
  ∀ (s : State) (rd rs1 rs2 : Reg), s.build.variant.m = 13 →
    let p := clmul ((s.reg rs1).extractLsb' 0 16) ((s.reg rs2).extractLsb' 0 16 &&& 0x1FFF)
    let t := p &&& 0x1FF0000
    let p1 := p ^^^ (t >>> 9) ^^^ (t >>> 10) ^^^ (t >>> 12) ^^^ (t >>> 13)
    let t1 := p1 &&& 0x000E000
    let p2 := p1 ^^^ (t1 >>> 9) ^^^ (t1 >>> 10) ^^^ (t1 >>> 12) ^^^ (t1 >>> 13)
    Completes s (exec (.gfMul rd rs1 rs2) s) rd (p2 &&& 0x1FFF) (s.pc + 4) []

/-- O18. For a canonical first operand the datapath gives the field product: the remainder of the carry-less product by
p(z), which is below 2^m and differs from the product by a multiple of p(z) (41_gf.md R121; 00_scope.md R9, R14). -/
def Obligations.GfMulIsFieldProduct : Prop :=
  ∀ (f : Field) (a b : Gf), Canonical f a →
    Canonical f (gfMul f a b) ∧
    ∃ q : Gf, clmul a (b &&& BitVec.ofNat 16 (2 ^ f.m - 1)) = clmul q (fieldPoly f) ^^^ (0#16 ++ gfMul f a b)

/-- O19. The laws of the field on canonical elements (41_gf.md R127). -/
def Obligations.GfFieldLaws : Prop :=
  ∀ (f : Field) (a b c : Gf), Canonical f a → Canonical f b → Canonical f c →
    gfMul f a b = gfMul f b a ∧
    gfMul f (gfMul f a b) c = gfMul f a (gfMul f b c) ∧
    gfMul f a (b ^^^ c) = gfMul f a b ^^^ gfMul f a c ∧
    gfMul f a 1 = a ∧
    gfMul f a 0 = 0 ∧
    (a ≠ 0 → gfMul f a (gfInv f a) = 1) ∧
    gfPow f a (2 ^ f.m) = a

/-- O20. GF.SQ is the square; GF.INV is a^(2^m - 2), which is the one inverse of a non-zero operand and 0 for 0; GF.FRAC
is num / den, and 0 for den = 0; each of the operands masked to m bits; and a word of GF.SQ or GF.INV whose rs2 field is
not 0 does not decode (41_gf.md R122, R123, R124). -/
def Obligations.GfSquareInverseFraction : Prop :=
  (∀ (s : State) (rd rs1 rs2 : Reg),
    let f := s.build.variant.field
    let a := regElement s rs1
    let num := regElement s rs2
    Completes s (exec (.gfSq rd rs1) s) rd (0#16 ++ gfMul f a a) (s.pc + 4) [] ∧
    (∃ b : Gf, Completes s (exec (.gfInv rd rs1) s) rd (0#16 ++ b) (s.pc + 4) [] ∧
      Canonical f b ∧ b = gfPow f a (2 ^ f.m - 2) ∧ (a = 0 → b = 0) ∧
      (a ≠ 0 → gfMul f a b = 1 ∧ ∀ c, Canonical f c → gfMul f a c = 1 → c = b)) ∧
    (∃ q : Gf, Completes s (exec (.gfFrac rd rs1 rs2) s) rd (0#16 ++ q) (s.pc + 4) [] ∧
      Canonical f q ∧ q = gfMul f (gfPow f a (2 ^ f.m - 2)) num ∧ (a = 0 → q = 0) ∧ (a ≠ 0 → gfMul f a q = num))) ∧
  ∀ w : Word, (fieldOp w = 0x41 ∨ fieldOp w = 0x42) → w.extractLsb' 16 4 ≠ 0#4 → decodeWord w = .error .mustBeZero

/-- O21. GF.ISZ writes 0x1FFF when the low 16 bits are all 0 and 0 otherwise; GF.BITREV writes the low m bits reversed;
and a word of either whose rs2 field is not 0 does not decode (41_gf.md R125, R126). -/
def Obligations.GfIszBitrevResults : Prop :=
  (∀ (s : State) (rd rs1 : Reg),
    Completes s (exec (.gfIsz rd rs1) s) rd (if (s.reg rs1).toNat % 2 ^ 16 = 0 then 0x00001FFF else 0) (s.pc + 4) [] ∧
    ∃ v : Word, Completes s (exec (.gfBitrev rd rs1) s) rd v (s.pc + 4) [] ∧
      ∀ j, v.getLsbD j = (decide (j < s.build.variant.m) && (s.reg rs1).getLsbD (s.build.variant.m - 1 - j))) ∧
  ∀ w : Word, (fieldOp w = 0x44 ∨ fieldOp w = 0x45) → w.extractLsb' 16 4 ≠ 0#4 → decodeWord w = .error .mustBeZero

-- Sorting.

/-- O22. SORT32 and SORT64 leave the same elements in non-decreasing signed, respectively unsigned, order in place, write 0
to rd, and fault with ENGINE_ACCESS for an array that does not fit (42_sort.md R140, R141, R142). -/
def Obligations.SortResults : Prop :=
  (∀ (s : State) (rd rb : Reg), WellFormed (.sort32 rd rb) = true →
    let x := s.reg rb
    let n := (s.reg (rb + 1#4)).toNat
    FaultsAtFirstBadBuffer (.sort32 rd rb) s [(x, 4 * n)] ∧
    ∀ bs : List Byte, bs.length = 4 * n → Fits s (x, 4 * n) → Holds s x bs →
      ∃ ys : List Byte, Completes s (exec (.sort32 rd rb) s) rd 0#32 (s.pc + 4) [(x, ys)] ∧ ys.length = 4 * n ∧
        ((List.range n).map (word ys)).Perm ((List.range n).map (word bs)) ∧
        ∀ i, i + 1 < n → (word ys i).toInt ≤ (word ys (i + 1)).toInt) ∧
  ∀ (s : State) (rd rb : Reg), WellFormed (.sort64 rd rb) = true →
    let x := s.reg rb
    let n := (s.reg (rb + 1#4)).toNat
    FaultsAtFirstBadBuffer (.sort64 rd rb) s [(x, 8 * n)] ∧
    ∀ bs : List Byte, bs.length = 8 * n → Fits s (x, 8 * n) → Holds s x bs →
      ∃ ys : List Byte, Completes s (exec (.sort64 rd rb) s) rd 0#32 (s.pc + 4) [(x, ys)] ∧ ys.length = 8 * n ∧
        ((List.range n).map (quad ys)).Perm ((List.range n).map (quad bs)) ∧
        ∀ i, i + 1 < n → (quad ys i).toNat ≤ (quad ys (i + 1)).toNat

-- Transpose, network, support.

/-- O23. TRANSPOSE writes the 64 by 64 matrix whose bit j of word i is bit i of word j of the input (43_benes.md R150). -/
def Obligations.TransposeResult : Prop :=
  ∀ (s : State) (rd rb : Reg), WellFormed (.transpose rd rb) = true →
    let out := s.reg rb
    let inp := s.reg (rb + 1#4)
    FaultsAtFirstBadBuffer (.transpose rd rb) s [(out, 512), (inp, 512)] ∧
    ∀ bs : List Byte, bs.length = 512 → Fits s (out, 512) → Fits s (inp, 512) → Holds s inp bs →
      ∃ ys : List Byte, Completes s (exec (.transpose rd rb) s) rd 0#32 (s.pc + 4) [(out, ys)] ∧ ys.length = 512 ∧
        ∀ i < 64, ∀ j < 64, (quad ys i).getLsbD j = (quad bs j).getLsbD i

/-- O24. In every layer of the network the pairs partition the positions: pair k joins lo and lo + 2^e, with e the stride
exponent, and every position is in exactly one pair (43_benes.md R151). -/
def Obligations.BenesPairsPartitionPositions : Prop :=
  ∀ m l : Nat, 0 < m → l < 2 * m - 1 →
    let e := strideExp m l
    e = (if l < m then l else 2 * m - 2 - l) ∧
    (∀ k < 2 ^ (m - 1), pairLo e k = k / 2 ^ e * 2 ^ (e + 1) + k % 2 ^ e ∧ pairHi e k = pairLo e k + 2 ^ e ∧
      pairHi e k < 2 ^ m) ∧
    ∀ i < 2 ^ m, ∃! k, k < 2 ^ (m - 1) ∧ (i = pairLo e k ∨ i = pairHi e k)

/-- O25. BENES applies the layers 0 to 2m - 2 in order for rev = 0 and in reverse order for rev = 1, each swapping the
pairs whose control bit is 1, to the N bits at r, in place (43_benes.md R152, R153). -/
def Obligations.BenesAppliesLayersInOrder : Prop :=
  ∀ (s : State) (rd rb : Reg) (rev : Bool), WellFormed (.benes rd rb rev) = true →
    let v := s.build.variant
    let r := s.reg rb
    let c := s.reg (rb + 1#4)
    FaultsAtFirstBadBuffer (.benes rd rb rev) s [(r, v.nfull / 8), (c, v.condBytes)] ∧
    ∀ rBytes cBytes : List Byte, rBytes.length = v.nfull / 8 → cBytes.length = v.condBytes →
      Fits s (r, v.nfull / 8) → Fits s (c, v.condBytes) → Holds s r rBytes → Holds s c cBytes →
      ∃ (ys : List Byte) (x : Nat → Nat → Bool),
        Completes s (exec (.benes rd rb rev) s) rd 0#32 (s.pc + 4) [(r, ys)] ∧ ys.length = v.nfull / 8 ∧
        (∀ i < v.nfull, x 0 i = bit rBytes i) ∧
        (∀ l < 2 * v.m - 1, LayerSwaps v.m cBytes (if rev then 2 * v.m - 2 - l else l) (x l) (x (l + 1))) ∧
        ∀ i < v.nfull, bit ys i = x (2 * v.m - 1) i

/-- O26. The forward pass moves the entries of any vector by the permutation that it moves the identity vector by, and the
reverse pass moves them back (43_benes.md R153, its meaning). -/
def Obligations.BenesMovesByOnePermutation : Prop :=
  ∀ (m : Nat) (c : List Byte), 0 < m →
    IsPermutation (2 ^ m) (networkPerm m c) ∧
    ∀ (α : Type) (x : Array α), x.size = 2 ^ m → ∀ i < 2 ^ m,
      (benesPass m false c.toArray x)[i]? = x[networkPerm m c i]? ∧
      (benesPass m true c.toArray x)[networkPerm m c i]? = x[i]?

/-- O27. CBITS writes the string of the control-bit algorithm when the N entries, all 16 bits of each, are a permutation of
0, ..., N - 1, the all-zero string for the identity, and raises BAD_PERM(pi) with nothing written when they are not; both
buffers are checked first (43_benes.md R154, R156). -/
def Obligations.CbitsResult : Prop :=
  ∀ (s : State) (rd rb : Reg), WellFormed (.cbits rd rb) = true →
    let v := s.build.variant
    let out := s.reg rb
    let pi := s.reg (rb + 1#4)
    FaultsAtFirstBadBuffer (.cbits rd rb) s [(out, v.condBytes), (pi, 2 * v.nfull)] ∧
    ∀ bs : List Byte, bs.length = 2 * v.nfull → Fits s (out, v.condBytes) → Fits s (pi, 2 * v.nfull) → Holds s pi bs →
      (IsPermutation v.nfull (fun i => (half bs i).toNat) →
        ∃ ys : List Byte, Completes s (exec (.cbits rd rb) s) rd 0#32 (s.pc + 4) [(out, ys)] ∧
          ys.length = v.condBytes ∧
          (∀ p < (2 * v.m - 1) * 2 ^ (v.m - 1),
            bit ys p = (controlBits v.m ((List.range v.nfull).map (half bs))).getD p false) ∧
          ((∀ i < v.nfull, (half bs i).toNat = i) → ys = List.replicate v.condBytes 0)) ∧
      (¬ IsPermutation v.nfull (fun i => (half bs i).toNat) →
        Faults s (exec (.cbits rd rb) s) .badPerm pi (encode (.cbits rd rb)))

/-- O28. SUPPORT writes the n elements L_i = bitrev(σ_c(i)), which are distinct, for every control-bit string c
(43_benes.md R157). -/
def Obligations.SupportResult : Prop :=
  ∀ (s : State) (rd rb : Reg), WellFormed (.support rd rb) = true →
    let v := s.build.variant
    let out := s.reg rb
    let c := s.reg (rb + 1#4)
    FaultsAtFirstBadBuffer (.support rd rb) s [(out, 2 * v.n), (c, v.condBytes)] ∧
    ∀ bs : List Byte, bs.length = v.condBytes → Fits s (out, 2 * v.n) → Fits s (c, v.condBytes) → Holds s c bs →
      ∃ ys : List Byte, Completes s (exec (.support rd rb) s) rd 0#32 (s.pc + 4) [(out, ys)] ∧ ys.length = 2 * v.n ∧
        (∀ i < v.n, half ys i = gfRev v.field (BitVec.ofNat 16 (networkPerm v.m bs i))) ∧
        ∀ i < v.n, ∀ j < v.n, half ys i = half ys j → i = j

-- Polynomials.

/-- O29. POLYMUL writes the t canonical coefficients of the product in R_t of its two masked operands; the element 1 as
first operand copies the second masked, and as second operand the first; and y^(t - 1) times y gives F(y) - y^t
(44_poly.md R171). -/
def Obligations.PolymulResult : Prop :=
  ∀ (s : State) (rd rb : Reg), WellFormed (.polymul rd rb) = true →
    let v := s.build.variant
    let out := s.reg rb
    let a := s.reg (rb + 1#4)
    let b := s.reg (rb + 2#4)
    FaultsAtFirstBadBuffer (.polymul rd rb) s [(out, 2 * v.t), (a, 2 * v.t), (b, 2 * v.t)] ∧
    ∀ as bs : List Byte, as.length = 2 * v.t → bs.length = 2 * v.t →
      Fits s (out, 2 * v.t) → Fits s (a, 2 * v.t) → Fits s (b, 2 * v.t) → Holds s a as → Holds s b bs →
      ∃ ys : List Byte, Completes s (exec (.polymul rd rb) s) rd 0#32 (s.pc + 4) [(out, ys)] ∧ ys.length = 2 * v.t ∧
        (∀ k < v.t, half ys k = gfAt (polymul v (elementArray v.field v.t as) (elementArray v.field v.t bs)) k ∧
          Canonical v.field (half ys k)) ∧
        ((∀ k < v.t, element v.field as k = if k = 0 then 1 else 0) → ∀ k < v.t, half ys k = element v.field bs k) ∧
        ((∀ k < v.t, element v.field bs k = if k = 0 then 1 else 0) → ∀ k < v.t, half ys k = element v.field as k) ∧
        ((∀ k < v.t, element v.field as k = if k = v.t - 1 then 1 else 0) →
          (∀ k < v.t, element v.field bs k = if k = 1 then 1 else 0) → ∀ k < v.t, half ys k = modulusCoeff v k)

/-- O30. The product in R_t is the remainder of the product of the polynomials by F(y), the polynomial that the table of
R10 gives the variant: coefficient by coefficient, the product is a multiple of F plus the t coefficients of the result
(44_poly.md R170; 00_scope.md R10). -/
def Obligations.PolymulIsRemainder : Prop :=
  ∀ (v : Variant) (a b : Array Gf),
    (∀ i < v.t, Canonical v.field (gfAt a i)) → (∀ i < v.t, Canonical v.field (gfAt b i)) →
    ∃ q : Nat → Gf, (∀ i, Canonical v.field (q i)) ∧ ∀ k < 2 * v.t - 1,
      gfXor v.t (fun i => if i ≤ k ∧ k - i < v.t then gfMul v.field (gfAt a i) (gfAt b (k - i)) else 0) =
        gfXor (v.t - 1) (fun i => if i ≤ k then gfMul v.field (q i) (modulusCoeff v (k - i)) else 0) ^^^
          (if k < v.t then gfAt (polymul v a b) k else 0)

/-- O31. GENPOLY writes the coefficients and 0 to rd when the minimal polynomial exists, and leaves memory unchanged with 1
in rd when it does not (44_poly.md R174). -/
def Obligations.GenpolyResult : Prop :=
  ∀ (s : State) (rd rb : Reg), WellFormed (.genpoly rd rb) = true →
    let v := s.build.variant
    let out := s.reg rb
    let f := s.reg (rb + 1#4)
    FaultsAtFirstBadBuffer (.genpoly rd rb) s [(out, 2 * v.t), (f, 2 * v.t)] ∧
    ∀ bs : List Byte, bs.length = 2 * v.t → Fits s (out, 2 * v.t) → Fits s (f, 2 * v.t) → Holds s f bs →
      ∃ ys : List Byte, ys.length = 2 * v.t ∧
        (∀ k < v.t, half ys k = (minimalPoly v (elementArray v.field v.t bs)).2.getD k 0) ∧
        Completes s (exec (.genpoly rd rb) s) rd
          (if (minimalPoly v (elementArray v.field v.t bs)).1 then 0#32 else 1#32) (s.pc + 4)
          (if (minimalPoly v (elementArray v.field v.t bs)).1 then [(out, ys)] else [])

/-- O32. The elimination succeeds exactly when the powers f^0, ..., f^(t-1) are linearly independent over the field, and
then its result is the g with f^t = sum of g_j f^j (44_poly.md R172). -/
def Obligations.GenpolyContract : Prop :=
  ∀ (v : Variant) (f : Array Gf), f.size = v.t → (∀ k < v.t, Canonical v.field (gfAt f k)) →
    ((minimalPoly v f).1 = true ↔
      ∀ g : Nat → Gf, (∀ j, Canonical v.field (g j)) → (∀ k < v.t, ringCombination v f g k = 0) → ∀ j < v.t, g j = 0) ∧
    ((minimalPoly v f).1 = true →
      (∀ j < v.t, Canonical v.field ((minimalPoly v f).2.getD j 0)) ∧
      ∀ k < v.t, gfAt (ringPow v f v.t) k = ringCombination v f (fun j => (minimalPoly v f).2.getD j 0) k)

/-- O33. EVAL writes the sum of F[i] a^i, i = 0, ..., t, to rd and no memory; ROOT writes that value at every support
element (44_poly.md R175, R176). -/
def Obligations.EvalRootResults : Prop :=
  (∀ (s : State) (rd rb : Reg), WellFormed (.eval rd rb) = true →
    let v := s.build.variant
    let f := s.reg rb
    FaultsAtFirstBadBuffer (.eval rd rb) s [(f, 2 * (v.t + 1))] ∧
    ∀ bs : List Byte, bs.length = 2 * (v.t + 1) → Fits s (f, 2 * (v.t + 1)) → Holds s f bs →
      Completes s (exec (.eval rd rb) s) rd
        (0#16 ++ polyValue v.field (v.t + 1) (element v.field bs) (regElement s (rb + 1#4))) (s.pc + 4) []) ∧
  ∀ (s : State) (rd rb : Reg), WellFormed (.root rd rb) = true →
    let v := s.build.variant
    let out := s.reg rb
    let f := s.reg (rb + 1#4)
    let l := s.reg (rb + 2#4)
    FaultsAtFirstBadBuffer (.root rd rb) s [(out, 2 * v.n), (f, 2 * (v.t + 1)), (l, 2 * v.n)] ∧
    ∀ bs ls : List Byte, bs.length = 2 * (v.t + 1) → ls.length = 2 * v.n →
      Fits s (out, 2 * v.n) → Fits s (f, 2 * (v.t + 1)) → Fits s (l, 2 * v.n) → Holds s f bs → Holds s l ls →
      ∃ ys : List Byte, Completes s (exec (.root rd rb) s) rd 0#32 (s.pc + 4) [(out, ys)] ∧ ys.length = 2 * v.n ∧
        ∀ i < v.n, half ys i = polyValue v.field (v.t + 1) (element v.field bs) (element v.field ls i)

/-- O34. BM writes the t + 1 coefficients of the locator of its 2t masked values, always, and y^t for the zero syndrome
(44_poly.md R178). -/
def Obligations.BmResult : Prop :=
  ∀ (s : State) (rd rb : Reg), WellFormed (.bm rd rb) = true →
    let v := s.build.variant
    let out := s.reg rb
    let a := s.reg (rb + 1#4)
    FaultsAtFirstBadBuffer (.bm rd rb) s [(out, 2 * (v.t + 1)), (a, 4 * v.t)] ∧
    ∀ bs : List Byte, bs.length = 4 * v.t → Fits s (out, 2 * (v.t + 1)) → Fits s (a, 4 * v.t) → Holds s a bs →
      ∃ ys : List Byte, Completes s (exec (.bm rd rb) s) rd 0#32 (s.pc + 4) [(out, ys)] ∧
        ys.length = 2 * (v.t + 1) ∧
        (∀ i < v.t + 1, half ys i = (locator v.field v.t (elementArray v.field (2 * v.t) bs)).getD i 0 ∧
          Canonical v.field (half ys i)) ∧
        ((∀ i < 2 * v.t, element v.field bs i = 0) → ∀ i < v.t + 1, half ys i = if i = v.t then 1 else 0)

/-- O35. Where Berlekamp-Massey ends with a length L of at most t, the polynomial C, of degree at most L and with C_0 = 1,
generates the sequence from L on, and the result is C reversed (44_poly.md R177). -/
def Obligations.BmOutputGeneratesSyndrome : Prop :=
  ∀ (f : Field) (t : Nat) (s : Array Gf), (∀ i < 2 * t, Canonical f (gfAt s i)) →
    let st := bmRun f t s (2 * t)
    st.len ≤ t →
      gfAt st.c 0 = 1 ∧
      (∀ i, st.len < i → gfAt st.c i = 0) ∧
      (∀ n, st.len ≤ n → n < 2 * t → gfXor (min n t + 1) (fun i => gfMul f (gfAt st.c i) (gfAt s (n - i))) = 0) ∧
      ∀ i < t + 1, (locator f t s).getD i 0 = gfAt st.c (t - i)

/-- O36. SYND writes the 2t sums over the positions with r_i = 1 of L_i^j / g(L_i)^2, 1/0 being 0
(44_poly.md R180, R181). -/
def Obligations.SyndResult : Prop :=
  ∀ (s : State) (rd rb : Reg), WellFormed (.synd rd rb) = true →
    let v := s.build.variant
    let out := s.reg rb
    let g := s.reg (rb + 1#4)
    let l := s.reg (rb + 2#4)
    let r := s.reg (rb + 3#4)
    FaultsAtFirstBadBuffer (.synd rd rb) s [(out, 4 * v.t), (g, 2 * (v.t + 1)), (l, 2 * v.n), (r, v.n / 8)] ∧
    ∀ gs ls rs : List Byte, gs.length = 2 * (v.t + 1) → ls.length = 2 * v.n → rs.length = v.n / 8 →
      Fits s (out, 4 * v.t) → Fits s (g, 2 * (v.t + 1)) → Fits s (l, 2 * v.n) → Fits s (r, v.n / 8) →
      Holds s g gs → Holds s l ls → Holds s r rs →
      ∃ ys : List Byte, Completes s (exec (.synd rd rb) s) rd 0#32 (s.pc + 4) [(out, ys)] ∧ ys.length = 4 * v.t ∧
        ∀ j < 2 * v.t, half ys j =
          syndromeValue v.field (v.t + 1) (element v.field gs) v.n (element v.field ls) (bit rs) j

-- Public-key generation.

/-- O37. PKGEN on the polynomial G (its leading 1 added) and the N keys: on failure 1 goes to rd and nothing is written;
on success 0 goes to rd and the key, the permutation and the pivot mask are written in that order, row q of the key
being columns R to n - 1 of row q of H with padding bits 0 (45_pkgen.md R190, R195). -/
def Obligations.PkgenResult : Prop :=
  ∀ (s : State) (rd rb : Reg), WellFormed (.pkgen rd rb) = true →
    let v := s.build.variant
    let pk := s.reg rb
    let g := s.reg (rb + 1#4)
    let perm := s.reg (rb + 2#4)
    let pi := s.reg (rb + 3#4)
    let pivots := s.reg (rb + 4#4)
    let bufs : List Buffer := [(pk, v.pkBytes), (g, 2 * v.t), (perm, 4 * v.nfull), (pi, 2 * v.nfull), (pivots, 8)]
    FaultsAtFirstBadBuffer (.pkgen rd rb) s bufs ∧
    ∀ gs ps : List Byte, gs.length = 2 * v.t → ps.length = 4 * v.nfull → (∀ b ∈ bufs, Fits s b) →
      Holds s g gs → Holds s perm ps →
      match publicKey v ((List.range v.t).map (element v.field gs) ++ [1]) ((List.range v.nfull).map (word ps)) with
      | none => Completes s (exec (.pkgen rd rb) s) rd 1#32 (s.pc + 4) []
      | some k =>
        ∃ pkBytes piBytes pivBytes : List Byte,
          Completes s (exec (.pkgen rd rb) s) rd 0#32 (s.pc + 4) [(pk, pkBytes), (pi, piBytes), (pivots, pivBytes)] ∧
          pkBytes.length = v.pkBytes ∧ piBytes.length = 2 * v.nfull ∧ pivBytes.length = 8 ∧
          (∀ q < v.pkNrows, ∀ c < 8 * v.pkRowBytes, bit pkBytes (8 * (q * v.pkRowBytes) + c) =
            (decide (c < v.pkNcols) && (k.h.getD q 0).getLsbD (v.pkNrows + c))) ∧
          (∀ i < v.nfull, half piBytes i = gfAt k.pi i) ∧
          quad pivBytes 0 = k.pivots

/-- O38. Step 1 of PKGEN fails exactly when two keys are equal, and PKGEN with it. Otherwise its list π of positions is the
one permutation that puts the keys in increasing order, and PKGEN is step 3, or step 3f where FAST = 1, on π and the
matrix of step 2 for the support L_j = bitrev(π(j)), j below n (45_pkgen.md R190, R191). -/
def Obligations.PkgenPermutationSortsKeys : Prop :=
  ∀ (v : Variant) (keys : List Word), keys.length = v.nfull →
    let pi := ((sortedKeys keys).map (positionOf v.field)).toArray
    let support := (List.range v.n).map fun j => gfRev v.field (gfAt pi j)
    (keyCollision (sortedKeys keys) = true ↔ ¬ keys.Nodup) ∧
    (¬ keys.Nodup → ∀ g : List Gf, publicKey v g keys = none) ∧
    (keys.Nodup → SortsKeys v keys pi ∧ (∀ p, SortsKeys v keys p → p = pi) ∧
      ∀ g : List Gf, publicKey v g keys =
        if v.fast then fastElim v (parityMatrix v g support) pi else plainElim v (parityMatrix v g support) pi)

/-- O39. Step 2 of PKGEN: the matrix has m t rows, and bit k of L_j^i / g(L_j), with 1/0 being 0, stands in row i m + k and
column j (45_pkgen.md R192). -/
def Obligations.ParityMatrixEntries : Prop :=
  ∀ (v : Variant) (g l : List Gf), (∀ x ∈ g, Canonical v.field x) → (∀ x ∈ l, Canonical v.field x) → l.length = v.n →
    (parityMatrix v g l).size = v.pkNrows ∧
    ∀ i < v.t, ∀ k < v.m, ∀ j < v.n,
      ((parityMatrix v g l).getD (i * v.m + k) 0).getLsbD j =
        (gfMul v.field (gfInv v.field (polyValue v.field g.length (fun e => g.getD e 0) (l.getD j 0)))
          (gfPow v.field (l.getD j 0) i)).getLsbD k

/-- O40. Step 3 of PKGEN: the elimination fails exactly when the left R by R block is singular (some non-zero choice of
columns adds up to 0); otherwise the left block becomes the identity and every row is a sum of rows of the given matrix
(45_pkgen.md R193). -/
def Obligations.PlainEliminationIsReduction : Prop :=
  ∀ (v : Variant) (h : Array (Row v.n)) (pi : Array Gf), h.size = v.pkNrows →
    (plainElim v h pi = none ↔ ∃ y : Nat → Bool, (∃ c < v.pkNrows, y c = true) ∧
      ∀ q < v.pkNrows, parity v.pkNrows (fun c => (h.getD q 0).getLsbD c && y c) = false) ∧
    ∀ k : PkResult v.n, plainElim v h pi = some k →
      k.pi = pi ∧ k.pivots = 0x00000000FFFFFFFF ∧
      (∀ q < v.pkNrows, ∀ r < v.pkNrows, (k.h.getD q 0).getLsbD r = decide (q = r)) ∧
      ∀ q < v.pkNrows, ∃ z : Nat → Bool, ∀ c < v.n, (k.h.getD q 0).getLsbD c = rowSum v.pkNrows h z c

/-- O41. Step 3f of PKGEN, with r0 = R - 32: it fails exactly when the first r0 columns are dependent (some non-zero choice
of them adds up to 0) or the first r0 + 64 have a rank below R (some non-zero sum of rows is 0 in all of them). On
success the left block is the identity; the mask has 32 bits, bit b being set when some sum of rows of the given matrix
has its first 1 at column r0 + b; and the swaps of columns r0 + j and r0 + s_j, s_j the j-th set bit of the mask, move π
in lock-step: position r0 + j then holds column r0 + s_j, no column outside the window of 64 moves, and every row of the
result is a sum of rows of the given matrix with its columns so moved (45_pkgen.md R194, R196). -/
def Obligations.FastEliminationMovesColumns : Prop :=
  ∀ (v : Variant) (h : Array (Row v.n)) (pi : Array Gf), h.size = v.pkNrows → pi.size = v.nfull →
    let rows := v.pkNrows
    let r0 := rows - 32
    (fastElim v h pi = none ↔
      (∃ y : Nat → Bool, (∃ c < r0, y c = true) ∧
        ∀ q < rows, parity r0 (fun c => (h.getD q 0).getLsbD c && y c) = false) ∨
      ∃ z : Nat → Bool, (∃ q < rows, z q = true) ∧ ∀ c < r0 + 64, rowSum rows h z c = false) ∧
    ∀ k : PkResult v.n, fastElim v h pi = some k →
      let s := maskBit k.pivots
      let col := movedColumn r0 s 32
      (∀ q < rows, ∀ r < rows, (k.h.getD q 0).getLsbD r = decide (q = r)) ∧
      weight 64 (fun i => k.pivots.getLsbD i) = 32 ∧
      (∀ b < 64, k.pivots.getLsbD b = true ↔
        ∃ z : Nat → Bool, (∀ c < r0 + b, rowSum rows h z c = false) ∧ rowSum rows h z (r0 + b) = true) ∧
      (∀ j < 32, col (r0 + j) = r0 + s j) ∧
      IsPermutation v.nfull col ∧
      (∀ c, c < r0 ∨ r0 + 64 ≤ c → col c = c) ∧
      (∀ i < v.nfull, gfAt k.pi i = gfAt pi (col i)) ∧
      ∀ q < rows, ∃ z : Nat → Bool, ∀ c < v.n, (k.h.getD q 0).getLsbD c = rowSum rows h z (col c)

-- The Niederreiter layer.

/-- O42. GENE takes the first t masked values below n: if there are t and they are distinct it writes the vector with a 1
exactly at those positions, of weight t, and 0 to rd; otherwise it writes no memory and 1 to rd
(46_niederreiter.md R200). -/
def Obligations.GeneResult : Prop :=
  ∀ (s : State) (rd rb : Reg), WellFormed (.gene rd rb) = true →
    let v := s.build.variant
    let e := s.reg rb
    let rand := s.reg (rb + 1#4)
    FaultsAtFirstBadBuffer (.gene rd rb) s [(e, v.n / 8), (rand, v.geRandBytes)] ∧
    ∀ bs : List Byte, bs.length = v.geRandBytes → Fits s (e, v.n / 8) → Fits s (rand, v.geRandBytes) → Holds s rand bs →
      let ind := (((List.range (v.geRandBytes / 2)).map fun i => (element v.field bs i).toNat).filter
        (fun x => decide (x < v.n))).take v.t
      ((ind.length = v.t ∧ ind.Nodup) →
        ∃ ys : List Byte, Completes s (exec (.gene rd rb) s) rd 0#32 (s.pc + 4) [(e, ys)] ∧ ys.length = v.n / 8 ∧
          (∀ j < v.n, bit ys j = decide (j ∈ ind)) ∧ weight v.n (bit ys) = v.t) ∧
      (¬ (ind.length = v.t ∧ ind.Nodup) → Completes s (exec (.gene rd rb) s) rd 1#32 (s.pc + 4) [])

/-- O43. ENCODE writes the R bits of [I_R | T] e over GF(2), padding bits 0, for every key and every e
(46_niederreiter.md R201). -/
def Obligations.EncodeResult : Prop :=
  ∀ (s : State) (rd rb : Reg), WellFormed (.encode rd rb) = true →
    let v := s.build.variant
    let syn := s.reg rb
    let pk := s.reg (rb + 1#4)
    let e := s.reg (rb + 2#4)
    FaultsAtFirstBadBuffer (.encode rd rb) s [(syn, v.syndBytes), (pk, v.pkBytes), (e, v.n / 8)] ∧
    ∀ pks es : List Byte, pks.length = v.pkBytes → es.length = v.n / 8 →
      Fits s (syn, v.syndBytes) → Fits s (pk, v.pkBytes) → Fits s (e, v.n / 8) → Holds s pk pks → Holds s e es →
      ∃ ys : List Byte, Completes s (exec (.encode rd rb) s) rd 0#32 (s.pc + 4) [(syn, ys)] ∧ ys.length = v.syndBytes ∧
        ∀ q < 8 * v.syndBytes, bit ys q =
          (decide (q < v.pkNrows) && (bit es q ^^
            parity v.pkNcols (fun c => bit pks (8 * (q * v.pkRowBytes) + c) && bit es (v.pkNrows + c))))

/-- O44. DECRYPT always writes the vector with a 1 at every position whose support element is a root of the locator of the
received word's syndrome, and writes 0 to rd exactly when that vector has weight t and the same syndrome
(46_niederreiter.md R202, R204). -/
def Obligations.DecryptResult : Prop :=
  ∀ (s : State) (rd rb : Reg), WellFormed (.decrypt rd rb) = true →
    let v := s.build.variant
    let f := v.field
    let e := s.reg rb
    let g := s.reg (rb + 1#4)
    let c := s.reg (rb + 2#4)
    let syn := s.reg (rb + 3#4)
    let bufs : List Buffer := [(e, v.n / 8), (g, 2 * v.t), (c, v.condBytes), (syn, v.syndBytes)]
    FaultsAtFirstBadBuffer (.decrypt rd rb) s bufs ∧
    ∀ gs cs ss : List Byte, gs.length = 2 * v.t → cs.length = v.condBytes → ss.length = v.syndBytes →
      (∀ b ∈ bufs, Fits s b) → Holds s g gs → Holds s c cs → Holds s syn ss →
      let goppa := fun i => if i < v.t then element f gs i else 1
      let support := fun i => gfRev f (BitVec.ofNat 16 (networkPerm v.m cs i))
      let received := fun i => decide (i < 8 * v.syndBytes) && bit ss i
      let s1 := syndromeValue f (v.t + 1) goppa v.n support received
      let loc := fun i => (locator f v.t (tabulate (2 * v.t) s1)).getD i 0
      ∃ (ys : List Byte) (status : Word),
        Completes s (exec (.decrypt rd rb) s) rd status (s.pc + 4) [(e, ys)] ∧ ys.length = v.n / 8 ∧
        (∀ i < v.n, bit ys i = decide (polyValue f (v.t + 1) loc (support i) = 0)) ∧
        (status = 0#32 ∨ status = 1#32) ∧
        (status = 0#32 ↔ weight v.n (bit ys) = v.t ∧
          ∀ j < 2 * v.t, syndromeValue f (v.t + 1) goppa v.n support (bit ys) j = s1 j)

-- SHAKE256.

/-- O45. SHAKE256 writes the first outlen bytes of the hash of the inlen bytes at in, and no buffer of length 0 is checked,
read or written (47_shake.md R225). -/
def Obligations.ShakeResult : Prop :=
  ∀ (s : State) (rd rb : Reg), WellFormed (.shake256 rd rb) = true →
    let out := s.reg rb
    let outlen := (s.reg (rb + 1#4)).toNat
    let inp := s.reg (rb + 2#4)
    let inlen := (s.reg (rb + 3#4)).toNat
    FaultsAtFirstBadBuffer (.shake256 rd rb) s [(out, outlen), (inp, inlen)] ∧
    ∀ msg : List Byte, msg.length = inlen → Fits s (out, outlen) → Fits s (inp, inlen) → Holds s inp msg →
      Completes s (exec (.shake256 rd rb) s) rd 0#32 (s.pc + 4) [(out, shake256 msg outlen)] ∧
      (shake256 msg outlen).length = outlen

/-- O46. SHAKE256(M, L) is the sponge: the padded message is absorbed in 136-byte blocks into the all-zero state, and byte j of the L bytes is byte
j mod 136 of the state after floor(j / 136) more permutations; so a shorter output is a prefix of a longer one
(47_shake.md R224). -/
def Obligations.ShakeIsSponge : Prop :=
  ∀ (msg : List Byte) (len : Nat),
    (∀ x y, lane keccakZero x y = 0) ∧
    (paddedMessage msg).length % 136 = 0 ∧
    (shake256 msg len).length = len ∧
    (∀ j < len, (shake256 msg len)[j]? = (squeezeBlock (keccakIterate (j / 136) (absorbed msg)))[j % 136]?) ∧
    ∀ more, len ≤ more → (shake256 msg more).take len = shake256 msg len

/-- O47. The lanes of one round of Keccak-f, step by step: θ, ρ and π by the table of rotation offsets, χ, ι, indices mod 5;
Keccak-f is the rounds 0 to 23, each with the constant that the LFSR gives it; a block is XORed into the lanes 0 to 16
before the permutation; and byte j of the output block is byte j mod 8 of lane floor(j / 8). The table of offsets is the
one of the generating walk (47_shake.md R220 to R223). -/
def Obligations.KeccakRoundLanes : Prop :=
  ∀ (a : Keccak) (rc : Lane), a.size = 25 →
    (∀ x y, lane (theta a) x y = lane a x y ^^^
      ((lane a (x + 4) 0 ^^^ lane a (x + 4) 1 ^^^ lane a (x + 4) 2 ^^^ lane a (x + 4) 3 ^^^ lane a (x + 4) 4) ^^^
        (lane a (x + 1) 0 ^^^ lane a (x + 1) 1 ^^^ lane a (x + 1) 2 ^^^ lane a (x + 1) 3 ^^^
          lane a (x + 1) 4).rotateLeft 1)) ∧
    (∀ x < 5, ∀ y < 5, lane (rhoPi a) y (2 * x + 3 * y) =
      (lane a x y).rotateLeft (rotationOffset x y)) ∧
    (rotationOffset 0 0 = 0 ∧
      ∀ s < 24, rotationOffset (rotationWalk s).1 (rotationWalk s).2 = (s + 1) * (s + 2) / 2 % 64) ∧
    (∀ x y, lane (chi a) x y = lane a x y ^^^ (~~~(lane a (x + 1) y) &&& lane a (x + 2) y)) ∧
    (∀ x < 5, ∀ y < 5, lane (keccakRound a rc) x y =
      lane (chi (rhoPi (theta a))) x y ^^^ (if x = 0 ∧ y = 0 then rc else 0)) ∧
    keccakF a = (List.range 24).foldl (fun b ir => keccakRound b (roundConstant ir)) a ∧
    ((squeezeBlock a).length = 136 ∧
      ∀ j < 136, (squeezeBlock a).getD j 0 = (lane a (j / 8 % 5) (j / 8 / 5)).extractLsb' (8 * (j % 8)) 8) ∧
    ∀ block : List Byte, block.length = 136 → ∃ b : Keccak, b.size = 25 ∧ absorbBlock a block = keccakF b ∧
      ∀ x < 5, ∀ y < 5, lane b x y = lane a x y ^^^ (if x + 5 * y < 17 then quad block (x + 5 * y) else 0)

-- The host port.

/-- O48. The HOST reads ID, VERSION, VARIANT and LMEMSZ as the constants of the instance at any time, and a write of them is
ignored without HERR (10_state.md R33, R34, R35). -/
def Obligations.IdentityRegisters : Prop :=
  ∀ (s : State) (rest : List HostEvent) (d : Word),
    (s.host = .read 0x00 4 :: rest → step s = .next { s with host := rest, hostData := 0x31434D43 }) ∧
    (s.host = .read 0x04 4 :: rest → step s = .next { s with host := rest, hostData := 0x00010000 }) ∧
    (s.host = .read 0x08 4 :: rest → step s = .next { s with
      host := rest
      hostData := BitVec.ofNat 32
        ((paramColumn s.build.variant).getD 0 0 + 2 ^ 4 * (paramColumn s.build.variant).getD 4 0) }) ∧
    (s.host = .read 0x0C 4 :: rest →
      step s = .next { s with host := rest, hostData := BitVec.ofNat 32 s.lmemBytes }) ∧
    ∀ off : BitVec 25, (off = 0x00 ∨ off = 0x04 ∨ off = 0x08 ∨ off = 0x0C) → s.host = .write off 4 d :: rest →
      step s = .next { s with host := rest }

/-- O49. CTRL: it reads as its three enable bits; a write sets the enables whatever RUN is, starts a run at ENTRY_PC with the
record of the last run cleared when RUN = 0 and START is written, and sets STOPREQ when RUN = 1 and STOP is written
(10_state.md R36). -/
def Obligations.CtrlAccess : Prop :=
  ∀ (s : State) (rest : List HostEvent) (d : Word),
    (s.host = .read 0x10 4 :: rest → ∃ c : Word, step s = .next { s with host := rest, hostData := c } ∧
      ∀ i, c.getLsbD i =
        (decide (i = 8) && s.ieDone || decide (i = 9) && s.ieFault || decide (i = 10) && s.ieStop)) ∧
    (s.host = .write 0x10 4 d :: rest →
      (s.run = false → d.getLsbD 0 = true → step s = .next { s with
        host := rest
        ieDone := d.getLsbD 8
        ieFault := d.getLsbD 9
        ieStop := d.getLsbD 10
        pc := s.entry ++ 0#2
        run := true
        isDone := false
        isFault := false
        isStopped := false
        cause := .none
        faultInfo := 0#32
        faultInsn := 0#32
        stopReq := false
        begun := false }) ∧
      (s.run = false → d.getLsbD 0 = false → step s = .next { s with
        host := rest
        ieDone := d.getLsbD 8
        ieFault := d.getLsbD 9
        ieStop := d.getLsbD 10 }) ∧
      (s.run = true → step s = .next { s with
        host := rest
        ieDone := d.getLsbD 8
        ieFault := d.getLsbD 9
        ieStop := d.getLsbD 10
        stopReq := s.stopReq || d.getLsbD 1 }))

/-- O50. STATUS: it reads as its bits, the cause code and the level of IRQ, the reserved bits 0; a write of 1 clears HERR,
and clears DONE, FAULT and STOPPED while RUN = 0 only; RUN, CAUSE and the rest are not written
(10_state.md R37, R44; 60_exceptions.md R271, R279). -/
def Obligations.StatusAccess : Prop :=
  ([Cause.none, .illegal, .fetchAccess, .fetchMisaligned, .loadMisaligned, .loadAccess, .storeMisaligned, .storeAccess,
    .engineAccess, .badPerm].map Cause.code = [0, 1, 2, 3, 4, 5, 6, 7, 8, 9]) ∧
  ∀ (s : State) (rest : List HostEvent) (d : Word),
    (s.host = .read 0x14 4 :: rest → ∃ c : Word, step s = .next { s with host := rest, hostData := c } ∧
      c.getLsbD 0 = s.run ∧ c.getLsbD 1 = s.isDone ∧ c.getLsbD 2 = s.isFault ∧ c.getLsbD 3 = s.isStopped ∧
      c.getLsbD 4 = s.herr ∧ c.extractLsb' 5 3 = 0#3 ∧ (c.extractLsb' 8 8).toNat = s.cause.code ∧
      c.getLsbD 16 = ((s.isDone && s.ieDone) || (s.isFault && s.ieFault) || (s.isStopped && s.ieStop)) ∧
      c.extractLsb' 17 15 = 0#15) ∧
    (s.host = .write 0x14 4 d :: rest →
      (s.run = false → step s = .next { s with
        host := rest
        isDone := s.isDone && !d.getLsbD 1
        isFault := s.isFault && !d.getLsbD 2
        isStopped := s.isStopped && !d.getLsbD 3
        herr := s.herr && !d.getLsbD 4 }) ∧
      (s.run = true → step s = .next { s with host := rest, herr := s.herr && !d.getLsbD 4 }))

/-- O51. ENTRY_PC reads with bits [1:0] 0 and is written while RUN = 0, a write while RUN = 1 being ignored with HERR; PC
reads the address where SEQ last stopped while RUN = 0, and some value, without HERR, while RUN = 1; FAULT_INFO and
FAULT_INSN read as the last fault left them (10_state.md R38 to R41; that the read while RUN = 1 takes a fresh free
value is log 5, that writes of the last three are ignored without HERR is log 9). -/
def Obligations.AddressAndFaultRegisters : Prop :=
  ∀ (s : State) (rest : List HostEvent) (d : Word),
    (s.host = .read 0x18 4 :: rest → step s = .next { s with host := rest, hostData := s.entry ++ 0#2 }) ∧
    (s.host = .write 0x18 4 d :: rest →
      (s.run = false → step s = .next { s with host := rest, entry := d.extractLsb' 2 30 }) ∧
      (s.run = true → step s = .next { s with host := rest, herr := true })) ∧
    (s.host = .read 0x1C 4 :: rest →
      (s.run = false → step s = .next { s with host := rest, hostData := s.pcReg }) ∧
      (s.run = true → ∃ c : Word, step s = .next { s with host := rest, hostData := c, draws := s.draws + 1 })) ∧
    (s.host = .read 0x20 4 :: rest → step s = .next { s with host := rest, hostData := s.faultInfo }) ∧
    (s.host = .read 0x24 4 :: rest → step s = .next { s with host := rest, hostData := s.faultInsn }) ∧
    ∀ off : BitVec 25, (off = 0x1C ∨ off = 0x20 ∨ off = 0x24) → s.host = .write off 4 d :: rest →
      step s = .next { s with host := rest }

/-- O52. The GPR window: while RUN = 0 a read returns x[i] and a write sets it, r0 excepted; while RUN = 1 a read returns 0, a
write is ignored, and both set HERR (10_state.md R42). -/
def Obligations.GprWindowAccess : Prop :=
  ∀ (s : State) (rest : List HostEvent) (i : Reg) (d : Word),
    let off := BitVec.ofNat 25 (0x100 + 4 * i.toNat)
    (s.run = false → s.host = .read off 4 :: rest → step s = .next { s with host := rest, hostData := s.reg i }) ∧
    (s.run = false → s.host = .write off 4 d :: rest → Completes (s.withHost rest) (step s) i d s.pc []) ∧
    (s.run = true → s.host = .read off 4 :: rest →
      step s = .next { s with host := rest, hostData := 0#32, herr := true }) ∧
    (s.run = true → s.host = .write off 4 d :: rest → step s = .next { s with host := rest, herr := true })

/-- O53. The LMEM window, byte a at offset 0x1000000 + a: while RUN = 0 an aligned read of 1, 2 or 4 bytes returns their
little-endian value and an aligned write stores the low bytes of the data; while RUN = 1, or at an address at or above
LMEMSZ, or misaligned, a read returns 0, a write is ignored, and HERR is set (20_memory.md R79). -/
def Obligations.LmemWindowAccess : Prop :=
  ∀ (s : State) (rest : List HostEvent) (a k : Nat) (d : Word), a < 2 ^ 24 → (k = 1 ∨ k = 2 ∨ k = 4) →
    let off := BitVec.ofNat 25 (0x1000000 + a)
    (s.run = false → a < s.lmemBytes → a % k = 0 →
      (∀ bs : List Byte, bs.length = k → Holds s (BitVec.ofNat 32 a) bs → s.host = .read off k :: rest →
        step s = .next { s with host := rest, hostData := BitVec.ofNat 32 (leNat bs) }) ∧
      (s.host = .write off k d :: rest → Completes (s.withHost rest) (step s) 0#4 0#32 s.pc
        [(BitVec.ofNat 32 a, (List.range k).map fun j => d.extractLsb' (8 * j) 8)])) ∧
    ((s.run = true ∨ s.lmemBytes ≤ a ∨ a % k ≠ 0) →
      (s.host = .read off k :: rest → step s = .next { s with host := rest, hostData := 0#32, herr := true }) ∧
      (s.host = .write off k d :: rest → step s = .next { s with host := rest, herr := true }))

/-- O54. A HOST access that is refused, at a reserved offset or of a wrong width or alignment, reads 0, is ignored and sets
HERR, whatever RUN is, and changes nothing else; IRQ does not follow HERR (10_state.md R32; 20_memory.md R79;
60_exceptions.md R281). -/
def Obligations.RefusedAccessOnlySetsHerr : Prop :=
  ∀ (s : State) (rest : List HostEvent) (off : BitVec 25) (k : Nat) (d : Word), ReservedOffset s off ∨ BadAccess off k →
    (s.host = .read off k :: rest → step s = .next { s with host := rest, hostData := 0#32, herr := true }) ∧
    (s.host = .write off k d :: rest → step s = .next { s with host := rest, herr := true }) ∧
    State.irq { s with herr := true } = State.irq s

/-- O55. While SEQ runs, at a boundary or in an instruction, no read or write of the host port changes a register, pc, LMEM,
RUN, ENTRY_PC, the record of the last run, the instruction in progress or the build; the HOST's access always completes (10_state.md R23; 20_memory.md R69, R80;
70_reset_and_hazards.md R309). -/
def Obligations.HostCannotDisturbRun : Prop :=
  ∀ (s : State) (rest : List HostEvent) (e : HostEvent), s.run = true → s.host = e :: rest →
    (∃ off k, e = .read off k) ∨ (∃ off k d, e = .write off k d) →
    ∃ t, step s = .next t ∧ (∀ i, t.reg i = s.reg i) ∧ t.pc = s.pc ∧ t.mem = s.mem ∧ t.run = true ∧
      t.isDone = s.isDone ∧ t.isFault = s.isFault ∧ t.isStopped = s.isStopped ∧ t.cause = s.cause ∧
      t.pcReg = s.pcReg ∧ t.faultInfo = s.faultInfo ∧ t.faultInsn = s.faultInsn ∧ t.entry = s.entry ∧
      t.begun = s.begun ∧ t.build = s.build

-- Reset and the whole machine.

/-- O56. The state after reset of an instance of any build, and after a reset event at any time, has the value that the table
gives every element, no instruction is in progress, and the build is not changed (70_reset_and_hazards.md R300, R301; the values the spec leaves open, of r1 to r15, pc and LMEM, are
not stated: logs 1, 2, 3, 11). -/
def Obligations.ResetLeavesTableValues : Prop :=
  ResetValues State.reset ∧
  (∀ b : Build, ResetValues (State.resetOf b) ∧ (State.resetOf b).build = b) ∧
  ∀ (s : State) (rest : List HostEvent), s.host = .reset :: rest →
    ∃ t, step s = .next t ∧ ResetValues t ∧ t.build = s.build ∧ t.host = rest

/-- O57. The invariant holds at reset, of an instance of any build. -/
def Obligations.InvariantAtReset : Prop := Inv State.reset ∧ ∀ b : Build, Inv (State.resetOf b)

/-- O58. Every step from a state that meets the invariant gives one that meets it, whatever the HOST does, and no step
changes the build (10_state.md R20, R25, R29, R37; 20_memory.md R60, R66). -/
def Obligations.InvariantKeptByStep : Prop :=
  ∀ s t : State, Inv s → step s = .next t → Inv t ∧ t.build = s.build

/-- O59. The frame of every instruction: where exec gives a next state, every register but the destination, what only the
HOST changes, and every byte outside the runs the instruction stores to are unchanged; and the status of the run is
unchanged too, unless the instruction is HALT or the state is its fault entry (60_exceptions.md R272, R273;
20_memory.md R66, R70; 10_state.md R21). -/
def Obligations.InstructionFrame : Prop :=
  ∀ (i : Instr) (s t : State), exec i s = .next t →
    (∀ r, r ≠ destReg i → t.reg r = s.reg r) ∧
    SameHostSide s t ∧
    (∀ a, (∀ run ∈ storedRuns s i, a < run.1 ∨ run.1 + run.2 ≤ a) → t.byte a = s.byte a) ∧
    (SameRun s t ∨
      (i = .halt ∧ t.run = false ∧ t.isDone = true ∧ t.pcReg = s.pc ∧ t.cause = s.cause) ∨
      ∃ c info, c ≠ .none ∧ FaultEntry s t c info (encode i))

/-- O60. A run ends in exactly one of three ways: DONE by a fetched HALT, FAULT by a fault entry, or STOPPED by a
STOP pending at a boundary; PC is then the address SEQ was at. And no step of the machine is refused, and the model stops only at a byte of
local memory that nothing has written (70_reset_and_hazards.md R304; 60_exceptions.md R273, R277, R278; the stop is
log 3). -/
def Obligations.RunEndsInOneOfThreeWays : Prop :=
  (∀ s t : State, Inv s → s.run = true → s.host = [] → step s = .next t → t.run = false →
    t.pcReg = s.pc ∧
    ((t.isDone = true ∧ t.isFault = false ∧ t.isStopped = false ∧ t.cause = .none ∧ Fetches s (encode .halt)) ∨
      (t.isDone = false ∧ t.isFault = true ∧ t.isStopped = false ∧ (s.begun = true ∨ s.stopReq = false) ∧
        ∃ c info w, c ≠ .none ∧ FaultEntry s.finish t c info w) ∨
      (t.isDone = false ∧ t.isFault = false ∧ t.isStopped = true ∧ t.cause = .none ∧ s.stopReq = true ∧
        s.begun = false))) ∧
  ∀ s : State, (∀ r, step s ≠ .refused r) ∧
    ∀ a, step s = .fault (.unwritten a) → s.byte a = none ∧ a < s.lmemBytes
end

