-- ==== Sys2Proof/Laws/Codec.lean ====
section
/-!
SUPPORT. The fields of the words the formats build, and the words rebuilt from their fields (spec/30_encoding.md R92 to
R98): what the round trips of the decoder and the encoder rest on.
-/

namespace Sys2Proof

theorem zeroFrom_iff (w : Word) (lo : Nat) : zeroFrom w lo = true ↔ ∀ j, lo ≤ j → w.getLsbD j = false := by
  constructor
  · intro h j hj
    have h' : w >>> lo = 0#32 := by simpa [zeroFrom] using h
    have := congrArg (fun v => BitVec.getLsbD v (j - lo)) h'
    simp only [BitVec.getLsbD_ushiftRight, BitVec.getLsbD_zero] at this
    rwa [show lo + (j - lo) = j by omega] at this
  · intro h
    simp only [zeroFrom, beq_iff_eq]
    apply BitVec.eq_of_getLsbD_eq
    intro j _
    simp [BitVec.getLsbD_ushiftRight, h (lo + j) (by omega)]

@[simp] theorem fieldOp_formR (op : BitVec 8) (rd rs1 rs2 : Reg) : fieldOp (formR op rd rs1 rs2) = op := by
  unfold fieldOp formR
  apply BitVec.eq_of_getLsbD_eq
  intro j hj
  simp only [BitVec.getLsbD_extractLsb', BitVec.getLsbD_append]
  grind

@[simp] theorem fieldA_formR (op : BitVec 8) (rd rs1 rs2 : Reg) : fieldA (formR op rd rs1 rs2) = rd := by
  unfold fieldA formR
  apply BitVec.eq_of_getLsbD_eq
  intro j hj
  simp only [BitVec.getLsbD_extractLsb', BitVec.getLsbD_append]
  grind

@[simp] theorem fieldB_formR (op : BitVec 8) (rd rs1 rs2 : Reg) : fieldB (formR op rd rs1 rs2) = rs1 := by
  unfold fieldB formR
  apply BitVec.eq_of_getLsbD_eq
  intro j hj
  simp only [BitVec.getLsbD_extractLsb', BitVec.getLsbD_append]
  grind

@[simp] theorem fieldC_formR (op : BitVec 8) (rd rs1 rs2 : Reg) : fieldC (formR op rd rs1 rs2) = rs2 := by
  unfold fieldC formR
  apply BitVec.eq_of_getLsbD_eq
  intro j hj
  simp only [BitVec.getLsbD_extractLsb', BitVec.getLsbD_append]
  grind

@[simp] theorem fieldOp_formI (op : BitVec 8) (a b : Reg) (imm : BitVec 16) : fieldOp (formI op a b imm) = op := by
  unfold fieldOp formI
  apply BitVec.eq_of_getLsbD_eq
  intro j hj
  simp only [BitVec.getLsbD_extractLsb', BitVec.getLsbD_append]
  grind

@[simp] theorem fieldA_formI (op : BitVec 8) (a b : Reg) (imm : BitVec 16) : fieldA (formI op a b imm) = a := by
  unfold fieldA formI
  apply BitVec.eq_of_getLsbD_eq
  intro j hj
  simp only [BitVec.getLsbD_extractLsb', BitVec.getLsbD_append]
  grind

@[simp] theorem fieldB_formI (op : BitVec 8) (a b : Reg) (imm : BitVec 16) : fieldB (formI op a b imm) = b := by
  unfold fieldB formI
  apply BitVec.eq_of_getLsbD_eq
  intro j hj
  simp only [BitVec.getLsbD_extractLsb', BitVec.getLsbD_append]
  grind

@[simp] theorem fieldImm_formI (op : BitVec 8) (a b : Reg) (imm : BitVec 16) : fieldImm (formI op a b imm) = imm := by
  unfold fieldImm formI
  apply BitVec.eq_of_getLsbD_eq
  intro j hj
  simp only [BitVec.getLsbD_extractLsb', BitVec.getLsbD_append]
  grind

@[simp] theorem fieldOp_formShift (op : BitVec 8) (rd rs1 : Reg) (sh : BitVec 5) : fieldOp (formShift op rd rs1 sh) = op := by
  unfold fieldOp formShift
  apply BitVec.eq_of_getLsbD_eq
  intro j hj
  simp only [BitVec.getLsbD_extractLsb', BitVec.getLsbD_append]
  grind

@[simp] theorem fieldA_formShift (op : BitVec 8) (rd rs1 : Reg) (sh : BitVec 5) : fieldA (formShift op rd rs1 sh) = rd := by
  unfold fieldA formShift
  apply BitVec.eq_of_getLsbD_eq
  intro j hj
  simp only [BitVec.getLsbD_extractLsb', BitVec.getLsbD_append]
  grind

@[simp] theorem fieldB_formShift (op : BitVec 8) (rd rs1 : Reg) (sh : BitVec 5) : fieldB (formShift op rd rs1 sh) = rs1 := by
  unfold fieldB formShift
  apply BitVec.eq_of_getLsbD_eq
  intro j hj
  simp only [BitVec.getLsbD_extractLsb', BitVec.getLsbD_append]
  grind

@[simp] theorem fieldSh_formShift (op : BitVec 8) (rd rs1 : Reg) (sh : BitVec 5) : fieldSh (formShift op rd rs1 sh) = sh := by
  unfold fieldSh formShift
  apply BitVec.eq_of_getLsbD_eq
  intro j hj
  simp only [BitVec.getLsbD_extractLsb', BitVec.getLsbD_append]
  grind

@[simp] theorem fieldOp_formJ (op : BitVec 8) (rd : Reg) (off : BitVec 20) : fieldOp (formJ op rd off) = op := by
  unfold fieldOp formJ
  apply BitVec.eq_of_getLsbD_eq
  intro j hj
  simp only [BitVec.getLsbD_extractLsb', BitVec.getLsbD_append]
  grind

@[simp] theorem fieldA_formJ (op : BitVec 8) (rd : Reg) (off : BitVec 20) : fieldA (formJ op rd off) = rd := by
  unfold fieldA formJ
  apply BitVec.eq_of_getLsbD_eq
  intro j hj
  simp only [BitVec.getLsbD_extractLsb', BitVec.getLsbD_append]
  grind

@[simp] theorem fieldOff20_formJ (op : BitVec 8) (rd : Reg) (off : BitVec 20) : fieldOff20 (formJ op rd off) = off := by
  unfold fieldOff20 formJ
  apply BitVec.eq_of_getLsbD_eq
  intro j hj
  simp only [BitVec.getLsbD_extractLsb', BitVec.getLsbD_append]
  grind

@[simp] theorem zeroFrom_formR (op : BitVec 8) (rd rs1 rs2 : Reg) : zeroFrom (formR op rd rs1 rs2) 20 = true := by
  rw [zeroFrom_iff]
  intro j hj
  unfold formR
  simp only [BitVec.getLsbD_append]
  grind

@[simp] theorem zeroFrom_formR_two (op : BitVec 8) (rd rs1 : Reg) : zeroFrom (formR op rd rs1 0) 16 = true := by
  rw [zeroFrom_iff]
  intro j hj
  unfold formR
  simp only [BitVec.getLsbD_append]
  grind

@[simp] theorem zeroFrom_formShift (op : BitVec 8) (rd rs1 : Reg) (sh : BitVec 5) : zeroFrom (formShift op rd rs1 sh) 21 = true := by
  rw [zeroFrom_iff]
  intro j hj
  unfold formShift
  simp only [BitVec.getLsbD_append]
  grind

theorem formR_fields (w : Word) (h : zeroFrom w 20 = true) : formR (fieldOp w) (fieldA w) (fieldB w) (fieldC w) = w := by
  rw [zeroFrom_iff] at h
  unfold formR fieldOp fieldA fieldB fieldC
  apply BitVec.eq_of_getLsbD_eq
  intro j hj
  simp only [BitVec.getLsbD_extractLsb', BitVec.getLsbD_append]
  grind

theorem formR_two_fields (w : Word) (h : zeroFrom w 16 = true) : formR (fieldOp w) (fieldA w) (fieldB w) 0 = w := by
  rw [zeroFrom_iff] at h
  unfold formR fieldOp fieldA fieldB
  apply BitVec.eq_of_getLsbD_eq
  intro j hj
  simp only [BitVec.getLsbD_extractLsb', BitVec.getLsbD_append]
  grind

theorem formI_fields (w : Word) : formI (fieldOp w) (fieldA w) (fieldB w) (fieldImm w) = w := by
  unfold formI fieldOp fieldA fieldB fieldImm
  apply BitVec.eq_of_getLsbD_eq
  intro j hj
  simp only [BitVec.getLsbD_extractLsb', BitVec.getLsbD_append]
  grind

theorem formShift_fields (w : Word) (h : zeroFrom w 21 = true) : formShift (fieldOp w) (fieldA w) (fieldB w) (fieldSh w) = w := by
  rw [zeroFrom_iff] at h
  unfold formShift fieldOp fieldA fieldB fieldSh
  apply BitVec.eq_of_getLsbD_eq
  intro j hj
  simp only [BitVec.getLsbD_extractLsb', BitVec.getLsbD_append]
  grind

theorem formJ_fields (w : Word) : formJ (fieldOp w) (fieldA w) (fieldOff20 w) = w := by
  unfold formJ fieldOp fieldA fieldOff20
  apply BitVec.eq_of_getLsbD_eq
  intro j hj
  simp only [BitVec.getLsbD_extractLsb', BitVec.getLsbD_append]
  grind

/-- The four bytes of a word put together again. -/
@[simp] theorem wordOfBytes_wordByte (w : Word) :
    wordOfBytes (wordByte w 0) (wordByte w 1) (wordByte w 2) (wordByte w 3) = w := by
  unfold wordOfBytes wordByte
  apply BitVec.eq_of_getLsbD_eq
  intro j hj
  simp only [BitVec.getLsbD_extractLsb', BitVec.getLsbD_append]
  grind

/-- Four bytes are the bytes of the word they make. -/
theorem bytesOfWord_wordOfBytes (b0 b1 b2 b3 : Byte) : bytesOfWord (wordOfBytes b0 b1 b2 b3) = [b0, b1, b2, b3] := by
  unfold bytesOfWord wordOfBytes wordByte
  simp only [List.cons.injEq, and_true]
  refine ⟨?_, ?_, ?_, ?_⟩
  · apply BitVec.eq_of_getLsbD_eq
    intro j hj
    simp only [BitVec.getLsbD_extractLsb', BitVec.getLsbD_append]
    grind
  · apply BitVec.eq_of_getLsbD_eq
    intro j hj
    simp only [BitVec.getLsbD_extractLsb', BitVec.getLsbD_append]
    grind
  · apply BitVec.eq_of_getLsbD_eq
    intro j hj
    simp only [BitVec.getLsbD_extractLsb', BitVec.getLsbD_append]
    grind
  · apply BitVec.eq_of_getLsbD_eq
    intro j hj
    simp only [BitVec.getLsbD_extractLsb', BitVec.getLsbD_append]
    grind

/-- The decoder reads the first word of the bytes. -/
theorem decode_bytesOfWord (w : Word) (rest : List Byte) :
    decode (bytesOfWord w ++ rest) = match decodeWord w with
      | .ok i => .ok (i, rest)
      | .error e => .error e := by
  cases h : decodeWord w <;> simp [bytesOfWord, decode, h]

end Sys2Proof
end

