-- ==== Sys2Proof/Laws/Memory.lean ====
section
/-!
SUPPORT. The laws of local memory: a read after a write to the same place gives what was written, a write leaves every
other byte alone, and every operation keeps the canonical form (spec/20_memory.md R61, R70).
-/

namespace Sys2Proof.Machine

theorem Memory.byte_eq_lookup (m : Memory) (a : Nat) : m.byte a = m.lookup a := by
  unfold Memory.byte Memory.unlisted; cases m.lookup a <;> rfl

theorem Memory.lookup_filter_eq (m : Memory) (p : Nat → Bool) (a : Nat) :
    List.lookup a (m.filter fun c => p c.1) = if p a then m.lookup a else none := by
  induction m with
  | nil => simp
  | cons c m ih =>
    obtain ⟨x, b⟩ := c
    by_cases hx : a = x
    · subst hx
      cases hp : p a
      · rw [List.filter_cons_of_neg (by simp [hp]), ih, hp]
        rfl
      · rw [List.filter_cons_of_pos (by simp [hp])]
        simp
    · have hx' : (a == x) = false := by simpa using hx
      by_cases hp : p x
      · simp [hp, List.lookup_cons, hx', ih]
      · simp [hp, List.lookup_cons, hx', ih]

theorem Memory.lookup_cells (a : Nat) (bs : List Byte) (x : Nat) :
    List.lookup x (Memory.cells a bs) = if a ≤ x then bs[x - a]? else none := by
  induction bs generalizing a with
  | nil => simp [Memory.cells]
  | cons b bs ih =>
    unfold Memory.cells
    by_cases hx : x = a
    · subst hx; simp
    · have hx' : (x == a) = false := by simpa using hx
      rw [List.lookup_cons, hx', ih]
      by_cases h : a ≤ x
      · have h1 : a + 1 ≤ x := by omega
        have h2 : x - a = (x - (a + 1)) + 1 := by omega
        simp [h, h1, h2]
      · have h1 : ¬ a + 1 ≤ x := by omega
        simp [h, h1]

/-- The bytes after a write: inside the written run the new bytes, elsewhere the old (20_memory.md R61, R70). -/
theorem Memory.byte_write (m : Memory) (a : Nat) (bs : List Byte) (x : Nat) :
    (m.write a bs).byte x = if a ≤ x ∧ x < a + bs.length then bs[x - a]? else m.byte x := by
  have h1 := Memory.lookup_filter_eq m (fun y => decide (y < a)) x
  have h2 := Memory.lookup_filter_eq m (fun y => decide (a + bs.length ≤ y)) x
  rw [Memory.byte_eq_lookup, Memory.byte_eq_lookup, Memory.write, List.lookup_append, List.lookup_append, h1, h2,
    Memory.lookup_cells]
  by_cases hlo : a ≤ x
  · by_cases hhi : x < a + bs.length
    · have : x - a < bs.length := by omega
      have h3 : ¬ x < a := by omega
      have h4 : ¬ a + bs.length ≤ x := by omega
      simp [hlo, hhi, h3, h4]
    · have h3 : ¬ x < a := by omega
      have h4 : a + bs.length ≤ x := by omega
      have h5 : bs[x - a]? = none := by simp; omega
      simp [hlo, hhi, h3, h4, h5]
  · have h3 : x < a := by omega
    have h4 : ¬ a + bs.length ≤ x := by omega
    simp [hlo, h3, h4]

theorem Memory.byte_write_inside (m : Memory) (a : Nat) (bs : List Byte) (i : Nat) (h : i < bs.length) :
    (m.write a bs).byte (a + i) = some bs[i] := by
  rw [Memory.byte_write]; simp [h]

theorem Memory.byte_write_outside (m : Memory) (a : Nat) (bs : List Byte) (x : Nat) (h : x < a ∨ a + bs.length ≤ x) :
    (m.write a bs).byte x = m.byte x := by
  rw [Memory.byte_write]; split
  · omega
  · rfl

/-- A run of bytes is read exactly when each of them has been written, and is then those bytes. -/
theorem Memory.read_eq_ok (m : Memory) (a len : Nat) (bs : List Byte) :
    m.read a len = .ok bs ↔ bs.length = len ∧ ∀ i, (h : i < bs.length) → m.byte (a + i) = some bs[i] := by
  induction len generalizing a bs with
  | zero =>
    unfold Memory.read
    constructor
    · intro h; cases h; simp
    · rintro ⟨h, -⟩; rw [List.eq_nil_of_length_eq_zero h]
  | succ len ih =>
    unfold Memory.read
    constructor
    · intro h
      cases hb : m.byte a with
      | none => rw [hb] at h; cases h
      | some b =>
        rw [hb] at h
        cases hr : m.read (a + 1) len with
        | error e => simp only [hr] at h; cases h
        | ok rest =>
          simp only [hr] at h; cases h
          obtain ⟨h1, h2⟩ := (ih _ _).mp hr
          refine ⟨by simp [h1], ?_⟩
          rintro (_ | i) hi
          · simpa using hb
          · have := h2 i (by simpa using hi)
            rw [show a + (i + 1) = a + 1 + i by omega]; simpa using this
    · rintro ⟨h1, h2⟩
      cases bs with
      | nil => simp at h1
      | cons b rest =>
        have hb : m.byte a = some b := h2 0 (by simp)
        have hr : m.read (a + 1) len = .ok rest := by
          refine (ih _ _).mpr ⟨by simpa using h1, fun i hi => ?_⟩
          have := h2 (i + 1) (by simpa using hi)
          rw [show a + 1 + i = a + (i + 1) by omega]; simpa using this
        rw [hb]; simp only [hr]

/-- A run of bytes that cannot be read names an address in it that nothing has written. -/
theorem Memory.read_eq_error (m : Memory) (a len e : Nat) (h : m.read a len = .error e) :
    a ≤ e ∧ e < a + len ∧ m.byte e = none := by
  induction len generalizing a with
  | zero => unfold Memory.read at h; cases h
  | succ len ih =>
    unfold Memory.read at h
    cases hb : m.byte a with
    | none => rw [hb] at h; cases h; exact ⟨by omega, by omega, hb⟩
    | some b =>
      rw [hb] at h
      cases hr : m.read (a + 1) len with
      | ok bs => simp only [hr] at h; cases h
      | error e' =>
        simp only [hr] at h; cases h
        have := ih _ hr
        exact ⟨by omega, by omega, this.2.2⟩

theorem Memory.read_length {m : Memory} {a len : Nat} {bs : List Byte} (h : m.read a len = .ok bs) : bs.length = len :=
  ((Memory.read_eq_ok _ _ _ _).mp h).1

/-- What was written is read back (20_memory.md R61). -/
theorem Memory.read_write (m : Memory) (a : Nat) (bs : List Byte) : (m.write a bs).read a bs.length = .ok bs :=
  (Memory.read_eq_ok _ _ _ _).mpr ⟨rfl, fun i h => Memory.byte_write_inside m a bs i h⟩

/-- A read that does not meet the written run is not changed by the write. -/
theorem Memory.read_write_disjoint (m : Memory) (a : Nat) (bs : List Byte) (x len : Nat)
    (h : x + len ≤ a ∨ a + bs.length ≤ x) : (m.write a bs).read x len = m.read x len := by
  induction len generalizing x with
  | zero => rfl
  | succ len ih =>
    have hb : (m.write a bs).byte x = m.byte x := Memory.byte_write_outside m a bs x (by omega)
    unfold Memory.read
    rw [hb, ih (x + 1) (by omega)]

theorem Memory.mem_cells {a : Nat} {bs : List Byte} {c : Host.Cell} (h : c ∈ Memory.cells a bs) :
    a ≤ c.1 ∧ c.1 < a + bs.length := by
  induction bs generalizing a with
  | nil => simp [Memory.cells] at h
  | cons b bs ih =>
    simp only [Memory.cells, List.mem_cons] at h
    rcases h with rfl | h
    · simp
    · have := ih h; simp only [List.length_cons]; omega

theorem Memory.wf_cells (a : Nat) (bs : List Byte) : Memory.wf (Memory.cells a bs) := by
  induction bs generalizing a with
  | nil => exact List.Pairwise.nil
  | cons b bs ih => exact List.Pairwise.cons (fun d hd => by have := Memory.mem_cells hd; simp; omega) (ih _)

/-- A write keeps the canonical form. -/
theorem Memory.wf_write {m : Memory} (h : m.wf) (a : Nat) (bs : List Byte) : (m.write a bs).wf := by
  unfold Memory.wf Memory.write
  refine List.pairwise_append.mpr ⟨h.filter _, List.pairwise_append.mpr ⟨Memory.wf_cells a bs, h.filter _, ?_⟩, ?_⟩
  · intro c hc d hd
    have := Memory.mem_cells hc
    simp only [List.mem_filter, decide_eq_true_eq] at hd
    omega
  · intro c hc d hd
    simp only [List.mem_filter, decide_eq_true_eq] at hc
    rcases List.mem_append.mp hd with hd | hd
    · have := Memory.mem_cells hd; omega
    · simp only [List.mem_filter, decide_eq_true_eq] at hd; omega

/-- The addresses listed after a write: those of the written run, and others that were listed before. -/
theorem Memory.mem_write {m : Memory} {a : Nat} {bs : List Byte} {c : Host.Cell} (h : c ∈ m.write a bs) :
    c ∈ m ∨ (a ≤ c.1 ∧ c.1 < a + bs.length) := by
  rcases List.mem_append.mp h with h | h
  · exact .inl (List.mem_filter.mp h).1
  · rcases List.mem_append.mp h with h | h
    · exact .inr (Memory.mem_cells h)
    · exact .inl (List.mem_filter.mp h).1

@[simp] theorem leBytes_length (k v : Nat) : (leBytes k v).length = k := by
  induction k generalizing v with
  | zero => rfl
  | succ k ih => simp [leBytes, ih]

/-- Writing a value in k bytes and reading them back gives the value modulo 2^(8k) (20_memory.md R61). -/
theorem leNat_leBytes (k v : Nat) : leNat (leBytes k v) = v % 256 ^ k := by
  induction k generalizing v with
  | zero => simp [leBytes, leNat, Nat.mod_one]
  | succ k ih =>
    simp only [leBytes, leNat, ih, BitVec.toNat_ofNat]
    rw [show (2 : Nat) ^ 8 = 256 from rfl, Nat.pow_succ, Nat.mul_comm (256 ^ k) 256, Nat.mod_mul]

theorem leNat_lt (bs : List Byte) : leNat bs < 256 ^ bs.length := by
  induction bs with
  | nil => simp [leNat]
  | cons b bs ih =>
    have := b.isLt
    simp only [leNat, List.length_cons, Nat.pow_succ]
    omega

end Sys2Proof.Machine
end

