-- ==== Sys2Proof/Laws/Lengths.lean ====
section
/-!
SUPPORT. How many bytes, elements and bits the functions of the engines give: one lemma per function. An engine's outputs
have exactly the lengths of the buffers its rule lists (spec/20_memory.md R66, R67).
-/

namespace Sys2Proof.Machine

@[simp] theorem tabulate_size {α : Type} (n : Nat) (f : Nat → α) : (tabulate n f).size = n := by simp [tabulate]

theorem tabulate_getD {α : Type} (n : Nat) (f : Nat → α) (d : α) (i : Nat) :
    (tabulate n f).getD i d = if i < n then f i else d := by
  by_cases h : i < n <;> simp [tabulate, Array.getD, h]

@[simp] theorem bytesOf_length {w : Nat} (k : Nat) (xs : List (BitVec w)) : (bytesOf k xs).length = k * xs.length := by
  induction xs with
  | nil => simp [bytesOf]
  | cons x xs ih =>
    simp only [bytesOf, List.flatMap_cons, List.length_append, leBytes_length, List.length_cons] at ih ⊢
    rw [ih, Nat.mul_succ, Nat.add_comm]

@[simp] theorem elems16_length (bs : List Byte) : (elems16 bs).length = bs.length / 2 := by
  fun_induction elems16 bs with
  | case1 b0 b1 rest ih => simp only [List.length_cons, ih]; omega
  | case2 bs h =>
    rcases bs with _ | ⟨b0, _ | ⟨b1, rest⟩⟩ <;>
      first | exact absurd rfl (h _ _ _) | simp

@[simp] theorem elems32_length (bs : List Byte) : (elems32 bs).length = bs.length / 4 := by
  fun_induction elems32 bs with
  | case1 b0 b1 b2 b3 rest ih => simp only [List.length_cons, ih]; omega
  | case2 bs h =>
    rcases bs with _ | ⟨b0, _ | ⟨b1, _ | ⟨b2, _ | ⟨b3, rest⟩⟩⟩⟩ <;>
      first | exact absurd rfl (h _ _ _ _ _) | simp

@[simp] theorem elems64_length (bs : List Byte) : (elems64 bs).length = bs.length / 8 := by
  fun_induction elems64 bs with
  | case1 b0 b1 b2 b3 b4 b5 b6 b7 rest ih => simp only [List.length_cons, ih]; omega
  | case2 bs h =>
    rcases bs with _ | ⟨b0, _ | ⟨b1, _ | ⟨b2, _ | ⟨b3, _ | ⟨b4, _ | ⟨b5, _ | ⟨b6, _ | ⟨b7, rest⟩⟩⟩⟩⟩⟩⟩⟩ <;>
      first | exact absurd rfl (h _ _ _ _ _ _ _ _ _) | simp

@[simp] theorem gfElems_length (f : Field) (bs : List Byte) : (gfElems f bs).length = bs.length / 2 := by
  simp [gfElems]

@[simp] theorem packBits_length (len : Nat) (f : Nat → Bool) : (packBits len f).length = (len + 7) / 8 := by
  simp [packBits]

@[simp] theorem bitVectorBytes_length (v : Array Bool) : (bitVectorBytes v).length = (v.size + 7) / 8 := by
  simp [bitVectorBytes]

@[simp] theorem bitVector_size (n : Nat) (bs : List Byte) : (bitVector n bs).size = n := by simp [bitVector]

@[simp] theorem insertBy_length {α : Type} (le : α → α → Bool) (x : α) (ys : List α) :
    (insertBy le x ys).length = ys.length + 1 := by
  induction ys with
  | nil => rfl
  | cons y ys ih =>
    unfold insertBy
    split <;> simp [ih]

@[simp] theorem sortBy_length {α : Type} (le : α → α → Bool) (xs : List α) : (sortBy le xs).length = xs.length := by
  induction xs with
  | nil => rfl
  | cons x xs ih => simp [sortBy, ih]

@[simp] theorem sortSigned_length (xs : List Word) : (sortSigned xs).length = xs.length := sortBy_length _ _

@[simp] theorem sortUnsigned_length (xs : List Lane) : (sortUnsigned xs).length = xs.length := sortBy_length _ _

@[simp] theorem transposeRows_length (w : List Lane) : (transposeRows w).length = 64 := by simp [transposeRows]

@[simp] theorem applyLayer_size {α : Type} (m : Nat) (c : Array Byte) (l : Nat) (v : Array α) :
    (applyLayer m c l v).size = v.size := by simp [applyLayer]

@[simp] theorem applyLayers_size {α : Type} (m : Nat) (c : Array Byte) (ls : List Nat) (v : Array α) :
    (applyLayers m c ls v).size = v.size := by
  induction ls generalizing v with
  | nil => rfl
  | cons l ls ih => exact (ih _).trans (applyLayer_size m c l v)

@[simp] theorem benesPass_size {α : Type} (m : Nat) (rev : Bool) (c : Array Byte) (v : Array α) :
    (benesPass m rev c v).size = v.size := applyLayers_size _ _ _ _

@[simp] theorem flipAt_size (out : Array Bool) (pos : Nat) (b : Bool) : (flipAt out pos b).size = out.size := by
  simp [flipAt]

theorem foldl_flipAt_size (js : List Nat) (pos : Nat → Nat) (b : Nat → Bool) (out : Array Bool) :
    (js.foldl (fun out j => flipAt out (pos j) (b j)) out).size = out.size := by
  induction js generalizing out with
  | nil => rfl
  | cons j js ih => exact (ih _).trans (flipAt_size out _ _)

@[simp] theorem cbRecursion_size (w pos step : Nat) (pi : Array Word) (out : Array Bool) :
    (cbRecursion w pos step pi out).size = out.size := by
  fun_induction cbRecursion w pos step pi out with
  | case1 => rfl
  | case2 => simp
  | case3 pos step pi out w n ab b a out1 b' last out2 a' inner q0 q1 ih1 ih2 =>
    rw [ih2, ih1]
    exact (foldl_flipAt_size _ _ _ _).trans (foldl_flipAt_size _ _ _ _)

@[simp] theorem controlBits_size (m : Nat) (pi : List (BitVec 16)) :
    (controlBits m pi).size = (2 * m - 1) * 2 ^ (m - 1) := by simp [controlBits]

@[simp] theorem supportOf_length (f : Field) (n : Nat) (c : List Byte) : (supportOf f n c).length = n := by
  simp [supportOf]

@[simp] theorem polymul_size (v : Variant) (a b : Array Gf) : (polymul v a b).size = v.t := by simp [polymul]

@[simp] theorem minimalPoly_length (v : Variant) (f : Array Gf) : (minimalPoly v f).2.length = v.t := by
  simp [minimalPoly]

@[simp] theorem locator_length (f : Field) (t : Nat) (s : Array Gf) : (locator f t s).length = t + 1 := by
  simp [locator]

@[simp] theorem gfSeries_length (f : Field) (x : Gf) (k : Nat) (e : Gf) : (gfSeries f x k e).length = k := by
  induction k generalizing e with
  | zero => rfl
  | succ k ih => simp [gfSeries, ih]

@[simp] theorem syndrome_length (f : Field) (t : Nat) (g l : List Gf) (r : List Bool) :
    (syndrome f t g l r).length = 2 * t := by
  unfold syndrome
  suffices h : ∀ (ps : List (Gf × Bool)) (out : List Gf), out.length = 2 * t →
      (ps.foldl (fun out lr => if lr.2 then
        let e := evalPoly f g lr.1
        out.zipWith (· ^^^ ·) (gfSeries f lr.1 (2 * t) (gfInv f (gfMul f e e))) else out) out).length = 2 * t from
    h _ _ (by simp)
  intro ps
  induction ps with
  | nil => exact fun out h => h
  | cons p ps ih =>
    intro out h
    refine ih _ ?_
    dsimp only
    split
    · simp [h]
    · exact h

-- Public-key generation.

@[simp] theorem parityRows_length (f : Field) (n : Nat) (l : List Gf) (count : Nat) (inv : List Gf) :
    (parityRows f n l count inv).length = f.m * count := by
  induction count generalizing inv with
  | zero => rfl
  | succ count ih => simp [parityRows, ih, Nat.mul_succ, Nat.add_comm]

@[simp] theorem parityMatrix_size (v : Variant) (g l : List Gf) : (parityMatrix v g l).size = v.pkNrows := by
  simp [parityMatrix, Variant.pkNrows, Variant.m]

theorem reduceStep_size {n : Nat} {h h' : Array (Row n)} {r : Nat} (e : reduceStep h r = some h') : h'.size = h.size := by
  unfold reduceStep at e
  cases hp : pivotRow h r with
  | none => rw [hp] at e; cases e
  | some p => rw [hp] at e; cases e; simp

theorem reduceSteps_size {n : Nat} {rs : List Nat} {h h' : Array (Row n)} (e : reduceSteps rs h = some h') :
    h'.size = h.size := by
  induction rs generalizing h with
  | nil => cases e; rfl
  | cons r rs ih =>
    unfold reduceSteps at e
    cases hs : reduceStep h r with
    | none => simp only [hs] at e; cases e
    | some h1 => simp only [hs] at e; exact (ih e).trans (reduceStep_size hs)

theorem plainElim_sizes {v : Variant} {h : Array (Row v.n)} {pi : Array Gf} {k : PkResult v.n}
    (e : plainElim v h pi = some k) : k.h.size = h.size ∧ k.pi.size = pi.size := by
  unfold plainElim at e
  cases hr : reduceSteps (List.range v.pkNrows) h with
  | none => rw [hr] at e; cases e
  | some h1 => rw [hr] at e; cases e; exact ⟨reduceSteps_size hr, rfl⟩

theorem foldl_swap_size (moves : List (Nat × Nat)) (r0 : Nat) (pi : Array Gf) :
    (moves.foldl (fun p js => p.swapIfInBounds (r0 + js.1) (r0 + js.2)) pi).size = pi.size := by
  induction moves generalizing pi with
  | nil => rfl
  | cons js moves ih => exact (ih _).trans (by simp)

theorem fastElim_sizes {v : Variant} {h : Array (Row v.n)} {pi : Array Gf} {k : PkResult v.n}
    (e : fastElim v h pi = some k) : k.h.size = h.size ∧ k.pi.size = pi.size := by
  unfold fastElim at e
  cases h1 : reduceSteps (List.range (v.pkNrows - 32)) h with
  | none => simp only [h1] at e; cases e
  | some m1 =>
    simp only [h1] at e
    split at e
    · cases e
    · rename_i ss _
      obtain ⟨m3, h3, rfl⟩ := Option.map_eq_some_iff.mp e
      refine ⟨?_, foldl_swap_size _ _ _⟩
      rw [reduceSteps_size h3, Array.size_map, reduceSteps_size h1]

theorem publicKey_sizes {v : Variant} {g : List Gf} {keys : List Word} {k : PkResult v.n}
    (e : publicKey v g keys = some k) : k.h.size = v.pkNrows ∧ k.pi.size = keys.length := by
  unfold publicKey at e
  simp only at e
  split at e
  · cases e
  · have hp : ((sortedKeys keys).map (positionOf v.field)).toArray.size = keys.length := by simp [sortedKeys]
    split at e
    · have := fastElim_sizes e; rw [hp, parityMatrix_size] at this; exact this
    · have := plainElim_sizes e; rw [hp, parityMatrix_size] at this; exact this

@[simp] theorem publicKeyBytes_length (v : Variant) (h : Array (Row v.n)) :
    (publicKeyBytes v h).length = h.size * v.pkRowBytes := by
  have : ∀ rows : List (Row v.n), (rows.flatMap fun row =>
      packBits v.pkNcols fun c => row.getLsbD (v.pkNrows + c)).length = rows.length * v.pkRowBytes := by
    intro rows
    induction rows with
    | nil => simp
    | cons row rows ih =>
      rw [List.flatMap_cons, List.length_append, ih, packBits_length, List.length_cons, Nat.succ_mul, Nat.add_comm]
      rfl
  exact (this h.toList).trans (by simp)

-- The Niederreiter layer.

@[simp] theorem errorVectorBytes_length (v : Variant) (ind : List Nat) :
    (errorVectorBytes v ind).length = (v.n + 7) / 8 := by simp [errorVectorBytes]

@[simp] theorem encodeBytes_length (v : Variant) (pk e : List Byte) :
    (encodeBytes v pk e).length = v.syndBytes := by simp [encodeBytes]; rfl

@[simp] theorem decodeWordWith_length (v : Variant) (g l : List Gf) (r : List Bool) :
    (decodeWordWith v g l r).1.length = l.length := by simp [decodeWordWith]

/-- n is a multiple of 8, so a bit string of n bits has no padding (00_scope.md R7, R15). -/
theorem Variant.n_div (v : Variant) : (v.n + 7) / 8 = v.n / 8 := by cases v <;> rfl

/-- The control-bit string has no padding (43_benes.md R152). -/
theorem Variant.condBytes_eq (v : Variant) : ((2 * v.m - 1) * 2 ^ (v.m - 1) + 7) / 8 = v.condBytes := by
  cases v <;> rfl

theorem Variant.nfull_div (v : Variant) : (v.nfull + 7) / 8 = v.nfull / 8 := by cases v <;> rfl

end Sys2Proof.Machine
end

