-- ==== Sys2Proof/Laws/State.lean ====
section
/-!
SUPPORT. What each named update of the state leaves in each field: one lemma per field per update. No later proof
unfolds a record update. The register file and `writeBufs` follow at the end.
-/

namespace Sys2Proof.Machine

variable (s : State)

-- setPc
@[simp] theorem State.setPc_build (a : Word) : (s.setPc a).build = s.build := rfl
@[simp] theorem State.setPc_regs (a : Word) : (s.setPc a).regs = s.regs := rfl
@[simp] theorem State.setPc_pc (a : Word) : (s.setPc a).pc = a := rfl
@[simp] theorem State.setPc_mem (a : Word) : (s.setPc a).mem = s.mem := rfl
@[simp] theorem State.setPc_ieDone (a : Word) : (s.setPc a).ieDone = s.ieDone := rfl
@[simp] theorem State.setPc_ieFault (a : Word) : (s.setPc a).ieFault = s.ieFault := rfl
@[simp] theorem State.setPc_ieStop (a : Word) : (s.setPc a).ieStop = s.ieStop := rfl
@[simp] theorem State.setPc_run (a : Word) : (s.setPc a).run = s.run := rfl
@[simp] theorem State.setPc_isDone (a : Word) : (s.setPc a).isDone = s.isDone := rfl
@[simp] theorem State.setPc_isFault (a : Word) : (s.setPc a).isFault = s.isFault := rfl
@[simp] theorem State.setPc_isStopped (a : Word) : (s.setPc a).isStopped = s.isStopped := rfl
@[simp] theorem State.setPc_herr (a : Word) : (s.setPc a).herr = s.herr := rfl
@[simp] theorem State.setPc_cause (a : Word) : (s.setPc a).cause = s.cause := rfl
@[simp] theorem State.setPc_entry (a : Word) : (s.setPc a).entry = s.entry := rfl
@[simp] theorem State.setPc_pcReg (a : Word) : (s.setPc a).pcReg = s.pcReg := rfl
@[simp] theorem State.setPc_faultInfo (a : Word) : (s.setPc a).faultInfo = s.faultInfo := rfl
@[simp] theorem State.setPc_faultInsn (a : Word) : (s.setPc a).faultInsn = s.faultInsn := rfl
@[simp] theorem State.setPc_stopReq (a : Word) : (s.setPc a).stopReq = s.stopReq := rfl
@[simp] theorem State.setPc_begun (a : Word) : (s.setPc a).begun = s.begun := rfl
@[simp] theorem State.setPc_host (a : Word) : (s.setPc a).host = s.host := rfl
@[simp] theorem State.setPc_hostData (a : Word) : (s.setPc a).hostData = s.hostData := rfl
@[simp] theorem State.setPc_draws (a : Word) : (s.setPc a).draws = s.draws := rfl

-- advance
@[simp] theorem State.advance_build : s.advance.build = s.build := rfl
@[simp] theorem State.advance_regs : s.advance.regs = s.regs := rfl
@[simp] theorem State.advance_pc : s.advance.pc = s.pc + 4 := rfl
@[simp] theorem State.advance_mem : s.advance.mem = s.mem := rfl
@[simp] theorem State.advance_ieDone : s.advance.ieDone = s.ieDone := rfl
@[simp] theorem State.advance_ieFault : s.advance.ieFault = s.ieFault := rfl
@[simp] theorem State.advance_ieStop : s.advance.ieStop = s.ieStop := rfl
@[simp] theorem State.advance_run : s.advance.run = s.run := rfl
@[simp] theorem State.advance_isDone : s.advance.isDone = s.isDone := rfl
@[simp] theorem State.advance_isFault : s.advance.isFault = s.isFault := rfl
@[simp] theorem State.advance_isStopped : s.advance.isStopped = s.isStopped := rfl
@[simp] theorem State.advance_herr : s.advance.herr = s.herr := rfl
@[simp] theorem State.advance_cause : s.advance.cause = s.cause := rfl
@[simp] theorem State.advance_entry : s.advance.entry = s.entry := rfl
@[simp] theorem State.advance_pcReg : s.advance.pcReg = s.pcReg := rfl
@[simp] theorem State.advance_faultInfo : s.advance.faultInfo = s.faultInfo := rfl
@[simp] theorem State.advance_faultInsn : s.advance.faultInsn = s.faultInsn := rfl
@[simp] theorem State.advance_stopReq : s.advance.stopReq = s.stopReq := rfl
@[simp] theorem State.advance_begun : s.advance.begun = s.begun := rfl
@[simp] theorem State.advance_host : s.advance.host = s.host := rfl
@[simp] theorem State.advance_hostData : s.advance.hostData = s.hostData := rfl
@[simp] theorem State.advance_draws : s.advance.draws = s.draws := rfl

-- writeMem
@[simp] theorem State.writeMem_build (a : Nat) (bs : List Byte) : (s.writeMem a bs).build = s.build := rfl
@[simp] theorem State.writeMem_regs (a : Nat) (bs : List Byte) : (s.writeMem a bs).regs = s.regs := rfl
@[simp] theorem State.writeMem_pc (a : Nat) (bs : List Byte) : (s.writeMem a bs).pc = s.pc := rfl
@[simp] theorem State.writeMem_mem (a : Nat) (bs : List Byte) : (s.writeMem a bs).mem = Memory.write s.mem a bs := rfl
@[simp] theorem State.writeMem_ieDone (a : Nat) (bs : List Byte) : (s.writeMem a bs).ieDone = s.ieDone := rfl
@[simp] theorem State.writeMem_ieFault (a : Nat) (bs : List Byte) : (s.writeMem a bs).ieFault = s.ieFault := rfl
@[simp] theorem State.writeMem_ieStop (a : Nat) (bs : List Byte) : (s.writeMem a bs).ieStop = s.ieStop := rfl
@[simp] theorem State.writeMem_run (a : Nat) (bs : List Byte) : (s.writeMem a bs).run = s.run := rfl
@[simp] theorem State.writeMem_isDone (a : Nat) (bs : List Byte) : (s.writeMem a bs).isDone = s.isDone := rfl
@[simp] theorem State.writeMem_isFault (a : Nat) (bs : List Byte) : (s.writeMem a bs).isFault = s.isFault := rfl
@[simp] theorem State.writeMem_isStopped (a : Nat) (bs : List Byte) : (s.writeMem a bs).isStopped = s.isStopped := rfl
@[simp] theorem State.writeMem_herr (a : Nat) (bs : List Byte) : (s.writeMem a bs).herr = s.herr := rfl
@[simp] theorem State.writeMem_cause (a : Nat) (bs : List Byte) : (s.writeMem a bs).cause = s.cause := rfl
@[simp] theorem State.writeMem_entry (a : Nat) (bs : List Byte) : (s.writeMem a bs).entry = s.entry := rfl
@[simp] theorem State.writeMem_pcReg (a : Nat) (bs : List Byte) : (s.writeMem a bs).pcReg = s.pcReg := rfl
@[simp] theorem State.writeMem_faultInfo (a : Nat) (bs : List Byte) : (s.writeMem a bs).faultInfo = s.faultInfo := rfl
@[simp] theorem State.writeMem_faultInsn (a : Nat) (bs : List Byte) : (s.writeMem a bs).faultInsn = s.faultInsn := rfl
@[simp] theorem State.writeMem_stopReq (a : Nat) (bs : List Byte) : (s.writeMem a bs).stopReq = s.stopReq := rfl
@[simp] theorem State.writeMem_begun (a : Nat) (bs : List Byte) : (s.writeMem a bs).begun = s.begun := rfl
@[simp] theorem State.writeMem_host (a : Nat) (bs : List Byte) : (s.writeMem a bs).host = s.host := rfl
@[simp] theorem State.writeMem_hostData (a : Nat) (bs : List Byte) : (s.writeMem a bs).hostData = s.hostData := rfl
@[simp] theorem State.writeMem_draws (a : Nat) (bs : List Byte) : (s.writeMem a bs).draws = s.draws := rfl

-- raise
@[simp] theorem State.raise_build (c : Cause) (x w : Word) : (s.raise c x w).build = s.build := rfl
@[simp] theorem State.raise_regs (c : Cause) (x w : Word) : (s.raise c x w).regs = s.regs := rfl
@[simp] theorem State.raise_pc (c : Cause) (x w : Word) : (s.raise c x w).pc = s.pc := rfl
@[simp] theorem State.raise_mem (c : Cause) (x w : Word) : (s.raise c x w).mem = s.mem := rfl
@[simp] theorem State.raise_ieDone (c : Cause) (x w : Word) : (s.raise c x w).ieDone = s.ieDone := rfl
@[simp] theorem State.raise_ieFault (c : Cause) (x w : Word) : (s.raise c x w).ieFault = s.ieFault := rfl
@[simp] theorem State.raise_ieStop (c : Cause) (x w : Word) : (s.raise c x w).ieStop = s.ieStop := rfl
@[simp] theorem State.raise_run (c : Cause) (x w : Word) : (s.raise c x w).run = false := rfl
@[simp] theorem State.raise_isDone (c : Cause) (x w : Word) : (s.raise c x w).isDone = s.isDone := rfl
@[simp] theorem State.raise_isFault (c : Cause) (x w : Word) : (s.raise c x w).isFault = true := rfl
@[simp] theorem State.raise_isStopped (c : Cause) (x w : Word) : (s.raise c x w).isStopped = s.isStopped := rfl
@[simp] theorem State.raise_herr (c : Cause) (x w : Word) : (s.raise c x w).herr = s.herr := rfl
@[simp] theorem State.raise_cause (c : Cause) (x w : Word) : (s.raise c x w).cause = c := rfl
@[simp] theorem State.raise_entry (c : Cause) (x w : Word) : (s.raise c x w).entry = s.entry := rfl
@[simp] theorem State.raise_pcReg (c : Cause) (x w : Word) : (s.raise c x w).pcReg = s.pc := rfl
@[simp] theorem State.raise_faultInfo (c : Cause) (x w : Word) : (s.raise c x w).faultInfo = x := rfl
@[simp] theorem State.raise_faultInsn (c : Cause) (x w : Word) : (s.raise c x w).faultInsn = w := rfl
@[simp] theorem State.raise_stopReq (c : Cause) (x w : Word) : (s.raise c x w).stopReq = false := rfl
@[simp] theorem State.raise_begun (c : Cause) (x w : Word) : (s.raise c x w).begun = s.begun := rfl
@[simp] theorem State.raise_host (c : Cause) (x w : Word) : (s.raise c x w).host = s.host := rfl
@[simp] theorem State.raise_hostData (c : Cause) (x w : Word) : (s.raise c x w).hostData = s.hostData := rfl
@[simp] theorem State.raise_draws (c : Cause) (x w : Word) : (s.raise c x w).draws = s.draws := rfl

-- halt
@[simp] theorem State.halt_build : s.halt.build = s.build := rfl
@[simp] theorem State.halt_regs : s.halt.regs = s.regs := rfl
@[simp] theorem State.halt_pc : s.halt.pc = s.pc := rfl
@[simp] theorem State.halt_mem : s.halt.mem = s.mem := rfl
@[simp] theorem State.halt_ieDone : s.halt.ieDone = s.ieDone := rfl
@[simp] theorem State.halt_ieFault : s.halt.ieFault = s.ieFault := rfl
@[simp] theorem State.halt_ieStop : s.halt.ieStop = s.ieStop := rfl
@[simp] theorem State.halt_run : s.halt.run = false := rfl
@[simp] theorem State.halt_isDone : s.halt.isDone = true := rfl
@[simp] theorem State.halt_isFault : s.halt.isFault = s.isFault := rfl
@[simp] theorem State.halt_isStopped : s.halt.isStopped = s.isStopped := rfl
@[simp] theorem State.halt_herr : s.halt.herr = s.herr := rfl
@[simp] theorem State.halt_cause : s.halt.cause = s.cause := rfl
@[simp] theorem State.halt_entry : s.halt.entry = s.entry := rfl
@[simp] theorem State.halt_pcReg : s.halt.pcReg = s.pc := rfl
@[simp] theorem State.halt_faultInfo : s.halt.faultInfo = s.faultInfo := rfl
@[simp] theorem State.halt_faultInsn : s.halt.faultInsn = s.faultInsn := rfl
@[simp] theorem State.halt_stopReq : s.halt.stopReq = false := rfl
@[simp] theorem State.halt_begun : s.halt.begun = s.begun := rfl
@[simp] theorem State.halt_host : s.halt.host = s.host := rfl
@[simp] theorem State.halt_hostData : s.halt.hostData = s.hostData := rfl
@[simp] theorem State.halt_draws : s.halt.draws = s.draws := rfl

-- honourStop
@[simp] theorem State.honourStop_build : s.honourStop.build = s.build := rfl
@[simp] theorem State.honourStop_regs : s.honourStop.regs = s.regs := rfl
@[simp] theorem State.honourStop_pc : s.honourStop.pc = s.pc := rfl
@[simp] theorem State.honourStop_mem : s.honourStop.mem = s.mem := rfl
@[simp] theorem State.honourStop_ieDone : s.honourStop.ieDone = s.ieDone := rfl
@[simp] theorem State.honourStop_ieFault : s.honourStop.ieFault = s.ieFault := rfl
@[simp] theorem State.honourStop_ieStop : s.honourStop.ieStop = s.ieStop := rfl
@[simp] theorem State.honourStop_run : s.honourStop.run = false := rfl
@[simp] theorem State.honourStop_isDone : s.honourStop.isDone = s.isDone := rfl
@[simp] theorem State.honourStop_isFault : s.honourStop.isFault = s.isFault := rfl
@[simp] theorem State.honourStop_isStopped : s.honourStop.isStopped = true := rfl
@[simp] theorem State.honourStop_herr : s.honourStop.herr = s.herr := rfl
@[simp] theorem State.honourStop_cause : s.honourStop.cause = s.cause := rfl
@[simp] theorem State.honourStop_entry : s.honourStop.entry = s.entry := rfl
@[simp] theorem State.honourStop_pcReg : s.honourStop.pcReg = s.pc := rfl
@[simp] theorem State.honourStop_faultInfo : s.honourStop.faultInfo = s.faultInfo := rfl
@[simp] theorem State.honourStop_faultInsn : s.honourStop.faultInsn = s.faultInsn := rfl
@[simp] theorem State.honourStop_stopReq : s.honourStop.stopReq = false := rfl
@[simp] theorem State.honourStop_begun : s.honourStop.begun = s.begun := rfl
@[simp] theorem State.honourStop_host : s.honourStop.host = s.host := rfl
@[simp] theorem State.honourStop_hostData : s.honourStop.hostData = s.hostData := rfl
@[simp] theorem State.honourStop_draws : s.honourStop.draws = s.draws := rfl

-- start
@[simp] theorem State.start_build : s.start.build = s.build := rfl
@[simp] theorem State.start_regs : s.start.regs = s.regs := rfl
@[simp] theorem State.start_pc : s.start.pc = s.entryPc := rfl
@[simp] theorem State.start_mem : s.start.mem = s.mem := rfl
@[simp] theorem State.start_ieDone : s.start.ieDone = s.ieDone := rfl
@[simp] theorem State.start_ieFault : s.start.ieFault = s.ieFault := rfl
@[simp] theorem State.start_ieStop : s.start.ieStop = s.ieStop := rfl
@[simp] theorem State.start_run : s.start.run = true := rfl
@[simp] theorem State.start_isDone : s.start.isDone = false := rfl
@[simp] theorem State.start_isFault : s.start.isFault = false := rfl
@[simp] theorem State.start_isStopped : s.start.isStopped = false := rfl
@[simp] theorem State.start_herr : s.start.herr = s.herr := rfl
@[simp] theorem State.start_cause : s.start.cause = .none := rfl
@[simp] theorem State.start_entry : s.start.entry = s.entry := rfl
@[simp] theorem State.start_pcReg : s.start.pcReg = s.pcReg := rfl
@[simp] theorem State.start_faultInfo : s.start.faultInfo = 0 := rfl
@[simp] theorem State.start_faultInsn : s.start.faultInsn = 0 := rfl
@[simp] theorem State.start_stopReq : s.start.stopReq = false := rfl
@[simp] theorem State.start_begun : s.start.begun = false := rfl
@[simp] theorem State.start_host : s.start.host = s.host := rfl
@[simp] theorem State.start_hostData : s.start.hostData = s.hostData := rfl
@[simp] theorem State.start_draws : s.start.draws = s.draws := rfl

-- finish
@[simp] theorem State.finish_build : s.finish.build = s.build := rfl
@[simp] theorem State.finish_regs : s.finish.regs = s.regs := rfl
@[simp] theorem State.finish_pc : s.finish.pc = s.pc := rfl
@[simp] theorem State.finish_mem : s.finish.mem = s.mem := rfl
@[simp] theorem State.finish_ieDone : s.finish.ieDone = s.ieDone := rfl
@[simp] theorem State.finish_ieFault : s.finish.ieFault = s.ieFault := rfl
@[simp] theorem State.finish_ieStop : s.finish.ieStop = s.ieStop := rfl
@[simp] theorem State.finish_run : s.finish.run = s.run := rfl
@[simp] theorem State.finish_isDone : s.finish.isDone = s.isDone := rfl
@[simp] theorem State.finish_isFault : s.finish.isFault = s.isFault := rfl
@[simp] theorem State.finish_isStopped : s.finish.isStopped = s.isStopped := rfl
@[simp] theorem State.finish_herr : s.finish.herr = s.herr := rfl
@[simp] theorem State.finish_cause : s.finish.cause = s.cause := rfl
@[simp] theorem State.finish_entry : s.finish.entry = s.entry := rfl
@[simp] theorem State.finish_pcReg : s.finish.pcReg = s.pcReg := rfl
@[simp] theorem State.finish_faultInfo : s.finish.faultInfo = s.faultInfo := rfl
@[simp] theorem State.finish_faultInsn : s.finish.faultInsn = s.faultInsn := rfl
@[simp] theorem State.finish_stopReq : s.finish.stopReq = s.stopReq := rfl
@[simp] theorem State.finish_begun : s.finish.begun = false := rfl
@[simp] theorem State.finish_host : s.finish.host = s.host := rfl
@[simp] theorem State.finish_hostData : s.finish.hostData = s.hostData := rfl
@[simp] theorem State.finish_draws : s.finish.draws = s.draws := rfl

-- refuse
@[simp] theorem State.refuse_build : s.refuse.build = s.build := rfl
@[simp] theorem State.refuse_regs : s.refuse.regs = s.regs := rfl
@[simp] theorem State.refuse_pc : s.refuse.pc = s.pc := rfl
@[simp] theorem State.refuse_mem : s.refuse.mem = s.mem := rfl
@[simp] theorem State.refuse_ieDone : s.refuse.ieDone = s.ieDone := rfl
@[simp] theorem State.refuse_ieFault : s.refuse.ieFault = s.ieFault := rfl
@[simp] theorem State.refuse_ieStop : s.refuse.ieStop = s.ieStop := rfl
@[simp] theorem State.refuse_run : s.refuse.run = s.run := rfl
@[simp] theorem State.refuse_isDone : s.refuse.isDone = s.isDone := rfl
@[simp] theorem State.refuse_isFault : s.refuse.isFault = s.isFault := rfl
@[simp] theorem State.refuse_isStopped : s.refuse.isStopped = s.isStopped := rfl
@[simp] theorem State.refuse_herr : s.refuse.herr = true := rfl
@[simp] theorem State.refuse_cause : s.refuse.cause = s.cause := rfl
@[simp] theorem State.refuse_entry : s.refuse.entry = s.entry := rfl
@[simp] theorem State.refuse_pcReg : s.refuse.pcReg = s.pcReg := rfl
@[simp] theorem State.refuse_faultInfo : s.refuse.faultInfo = s.faultInfo := rfl
@[simp] theorem State.refuse_faultInsn : s.refuse.faultInsn = s.faultInsn := rfl
@[simp] theorem State.refuse_stopReq : s.refuse.stopReq = s.stopReq := rfl
@[simp] theorem State.refuse_begun : s.refuse.begun = s.begun := rfl
@[simp] theorem State.refuse_host : s.refuse.host = s.host := rfl
@[simp] theorem State.refuse_hostData : s.refuse.hostData = s.hostData := rfl
@[simp] theorem State.refuse_draws : s.refuse.draws = s.draws := rfl

-- give
@[simp] theorem State.give_build (d : Word) : (s.give d).build = s.build := rfl
@[simp] theorem State.give_regs (d : Word) : (s.give d).regs = s.regs := rfl
@[simp] theorem State.give_pc (d : Word) : (s.give d).pc = s.pc := rfl
@[simp] theorem State.give_mem (d : Word) : (s.give d).mem = s.mem := rfl
@[simp] theorem State.give_ieDone (d : Word) : (s.give d).ieDone = s.ieDone := rfl
@[simp] theorem State.give_ieFault (d : Word) : (s.give d).ieFault = s.ieFault := rfl
@[simp] theorem State.give_ieStop (d : Word) : (s.give d).ieStop = s.ieStop := rfl
@[simp] theorem State.give_run (d : Word) : (s.give d).run = s.run := rfl
@[simp] theorem State.give_isDone (d : Word) : (s.give d).isDone = s.isDone := rfl
@[simp] theorem State.give_isFault (d : Word) : (s.give d).isFault = s.isFault := rfl
@[simp] theorem State.give_isStopped (d : Word) : (s.give d).isStopped = s.isStopped := rfl
@[simp] theorem State.give_herr (d : Word) : (s.give d).herr = s.herr := rfl
@[simp] theorem State.give_cause (d : Word) : (s.give d).cause = s.cause := rfl
@[simp] theorem State.give_entry (d : Word) : (s.give d).entry = s.entry := rfl
@[simp] theorem State.give_pcReg (d : Word) : (s.give d).pcReg = s.pcReg := rfl
@[simp] theorem State.give_faultInfo (d : Word) : (s.give d).faultInfo = s.faultInfo := rfl
@[simp] theorem State.give_faultInsn (d : Word) : (s.give d).faultInsn = s.faultInsn := rfl
@[simp] theorem State.give_stopReq (d : Word) : (s.give d).stopReq = s.stopReq := rfl
@[simp] theorem State.give_begun (d : Word) : (s.give d).begun = s.begun := rfl
@[simp] theorem State.give_host (d : Word) : (s.give d).host = s.host := rfl
@[simp] theorem State.give_hostData (d : Word) : (s.give d).hostData = d := rfl
@[simp] theorem State.give_draws (d : Word) : (s.give d).draws = s.draws := rfl

-- withHost
@[simp] theorem State.withHost_build (rest : List HostEvent) : (s.withHost rest).build = s.build := rfl
@[simp] theorem State.withHost_regs (rest : List HostEvent) : (s.withHost rest).regs = s.regs := rfl
@[simp] theorem State.withHost_pc (rest : List HostEvent) : (s.withHost rest).pc = s.pc := rfl
@[simp] theorem State.withHost_mem (rest : List HostEvent) : (s.withHost rest).mem = s.mem := rfl
@[simp] theorem State.withHost_ieDone (rest : List HostEvent) : (s.withHost rest).ieDone = s.ieDone := rfl
@[simp] theorem State.withHost_ieFault (rest : List HostEvent) : (s.withHost rest).ieFault = s.ieFault := rfl
@[simp] theorem State.withHost_ieStop (rest : List HostEvent) : (s.withHost rest).ieStop = s.ieStop := rfl
@[simp] theorem State.withHost_run (rest : List HostEvent) : (s.withHost rest).run = s.run := rfl
@[simp] theorem State.withHost_isDone (rest : List HostEvent) : (s.withHost rest).isDone = s.isDone := rfl
@[simp] theorem State.withHost_isFault (rest : List HostEvent) : (s.withHost rest).isFault = s.isFault := rfl
@[simp] theorem State.withHost_isStopped (rest : List HostEvent) : (s.withHost rest).isStopped = s.isStopped := rfl
@[simp] theorem State.withHost_herr (rest : List HostEvent) : (s.withHost rest).herr = s.herr := rfl
@[simp] theorem State.withHost_cause (rest : List HostEvent) : (s.withHost rest).cause = s.cause := rfl
@[simp] theorem State.withHost_entry (rest : List HostEvent) : (s.withHost rest).entry = s.entry := rfl
@[simp] theorem State.withHost_pcReg (rest : List HostEvent) : (s.withHost rest).pcReg = s.pcReg := rfl
@[simp] theorem State.withHost_faultInfo (rest : List HostEvent) : (s.withHost rest).faultInfo = s.faultInfo := rfl
@[simp] theorem State.withHost_faultInsn (rest : List HostEvent) : (s.withHost rest).faultInsn = s.faultInsn := rfl
@[simp] theorem State.withHost_stopReq (rest : List HostEvent) : (s.withHost rest).stopReq = s.stopReq := rfl
@[simp] theorem State.withHost_begun (rest : List HostEvent) : (s.withHost rest).begun = s.begun := rfl
@[simp] theorem State.withHost_host (rest : List HostEvent) : (s.withHost rest).host = rest := rfl
@[simp] theorem State.withHost_hostData (rest : List HostEvent) : (s.withHost rest).hostData = s.hostData := rfl
@[simp] theorem State.withHost_draws (rest : List HostEvent) : (s.withHost rest).draws = s.draws := rfl

-- setReg
@[simp] theorem State.setReg_build (i : Reg) (v : Word) : (s.setReg i v).build = s.build := by unfold State.setReg; split <;> rfl
@[simp] theorem State.setReg_pc (i : Reg) (v : Word) : (s.setReg i v).pc = s.pc := by unfold State.setReg; split <;> rfl
@[simp] theorem State.setReg_mem (i : Reg) (v : Word) : (s.setReg i v).mem = s.mem := by unfold State.setReg; split <;> rfl
@[simp] theorem State.setReg_ieDone (i : Reg) (v : Word) : (s.setReg i v).ieDone = s.ieDone := by unfold State.setReg; split <;> rfl
@[simp] theorem State.setReg_ieFault (i : Reg) (v : Word) : (s.setReg i v).ieFault = s.ieFault := by unfold State.setReg; split <;> rfl
@[simp] theorem State.setReg_ieStop (i : Reg) (v : Word) : (s.setReg i v).ieStop = s.ieStop := by unfold State.setReg; split <;> rfl
@[simp] theorem State.setReg_run (i : Reg) (v : Word) : (s.setReg i v).run = s.run := by unfold State.setReg; split <;> rfl
@[simp] theorem State.setReg_isDone (i : Reg) (v : Word) : (s.setReg i v).isDone = s.isDone := by unfold State.setReg; split <;> rfl
@[simp] theorem State.setReg_isFault (i : Reg) (v : Word) : (s.setReg i v).isFault = s.isFault := by unfold State.setReg; split <;> rfl
@[simp] theorem State.setReg_isStopped (i : Reg) (v : Word) : (s.setReg i v).isStopped = s.isStopped := by unfold State.setReg; split <;> rfl
@[simp] theorem State.setReg_herr (i : Reg) (v : Word) : (s.setReg i v).herr = s.herr := by unfold State.setReg; split <;> rfl
@[simp] theorem State.setReg_cause (i : Reg) (v : Word) : (s.setReg i v).cause = s.cause := by unfold State.setReg; split <;> rfl
@[simp] theorem State.setReg_entry (i : Reg) (v : Word) : (s.setReg i v).entry = s.entry := by unfold State.setReg; split <;> rfl
@[simp] theorem State.setReg_pcReg (i : Reg) (v : Word) : (s.setReg i v).pcReg = s.pcReg := by unfold State.setReg; split <;> rfl
@[simp] theorem State.setReg_faultInfo (i : Reg) (v : Word) : (s.setReg i v).faultInfo = s.faultInfo := by unfold State.setReg; split <;> rfl
@[simp] theorem State.setReg_faultInsn (i : Reg) (v : Word) : (s.setReg i v).faultInsn = s.faultInsn := by unfold State.setReg; split <;> rfl
@[simp] theorem State.setReg_stopReq (i : Reg) (v : Word) : (s.setReg i v).stopReq = s.stopReq := by unfold State.setReg; split <;> rfl
@[simp] theorem State.setReg_begun (i : Reg) (v : Word) : (s.setReg i v).begun = s.begun := by unfold State.setReg; split <;> rfl
@[simp] theorem State.setReg_host (i : Reg) (v : Word) : (s.setReg i v).host = s.host := by unfold State.setReg; split <;> rfl
@[simp] theorem State.setReg_hostData (i : Reg) (v : Word) : (s.setReg i v).hostData = s.hostData := by unfold State.setReg; split <;> rfl
@[simp] theorem State.setReg_draws (i : Reg) (v : Word) : (s.setReg i v).draws = s.draws := by unfold State.setReg; split <;> rfl

-- writeBufs
@[simp] theorem State.writeBufs_build (outs : List (Word × List Byte)) : (s.writeBufs outs).build = s.build := by
  induction outs generalizing s with
  | nil => rfl
  | cons o rest ih => exact ih _
@[simp] theorem State.writeBufs_regs (outs : List (Word × List Byte)) : (s.writeBufs outs).regs = s.regs := by
  induction outs generalizing s with
  | nil => rfl
  | cons o rest ih => exact ih _
@[simp] theorem State.writeBufs_pc (outs : List (Word × List Byte)) : (s.writeBufs outs).pc = s.pc := by
  induction outs generalizing s with
  | nil => rfl
  | cons o rest ih => exact ih _
@[simp] theorem State.writeBufs_ieDone (outs : List (Word × List Byte)) : (s.writeBufs outs).ieDone = s.ieDone := by
  induction outs generalizing s with
  | nil => rfl
  | cons o rest ih => exact ih _
@[simp] theorem State.writeBufs_ieFault (outs : List (Word × List Byte)) : (s.writeBufs outs).ieFault = s.ieFault := by
  induction outs generalizing s with
  | nil => rfl
  | cons o rest ih => exact ih _
@[simp] theorem State.writeBufs_ieStop (outs : List (Word × List Byte)) : (s.writeBufs outs).ieStop = s.ieStop := by
  induction outs generalizing s with
  | nil => rfl
  | cons o rest ih => exact ih _
@[simp] theorem State.writeBufs_run (outs : List (Word × List Byte)) : (s.writeBufs outs).run = s.run := by
  induction outs generalizing s with
  | nil => rfl
  | cons o rest ih => exact ih _
@[simp] theorem State.writeBufs_isDone (outs : List (Word × List Byte)) : (s.writeBufs outs).isDone = s.isDone := by
  induction outs generalizing s with
  | nil => rfl
  | cons o rest ih => exact ih _
@[simp] theorem State.writeBufs_isFault (outs : List (Word × List Byte)) : (s.writeBufs outs).isFault = s.isFault := by
  induction outs generalizing s with
  | nil => rfl
  | cons o rest ih => exact ih _
@[simp] theorem State.writeBufs_isStopped (outs : List (Word × List Byte)) : (s.writeBufs outs).isStopped = s.isStopped := by
  induction outs generalizing s with
  | nil => rfl
  | cons o rest ih => exact ih _
@[simp] theorem State.writeBufs_herr (outs : List (Word × List Byte)) : (s.writeBufs outs).herr = s.herr := by
  induction outs generalizing s with
  | nil => rfl
  | cons o rest ih => exact ih _
@[simp] theorem State.writeBufs_cause (outs : List (Word × List Byte)) : (s.writeBufs outs).cause = s.cause := by
  induction outs generalizing s with
  | nil => rfl
  | cons o rest ih => exact ih _
@[simp] theorem State.writeBufs_entry (outs : List (Word × List Byte)) : (s.writeBufs outs).entry = s.entry := by
  induction outs generalizing s with
  | nil => rfl
  | cons o rest ih => exact ih _
@[simp] theorem State.writeBufs_pcReg (outs : List (Word × List Byte)) : (s.writeBufs outs).pcReg = s.pcReg := by
  induction outs generalizing s with
  | nil => rfl
  | cons o rest ih => exact ih _
@[simp] theorem State.writeBufs_faultInfo (outs : List (Word × List Byte)) : (s.writeBufs outs).faultInfo = s.faultInfo := by
  induction outs generalizing s with
  | nil => rfl
  | cons o rest ih => exact ih _
@[simp] theorem State.writeBufs_faultInsn (outs : List (Word × List Byte)) : (s.writeBufs outs).faultInsn = s.faultInsn := by
  induction outs generalizing s with
  | nil => rfl
  | cons o rest ih => exact ih _
@[simp] theorem State.writeBufs_stopReq (outs : List (Word × List Byte)) : (s.writeBufs outs).stopReq = s.stopReq := by
  induction outs generalizing s with
  | nil => rfl
  | cons o rest ih => exact ih _
@[simp] theorem State.writeBufs_begun (outs : List (Word × List Byte)) : (s.writeBufs outs).begun = s.begun := by
  induction outs generalizing s with
  | nil => rfl
  | cons o rest ih => exact ih _
@[simp] theorem State.writeBufs_host (outs : List (Word × List Byte)) : (s.writeBufs outs).host = s.host := by
  induction outs generalizing s with
  | nil => rfl
  | cons o rest ih => exact ih _
@[simp] theorem State.writeBufs_hostData (outs : List (Word × List Byte)) : (s.writeBufs outs).hostData = s.hostData := by
  induction outs generalizing s with
  | nil => rfl
  | cons o rest ih => exact ih _
@[simp] theorem State.writeBufs_draws (outs : List (Word × List Byte)) : (s.writeBufs outs).draws = s.draws := by
  induction outs generalizing s with
  | nil => rfl
  | cons o rest ih => exact ih _

-- Registers.

/-- r0 reads 0 (10_state.md R22). -/
@[simp] theorem State.reg_zero : s.reg 0#4 = 0#32 := by simp [State.reg]

/-- A write of r0 has no effect (10_state.md R22). -/
@[simp] theorem State.setReg_zero (v : Word) : s.setReg 0#4 v = s := by simp [State.setReg]

/-- A register reads what was last written to it, except r0 (10_state.md R22, 00_scope.md R13). -/
theorem State.reg_setReg (i j : Reg) (v : Word) :
    (s.setReg i v).reg j = if j = 0#4 then 0#32 else if i = j then v else s.reg j := by
  by_cases hj : j = 0#4
  · subst hj; simp
  · rw [if_neg hj]
    by_cases hi : i = 0#4
    · subst hi
      rw [State.setReg_zero, if_neg (fun h => hj h.symm)]
    · have h1 : i.toNat ≠ 0 := fun e => hi (BitVec.eq_of_toNat_eq e)
      have h2 : j.toNat ≠ 0 := fun e => hj (BitVec.eq_of_toNat_eq e)
      rw [State.setReg, dif_neg hi, State.reg, dif_neg hj, State.reg, dif_neg hj]
      by_cases hij : i = j
      · subst hij; simp
      · have : i.toNat - 1 ≠ j.toNat - 1 := fun e => hij (BitVec.eq_of_toNat_eq (by omega))
        simp [this, hij]

@[simp] theorem State.reg_setReg_ne {i j : Reg} (h : j ≠ i) (v : Word) : (s.setReg i v).reg j = s.reg j := by
  rw [State.reg_setReg]
  by_cases hj : j = 0#4
  · subst hj; simp
  · rw [if_neg hj, if_neg (fun e => h e.symm)]

/-- Two states with the same register file read the same registers. -/
theorem State.reg_congr {s t : State} (h : t.regs = s.regs) (j : Reg) : t.reg j = s.reg j := by
  unfold State.reg; simp [h]

@[simp] theorem State.setPc_reg (a : Word) (j : Reg) : (s.setPc a).reg j = s.reg j := rfl
@[simp] theorem State.advance_reg (j : Reg) : s.advance.reg j = s.reg j := rfl
@[simp] theorem State.writeMem_reg (a : Nat) (bs : List Byte) (j : Reg) : (s.writeMem a bs).reg j = s.reg j := rfl
@[simp] theorem State.raise_reg (c : Cause) (x w : Word) (j : Reg) : (s.raise c x w).reg j = s.reg j := rfl
@[simp] theorem State.halt_reg (j : Reg) : s.halt.reg j = s.reg j := rfl
@[simp] theorem State.honourStop_reg (j : Reg) : s.honourStop.reg j = s.reg j := rfl
@[simp] theorem State.start_reg (j : Reg) : s.start.reg j = s.reg j := rfl
@[simp] theorem State.finish_reg (j : Reg) : s.finish.reg j = s.reg j := rfl
@[simp] theorem State.refuse_reg (j : Reg) : s.refuse.reg j = s.reg j := rfl
@[simp] theorem State.give_reg (d : Word) (j : Reg) : (s.give d).reg j = s.reg j := rfl
@[simp] theorem State.withHost_reg (rest : List HostEvent) (j : Reg) : (s.withHost rest).reg j = s.reg j := rfl
@[simp] theorem State.writeBufs_reg (outs : List (Word × List Byte)) (j : Reg) :
    (s.writeBufs outs).reg j = s.reg j := State.reg_congr (s.writeBufs_regs outs) j

/-- The size of local memory depends on the build alone. -/
theorem State.lmemBytes_congr {s t : State} (h : t.build = s.build) : t.lmemBytes = s.lmemBytes := by
  unfold State.lmemBytes; rw [h]

/-- Where no instruction is in progress, finishing changes nothing. -/
theorem State.finish_eq {s : State} (h : s.begun = false) : s.finish = s := by
  cases s; subst h; rfl

@[simp] theorem State.finish_byte (a : Nat) : s.finish.byte a = s.byte a := rfl

@[simp] theorem State.finish_lmemBytes : s.finish.lmemBytes = s.lmemBytes := rfl

@[simp] theorem State.finish_withHost (rest : List HostEvent) :
    (s.withHost rest).finish = s.finish.withHost rest := rfl

/-- Everything SEQ's beginning of an instruction can do (60_exceptions.md R278). -/
theorem State.beginInstr_cases :
    (s.run = false ∧ s.beginInstr = s) ∨
    (s.run = true ∧ s.stopTaken = true ∧ s.beginInstr = s.honourStop) ∨
    (s.run = true ∧ s.stopTaken = false ∧ s.beginInstr = { s with begun := true }) := by
  unfold State.beginInstr
  cases hr : s.run <;> cases hs : s.stopTaken <;> simp

@[simp] theorem State.stopTaken_eq_true : s.stopTaken = true ↔ s.stopReq = true ∧ s.begun = false := by
  simp [State.stopTaken]

theorem State.stopTaken_eq_false : s.stopTaken = false ↔ s.begun = true ∨ s.stopReq = false := by
  cases h1 : s.stopReq <;> cases h2 : s.begun <;> simp [State.stopTaken, h1, h2]

@[simp] theorem State.writeBufs_nil : s.writeBufs [] = s := rfl

@[simp] theorem State.writeBufs_cons (a : Word) (bs : List Byte) (rest : List (Word × List Byte)) :
    s.writeBufs ((a, bs) :: rest) = (s.writeMem a.toNat bs).writeBufs rest := rfl

end Sys2Proof.Machine
end

