-- ==== Sys2Proof/Laws/Outcome.lean ====
section
/-!
SUPPORT. What the shared operations of the meanings can do, said once each, in the terms of Safety: a write back, a
branch, a load, a store, a fault, the checks of an engine and its end.
-/

namespace Sys2Proof.Machine

theorem SameHostSide.refl (s : State) : SameHostSide s s := ⟨rfl, rfl, rfl, rfl, rfl, rfl, rfl, rfl, rfl, rfl⟩

theorem SameRun.refl (s : State) : SameRun s s := ⟨rfl, rfl, rfl, rfl, rfl, rfl, rfl, rfl, rfl⟩

theorem State.byte_congr {s t : State} (h : t.mem = s.mem) (a : Nat) : t.byte a = s.byte a := by
  unfold State.byte; rw [h]

theorem State.byte_writeMem (s : State) (a : Nat) (bs : List Byte) (x : Nat) :
    (s.writeMem a bs).byte x = if a ≤ x ∧ x < a + bs.length then bs[x - a]? else s.byte x :=
  Memory.byte_write s.mem a bs x

/-- The bytes after the outputs are written: at each address the latest run decides (20_memory.md R67). -/
theorem State.byte_writeBufs (outs : List (Word × List Byte)) (s : State) (x : Nat) :
    (s.writeBufs outs).byte x = (storedByte outs x).or (s.byte x) := by
  induction outs generalizing s with
  | nil => rfl
  | cons o rest ih =>
    obtain ⟨a, bs⟩ := o
    rw [State.writeBufs_cons, ih, storedByte]
    cases storedByte rest x with
    | some b => rfl
    | none =>
      simp only [State.byte_writeMem]
      by_cases h1 : a.toNat ≤ x
      · by_cases h2 : x < a.toNat + bs.length
        · have : x - a.toNat < bs.length := by omega
          simp [h1, h2, this]
        · have : bs[x - a.toNat]? = none := by simp; omega
          simp [h1, h2, this]
      · simp [h1]

/-- The end of an instruction that goes on: registers, memory and pc as its rule says, and nothing else changed. -/
theorem changed_advance (s : State) (rd : Reg) (v : Word) (outs : List (Word × List Byte)) :
    Changed s ((s.writeBufs outs).setReg rd v).advance rd v (s.pc + 4) outs where
  reg i := by
    rw [State.advance_reg, State.reg_setReg, State.writeBufs_reg]
    by_cases h0 : i = 0#4
    · subst h0; simp
    · by_cases h : rd = i
      · subst h; simp [h0]
      · simp [h0, h, Ne.symm h]
  pc := by simp
  mem a := by
    rw [State.byte_congr (s := s.writeBufs outs) (by simp), State.byte_writeBufs]
  hostSide := by constructor <;> simp
  runState := by constructor <;> simp

theorem completes_writeBack (s : State) (rd : Reg) (v : Word) : Completes s (writeBack s rd v) rd v (s.pc + 4) [] :=
  ⟨_, rfl, changed_advance s rd v []⟩

theorem completes_engineDone (s : State) (rd : Reg) (v : Word) (outs : List (Word × List Byte)) :
    Completes s (engineDone s rd v outs) rd v (s.pc + 4) outs :=
  ⟨_, rfl, changed_advance s rd v outs⟩

/-- A jump: the link goes to rd, pc to the target. -/
theorem changed_setPc_setReg (s : State) (rd : Reg) (v target : Word) :
    Changed s ((s.setPc target).setReg rd v) rd v target [] where
  reg i := by
    rw [State.reg_setReg, State.setPc_reg]
    by_cases h0 : i = 0#4
    · subst h0; simp
    · by_cases h : rd = i
      · subst h; simp [h0]
      · simp [h0, h, Ne.symm h]
  pc := by simp
  mem a := State.byte_congr (by simp) a
  hostSide := by constructor <;> simp
  runState := by constructor <;> simp

/-- A conditional branch writes nothing but pc (48_base.md R258). -/
theorem completes_branchOp (s : State) (taken : Bool) (off : BitVec 16) :
    Completes s (branchOp taken off s) 0#4 0#32 (if taken then branchTarget s.pc off else s.pc + 4) [] := by
  refine ⟨_, rfl, ?_⟩
  have h := changed_setPc_setReg s 0#4 0#32 (if taken then branchTarget s.pc off else s.pc + 4)
  rw [State.setReg_zero] at h
  cases taken
  · exact h
  · exact h

/-- Fault entry (60_exceptions.md R272). -/
theorem faults_raiseFault (s : State) (c : Cause) (info w : Word) : Faults s (raiseFault s c info w) c info w :=
  ⟨_, rfl, by constructor <;> first | rfl | exact ⟨rfl, rfl, rfl, rfl, rfl, rfl, rfl, rfl, rfl, rfl⟩ | intro _; rfl⟩

theorem toNat_add_sext16 (a : Word) (imm : BitVec 16) : a + sext16 imm = BitVec.ofInt 32 (a.toNat + imm.toInt) := by
  apply BitVec.eq_of_toInt_eq
  rw [BitVec.toInt_add, sext16, BitVec.toInt_signExtend_of_le (by omega), BitVec.toInt_ofInt, BitVec.toInt_eq_toNat_bmod,
    Int.bmod_add_bmod]

/-- The effective address of the meanings is the one of the spec (48_base.md R251). -/
theorem effectiveAddr_eq (s : State) (rs1 : Reg) (imm : BitVec 16) : effectiveAddr s rs1 imm = dataAddress s rs1 imm :=
  toNat_add_sext16 _ _

theorem branchTarget_eq (pc : Word) (off : BitVec 16) : branchTarget pc off = BitVec.ofInt 32 (pc.toNat + 4 * off.toInt) := by
  apply BitVec.eq_of_toInt_eq
  rw [branchTarget, BitVec.toInt_add, BitVec.toInt_mul, sext16, BitVec.toInt_signExtend_of_le (by omega),
    BitVec.toInt_ofInt, BitVec.toInt_eq_toNat_bmod, show (4 : Word).toInt = 4 from rfl, Int.bmod_add_bmod,
    Int.add_bmod_bmod, Int.mul_comm]

theorem jumpTarget_eq (pc : Word) (off : BitVec 20) : jumpTarget pc off = BitVec.ofInt 32 (pc.toNat + 4 * off.toInt) := by
  apply BitVec.eq_of_toInt_eq
  rw [jumpTarget, BitVec.toInt_add, BitVec.toInt_mul, BitVec.toInt_signExtend_of_le (by omega),
    BitVec.toInt_ofInt, BitVec.toInt_eq_toNat_bmod, show (4 : Word).toInt = 4 from rfl, Int.bmod_add_bmod,
    Int.add_bmod_bmod, Int.mul_comm]

/-- Everything a read continuation can do: go on with the bytes, or stop at a byte nothing has written. -/
theorem withRead_ok {s : State} {a len : Nat} {bs : List Byte} (h : Memory.read s.mem a len = .ok bs)
    (k : List Byte → Host.Outcome State Fault Refusal) : withRead s a len k = k bs := by
  unfold withRead; rw [h]

theorem withRead_cases (s : State) (a len : Nat) (k : List Byte → Host.Outcome State Fault Refusal) :
    (∃ bs, Memory.read s.mem a len = .ok bs ∧ bs.length = len ∧ withRead s a len k = k bs) ∨
    (∃ e, s.byte e = none ∧ a ≤ e ∧ e < a + len ∧ withRead s a len k = .fault (.unwritten e)) := by
  unfold withRead
  cases h : Memory.read s.mem a len with
  | ok bs => exact .inl ⟨bs, rfl, Memory.read_length h, rfl⟩
  | error e =>
    obtain ⟨h1, h2, h3⟩ := Memory.read_eq_error _ _ _ _ h
    exact .inr ⟨e, h3, h1, h2, rfl⟩

/-- Everything a load can do (20_memory.md R64, 48_base.md R251). -/
theorem loadOp_cases (k : Nat) (w : Word) (rd rs1 : Reg) (imm : BitVec 16) (s : State) :
    ((dataAddress s rs1 imm).toNat % k ≠ 0 ∧
      loadOp k w rd rs1 imm s = raiseFault s .loadMisaligned (dataAddress s rs1 imm) w) ∨
    ((dataAddress s rs1 imm).toNat % k = 0 ∧ s.lmemBytes < (dataAddress s rs1 imm).toNat + k ∧
      loadOp k w rd rs1 imm s = raiseFault s .loadAccess (dataAddress s rs1 imm) w) ∨
    ((dataAddress s rs1 imm).toNat % k = 0 ∧ (dataAddress s rs1 imm).toNat + k ≤ s.lmemBytes ∧
      loadOp k w rd rs1 imm s = withRead s (dataAddress s rs1 imm).toNat k
        fun bs => writeBack s rd (BitVec.ofNat 32 (leNat bs))) := by
  unfold loadOp
  rw [effectiveAddr_eq]
  by_cases h1 : (dataAddress s rs1 imm).toNat % k ≠ 0
  · exact .inl ⟨h1, by simp only [if_pos h1]⟩
  · by_cases h2 : s.lmemBytes < (dataAddress s rs1 imm).toNat + k
    · exact .inr (.inl ⟨by omega, h2, by simp only [if_neg h1, if_pos h2]⟩)
    · exact .inr (.inr ⟨by omega, by omega, by simp only [if_neg h1, if_neg h2]⟩)

/-- Everything a store can do (20_memory.md R64, 48_base.md R251). -/
theorem storeOp_cases (k : Nat) (w : Word) (rs2 rs1 : Reg) (imm : BitVec 16) (s : State) :
    ((dataAddress s rs1 imm).toNat % k ≠ 0 ∧
      storeOp k w rs2 rs1 imm s = raiseFault s .storeMisaligned (dataAddress s rs1 imm) w) ∨
    ((dataAddress s rs1 imm).toNat % k = 0 ∧ s.lmemBytes < (dataAddress s rs1 imm).toNat + k ∧
      storeOp k w rs2 rs1 imm s = raiseFault s .storeAccess (dataAddress s rs1 imm) w) ∨
    ((dataAddress s rs1 imm).toNat % k = 0 ∧ (dataAddress s rs1 imm).toNat + k ≤ s.lmemBytes ∧
      storeOp k w rs2 rs1 imm s =
        .next (s.writeMem (dataAddress s rs1 imm).toNat (leBytes k (s.reg rs2).toNat)).advance) := by
  unfold storeOp
  rw [effectiveAddr_eq]
  by_cases h1 : (dataAddress s rs1 imm).toNat % k ≠ 0
  · exact .inl ⟨h1, by simp only [if_pos h1]⟩
  · by_cases h2 : s.lmemBytes < (dataAddress s rs1 imm).toNat + k
    · exact .inr (.inl ⟨by omega, h2, by simp only [if_neg h1, if_pos h2]⟩)
    · exact .inr (.inr ⟨by omega, by omega, by simp only [if_neg h1, if_neg h2]⟩)

/-- A store writes no register (48_base.md R255 to R257). -/
theorem completes_writeMem_advance (s : State) (a : Word) (bs : List Byte) :
    Completes s (.next (s.writeMem a.toNat bs).advance) 0#4 0#32 (s.pc + 4) [(a, bs)] := by
  have h := changed_advance s 0#4 0#32 [(a, bs)]
  rw [State.setReg_zero] at h
  exact ⟨_, rfl, h⟩

-- Engines.

theorem State.bufOk_iff (s : State) (b : Buffer) : s.bufOk b = true ↔ Fits s b := by
  simp [State.bufOk, Fits]

/-- The checks of an engine fault for the first buffer that does not fit (20_memory.md R66). -/
theorem engineChecks_faults {i : Instr} {s : State} {bufs : List Buffer} (hw : WellFormed i = true)
    (k : Host.Outcome State Fault Refusal) (hx : exec i s = engineChecks i s bufs k) :
    FaultsAtFirstBadBuffer i s bufs := by
  intro before b after hb hpre hbad
  have : s.badBuf bufs = some b := by
    rw [State.badBuf, hb, List.find?_append, List.find?_eq_none.mpr]
    · simp [(State.bufOk_iff s b).not.mpr hbad]
    · intro c hc
      simpa using (State.bufOk_iff s c).mpr (hpre c hc)
  rw [hx, engineChecks, if_pos hw, this]
  exact faults_raiseFault s _ _ _

/-- The checks of an engine pass when every buffer fits. -/
theorem engineChecks_pass {i : Instr} {s : State} {bufs : List Buffer} (hw : WellFormed i = true)
    (hf : ∀ b ∈ bufs, Fits s b) (k : Host.Outcome State Fault Refusal) : engineChecks i s bufs k = k := by
  have : s.badBuf bufs = none := by
    rw [State.badBuf, List.find?_eq_none]
    intro b hb
    simpa using (State.bufOk_iff s b).mpr (hf b hb)
  rw [engineChecks, if_pos hw, this]

/-- Everything the checks of an engine can do: an ill-formed term is ILLEGAL, a buffer that does not fit is
ENGINE_ACCESS, and otherwise the engine goes on with every buffer within local memory. -/
theorem engineChecks_cases (i : Instr) (s : State) (bufs : List Buffer) (k : Host.Outcome State Fault Refusal) :
    (engineChecks i s bufs k = raiseFault s .illegal (encode i) (encode i)) ∨
    (∃ b ∈ bufs, engineChecks i s bufs k = raiseFault s .engineAccess b.1 (encode i)) ∨
    (WellFormed i = true ∧ (∀ b ∈ bufs, Fits s b) ∧ engineChecks i s bufs k = k) := by
  unfold engineChecks
  by_cases hw : WellFormed i = true
  · rw [if_pos hw]
    cases h : s.badBuf bufs with
    | some b => exact .inr (.inl ⟨b, List.mem_of_find?_eq_some h, rfl⟩)
    | none =>
      refine .inr (.inr ⟨hw, fun b hb => ?_, rfl⟩)
      have := List.find?_eq_none.mp h b hb
      exact (State.bufOk_iff s b).mp (by simpa using this)
  · rw [if_neg hw]; exact .inl rfl

end Sys2Proof.Machine
end

