-- ==== Sys2Proof/Laws/Exec.lean ====
section
/-!
SUPPORT. Everything an instruction can do, said once: it takes a fault, it goes on with some runs of bytes within its
output buffers written, it halts, or it stops at a byte that nothing has written. Invariants and frames follow from this
by a case split on `Did`, with no meaning unfolded.
-/

namespace Sys2Proof.Machine

/-- What instruction i can answer at state s. -/
inductive Did (i : Instr) (s : State) : Host.Outcome State Fault Refusal → Prop where
  | faults (c : Cause) (info : Word) (h : c ≠ .none) : Did i s (.next (s.raise c info (encode i)))
  | goesOn (v pc : Word) (outs : List (Word × List Byte))
      (aligned : s.pc.toNat % 4 = 0 → pc.toNat % 4 = 0)
      (runs : ∀ o ∈ outs, (o.1.toNat, o.2.length) ∈ storedRuns s i)
      (fits : ∀ o ∈ outs, Fits s (o.1, o.2.length)) :
      Did i s (.next (((s.writeBufs outs).setReg (destReg i) v).setPc pc))
  | halts (h : i = .halt) : Did i s (.next s.halt)
  | unwritten (a : Nat) (h : s.byte a = none) (lt : a < s.lmemBytes) : Did i s (.fault (.unwritten a))

theorem toNat_add_four_mod {p : Word} (h : p.toNat % 4 = 0) : (p + 4).toNat % 4 = 0 := by
  rw [BitVec.toNat_add]; simp; omega

theorem toNat_add_mul_four_mod {p : Word} (k : Word) (h : p.toNat % 4 = 0) : (p + k * 4).toNat % 4 = 0 := by
  rw [BitVec.toNat_add, BitVec.toNat_mul]; simp; omega

theorem setReg_setPc (s : State) (r : Reg) (v pc : Word) : (s.setPc pc).setReg r v = (s.setReg r v).setPc pc := by
  unfold State.setReg State.setPc; split <;> rfl

theorem did_engineDone {i : Instr} {s : State} (v : Word) (outs : List (Word × List Byte))
    (runs : ∀ o ∈ outs, (o.1.toNat, o.2.length) ∈ storedRuns s i) (fits : ∀ o ∈ outs, Fits s (o.1, o.2.length)) :
    Did i s (engineDone s (destReg i) v outs) := by
  have h := Did.goesOn (i := i) v (s.pc + 4) outs toNat_add_four_mod runs fits
  simpa [engineDone, State.advance] using h

theorem did_writeBack (i : Instr) (s : State) (v : Word) : Did i s (writeBack s (destReg i) v) :=
  did_engineDone v [] (by simp) (by simp)

theorem did_branchOp (i : Instr) (s : State) (hd : destReg i = 0#4) (taken : Bool) (off : BitVec 16) :
    Did i s (branchOp taken off s) := by
  cases taken
  · have h := Did.goesOn (i := i) (s := s) 0 (s.pc + 4) [] toNat_add_four_mod (by simp) (by simp)
    simpa [hd, branchOp, State.advance] using h
  · have h := Did.goesOn (i := i) (s := s) 0 (branchTarget s.pc off) [] (toNat_add_mul_four_mod _) (by simp) (by simp)
    simpa [hd, branchOp] using h

theorem did_withRead {i : Instr} {s : State} {a len : Nat} {k : List Byte → Host.Outcome State Fault Refusal}
    (hf : len = 0 ∨ a + len ≤ s.lmemBytes) (h : ∀ bs, bs.length = len → Did i s (k bs)) :
    Did i s (withRead s a len k) := by
  rcases withRead_cases s a len k with ⟨bs, -, hl, e⟩ | ⟨x, hx, h1, h2, e⟩
  · rw [e]; exact h bs hl
  · rw [e]; exact Did.unwritten x hx (by omega)

theorem did_withBuf {i : Instr} {s : State} {b : Buffer} {k : List Byte → Host.Outcome State Fault Refusal}
    (hf : Fits s b) (h : ∀ bs, bs.length = b.2 → Did i s (k bs)) : Did i s (withBuf s b k) :=
  did_withRead hf h

theorem did_loadOp (i : Instr) (s : State) (k : Nat) (rs1 : Reg) (imm : BitVec 16) :
    Did i s (loadOp k (encode i) (destReg i) rs1 imm s) := by
  rcases loadOp_cases k (encode i) (destReg i) rs1 imm s with ⟨-, e⟩ | ⟨-, -, e⟩ | ⟨-, h, e⟩ <;> rw [e]
  · exact Did.faults _ _ (by decide)
  · exact Did.faults _ _ (by decide)
  · exact did_withRead (.inr h) fun bs _ => did_writeBack i s _

theorem did_storeOp (i : Instr) (s : State) (k : Nat) (rs2 rs1 : Reg) (imm : BitVec 16) (hd : destReg i = 0#4)
    (hr : storedRuns s i = [((dataAddress s rs1 imm).toNat, k)]) : Did i s (storeOp k (encode i) rs2 rs1 imm s) := by
  rcases storeOp_cases k (encode i) rs2 rs1 imm s with ⟨-, e⟩ | ⟨-, -, e⟩ | ⟨-, h, e⟩ <;> rw [e]
  · exact Did.faults _ _ (by decide)
  · exact Did.faults _ _ (by decide)
  · have h := Did.goesOn (i := i) (s := s) 0 (s.pc + 4) [(dataAddress s rs1 imm, leBytes k (s.reg rs2).toNat)]
      toNat_add_four_mod (by simp [hr]) (by simp [Fits]; right; exact h)
    simpa [hd, State.advance] using h

theorem did_engineChecks {i : Instr} {s : State} {bufs : List Buffer} {k : Host.Outcome State Fault Refusal}
    (h : (∀ b ∈ bufs, Fits s b) → Did i s k) : Did i s (engineChecks i s bufs k) := by
  rcases engineChecks_cases i s bufs k with e | ⟨b, -, e⟩ | ⟨-, hf, e⟩ <;> rw [e]
  · exact Did.faults _ _ (by decide)
  · exact Did.faults _ _ (by decide)
  · exact h hf

theorem did_execJal (rd : Reg) (off : BitVec 20) (s : State) : Did (.jal rd off) s (execJal rd off s) := by
  have h := Did.goesOn (i := .jal rd off) (s := s) (s.pc + 4) (jumpTarget s.pc off) [] (toNat_add_mul_four_mod _)
    (by simp) (by simp)
  rw [← setReg_setPc] at h
  exact h

theorem did_execJalr (rd rs1 : Reg) (imm : BitVec 16) (s : State) : Did (.jalr rd rs1 imm) s (execJalr rd rs1 imm s) := by
  unfold execJalr
  dsimp only
  split
  · exact Did.faults _ _ (by decide)
  · rename_i h4
    have h := Did.goesOn (i := .jalr rd rs1 imm) (s := s) (s.pc + 4) (effectiveAddr s rs1 imm) [] (fun _ => by omega)
      (by simp) (by simp)
    rw [← setReg_setPc] at h
    exact h

@[simp] theorem keccakRound_size (a : Keccak) (rc : Lane) : (keccakRound a rc).size = 25 := by
  simp [keccakRound, chi]

theorem foldl_keccakRound_size (rcs : List Lane) (a : Keccak) (h : a.size = 25) :
    (rcs.foldl keccakRound a).size = 25 := by
  induction rcs generalizing a with
  | nil => exact h
  | cons rc rcs ih => exact ih _ (keccakRound_size a rc)

@[simp] theorem keccakF_size (a : Keccak) : (keccakF a).size = 25 := by
  have e : roundConstants = 1#64 :: roundConstants.tail := rfl
  rw [keccakF, e, List.foldl_cons]
  exact foldl_keccakRound_size _ _ (keccakRound_size a _)

@[simp] theorem absorbBlock_size (a : Keccak) (block : List Byte) : (absorbBlock a block).size = 25 := by
  simp [absorbBlock]

@[simp] theorem absorb_size (blocks : Nat) (m : List Byte) (a : Keccak) : (absorb blocks m a).size = 25 := by
  induction blocks generalizing m a with
  | zero => rw [absorb]; exact absorbBlock_size a _
  | succ n ih => exact ih _ _

theorem squeezeBlock_length {a : Keccak} (h : a.size = 25) : (squeezeBlock a).length = 136 := by
  simp [squeezeBlock, rateBytes, h]

theorem squeezeBlocks_length {extra : Nat} {a : Keccak} (h : a.size = 25) :
    (squeezeBlocks extra a).flatten.length = 136 * (extra + 1) := by
  induction extra generalizing a with
  | zero => simp [squeezeBlocks, squeezeBlock_length h]
  | succ n ih =>
    rw [squeezeBlocks, List.flatten_cons, List.length_append, ih (keccakF_size a), squeezeBlock_length h]
    omega

@[simp] theorem shake256_length (m : List Byte) (len : Nat) : (shake256 m len).length = len := by
  simp only [shake256, List.length_take, squeezeBlocks_length (absorb_size _ _ _), rateBytes]
  omega

theorem did_execSort32 (rd rb : Reg) (s : State) : Did (.sort32 rd rb) s (execSort32 rd rb s) := by
  refine did_engineChecks fun hf => ?_
  have f0 := hf _ List.mem_cons_self
  refine did_withBuf f0 fun b0 hb0 => ?_
  have e : 4 * (4 * (s.operand rb 1).toNat / 4) = 4 * (s.operand rb 1).toNat := by omega
  refine did_engineDone _ _ ?_ ?_
  · simp [hb0, storedRuns, State.operand]
  · simpa [hb0, e] using f0

theorem did_execSort64 (rd rb : Reg) (s : State) : Did (.sort64 rd rb) s (execSort64 rd rb s) := by
  refine did_engineChecks fun hf => ?_
  have f0 := hf _ List.mem_cons_self
  refine did_withBuf f0 fun b0 hb0 => ?_
  have e : 8 * (8 * (s.operand rb 1).toNat / 8) = 8 * (s.operand rb 1).toNat := by omega
  refine did_engineDone _ _ ?_ ?_
  · simp [hb0, storedRuns, State.operand]
  · simpa [hb0, e] using f0

theorem did_execTranspose (rd rb : Reg) (s : State) : Did (.transpose rd rb) s (execTranspose rd rb s) := by
  refine did_engineChecks fun hf => ?_
  have f0 := hf _ List.mem_cons_self
  have f1 := hf _ (List.mem_cons_of_mem _ List.mem_cons_self)
  refine did_withBuf f1 fun b1 hb1 => ?_
  refine did_engineDone _ _ ?_ ?_
  · simp [storedRuns, State.operand]
  · simpa [] using f0

theorem did_execBenes (rd rb : Reg) (rev : Bool) (s : State) : Did (.benes rd rb rev) s (execBenes rd rb rev s) := by
  refine did_engineChecks fun hf => ?_
  have f0 := hf _ List.mem_cons_self
  have f1 := hf _ (List.mem_cons_of_mem _ List.mem_cons_self)
  refine did_withBuf f0 fun b0 hb0 => ?_
  refine did_withBuf f1 fun b1 hb1 => ?_
  refine did_engineDone _ _ ?_ ?_
  · simp [storedRuns, State.operand, Variant.nfull_div]
  · simpa [Variant.nfull_div] using f0

theorem did_execCbits (rd rb : Reg) (s : State) : Did (.cbits rd rb) s (execCbits rd rb s) := by
  refine did_engineChecks fun hf => ?_
  have f0 := hf _ List.mem_cons_self
  have f1 := hf _ (List.mem_cons_of_mem _ List.mem_cons_self)
  refine did_withBuf f1 fun b1 hb1 => ?_
  split
  · refine did_engineDone _ _ ?_ ?_
    · simp [storedRuns, State.operand, Variant.condBytes_eq]
    · simpa [Variant.condBytes_eq] using f0
  · exact Did.faults _ _ (by decide)

theorem did_execSupport (rd rb : Reg) (s : State) : Did (.support rd rb) s (execSupport rd rb s) := by
  refine did_engineChecks fun hf => ?_
  have f0 := hf _ List.mem_cons_self
  have f1 := hf _ (List.mem_cons_of_mem _ List.mem_cons_self)
  refine did_withBuf f1 fun b1 hb1 => ?_
  refine did_engineDone _ _ ?_ ?_
  · simp [storedRuns, State.operand]
  · simpa [] using f0

theorem did_execPolymul (rd rb : Reg) (s : State) : Did (.polymul rd rb) s (execPolymul rd rb s) := by
  refine did_engineChecks fun hf => ?_
  have f0 := hf _ List.mem_cons_self
  have f1 := hf _ (List.mem_cons_of_mem _ List.mem_cons_self)
  have f2 := hf _ (List.mem_cons_of_mem _ (List.mem_cons_of_mem _ List.mem_cons_self))
  refine did_withBuf f1 fun b1 hb1 => ?_
  refine did_withBuf f2 fun b2 hb2 => ?_
  refine did_engineDone _ _ ?_ ?_
  · simp [storedRuns, State.operand]
  · simpa [] using f0

theorem did_execGenpoly (rd rb : Reg) (s : State) : Did (.genpoly rd rb) s (execGenpoly rd rb s) := by
  refine did_engineChecks fun hf => ?_
  have f0 := hf _ List.mem_cons_self
  have f1 := hf _ (List.mem_cons_of_mem _ List.mem_cons_self)
  refine did_withBuf f1 fun b1 hb1 => ?_
  refine did_engineDone _ _ ?_ ?_
  · split <;> simp [storedRuns, State.operand]
  · split
    · simpa using f0
    · simp

theorem did_execEval (rd rb : Reg) (s : State) : Did (.eval rd rb) s (execEval rd rb s) := by
  refine did_engineChecks fun hf => ?_
  have f0 := hf _ List.mem_cons_self
  refine did_withBuf f0 fun b0 hb0 => ?_
  exact did_engineDone _ _ (by simp) (by simp)

theorem did_execRoot (rd rb : Reg) (s : State) : Did (.root rd rb) s (execRoot rd rb s) := by
  refine did_engineChecks fun hf => ?_
  have f0 := hf _ List.mem_cons_self
  have f1 := hf _ (List.mem_cons_of_mem _ List.mem_cons_self)
  have f2 := hf _ (List.mem_cons_of_mem _ (List.mem_cons_of_mem _ List.mem_cons_self))
  refine did_withBuf f1 fun b1 hb1 => ?_
  refine did_withBuf f2 fun b2 hb2 => ?_
  refine did_engineDone _ _ ?_ ?_
  · simp [storedRuns, State.operand, hb2]
  · simpa [hb2] using f0

theorem did_execBm (rd rb : Reg) (s : State) : Did (.bm rd rb) s (execBm rd rb s) := by
  refine did_engineChecks fun hf => ?_
  have f0 := hf _ List.mem_cons_self
  have f1 := hf _ (List.mem_cons_of_mem _ List.mem_cons_self)
  refine did_withBuf f1 fun b1 hb1 => ?_
  refine did_engineDone _ _ ?_ ?_
  · simp [storedRuns, State.operand]
  · simpa [] using f0

theorem did_execSynd (rd rb : Reg) (s : State) : Did (.synd rd rb) s (execSynd rd rb s) := by
  refine did_engineChecks fun hf => ?_
  have f0 := hf _ List.mem_cons_self
  have f1 := hf _ (List.mem_cons_of_mem _ List.mem_cons_self)
  have f2 := hf _ (List.mem_cons_of_mem _ (List.mem_cons_of_mem _ List.mem_cons_self))
  have f3 := hf _ (List.mem_cons_of_mem _ (List.mem_cons_of_mem _ (List.mem_cons_of_mem _ List.mem_cons_self)))
  refine did_withBuf f1 fun b1 hb1 => ?_
  refine did_withBuf f2 fun b2 hb2 => ?_
  refine did_withBuf f3 fun b3 hb3 => ?_
  have e : ∀ t, 2 * (2 * t) = 4 * t := by omega
  refine did_engineDone _ _ ?_ ?_
  · simp [storedRuns, State.operand, e]
  · simpa [e] using f0

theorem did_execPkgen (rd rb : Reg) (s : State) : Did (.pkgen rd rb) s (execPkgen rd rb s) := by
  refine did_engineChecks fun hf => ?_
  have f0 := hf _ List.mem_cons_self
  have f1 := hf _ (List.mem_cons_of_mem _ List.mem_cons_self)
  have f2 := hf _ (List.mem_cons_of_mem _ (List.mem_cons_of_mem _ List.mem_cons_self))
  have f3 := hf _ (List.mem_cons_of_mem _ (List.mem_cons_of_mem _ (List.mem_cons_of_mem _ List.mem_cons_self)))
  have f4 := hf _ (List.mem_cons_of_mem _ (List.mem_cons_of_mem _ (List.mem_cons_of_mem _ (List.mem_cons_of_mem _ List.mem_cons_self))))
  refine did_withBuf f1 fun b1 hb1 => ?_
  refine did_withBuf f2 fun b2 hb2 => ?_
  refine did_engineDone _ _ ?_ ?_
  · split
    · rename_i k hk
      have := publicKey_sizes hk
      simp [storedRuns, State.operand, this, hb2, Variant.pkBytes]
    · simp
  · split
    · rename_i k hk
      have := publicKey_sizes hk
      intro o ho
      simp only [List.mem_cons, List.not_mem_nil, or_false] at ho
      rcases ho with rfl | rfl | rfl
      · simpa [this, Variant.pkBytes] using f0
      · simpa [this, hb2, show ∀ t, 2 * (4 * t / 4) = 2 * t by omega] using f3
      · simpa using f4
    · simp

theorem did_execGene (rd rb : Reg) (s : State) : Did (.gene rd rb) s (execGene rd rb s) := by
  refine did_engineChecks fun hf => ?_
  have f0 := hf _ List.mem_cons_self
  have f1 := hf _ (List.mem_cons_of_mem _ List.mem_cons_self)
  refine did_withBuf f1 fun b1 hb1 => ?_
  refine did_engineDone _ _ ?_ ?_
  · split <;> simp [storedRuns, State.operand, Variant.n_div, Variant.eBytes]
  · split
    · simpa [Variant.n_div, Variant.eBytes] using f0
    · simp

theorem did_execEncode (rd rb : Reg) (s : State) : Did (.encode rd rb) s (execEncode rd rb s) := by
  refine did_engineChecks fun hf => ?_
  have f0 := hf _ List.mem_cons_self
  have f1 := hf _ (List.mem_cons_of_mem _ List.mem_cons_self)
  have f2 := hf _ (List.mem_cons_of_mem _ (List.mem_cons_of_mem _ List.mem_cons_self))
  refine did_withBuf f1 fun b1 hb1 => ?_
  refine did_withBuf f2 fun b2 hb2 => ?_
  refine did_engineDone _ _ ?_ ?_
  · simp [storedRuns, State.operand]
  · simpa [] using f0

theorem did_execDecrypt (rd rb : Reg) (s : State) : Did (.decrypt rd rb) s (execDecrypt rd rb s) := by
  refine did_engineChecks fun hf => ?_
  have f0 := hf _ List.mem_cons_self
  have f1 := hf _ (List.mem_cons_of_mem _ List.mem_cons_self)
  have f2 := hf _ (List.mem_cons_of_mem _ (List.mem_cons_of_mem _ List.mem_cons_self))
  have f3 := hf _ (List.mem_cons_of_mem _ (List.mem_cons_of_mem _ (List.mem_cons_of_mem _ List.mem_cons_self)))
  refine did_withBuf f1 fun b1 hb1 => ?_
  refine did_withBuf f2 fun b2 hb2 => ?_
  refine did_withBuf f3 fun b3 hb3 => ?_
  refine did_engineDone _ _ ?_ ?_
  · simp [storedRuns, State.operand, Variant.n_div, Variant.eBytes]
  · simpa [Variant.n_div, Variant.eBytes] using f0

theorem did_execShake256 (rd rb : Reg) (s : State) : Did (.shake256 rd rb) s (execShake256 rd rb s) := by
  refine did_engineChecks fun hf => ?_
  have f0 := hf _ List.mem_cons_self
  have f1 := hf _ (List.mem_cons_of_mem _ List.mem_cons_self)
  refine did_withBuf f1 fun b1 hb1 => ?_
  refine did_engineDone _ _ ?_ ?_
  · simp [storedRuns, State.operand]
  · simpa [] using f0

/-- Every instruction does one of the four things of `Did`. -/
theorem exec_did (i : Instr) (s : State) : Did i s (exec i s) := by
  cases i
  case lbu | lhu | lw => exact did_loadOp _ s _ _ _
  case sb | sh | sw => exact did_storeOp _ s _ _ _ _ rfl rfl
  case beq | bne | blt | bge | bltu | bgeu => exact did_branchOp _ s rfl _ _
  case jal rd off => exact did_execJal rd off s
  case jalr rd rs1 imm => exact did_execJalr rd rs1 imm s
  case halt => exact Did.halts rfl
  case sort32 => exact did_execSort32 _ _ s
  case sort64 => exact did_execSort64 _ _ s
  case transpose => exact did_execTranspose _ _ s
  case benes => exact did_execBenes _ _ _ s
  case cbits => exact did_execCbits _ _ s
  case support => exact did_execSupport _ _ s
  case polymul => exact did_execPolymul _ _ s
  case genpoly => exact did_execGenpoly _ _ s
  case eval => exact did_execEval _ _ s
  case root => exact did_execRoot _ _ s
  case bm => exact did_execBm _ _ s
  case synd => exact did_execSynd _ _ s
  case pkgen => exact did_execPkgen _ _ s
  case gene => exact did_execGene _ _ s
  case encode => exact did_execEncode _ _ s
  case decrypt => exact did_execDecrypt _ _ s
  case shake256 => exact did_execShake256 _ _ s
  all_goals exact did_writeBack _ s _

end Sys2Proof.Machine
end

