-- ==== Sys2Proof/Laws/PerInstr.lean ====
section
/-!
SUPPORT. One fact of the encoder for every instruction: the low byte of its word is the opcode that the opcode map of
spec/30_encoding.md R101 gives its row.
-/

namespace Sys2Proof.Laws.OpcodeByte

/-- The opcode of each row, as the map of 30_encoding.md R101 lists it. -/
def opcode : Instr → BitVec 8
  | .add .. => 0x01
  | .sub .. => 0x02
  | .and .. => 0x03
  | .or .. => 0x04
  | .xor .. => 0x05
  | .sll .. => 0x06
  | .srl .. => 0x07
  | .sra .. => 0x08
  | .slt .. => 0x09
  | .sltu .. => 0x0A
  | .mul .. => 0x0B
  | .addi .. => 0x10
  | .andi .. => 0x11
  | .ori .. => 0x12
  | .xori .. => 0x13
  | .slli .. => 0x14
  | .srli .. => 0x15
  | .srai .. => 0x16
  | .lui .. => 0x17
  | .param .. => 0x18
  | .lbu .. => 0x20
  | .lhu .. => 0x21
  | .lw .. => 0x22
  | .sb .. => 0x28
  | .sh .. => 0x29
  | .sw .. => 0x2A
  | .beq .. => 0x30
  | .bne .. => 0x31
  | .blt .. => 0x32
  | .bge .. => 0x33
  | .bltu .. => 0x34
  | .bgeu .. => 0x35
  | .jal .. => 0x38
  | .jalr .. => 0x39
  | .halt => 0x3F
  | .gfMul .. => 0x40
  | .gfSq .. => 0x41
  | .gfInv .. => 0x42
  | .gfFrac .. => 0x43
  | .gfIsz .. => 0x44
  | .gfBitrev .. => 0x45
  | .sort32 .. => 0x50
  | .sort64 .. => 0x51
  | .transpose .. => 0x54
  | .benes .. => 0x55
  | .cbits .. => 0x56
  | .support .. => 0x57
  | .polymul .. => 0x58
  | .genpoly .. => 0x59
  | .eval .. => 0x5A
  | .root .. => 0x5B
  | .bm .. => 0x5C
  | .synd .. => 0x5D
  | .pkgen .. => 0x60
  | .gene .. => 0x68
  | .encode .. => 0x69
  | .decrypt .. => 0x6A
  | .shake256 .. => 0x70

/-- The low byte of the instruction's word is its row's opcode (30_encoding.md R91, R101). -/
def Statement (i : Instr) : Prop := fieldOp (encode i) = opcode i

theorem add (rd rs1 rs2 : Reg) : Statement (.add rd rs1 rs2) := fieldOp_formR ..
theorem sub (rd rs1 rs2 : Reg) : Statement (.sub rd rs1 rs2) := fieldOp_formR ..
theorem and (rd rs1 rs2 : Reg) : Statement (.and rd rs1 rs2) := fieldOp_formR ..
theorem or (rd rs1 rs2 : Reg) : Statement (.or rd rs1 rs2) := fieldOp_formR ..
theorem xor (rd rs1 rs2 : Reg) : Statement (.xor rd rs1 rs2) := fieldOp_formR ..
theorem sll (rd rs1 rs2 : Reg) : Statement (.sll rd rs1 rs2) := fieldOp_formR ..
theorem srl (rd rs1 rs2 : Reg) : Statement (.srl rd rs1 rs2) := fieldOp_formR ..
theorem sra (rd rs1 rs2 : Reg) : Statement (.sra rd rs1 rs2) := fieldOp_formR ..
theorem slt (rd rs1 rs2 : Reg) : Statement (.slt rd rs1 rs2) := fieldOp_formR ..
theorem sltu (rd rs1 rs2 : Reg) : Statement (.sltu rd rs1 rs2) := fieldOp_formR ..
theorem mul (rd rs1 rs2 : Reg) : Statement (.mul rd rs1 rs2) := fieldOp_formR ..
theorem addi (rd rs1 : Reg) (imm : BitVec 16) : Statement (.addi rd rs1 imm) := fieldOp_formI ..
theorem andi (rd rs1 : Reg) (imm : BitVec 16) : Statement (.andi rd rs1 imm) := fieldOp_formI ..
theorem ori (rd rs1 : Reg) (imm : BitVec 16) : Statement (.ori rd rs1 imm) := fieldOp_formI ..
theorem xori (rd rs1 : Reg) (imm : BitVec 16) : Statement (.xori rd rs1 imm) := fieldOp_formI ..
theorem slli (rd rs1 : Reg) (sh : BitVec 5) : Statement (.slli rd rs1 sh) := fieldOp_formShift ..
theorem srli (rd rs1 : Reg) (sh : BitVec 5) : Statement (.srli rd rs1 sh) := fieldOp_formShift ..
theorem srai (rd rs1 : Reg) (sh : BitVec 5) : Statement (.srai rd rs1 sh) := fieldOp_formShift ..
theorem lui (rd : Reg) (imm : BitVec 16) : Statement (.lui rd imm) := fieldOp_formI ..
theorem param (rd : Reg) (idx : BitVec 4) : Statement (.param rd idx) := fieldOp_formR ..
theorem lbu (rd rs1 : Reg) (imm : BitVec 16) : Statement (.lbu rd rs1 imm) := fieldOp_formI ..
theorem lhu (rd rs1 : Reg) (imm : BitVec 16) : Statement (.lhu rd rs1 imm) := fieldOp_formI ..
theorem lw (rd rs1 : Reg) (imm : BitVec 16) : Statement (.lw rd rs1 imm) := fieldOp_formI ..
theorem sb (rs2 rs1 : Reg) (imm : BitVec 16) : Statement (.sb rs2 rs1 imm) := fieldOp_formI ..
theorem sh (rs2 rs1 : Reg) (imm : BitVec 16) : Statement (.sh rs2 rs1 imm) := fieldOp_formI ..
theorem sw (rs2 rs1 : Reg) (imm : BitVec 16) : Statement (.sw rs2 rs1 imm) := fieldOp_formI ..
theorem beq (rs1 rs2 : Reg) (off : BitVec 16) : Statement (.beq rs1 rs2 off) := fieldOp_formI ..
theorem bne (rs1 rs2 : Reg) (off : BitVec 16) : Statement (.bne rs1 rs2 off) := fieldOp_formI ..
theorem blt (rs1 rs2 : Reg) (off : BitVec 16) : Statement (.blt rs1 rs2 off) := fieldOp_formI ..
theorem bge (rs1 rs2 : Reg) (off : BitVec 16) : Statement (.bge rs1 rs2 off) := fieldOp_formI ..
theorem bltu (rs1 rs2 : Reg) (off : BitVec 16) : Statement (.bltu rs1 rs2 off) := fieldOp_formI ..
theorem bgeu (rs1 rs2 : Reg) (off : BitVec 16) : Statement (.bgeu rs1 rs2 off) := fieldOp_formI ..
theorem jal (rd : Reg) (off : BitVec 20) : Statement (.jal rd off) := fieldOp_formJ ..
theorem jalr (rd rs1 : Reg) (imm : BitVec 16) : Statement (.jalr rd rs1 imm) := fieldOp_formI ..
theorem halt : Statement .halt := rfl
theorem gfMul (rd rs1 rs2 : Reg) : Statement (.gfMul rd rs1 rs2) := fieldOp_formR ..
theorem gfSq (rd rs1 : Reg) : Statement (.gfSq rd rs1) := fieldOp_formR ..
theorem gfInv (rd rs1 : Reg) : Statement (.gfInv rd rs1) := fieldOp_formR ..
theorem gfFrac (rd rs1 rs2 : Reg) : Statement (.gfFrac rd rs1 rs2) := fieldOp_formR ..
theorem gfIsz (rd rs1 : Reg) : Statement (.gfIsz rd rs1) := fieldOp_formR ..
theorem gfBitrev (rd rs1 : Reg) : Statement (.gfBitrev rd rs1) := fieldOp_formR ..
theorem sort32 (rd rb : Reg) : Statement (.sort32 rd rb) := fieldOp_formI ..
theorem sort64 (rd rb : Reg) : Statement (.sort64 rd rb) := fieldOp_formI ..
theorem transpose (rd rb : Reg) : Statement (.transpose rd rb) := fieldOp_formI ..
theorem benes (rd rb : Reg) (rev : Bool) : Statement (.benes rd rb rev) := fieldOp_formI ..
theorem cbits (rd rb : Reg) : Statement (.cbits rd rb) := fieldOp_formI ..
theorem support (rd rb : Reg) : Statement (.support rd rb) := fieldOp_formI ..
theorem polymul (rd rb : Reg) : Statement (.polymul rd rb) := fieldOp_formI ..
theorem genpoly (rd rb : Reg) : Statement (.genpoly rd rb) := fieldOp_formI ..
theorem eval (rd rb : Reg) : Statement (.eval rd rb) := fieldOp_formI ..
theorem root (rd rb : Reg) : Statement (.root rd rb) := fieldOp_formI ..
theorem bm (rd rb : Reg) : Statement (.bm rd rb) := fieldOp_formI ..
theorem synd (rd rb : Reg) : Statement (.synd rd rb) := fieldOp_formI ..
theorem pkgen (rd rb : Reg) : Statement (.pkgen rd rb) := fieldOp_formI ..
theorem gene (rd rb : Reg) : Statement (.gene rd rb) := fieldOp_formI ..
theorem encode (rd rb : Reg) : Statement (.encode rd rb) := fieldOp_formI ..
theorem decrypt (rd rb : Reg) : Statement (.decrypt rd rb) := fieldOp_formI ..
theorem shake256 (rd rb : Reg) : Statement (.shake256 rd rb) := fieldOp_formI ..

end Sys2Proof.Laws.OpcodeByte
end

