-- ==== Sys2Proof/Laws/Step.lean ====
section
/-!
SUPPORT. What one step can do, said once: the six kinds of event, the moves of SEQ, and what an access of the host
port leaves. Invariants of the machine follow from these by cases.
-/

namespace Sys2Proof.Machine

theorem step_nil {s : State} (h : s.host = []) : step s = seqStep s := by simp [step, hostStep, h]

theorem step_idle {s : State} {rest : List HostEvent} (h : s.host = .idle :: rest) :
    step s = seqStep (s.withHost rest) := by simp [step, hostStep, h]

theorem step_begins {s : State} {rest : List HostEvent} (h : s.host = .begins :: rest) :
    step s = .next (s.withHost rest).beginInstr := by simp [step, hostStep, h]

theorem step_read {s : State} {rest : List HostEvent} {off : BitVec 25} {k : Nat} (h : s.host = .read off k :: rest) :
    step s = hostRead (s.withHost rest) off k := by simp [step, hostStep, h]

theorem step_write {s : State} {rest : List HostEvent} {off : BitVec 25} {k : Nat} {d : Word}
    (h : s.host = .write off k d :: rest) : step s = .next (hostWrite (s.withHost rest) off k d) := by
  simp [step, hostStep, h]

theorem step_reset {s : State} {rest : List HostEvent} (h : s.host = .reset :: rest) :
    step s = .next (s.withHost rest).resetEvent := by simp [step, hostStep, h]

theorem toNat_append_byte {n : Nat} (x : BitVec n) (b : Byte) : (x ++ b).toNat = x.toNat * 256 + b.toNat := by
  rw [BitVec.toNat_append, ← Nat.shiftLeft_add_eq_or_of_lt b.isLt, Nat.shiftLeft_eq]

/-- The four bytes fetched are a word's, and SEQ runs what the word decodes to. -/
theorem runBytes_cases {bs : List Byte} (h : bs.length = 4) (s : State) :
    ∃ w, bs = bytesOfWord w ∧
      ((∃ i, decodeWord w = .ok i ∧ runBytes bs s = exec i s) ∨
        ((∃ e, decodeWord w = .error e) ∧ runBytes bs s = raiseFault s .illegal w w)) := by
  obtain ⟨b0, b1, b2, b3, rfl⟩ : ∃ b0 b1 b2 b3, bs = [b0, b1, b2, b3] := by
    rcases bs with _ | ⟨b0, _ | ⟨b1, _ | ⟨b2, _ | ⟨b3, _ | ⟨b4, rest⟩⟩⟩⟩⟩ <;>
      first | exact ⟨_, _, _, _, rfl⟩ | simp at h
  refine ⟨wordOfBytes b0 b1 b2 b3, (bytesOfWord_wordOfBytes b0 b1 b2 b3).symm, ?_⟩
  have hw : BitVec.ofNat 32 (leNat [b0, b1, b2, b3]) = wordOfBytes b0 b1 b2 b3 := by
    apply BitVec.eq_of_toNat_eq
    have h0 := b0.isLt
    have h1 := b1.isLt
    have h2 := b2.isLt
    have h3 := b3.isLt
    simp only [leNat, wordOfBytes, BitVec.toNat_ofNat, toNat_append_byte]
    omega
  cases hd : decodeWord (wordOfBytes b0 b1 b2 b3) with
  | ok i => exact .inl ⟨i, rfl, by simp [runBytes, decode, hd]⟩
  | error e => exact .inr ⟨⟨e, rfl⟩, by simp [runBytes, decode, hd, hw]⟩

/-- Everything the fetch and execution of the instruction at pc can do. -/
theorem fetchAndRun_cases (s : State) :
    (s.lmemBytes < s.pc.toNat + 4 ∧ fetchAndRun s = raiseFault s .fetchAccess s.pc 0) ∨
    (s.pc.toNat + 4 ≤ s.lmemBytes ∧
      ∃ w, Memory.read s.mem s.pc.toNat 4 = .ok (bytesOfWord w) ∧
        ((∃ i, decodeWord w = .ok i ∧ fetchAndRun s = exec i s) ∨
          ((∃ e, decodeWord w = .error e) ∧ fetchAndRun s = raiseFault s .illegal w w))) ∨
    (∃ a, s.byte a = none ∧ a < s.lmemBytes ∧ fetchAndRun s = .fault (.unwritten a)) := by
  unfold fetchAndRun
  by_cases hf : s.lmemBytes < s.pc.toNat + 4
  · exact .inl ⟨hf, by rw [if_pos hf]⟩
  · rw [if_neg hf]
    rcases withRead_cases s s.pc.toNat 4 (fun bs => runBytes bs s) with ⟨bs, hb, hl, e⟩ | ⟨a, ha, h1, h2, e⟩
    · obtain ⟨w, rfl, hw⟩ := runBytes_cases hl s
      refine .inr (.inl ⟨by omega, w, hb, ?_⟩)
      rw [e]; exact hw
    · exact .inr (.inr ⟨a, ha, by omega, e⟩)

/-- Everything one move of SEQ can do: nothing while stopped, a pending STOP at a boundary, or the instruction at pc. -/
theorem seqStep_cases (s : State) :
    (s.run = false ∧ seqStep s = .next s) ∨
    (s.run = true ∧ s.stopReq = true ∧ s.begun = false ∧ seqStep s = .next s.honourStop) ∨
    (s.run = true ∧ (s.begun = true ∨ s.stopReq = false) ∧ seqStep s = fetchAndRun s.finish) := by
  unfold seqStep
  cases hr : s.run
  · exact .inl ⟨rfl, by simp⟩
  · cases hs : s.stopTaken
    · exact .inr (.inr ⟨rfl, s.stopTaken_eq_false.mp hs, by simp⟩)
    · obtain ⟨h1, h2⟩ := s.stopTaken_eq_true.mp hs
      exact .inr (.inl ⟨rfl, h1, h2, by simp⟩)

/-- Every target of the LMEM window lies in local memory. -/
theorem portTarget_lmem {b : Build} {off : BitVec 25} {a : Nat} (h : portTarget b off = .lmem a) :
    a < b.lmemBytes ∧ off.toNat = 0x1000000 + a := by
  by_cases h1 : 0x1000000 ≤ off.toNat
  · simp only [portTarget, h1, if_true] at h
    split at h
    · injection h with h; omega
    · exact absurd h (by simp)
  · exfalso
    revert h
    simp only [portTarget, h1, if_false]
    split
    · simp
    · generalize off.toNat / 4 = x
      rcases x with _ | _ | _ | _ | _ | _ | _ | _ | _ | _ | x <;> simp

/-- A window access that is not refused ends within local memory, whose size is a multiple of 4 (20_memory.md R79). -/
theorem lmem_access_fits {b : Build} {off : BitVec 25} {a k : Nat} (h : portTarget b off = .lmem a)
    (hw : portWidthOk off k (.lmem a) = true) : a + k ≤ b.lmemBytes ∧ (k = 1 ∨ k = 2 ∨ k = 4) ∧ a % k = 0 := by
  obtain ⟨h1, h2⟩ := portTarget_lmem h
  simp only [portWidthOk, Bool.and_eq_true, Bool.or_eq_true, decide_eq_true_eq] at hw
  have h4 : b.lmemBytes % 4 = 0 := by
    unfold Build.lmemBytes
    rw [show 16 + b.lmemLog.val = 2 + (14 + b.lmemLog.val) by omega, Nat.pow_add]
    omega
  rcases hw with ⟨(rfl | rfl) | rfl, hm⟩ <;> omega

/-- Everything a read of the host port can do: it changes at most what the HOST got, HERR, and the counter of free
values; or, while RUN = 0, it stops at a byte that nothing has written (20_memory.md R70, R79). -/
theorem hostRead_cases (s : State) (off : BitVec 25) (k : Nat) :
    (∃ d herr draws, hostRead s off k = .next { s with hostData := d, herr := herr, draws := draws }) ∨
    (s.run = false ∧ ∃ a, s.byte a = none ∧ a < s.lmemBytes ∧ hostRead s off k = .fault (.unwritten a)) := by
  unfold hostRead
  dsimp only
  cases hw : portWidthOk off k (portTarget s.build off) with
  | false => exact .inl ⟨0, true, s.draws, rfl⟩
  | true =>
    rw [if_pos rfl]
    cases ht : portTarget s.build off with
    | pc =>
      cases hr : s.run
      · exact .inl ⟨s.pcReg, s.herr, s.draws, by simp [State.give, hr]⟩
      · exact .inl ⟨Config.freePcRead s.draws, s.herr, s.draws + 1, by simp [State.give, hr]⟩
    | gpr i =>
      cases hr : s.run
      · exact .inl ⟨s.reg i, s.herr, s.draws, by simp [State.give, hr]⟩
      · exact .inl ⟨0, true, s.draws, by simp [State.give, State.refuse, hr]⟩
    | lmem a =>
      cases hr : s.run with
      | true => exact .inl ⟨0, true, s.draws, by simp [State.give, State.refuse, hr]⟩
      | false =>
        have hfit := (lmem_access_fits ht (by rw [← ht]; exact hw)).1
        rcases withRead_cases s a k (fun bs => .next (s.give (BitVec.ofNat 32 (leNat bs)))) with
          ⟨bs, -, -, e⟩ | ⟨x, hx, h1, h2, e⟩
        · exact .inl ⟨BitVec.ofNat 32 (leNat bs), s.herr, s.draws, by
            dsimp only; rw [if_neg (by simp), e]; simp [State.give, hr]⟩
        · exact .inr ⟨rfl, x, hx, by unfold State.lmemBytes; omega, by simp [e]⟩
    | reserved => exact .inl ⟨_, true, _, rfl⟩
    | id => exact .inl ⟨_, s.herr, s.draws, rfl⟩
    | version => exact .inl ⟨_, s.herr, s.draws, rfl⟩
    | variant => exact .inl ⟨_, s.herr, s.draws, rfl⟩
    | lmemsz => exact .inl ⟨_, s.herr, s.draws, rfl⟩
    | ctrl => exact .inl ⟨_, s.herr, s.draws, rfl⟩
    | status => exact .inl ⟨_, s.herr, s.draws, rfl⟩
    | entryPc => exact .inl ⟨_, s.herr, s.draws, rfl⟩
    | faultInfo => exact .inl ⟨_, s.herr, s.draws, rfl⟩
    | faultInsn => exact .inl ⟨_, s.herr, s.draws, rfl⟩

/-- Everything a write of the host port can do. -/
theorem hostWrite_cases (s : State) (off : BitVec 25) (k : Nat) (d : Word) :
    hostWrite s off k d = s ∨
    hostWrite s off k d = s.refuse ∨
    hostWrite s off k d = s.writeCtrl d ∨
    hostWrite s off k d = s.writeStatus d ∨
    (s.run = false ∧ hostWrite s off k d = { s with entry := d.extractLsb' 2 30 }) ∨
    (s.run = false ∧ ∃ i, hostWrite s off k d = s.setReg i d) ∨
    (s.run = false ∧ ∃ a, a + k ≤ s.lmemBytes ∧ hostWrite s off k d = s.writeMem a (leBytes k d.toNat)) := by
  unfold hostWrite
  dsimp only
  cases hw : portWidthOk off k (portTarget s.build off) with
  | false => exact .inr (.inl rfl)
  | true =>
    rw [if_pos rfl]
    cases ht : portTarget s.build off with
    | ctrl => exact .inr (.inr (.inl rfl))
    | status => exact .inr (.inr (.inr (.inl rfl)))
    | entryPc =>
      cases hr : s.run
      · exact .inr (.inr (.inr (.inr (.inl ⟨rfl, by simp⟩))))
      · exact .inr (.inl (by simp))
    | gpr i =>
      cases hr : s.run
      · exact .inr (.inr (.inr (.inr (.inr (.inl ⟨rfl, i, by simp⟩)))))
      · exact .inr (.inl (by simp))
    | lmem a =>
      cases hr : s.run
      · exact .inr (.inr (.inr (.inr (.inr (.inr ⟨rfl, a, (lmem_access_fits ht (by rw [← ht]; exact hw)).1, by simp⟩)))))
      · exact .inr (.inl (by simp))
    | reserved => exact .inr (.inl rfl)
    | id => exact .inl rfl
    | version => exact .inl rfl
    | variant => exact .inl rfl
    | lmemsz => exact .inl rfl
    | pc => exact .inl rfl
    | faultInfo => exact .inl rfl
    | faultInsn => exact .inl rfl

end Sys2Proof.Machine
end

