-- ==== Sys2Proof/Tests/Slice0.lean ====
section
/-!
SUPPORT. The tests. Their expected results are the vectors of spec/95_test_vectors.md, the rules' own examples, or words
written out from the formats of spec/30_encoding.md. After them stand the witnesses: for every obligation with
hypotheses, a concrete state and operands that meet them all.
-/

namespace Sys2Proof.Tests

open Sys2Proof.Machine

-- Well-formedness: an operand group that runs past r15 is refused for every group size (30_encoding.md R98, R102).

theorem test_group_of_2_past_r15 : WellFormed (.sort32 0 15) = false ∧ WellFormed (.sort64 0 15) = false ∧
    WellFormed (.transpose 0 15) = false ∧ WellFormed (.benes 0 15 true) = false ∧ WellFormed (.cbits 0 15) = false ∧
    WellFormed (.support 0 15) = false ∧ WellFormed (.genpoly 0 15) = false ∧ WellFormed (.eval 0 15) = false ∧
    WellFormed (.bm 0 15) = false ∧ WellFormed (.gene 0 15) = false ∧ WellFormed (.gene 0 14) = true := by decide

theorem test_group_of_3_past_r15 : WellFormed (.polymul 0 14) = false ∧ WellFormed (.root 0 14) = false ∧
    WellFormed (.encode 0 14) = false ∧ WellFormed (.encode 0 13) = true := by decide

theorem test_group_of_4_past_r15 : WellFormed (.synd 0 13) = false ∧ WellFormed (.decrypt 0 13) = false ∧
    WellFormed (.shake256 2 13) = false ∧ WellFormed (.shake256 2 12) = true := by decide

theorem test_group_of_5_past_r15 : WellFormed (.pkgen 0 12) = false ∧ WellFormed (.pkgen 0 11) = true := by decide

-- Decoding: a word for every constructor, written out from the formats of 30_encoding.md R92 to R98 and the opcodes of R101.

/-- Format R, imm zero in [31:20], rs2, rs1, rd, opcode: here rs2 = 3, rs1 = 2, rd = 1. -/
theorem test_decode_alu_register :
    [0x00032101, 0x00032102, 0x00032103, 0x00032104, 0x00032105, 0x00032106, 0x00032107, 0x00032108, 0x00032109,
      0x0003210A, 0x0003210B].map decodeWord =
    [.ok (.add 1 2 3), .ok (.sub 1 2 3), .ok (.and 1 2 3), .ok (.or 1 2 3), .ok (.xor 1 2 3), .ok (.sll 1 2 3),
      .ok (.srl 1 2 3), .ok (.sra 1 2 3), .ok (.slt 1 2 3), .ok (.sltu 1 2 3), .ok (.mul 1 2 3)] := by decide

/-- Format I: imm16 in [31:16], rs1, rd, opcode. -/
theorem test_decode_alu_immediate :
    [0xFFFF2110, 0xFFFF2111, 0x80002112, 0x80002113, 0x001F2114, 0x001F2115, 0x00042116, 0xABCD0117, 0x000D0118].map
      decodeWord =
    [.ok (.addi 1 2 0xFFFF), .ok (.andi 1 2 0xFFFF), .ok (.ori 1 2 0x8000), .ok (.xori 1 2 0x8000), .ok (.slli 1 2 31),
      .ok (.srli 1 2 31), .ok (.srai 1 2 4), .ok (.lui 1 0xABCD), .ok (.param 1 13)] := by decide

/-- Format S holds the data register in [11:8] and the base in [15:12]. -/
theorem test_decode_load_store :
    [0x00072120, 0x00062121, 0x00042122, 0x00002328, 0x00002329, 0x8000232A].map decodeWord =
    [.ok (.lbu 1 2 7), .ok (.lhu 1 2 6), .ok (.lw 1 2 4), .ok (.sb 3 2 0), .ok (.sh 3 2 0), .ok (.sw 3 2 0x8000)] := by
  decide

/-- Format B holds rs1 in [11:8] and rs2 in [15:12]; format J holds off20 in [31:12]. -/
theorem test_decode_control :
    [0xFFFC2130, 0xFFFC2131, 0x00032132, 0x00032133, 0x00032134, 0x00032135, 0xFFC00138, 0x00042239, 0x0000003F].map
      decodeWord =
    [.ok (.beq 1 2 0xFFFC), .ok (.bne 1 2 0xFFFC), .ok (.blt 1 2 3), .ok (.bge 1 2 3), .ok (.bltu 1 2 3),
      .ok (.bgeu 1 2 3), .ok (.jal 1 0xFFC00), .ok (.jalr 2 2 4), .ok .halt] := by decide

theorem test_decode_gf :
    [0x00032140, 0x00002141, 0x00002142, 0x00032143, 0x00002144, 0x00002145].map decodeWord =
    [.ok (.gfMul 1 2 3), .ok (.gfSq 1 2), .ok (.gfInv 1 2), .ok (.gfFrac 1 2 3), .ok (.gfIsz 1 2),
      .ok (.gfBitrev 1 2)] := by decide

/-- Format E: fn16, rb, rd, opcode. -/
theorem test_decode_sort_network :
    [0x00001050, 0x00001051, 0x00001054, 0x00001055, 0x00011055, 0x00001056, 0x00001057].map decodeWord =
    [.ok (.sort32 0 1), .ok (.sort64 0 1), .ok (.transpose 0 1), .ok (.benes 0 1 false), .ok (.benes 0 1 true),
      .ok (.cbits 0 1), .ok (.support 0 1)] := by decide

theorem test_decode_poly :
    [0x00001058, 0x00001459, 0x0000155A, 0x0000105B, 0x0000105C, 0x0000C05D].map decodeWord =
    [.ok (.polymul 0 1), .ok (.genpoly 4 1), .ok (.eval 5 1), .ok (.root 0 1), .ok (.bm 0 1), .ok (.synd 0 12)] := by
  decide

theorem test_decode_key_code_hash :
    [0x0000B160, 0x00001368, 0x00004769, 0x0000186A, 0x0000C070].map decodeWord =
    [.ok (.pkgen 1 11), .ok (.gene 3 1), .ok (.encode 7 4), .ok (.decrypt 8 1), .ok (.shake256 0 12)] := by decide

/-- The illegal words of 95_test_vectors.md 9.2. -/
theorem test_decode_illegal :
    [0x00000000, 0x0000000C, 0x10032101, 0x00032141, 0x00011050, 0x00021055, 0x0000013F, 0x00202114, 0x00100118,
      0x0000F117, 0x0000C060, 0x0000D270].map decodeWord =
    [.error .unassignedOpcode, .error .unassignedOpcode, .error .mustBeZero, .error .mustBeZero,
      .error .engineFunction, .error .engineFunction, .error .mustBeZero, .error .mustBeZero, .error .mustBeZero,
      .error .mustBeZero, .error .operandGroup, .error .operandGroup] := by decide

/-- The bytes of a word stand lowest first (20_memory.md R62), and fewer than four are no instruction. -/
theorem test_decode_bytes : decode [0x22, 0x65, 0x08, 0x00, 0x01] = .ok (.lw 5 6 8, [0x01]) ∧
    decode [0x22, 0x65, 0x08] = .error .truncated := by decide

theorem test_decode_table_word : decodeTableWord 32 0x00032101 = some (.add 1 2 3) ∧
    decodeTableWord 32 0x0000000C = none := by decide

-- One instruction each: 95_test_vectors.md 9.1. The instruction is at 0x1000.

/-- The outcome of the step that runs w at 0x1000 with r2 and r3 as given, the other registers 0. -/
def ran (v : Variant) (x2 x3 : Word) (w : Nat) : Host.Outcome State Fault Refusal :=
  step (State.withFetchWord
    { ((State.resetOf { variant := v, lmemLog := 5 }).setReg 2 x2).setReg 3 x3 with pc := 0x1000 } 32 w)

/-- r1 and pc in the next state. -/
def r1pc : Host.Outcome State Fault Refusal → Option (Word × Word)
  | .next t => some (t.reg 1, t.pc)
  | _ => none

/-- The cause, FAULT_INFO, FAULT_INSN, PC and r1 in a next state whose FAULT is set. -/
def faultOf : Host.Outcome State Fault Refusal → Option (Cause × Word × Word × Word × Word)
  | .next t => if t.isFault && !t.run then some (t.cause, t.faultInfo, t.faultInsn, t.pcReg, t.reg 1) else none
  | _ => none

/-- `len` bytes from address a in the next state. -/
def bytesAt (a len : Nat) : Host.Outcome State Fault Refusal → Option (List Byte)
  | .next t => (Memory.read t.mem a len).toOption
  | _ => none

theorem test_add_wraps : r1pc (ran .mceliece348864 0xFFFFFFFF 2 0x00032101) = some (1, 0x1004) := by decide
theorem test_add_r0_discards : r1pc (ran .mceliece348864 1 2 0x00032001) = some (0, 0x1004) := by decide
theorem test_sub_borrows : r1pc (ran .mceliece348864 0 1 0x00032102) = some (0xFFFFFFFF, 0x1004) := by decide
theorem test_and : r1pc (ran .mceliece348864 0xF0F0 0xFF00 0x00032103) = some (0xF000, 0x1004) := by decide
theorem test_or : r1pc (ran .mceliece348864 0xF0F0 0xFF00 0x00032104) = some (0xFFF0, 0x1004) := by decide
theorem test_xor : r1pc (ran .mceliece348864 0xF0F0 0xFF00 0x00032105) = some (0x0FF0, 0x1004) := by decide
theorem test_sll_amount_mod_32 : r1pc (ran .mceliece348864 1 33 0x00032106) = some (2, 0x1004) := by decide
theorem test_srl : r1pc (ran .mceliece348864 0x80000000 31 0x00032107) = some (1, 0x1004) := by decide
theorem test_sra : r1pc (ran .mceliece348864 0x80000000 31 0x00032108) = some (0xFFFFFFFF, 0x1004) := by decide
theorem test_slt : r1pc (ran .mceliece348864 0xFFFFFFFF 0 0x00032109) = some (1, 0x1004) := by decide
theorem test_sltu : r1pc (ran .mceliece348864 0xFFFFFFFF 0 0x0003210A) = some (0, 0x1004) := by decide
theorem test_mul_low : r1pc (ran .mceliece348864 0x10000 0x10001 0x0003210B) = some (0x10000, 0x1004) := by decide
theorem test_mul_max : r1pc (ran .mceliece348864 0xFFFFFFFF 0xFFFFFFFF 0x0003210B) = some (1, 0x1004) := by decide
theorem test_addi_sext : r1pc (ran .mceliece348864 0 0 0xFFFF2110) = some (0xFFFFFFFF, 0x1004) := by decide
theorem test_andi_zext : r1pc (ran .mceliece348864 0x12345678 0 0xFFFF2111) = some (0x5678, 0x1004) := by decide
theorem test_ori_zext : r1pc (ran .mceliece348864 0x10000 0 0x80002112) = some (0x18000, 0x1004) := by decide
theorem test_xori_zext : r1pc (ran .mceliece348864 0 0 0x80002113) = some (0x8000, 0x1004) := by decide
theorem test_slli : r1pc (ran .mceliece348864 1 0 0x001F2114) = some (0x80000000, 0x1004) := by decide
theorem test_srli : r1pc (ran .mceliece348864 0x80000000 0 0x001F2115) = some (1, 0x1004) := by decide
theorem test_srai : r1pc (ran .mceliece348864 0xF0000000 0 0x00042116) = some (0xFF000000, 0x1004) := by decide
theorem test_lui : r1pc (ran .mceliece348864 0 0 0xABCD0117) = some (0xABCD0000, 0x1004) := by decide
theorem test_param_ge_rand : r1pc (ran .mceliece348864 0 0 0x000D0118) = some (0x100, 0x1004) := by decide
theorem test_param_m : r1pc (ran .mceliece460896 0 0 0x00010118) = some (13, 0x1004) := by decide

/-- The bytes 11 22 33 44 stand at 0x2004, r2 = 0x2000, and w is run at 0x1000. -/
def ranLoad (w : Nat) : Host.Outcome State Fault Refusal :=
  step (State.withFetchWord
    { (State.reset.setReg 2 0x2000).writeMem 0x2004 [0x11, 0x22, 0x33, 0x44] with pc := 0x1000 } 32 w)

theorem test_lw : r1pc (ranLoad 0x00042122) = some (0x44332211, 0x1004) := by decide
theorem test_lhu : r1pc (ranLoad 0x00062121) = some (0x4433, 0x1004) := by decide
theorem test_lbu : r1pc (ranLoad 0x00072120) = some (0x44, 0x1004) := by decide
theorem test_lw_misaligned :
    faultOf (ran .mceliece348864 0x2000 0 0x00022122) = some (.loadMisaligned, 0x2002, 0x00022122, 0x1000, 0) := by
  decide
theorem test_lhu_address_wraps :
    faultOf (ran .mceliece348864 0 0 0xFFFE0121) = some (.loadAccess, 0xFFFFFFFE, 0xFFFE0121, 0x1000, 0) := by decide
theorem test_sw_last_word :
    bytesAt 0x1FFFFC 4 (ran .mceliece348864 0x1FFFFC 0xDEADBEEF 0x0000232A) = some [0xEF, 0xBE, 0xAD, 0xDE] := by decide
theorem test_sh_alignment_before_range :
    faultOf (ran .mceliece348864 0x1FFFFF 0 0x00002329) = some (.storeMisaligned, 0x1FFFFF, 0x00002329, 0x1000, 0) := by
  decide
theorem test_sh_low_half :
    bytesAt 0x2000 2 (ran .mceliece348864 0x2000 0xDEADBEEF 0x00002329) = some [0xEF, 0xBE] := by decide
theorem test_sb_access :
    faultOf (ran .mceliece348864 0x200000 0 0x00002328) = some (.storeAccess, 0x200000, 0x00002328, 0x1000, 0) := by
  decide
theorem test_sb_low_byte : bytesAt 0x2000 1 (ran .mceliece348864 0x2000 0xDEADBEEF 0x00002328) = some [0xEF] := by decide

-- The branches of 95_test_vectors.md 9.1 with r2, r3 in place of r1, r2.
theorem test_beq_back : r1pc (ran .mceliece348864 7 7 0xFFFC3230) = some (0, 0xFF0) := by decide
theorem test_bne_not_taken : r1pc (ran .mceliece348864 7 7 0xFFFC3231) = some (0, 0x1004) := by decide
theorem test_blt_signed : r1pc (ran .mceliece348864 0xFFFFFFFF 0 0x00033232) = some (0, 0x100C) := by decide
theorem test_bge_signed : r1pc (ran .mceliece348864 0xFFFFFFFF 0 0x00033233) = some (0, 0x1004) := by decide
theorem test_bltu_unsigned : r1pc (ran .mceliece348864 0xFFFFFFFF 0 0x00033234) = some (0, 0x1004) := by decide
theorem test_bgeu_unsigned : r1pc (ran .mceliece348864 0xFFFFFFFF 0 0x00033235) = some (0, 0x100C) := by decide
theorem test_beq_pc_wraps : r1pc (ran .mceliece348864 0 0 0xFBFF0030) = some (0, 0xFFFFFFFC) := by decide
theorem test_jal_back : r1pc (ran .mceliece348864 0 0 0xFFC00138) = some (0x1004, 0) := by decide
theorem test_jalr_misaligned :
    faultOf (ran .mceliece348864 0x2002 0 0x00002139) = some (.fetchMisaligned, 0x2002, 0x00002139, 0x1000, 0) := by decide
theorem test_jalr : r1pc (ran .mceliece348864 0x2002 0 0x00022139) = some (0x1004, 0x2004) := by decide

/-- JALR r2, 4(r2) jumps by the old r2. -/
theorem test_jalr_rd_is_rs1 : (match ran .mceliece348864 0x3000 0 0x00042239 with
    | .next t => some (t.reg 2, t.pc)
    | _ => none) = some (0x1004, 0x3004) := by decide

theorem test_halt : (match ran .mceliece348864 0 0 0x0000003F with
    | .next t => some (t.run, t.isDone, t.pcReg, t.statusWord)
    | _ => none) = some (false, true, 0x1000, 2) := by decide

theorem test_fetch_access : faultOf (step { State.reset with run := true, pc := 0x200000 }) =
    some (.fetchAccess, 0x200000, 0, 0x200000, 0) := by decide

theorem test_illegal_word :
    faultOf (ran .mceliece348864 0 0 0x00032141) = some (.illegal, 0x00032141, 0x00032141, 0x1000, 0) := by decide

-- The GF unit: 95_test_vectors.md 2.2, 2.3.

theorem test_gf_mul_m12 : r1pc (ran .mceliece348864 0xFFFF 1 0x00032140) = some (0xF88, 0x1004) ∧
    r1pc (ran .mceliece348864 0x1234 0xF0F 0x00032140) = some (0x22B, 0x1004) := by decide +kernel
theorem test_gf_mul_m13 : r1pc (ran .mceliece460896 0x1000 2 0x00032140) = some (0x1B, 0x1004) ∧
    r1pc (ran .mceliece460896 0x1234 0xF0F 0x00032140) = some (0x688, 0x1004) := by decide +kernel
theorem test_gf_sq : r1pc (ran .mceliece348864 0x1001 0 0x00002141) = some (1, 0x1004) ∧
    r1pc (ran .mceliece460896 0x1001 0 0x00002141) = some (0x185B, 0x1004) := by decide +kernel
theorem test_gf_inv : r1pc (ran .mceliece348864 0x800 0 0x00002142) = some (0x490, 0x1004) ∧
    r1pc (ran .mceliece460896 0x1001 0 0x00002142) = some (0x11E6, 0x1004) ∧
    r1pc (ran .mceliece460896 0 0 0x00002142) = some (0, 0x1004) := by decide +kernel
theorem test_gf_frac : r1pc (ran .mceliece348864 2 1 0x00032143) = some (0x804, 0x1004) ∧
    r1pc (ran .mceliece348864 0 5 0x00032143) = some (0, 0x1004) := by decide +kernel
theorem test_gf_isz : r1pc (ran .mceliece348864 0x10000 0 0x00002144) = some (0x1FFF, 0x1004) ∧
    r1pc (ran .mceliece348864 0x1000 0 0x00002144) = some (0, 0x1004) := by decide
theorem test_gf_bitrev : r1pc (ran .mceliece348864 0xB77B 0 0x00002145) = some (0xDEE, 0x1004) ∧
    r1pc (ran .mceliece460896 0xB77B 0 0x00002145) = some (0x1BDD, 0x1004) := by decide +kernel

-- The engines: 95_test_vectors.md 3 to 8, on one step where the buffers are small and on the function otherwise.

/-- r1 to r4 hold the operand group, the bytes stand at 0x600, and w is run at 0x1000. -/
def ranEngine (x1 x2 x3 x4 : Word) (bs : List Byte) (w : Nat) : Host.Outcome State Fault Refusal :=
  step (State.withFetchWord
    { ((((State.reset.setReg 1 x1).setReg 2 x2).setReg 3 x3).setReg 4 x4).writeMem 0x600 bs with pc := 0x1000 } 32 w)

theorem test_sort32_signed :
    bytesAt 0x600 16 (ranEngine 0x600 4 0 0 (bytesOf 4 [5#32, 0xFFFFFFFF, 0x80000000, 0]) 0x00001050) =
      some (bytesOf 4 [0x80000000#32, 0xFFFFFFFF, 0, 5]) := by decide +kernel
theorem test_sort32_end_of_memory : faultOf (ranEngine 0x1FFFFC 2 0 0 [] 0x00001050) =
    some (.engineAccess, 0x1FFFFC, 0x00001050, 0x1000, 0x1FFFFC) := by decide
theorem test_sort64_unsigned :
    bytesAt 0x600 24 (ranEngine 0x600 3 0 0 (bytesOf 8 [0x8000000000000000#64, 1, 0]) 0x00001051) =
      some (bytesOf 8 [0#64, 1, 0x8000000000000000]) := by decide +kernel
theorem test_sort_empty_not_checked : r1pc (ranEngine 0x200000 0 0 0 [] 0x00001050) = some (0x200000, 0x1004) := by decide

theorem test_transpose_one_bit :
    transposeRows ((List.replicate 3 0) ++ [0x20000#64] ++ List.replicate 60 0) =
      (List.replicate 17 0) ++ [8#64] ++ List.replicate 46 0 := by decide +kernel

/-- A single control bit at pair 0 of the first, last and middle layer, for m = 3: bits 0, 16 and 8 of the string. -/
theorem test_benes_single_control_bits :
    let x := #[true, false, false, false, false, false, false, false]
    benesPass 3 false #[1, 0, 0] x = #[false, true, false, false, false, false, false, false] ∧
    benesPass 3 false #[0, 0, 1] x = #[false, true, false, false, false, false, false, false] ∧
    benesPass 3 false #[0, 1, 0] x = #[false, false, false, false, true, false, false, false] ∧
    benesPass 3 true #[1, 0, 0] x = #[false, true, false, false, false, false, false, false] := by decide +kernel

/-- The words of `perm` as control-bit bytes, and where the network takes the identity vector: it must give the
permutation back (43_benes.md R155). -/
def networkOf (m : Nat) (pi : List Gf) : Array Nat :=
  let c := controlBits m pi
  benesPass m false (packBits c.size fun p => c.getD p false).toArray (Array.range (2 ^ m))

theorem test_cbits_all_permutations_of_4 : ∀ a b c d : Fin 4, [a, b, c, d].Nodup →
    networkOf 2 [BitVec.ofNat 16 a, BitVec.ofNat 16 b, BitVec.ofNat 16 c, BitVec.ofNat 16 d] =
      #[a.val, b.val, c.val, d.val] := by decide +kernel

/-- A permutation of 8, and i XOR 1, whose only bits are the last layer's (95_test_vectors.md 3.3). -/
theorem test_cbits_of_8 : networkOf 3 [3, 7, 0, 5, 1, 6, 2, 4] = #[3, 7, 0, 5, 1, 6, 2, 4] ∧
    (controlBits 3 [1, 0, 3, 2, 5, 4, 7, 6]).toList = List.replicate 16 false ++ List.replicate 4 true ∧
    isPermutation 4 [1, 3, 0, 2] = true ∧ isPermutation 4 [1, 3, 1, 2] = false ∧ isPermutation 4 [1, 4, 0, 2] = false := by
  decide +kernel

/-- SUPPORT on the identity: L_i = bitrev(i) (95_test_vectors.md 3.3). -/
theorem test_support_elements : [0, 1, 2, 3].map (gfRev .m12) = [0x0, 0x800, 0x400, 0xC00] ∧
    [0, 1, 2, 3].map (gfRev .m13) = [0x0, 0x1000, 0x800, 0x1800] := by decide +kernel

/-- A product coefficient by hand: (1 + 2y)(3 + y) has the y coefficient 1 + 2 * 3 = 7 (44_poly.md R170). -/
theorem test_polymul_coefficient : productCoeff .m12 2 #[1, 2] #[3, 1] 1 = 7 ∧
    productCoeff .m12 2 #[1, 2] #[3, 1] 2 = 2 := by decide +kernel

/-- y^t reduces by F(y) - y^t = y^3 + y + z for t = 64 (00_scope.md R10). -/
theorem test_ring_terms : [0, 1, 2, 3].map (gfAt (reduceCoeff .mceliece348864 (Array.replicate 64 0 ++ #[1]) 64)) =
    [2, 1, 0, 1] := by decide +kernel

/-- The elimination on the columns 1, y, y^2 for t = 2: identity columns pass and the third is the result; a repeated
column meets a zero pivot (44_poly.md R173). -/
theorem test_genpoly_elimination :
    elimStep .m12 2 (elimStep .m12 2 (true, #[#[1, 0], #[0, 1], #[5, 7]]) 0) 1 = (true, #[#[1, 0], #[0, 1], #[5, 7]]) ∧
    (elimStep .m12 2 (elimStep .m12 2 (true, #[#[1, 0], #[5, 0], #[9, 0]]) 0) 1).1 = false := by decide +kernel

/-- F = y^64 + 5 at a = 1 and a = 2 (95_test_vectors.md 4.2). -/
theorem test_eval : evalPoly .m12 ([5] ++ List.replicate 63 0 ++ [1]) 1 = 4 ∧
    evalPoly .m12 ([5] ++ List.replicate 63 0 ++ [1]) 2 = 0x485 := by decide +kernel

/-- ROOT's first two values: y^64 + y^3 + y + 2 at L_0 = 0 and L_1 = 0x800 (95_test_vectors.md 4.2). -/
theorem test_root : let g : List Gf := [2, 1, 0, 1] ++ List.replicate 60 0 ++ [1]
    [0, 0x800].map (evalPoly .m12 g) = [0x2, 0x26A] := by decide +kernel

/-- BM for t = 1 by hand: s = (a, a x) has the locator 1 + x y, reversed x + y (44_poly.md R177). -/
theorem test_bm_one_error : locator .m12 1 #[3, gfMul .m12 3 5] = [5, 1] ∧ locator .m12 2 #[0, 0, 0, 0] = [0, 0, 1] := by
  decide +kernel

/-- SYND with only bit 0 of r set, L_0 = 0 and g(0) = 2: 1/4 = 0x402, then zeros (95_test_vectors.md 4.3). -/
theorem test_synd : syndrome .m12 2 [2, 1] [0, 0x800] [true, false] = [0x402, 0, 0, 0] := by decide +kernel

/-- Equal keys are found, and the positions follow the keys (45_pkgen.md R191). -/
theorem test_pkgen_keys : keyCollision (sortedKeys [7, 3, 7]) = true ∧
    (sortedKeys [7, 3, 0xFFFFFFFF]).map (positionOf .m12) = [1, 0, 2] := by decide +kernel

/-- Elimination of a 2 by 4 matrix whose first pivot is missing in row 0, and of a singular one (45_pkgen.md R193). -/
theorem test_pkgen_elimination : reduceSteps [0, 1] #[0b0110#4, 0b1001#4] = some #[0b1001#4, 0b0110#4] ∧
    reduceSteps [0, 1] #[0b0101#4, 0b0101#4] = none := by decide +kernel

/-- The values 5, 5, 6, 7, ... are refused, and values at or above n are skipped (95_test_vectors.md 7.1). -/
theorem test_gene : indicesOk .mceliece348864 (acceptedIndices .mceliece348864 ([5, 5] ++ (List.range 126).map
      fun i => BitVec.ofNat 16 (i + 6))) = false ∧
    acceptedIndices .mceliece348864 ([3488] ++ (List.range 64).map (BitVec.ofNat 16) ++ List.replicate 63 0) =
      List.range 64 := by decide +kernel

/-- Where the key is all zero a syndrome bit is that bit of e (95_test_vectors.md 7.1). -/
theorem test_encode_zero_key (v : Variant) (e : Array Byte) (q : Nat) : syndromeBit v #[] e q = bitAt e q := by
  have h : ∀ i, bitAt #[] i = false := fun i => by simp [bitAt]
  simp [syndromeBit, h]

/-- One error at position 1, for t = 1 and g = y + 2: the roots of the locator of its syndrome among L = (1, 5, 9) give
position 1 back (46_niederreiter.md R202). -/
theorem test_decrypt_one_error :
    let l : List Gf := [1, 5, 9]
    l.map (fun x => evalPoly .m12 (locator .m12 1 (syndrome .m12 1 [2, 1] l [false, true, false]).toArray) x == 0) =
      [false, true, false] := by decide +kernel

/-- SHAKE256 of no bytes (95_test_vectors.md 8). -/
theorem test_shake256_empty : shake256 [] 4 = [0x46, 0xB9, 0xDD, 0x2B] := by decide +kernel

/-- A buffer of length 0 is not checked, and one byte past the end is (95_test_vectors.md 8). -/
theorem test_shake256_checks : r1pc (ranEngine 0x200000 0 0x200000 0 [] 0x00001070) = some (0x200000, 0x1004) ∧
    faultOf (ranEngine 0x1FFFFF 2 0 0 [] 0x00001070) = some (.engineAccess, 0x1FFFFF, 0x00001070, 0x1000, 0x1FFFFF) := by
  decide +kernel

/-- Every engine but SORT32 and SHAKE256 faults on a first buffer at the end of memory (20_memory.md R66). -/
theorem test_engine_access : [0x1051, 0x1054, 0x1055, 0x1056, 0x1057, 0x1058, 0x1059, 0x105A, 0x105B, 0x105C, 0x105D,
      0x1060, 0x1068, 0x1069, 0x106A].map (fun w => (faultOf (ranEngine 0x200000 1 0 0 [] w)).map fun r => (r.1, r.2.1)) =
    List.replicate 15 (some (.engineAccess, 0x200000)) := by decide +kernel

-- The host port and the reset (10_state.md R31 to R44; 70_reset_and_hazards.md R301).

/-- A HOST event on a state. -/
def hosted (s : State) (e : HostEvent) : Host.Outcome State Fault Refusal := step (s.withHost [e])

theorem test_start : (match hosted { State.reset with entry := 0x40 } (.write 0x10 4 0x101) with
    | .next t => some (t.pc, t.run, t.ieDone, t.statusWord)
    | _ => none) = some (0x100, true, true, 1) := by decide

theorem test_lmem_window_unaligned : (match hosted State.reset (.write 0x1000002 4 7) with
    | .next t => some (t.mem, t.herr)
    | _ => none) = some ([], true) := by decide

theorem test_stop_pending : (match step { State.reset with run := true, stopReq := true, pc := 0x20 } with
    | .next t => some (t.run, t.isStopped, t.pcReg, t.stopReq)
    | _ => none) = some (false, true, 0x20, false) := by decide

/-- The word w, in progress when a STOP was requested, completes (60_exceptions.md R278): RUN, DONE, FAULT, STOPPED and
STOPREQ after the step. -/
def stopDuring (w : Word) : List Bool :=
  match step { State.withFetchWord State.reset 32 w.toNat with begun := true, stopReq := true } with
  | .next t => [t.run, t.isDone, t.isFault, t.isStopped, t.stopReq]
  | _ => []

theorem test_stop_during_halt : stopDuring 0x3F = [false, true, false, false, false] := by decide

theorem test_stop_during_fault : stopDuring 0 = [false, false, true, false, false] := by decide

theorem test_stop_during_add : stopDuring 0x00032101 = [true, false, false, false, true] := by decide

theorem test_unwritten_fetch_stops : (match step { State.reset with run := true } with
    | .fault (.unwritten a) => some a
    | _ => none) = some 0 := by decide

-- Witnesses. A machine of variant v whose memory begins with given bytes, every register 0.

/-- The bytes `bs` stand at address 0 and every register is 0. -/
def holding (v : Variant) (bs : List Byte) : State :=
  { State.resetOf { variant := v, lmemLog := 5 } with mem := Memory.write [] 0 bs }

/-- More zero bytes than any engine reads. -/
def zeroed (v : Variant) : State := holding v (List.replicate 0x180000 0)

theorem holding_reg (v : Variant) (bs : List Byte) (i : Reg) : (holding v bs).reg i = 0#32 := by
  have h : ∀ j : Reg, State.reset.reg j = 0#32 := by decide
  exact h i

theorem holding_holds (v : Variant) (bs : List Byte) (i : Reg) : Holds (holding v bs) ((holding v bs).reg i) bs := by
  rw [holding_reg]; exact Memory.read_write [] 0 bs

theorem holding_fits (v : Variant) (bs : List Byte) (i : Reg) (k : Nat) (h : k ≤ 2 ^ 21) :
    Fits (holding v bs) ((holding v bs).reg i, k) := by
  rw [holding_reg]; right
  have : (holding v bs).lmemBytes = 2 ^ 21 := by unfold State.lmemBytes Build.lmemBytes; rfl
  rw [this]; simpa using h

theorem holds_zeros {s : State} {len : Nat} (h : s.mem = Memory.write [] 0 (List.replicate len 0)) (a : Word) (k : Nat)
    (ha : a.toNat + k ≤ len) : Holds s a (List.replicate k 0) := by
  unfold Holds
  rw [h, List.length_replicate, Memory.read_eq_ok]
  refine ⟨by simp, fun i hi => ?_⟩
  have hi' : i < k := by simpa using hi
  rw [Memory.byte_write, if_pos ⟨by omega, by rw [List.length_replicate]; omega⟩, Nat.sub_zero,
    List.getElem?_replicate, if_pos (by omega), List.getElem_replicate]

theorem zeroed_holds (v : Variant) (i : Reg) (k : Nat) (h : k ≤ 0x180000) :
    Holds (zeroed v) ((zeroed v).reg i) (List.replicate k 0) := by
  rw [zeroed, holding_reg]; exact holds_zeros rfl 0#32 k (by simpa using h)

theorem zeroed_fits (v : Variant) (i : Reg) (k : Nat) (h : k ≤ 0x180000) : Fits (zeroed v) ((zeroed v).reg i, k) :=
  holding_fits v _ i k (by omega)

/-- What a buffer of k bytes of the group's register i has in `zeroed`: it fits, and zeros stand there. -/
theorem zeroed_buffer (v : Variant) (i : Reg) (k : Nat) (h : k ≤ 0x180000) :
    (List.replicate k (0 : Byte)).length = k ∧ Fits (zeroed v) ((zeroed v).reg i, k) ∧
      Holds (zeroed v) ((zeroed v).reg i) (List.replicate k 0) :=
  ⟨List.length_replicate, zeroed_fits v i k h, zeroed_holds v i k h⟩

/-- Every buffer of every engine is shorter than the zero bytes of `zeroed`. -/
theorem sizes_le (v : Variant) : 4 * v.nfull ≤ 0x180000 ∧ 2 * v.nfull ≤ 0x180000 ∧ v.nfull / 8 ≤ 0x180000 ∧
    v.condBytes ≤ 0x180000 ∧ 2 * v.n ≤ 0x180000 ∧ v.n / 8 ≤ 0x180000 ∧ 2 * v.t ≤ 0x180000 ∧
    2 * (v.t + 1) ≤ 0x180000 ∧ 4 * v.t ≤ 0x180000 ∧ v.pkBytes ≤ 0x180000 ∧ v.syndBytes ≤ 0x180000 ∧
    v.geRandBytes ≤ 0x180000 := by cases v <;> decide

/-- The premise of the fault clause of every engine, for the group that begins at r1 (the first buffer is bad) and the
one that begins at r0 (the first fits, the second is bad). -/
theorem witness_first_bad_buffer (v : Variant) (k : Nat) (h : 0 < k) (hk : k ≤ 0x180000) :
    let s := (zeroed v).setReg 1 0x200000#32
    ¬ Fits s (s.reg 1#4, k) ∧ Fits s (s.reg 0#4, k) := by
  intro s
  have hm : s.lmemBytes = 0x200000 := by unfold State.lmemBytes Build.lmemBytes; rfl
  have h1 : s.reg 1#4 = 0x200000#32 := by
    simp only [s, State.reg_setReg]; rfl
  have h0 : s.reg 0#4 = 0#32 := rfl
  rw [h1, h0]
  unfold Fits
  rw [hm]
  simp
  omega

theorem witness_O1 : WellFormed (.pkgen 1 11) = true ∧ WellFormed (.add 1 2 3) = true := by decide

theorem witness_O2 : decodeWord 0x00011055 = .ok (.benes 0 1 true) := by decide

/-- SEQ runs and the four bytes of w stand at pc = 0. -/
def fetching (w : Word) : State := { holding .mceliece348864 (bytesOfWord w) with run := true }

theorem witness_fetches (w : Word) : Fetches (fetching w) w :=
  ⟨⟨rfl, .inr rfl, rfl⟩, by unfold State.lmemBytes Build.lmemBytes; exact (by decide : 0 + 4 ≤ 2 ^ 21),
    Memory.read_write [] 0 (bytesOfWord w)⟩

theorem witness_O3 : Fetches (fetching 0) 0 ∧ ¬ LegalWord 0 ∧ Fetches (fetching 0x00021055) 0x00021055 ∧
    ¬ LegalWord 0x00021055 :=
  ⟨witness_fetches _, by unfold LegalWord; decide, witness_fetches _, by unfold LegalWord; decide⟩

/-- An instruction that has begun, with a STOP pending. -/
theorem witness_fetches_begun (w : Word) : Fetches { fetching w with begun := true, stopReq := true } w :=
  ⟨⟨rfl, .inl rfl, rfl⟩, (witness_fetches w).fits, (witness_fetches w).bytes⟩

/-- At a boundary, and in progress. -/
theorem witness_O5 : Fetches (fetching 0x00032101) 0x00032101 ∧ decodeWord 0x00032101 = .ok (.add 1 2 3) ∧
    (fetching 0x00032101).begun = false ∧
    Fetches { fetching 0x00032101 with begun := true, stopReq := true } 0x00032101 :=
  ⟨witness_fetches _, by decide, rfl, witness_fetches_begun _⟩

theorem reset_inv : Inv State.reset :=
  ⟨by decide, by decide, by decide, by decide, by decide, by decide, by decide, by decide⟩

/-- The last word of local memory is fetched, the one after it is not. -/
theorem witness_O6 :
    (let s : State := { State.reset with run := true, pc := 0x1FFFFD }
     Running s ∧ s.lmemBytes < s.pc.toNat + 4) ∧
    (let s := State.writeMem { State.reset with run := true, pc := 0x1FFFFC } 0x1FFFFC [0x3F, 0, 0, 0]
     Running s ∧ s.pc.toNat + 4 ≤ s.lmemBytes ∧ s.byte s.pc.toNat = some 0x3F ∧ s.byte (s.pc.toNat + 1) = some 0 ∧
        s.byte (s.pc.toNat + 2) = some 0 ∧ s.byte (s.pc.toNat + 3) = some 0) ∧
    Inv State.reset :=
  ⟨⟨⟨rfl, .inr rfl, rfl⟩, by decide⟩, ⟨⟨rfl, .inr rfl, rfl⟩, by decide⟩, reset_inv⟩

theorem witness_O7 : (let s : State := { State.reset with run := true, stopReq := true }
     s.run = true ∧ s.begun = false ∧ s.stopReq = true ∧ s.host = []) ∧
    (let s : State := { State.reset with run := true, host := [.begins] }
     s.run = true ∧ s.begun = false ∧ s.host = .begins :: [] ∧ s.stopReq = false) ∧
    State.reset.run = false ∧ State.reset.host = [] := by decide

/-- A HALT that has begun when STOP is requested, and an instruction that goes on. -/
theorem witness_O7_begun :
    (let s : State := { fetching 0x3F with begun := true, stopReq := true }
     s.run = true ∧ s.begun = true ∧ s.stopReq = true ∧ s.host = [] ∧ Fetches s (encode .halt)) ∧
    ∃ t, step { fetching 0x00032101 with begun := true, stopReq := true } = .next t ∧ t.run = true :=
  ⟨⟨rfl, rfl, rfl, rfl, witness_fetches_begun _⟩, ⟨_, rfl, rfl⟩⟩

theorem witness_O9 : (fieldOp 0x00202114 = 0x14 ∧ (0x00202114 : Word).extractLsb' 21 11 ≠ 0#11) ∧
    (fieldOp 0x80002115 = 0x15 ∧ (0x80002115 : Word).extractLsb' 21 11 ≠ 0#11) ∧
    (fieldOp 0x00202116 = 0x16 ∧ (0x00202116 : Word).extractLsb' 21 11 ≠ 0#11) ∧
    fieldOp 0x00001117 = 0x17 ∧ (0x00001117 : Word).extractLsb' 12 4 ≠ 0#4 := by decide

theorem witness_O10 : (fieldOp 0x00100118 = 0x18 ∧ 15 < ((0x00100118 : Word).extractLsb' 16 16).toNat) ∧
    fieldOp 0x00001118 = 0x18 ∧ (0x00001118 : Word).extractLsb' 12 4 ≠ 0#4 := by decide

/-- r2 is the end of local memory, below which four bytes stand. -/
def atEnd : State := (State.reset.setReg 2 0x200000).writeMem 0x1FFFFC [1, 2, 3, 4]

/-- Each clause of the loads at the end of local memory. -/
theorem witness_O11 : let ea := fun imm : BitVec 16 => (dataAddress atEnd 2 imm).toNat
    atEnd.lmemBytes ≤ ea 0 ∧ (ea 0xFFFF < atEnd.lmemBytes ∧ atEnd.byte (ea 0xFFFF) = some 4) ∧
    ea 0xFFFF % 2 ≠ 0 ∧ (ea 0 % 2 = 0 ∧ atEnd.lmemBytes < ea 0 + 2) ∧
    (ea 0xFFFE % 2 = 0 ∧ ea 0xFFFE + 2 ≤ atEnd.lmemBytes ∧ atEnd.byte (ea 0xFFFE) = some 3 ∧
      atEnd.byte (ea 0xFFFE + 1) = some 4) ∧
    ea 0xFFFE % 4 ≠ 0 ∧ (ea 0 % 4 = 0 ∧ atEnd.lmemBytes < ea 0 + 4) ∧
    ea 0xFFFC % 4 = 0 ∧ ea 0xFFFC + 4 ≤ atEnd.lmemBytes ∧ atEnd.byte (ea 0xFFFC) = some 1 ∧
      atEnd.byte (ea 0xFFFC + 1) = some 2 ∧ atEnd.byte (ea 0xFFFC + 2) = some 3 ∧ atEnd.byte (ea 0xFFFC + 3) = some 4 := by
  decide

/-- Each clause of the stores, two of them at the ends of local memory. -/
theorem witness_O12 : let ea := fun imm : BitVec 16 => (dataAddress atEnd 2 imm).toNat
    atEnd.lmemBytes ≤ ea 0 ∧ ea 0xFFFF < atEnd.lmemBytes ∧ ea 0xFFFF % 2 ≠ 0 ∧
    (ea 0 % 2 = 0 ∧ atEnd.lmemBytes < ea 0 + 2) ∧ (ea 0xFFFE % 2 = 0 ∧ ea 0xFFFE + 2 ≤ atEnd.lmemBytes) ∧
    ea 0xFFFD % 4 ≠ 0 ∧ (ea 0 % 4 = 0 ∧ atEnd.lmemBytes < ea 0 + 4) ∧
    ea 0xFFFC % 4 = 0 ∧ ea 0xFFFC + 4 ≤ atEnd.lmemBytes := by decide

theorem witness_O13 : (Memory.read (Memory.write [] 5 [1, 2, 3]) 5 3).toOption = some [1, 2, 3] := by decide

theorem witness_O15 : (dataAddress atEnd 2 0xFFFE).toNat % 4 ≠ 0 ∧ (dataAddress atEnd 2 0xFFFC).toNat % 4 = 0 := by decide

theorem running_inv : Inv { State.reset with run := true } :=
  ⟨by decide, by decide, by decide, by decide, by decide, by decide, by decide, by decide⟩

theorem witness_O16 : Inv { State.reset with run := true } ∧ ({ State.reset with run := true } : State).run = true :=
  ⟨running_inv, rfl⟩

theorem witness_O17 : (zeroed .mceliece348864).build.variant.m = 12 ∧ (zeroed .mceliece8192128f).build.variant.m = 13 ∧
    31 < 32 := by decide

theorem witness_O18 : Canonical .m12 0xFFF ∧ Canonical .m13 0x1FFF := by unfold Canonical; decide

theorem witness_O19 : Canonical .m12 0xFFF ∧ Canonical .m12 0 ∧ Canonical .m12 1 ∧ (0xFFF : Gf) ≠ 0 := by
  unfold Canonical; decide

/-- Both cases of the operand, and an inverse of 1. -/
theorem witness_O20 : regElement (zeroed .mceliece348864) 1 = 0 ∧ regElement (State.reset.setReg 1 1) 1 ≠ 0 ∧
    Canonical .m12 1 ∧ gfMul .m12 (regElement (State.reset.setReg 1 1) 1) 1 = 1 := by
  refine ⟨?_, by decide, by unfold Canonical; decide, by decide +kernel⟩
  rw [regElement, zeroed, holding_reg]; rfl

theorem witness_O20_words : (fieldOp 0x00032141 = 0x41 ∧ fieldOp 0x000F2142 = 0x42) ∧
    (0x00032141 : Word).extractLsb' 16 4 ≠ 0#4 ∧ (0x000F2142 : Word).extractLsb' 16 4 ≠ 0#4 := by decide

theorem witness_O21 : (fieldOp 0x00012144 = 0x44 ∧ fieldOp 0x00032145 = 0x45) ∧
    (0x00012144 : Word).extractLsb' 16 4 ≠ 0#4 ∧ (0x00032145 : Word).extractLsb' 16 4 ≠ 0#4 := by decide

/-- Two elements of 4, or of 8, bytes at address 0, their number in r2. -/
theorem witness_O22 : let s := (holding .mceliece348864 (List.replicate 16 7)).setReg 2 2
    WellFormed (.sort32 0 1) = true ∧ WellFormed (.sort64 0 1) = true ∧ (s.reg (1 + 1#4)).toNat = 2 ∧
      Fits s (s.reg 1, 4 * 2) ∧ Fits s (s.reg 1, 8 * 2) ∧ Holds s (s.reg 1) (List.replicate 8 7) ∧
      Holds s (s.reg 1) (List.replicate 16 7) := by
  unfold Fits Holds
  refine ⟨by decide, by decide, by decide, by decide, by decide, rfl, rfl⟩

theorem witness_O23 (v : Variant) : WellFormed (.transpose 0 1) = true ∧ (List.replicate 512 (0 : Byte)).length = 512 ∧
    Fits (zeroed v) ((zeroed v).reg 1, 512) ∧ Fits (zeroed v) ((zeroed v).reg (1 + 1#4), 512) ∧
    Holds (zeroed v) ((zeroed v).reg (1 + 1#4)) (List.replicate 512 0) :=
  ⟨rfl, List.length_replicate, zeroed_fits v _ _ (by decide), zeroed_fits v _ _ (by decide), zeroed_holds v _ _ (by decide)⟩

theorem witness_O24 : 0 < 12 ∧ 22 < 2 * 12 - 1 ∧ 2047 < 2 ^ (12 - 1) ∧ 4095 < 2 ^ 12 := by decide

theorem witness_O25 (v : Variant) : WellFormed (.benes 0 1 true) = true ∧
    (List.replicate (v.nfull / 8) (0 : Byte)).length = v.nfull / 8 ∧
    Fits (zeroed v) ((zeroed v).reg 1, v.nfull / 8) ∧
    Holds (zeroed v) ((zeroed v).reg 1) (List.replicate (v.nfull / 8) 0) ∧
    (List.replicate v.condBytes (0 : Byte)).length = v.condBytes ∧
    Fits (zeroed v) ((zeroed v).reg (1 + 1#4), v.condBytes) ∧
    Holds (zeroed v) ((zeroed v).reg (1 + 1#4)) (List.replicate v.condBytes 0) := by
  obtain ⟨-, -, h1, h2, -⟩ := sizes_le v
  have a := zeroed_buffer v 1 _ h1
  exact ⟨rfl, a.1, a.2.1, a.2.2, zeroed_buffer v _ _ h2⟩

theorem witness_O26 : 0 < 2 ∧ (#[true, false, false, true] : Array Bool).size = 2 ^ 2 ∧ 3 < 2 ^ 2 := by decide

theorem half_bytesOf (xs : List (BitVec 16)) (i : Nat) (h : i < xs.length) : half (bytesOf 2 xs) i = xs[i] := by
  induction xs generalizing i with
  | nil => simp at h
  | cons x xs ih =>
    have e : bytesOf 2 (x :: xs) = BitVec.ofNat 8 x.toNat :: BitVec.ofNat 8 (x.toNat / 256) :: bytesOf 2 xs := rfl
    cases i with
    | zero =>
      rw [e]
      apply BitVec.eq_of_toNat_eq
      have := x.isLt
      simp only [half, List.getD_cons_zero, List.getD_cons_succ, toNat_append_byte, BitVec.toNat_ofNat, Nat.mul_zero,
        Nat.zero_add, List.getElem_cons_zero]
      omega
    | succ i =>
      rw [e, List.getElem_cons_succ, ← ih i (by simpa using h)]
      simp only [half, show 2 * (i + 1) = 2 * i + 1 + 1 by omega,
        List.getD_cons_succ]

/-- The identity permutation as 16-bit values. -/
def identityBytes (v : Variant) : List Byte := bytesOf 2 ((List.range v.nfull).map (BitVec.ofNat 16))

theorem identityBytes_half (v : Variant) (i : Nat) (h : i < v.nfull) : (half (identityBytes v) i).toNat = i := by
  rw [identityBytes, half_bytesOf _ _ (by simpa using h)]
  have : v.nfull ≤ 65536 := by cases v <;> decide
  simp; omega

/-- The identity permutation, and zeros, which are no permutation. -/
theorem witness_O27 (v : Variant) : WellFormed (.cbits 0 1) = true ∧
    ((identityBytes v).length = 2 * v.nfull ∧
      Fits (holding v (identityBytes v)) ((holding v (identityBytes v)).reg 1, v.condBytes) ∧
      Fits (holding v (identityBytes v)) ((holding v (identityBytes v)).reg (1 + 1#4), 2 * v.nfull) ∧
      Holds (holding v (identityBytes v)) ((holding v (identityBytes v)).reg (1 + 1#4)) (identityBytes v) ∧
      IsPermutation v.nfull (fun i => (half (identityBytes v) i).toNat) ∧
      ∀ i < v.nfull, (half (identityBytes v) i).toNat = i) ∧
    Holds (zeroed v) ((zeroed v).reg (1 + 1#4)) (List.replicate (2 * v.nfull) 0) ∧
    ¬ IsPermutation v.nfull (fun i => (half (List.replicate (2 * v.nfull) 0) i).toNat) := by
  obtain ⟨-, h1, -, h2, -⟩ := sizes_le v
  refine ⟨rfl, ⟨by simp [identityBytes], holding_fits v _ _ _ (by omega), holding_fits v _ _ _ (by omega),
    holding_holds v _ _, ⟨fun i hi => ?_, fun x hx => ⟨x, hx, identityBytes_half v x hx⟩⟩, identityBytes_half v⟩,
    zeroed_holds v _ _ h1, ?_⟩
  · dsimp only
    rw [identityBytes_half v i hi]; exact hi
  · rintro ⟨-, h⟩
    obtain ⟨i, hi, e⟩ := h 1 (by cases v <;> decide)
    have hz : half (List.replicate (2 * v.nfull) 0) i = 0 := by
      simp only [half, List.getD_eq_getElem?_getD, List.getElem?_replicate]
      rw [if_pos (by omega), if_pos (by omega)]; rfl
    dsimp only at e
    rw [hz] at e
    simp at e

theorem witness_O28 (v : Variant) : WellFormed (.support 0 1) = true ∧ Fits (zeroed v) ((zeroed v).reg 1, 2 * v.n) ∧
    (List.replicate v.condBytes (0 : Byte)).length = v.condBytes ∧
    Fits (zeroed v) ((zeroed v).reg (1 + 1#4), v.condBytes) ∧
    Holds (zeroed v) ((zeroed v).reg (1 + 1#4)) (List.replicate v.condBytes 0) := by
  obtain ⟨-, -, -, h1, h2, -⟩ := sizes_le v
  exact ⟨rfl, zeroed_fits v _ _ h2, zeroed_buffer v _ _ h1⟩

/-- The element 1 of the ring as bytes. -/
def oneBytes (v : Variant) : List Byte := 1 :: List.replicate (2 * v.t - 1) 0

/-- All three buffers at address 0, where the element 1 stands. -/
theorem witness_O29 (v : Variant) : let s := holding v (oneBytes v)
    WellFormed (.polymul 0 1) = true ∧ (oneBytes v).length = 2 * v.t ∧ Fits s (s.reg 1, 2 * v.t) ∧
    Fits s (s.reg (1 + 1#4), 2 * v.t) ∧ Fits s (s.reg (1 + 2#4), 2 * v.t) ∧ Holds s (s.reg (1 + 1#4)) (oneBytes v) ∧
    Holds s (s.reg (1 + 2#4)) (oneBytes v) ∧
    ∀ k < v.t, element v.field (oneBytes v) k = if k = 0 then 1 else 0 := by
  obtain ⟨-, -, -, -, -, -, h, -⟩ := sizes_le v
  have ht : 0 < v.t := by cases v <;> decide
  refine ⟨rfl, by simp [oneBytes]; omega, holding_fits v _ _ _ (by omega), holding_fits v _ _ _ (by omega),
    holding_fits v _ _ _ (by omega), holding_holds v _ _, holding_holds v _ _, ?_⟩
  rintro (_ | k) hk
  · have e : half (oneBytes v) 0 = 1 := by
      simp only [half, oneBytes, List.getD_eq_getElem?_getD, Nat.mul_zero, Nat.zero_add, List.getElem?_cons_succ,
        List.getElem?_cons_zero, List.getElem?_replicate]
      rw [if_pos (by omega)]; rfl
    rw [element, e]; cases v <;> rfl
  · have e : half (oneBytes v) (k + 1) = 0 := by
      simp only [half, oneBytes, List.getD_eq_getElem?_getD, show 2 * (k + 1) = 2 * k + 1 + 1 by omega, List.getElem?_cons_succ, List.getElem?_replicate]
      rw [if_pos (by omega), if_pos (by omega)]; rfl
    rw [element, e]; simp

/-- The power y^j as bytes. -/
def powerBytes (v : Variant) (j : Nat) : List Byte :=
  bytesOf 2 ((List.range v.t).map fun k => (if k = j then 1 else 0 : Gf))

/-- y^(t - 1) at address 0, where the result goes too, and y behind it. -/
def powersState (v : Variant) : State :=
  ({ holding v [] with
    mem := Memory.write (Memory.write [] 0 (powerBytes v (v.t - 1))) (2 * v.t) (powerBytes v 1) }).setReg 3
      (BitVec.ofNat 32 (2 * v.t))

theorem powerBytes_element (v : Variant) (j k : Nat) (h : k < v.t) :
    element v.field (powerBytes v j) k = if k = j then 1 else 0 := by
  rw [element, powerBytes, half_bytesOf _ _ (by simpa using h)]
  simp only [List.getElem_map, List.getElem_range]
  split <;> cases v <;> rfl

theorem powerBytes_length (v : Variant) (j : Nat) : (powerBytes v j).length = 2 * v.t := by simp [powerBytes]

/-- The two operands of the last clause of O29. -/
theorem witness_O29_powers (v : Variant) : let s := powersState v
    Fits s (s.reg 1, 2 * v.t) ∧ Fits s (s.reg (1 + 1#4), 2 * v.t) ∧ Fits s (s.reg (1 + 2#4), 2 * v.t) ∧
    Holds s (s.reg (1 + 1#4)) (powerBytes v (v.t - 1)) ∧ Holds s (s.reg (1 + 2#4)) (powerBytes v 1) ∧
    (powerBytes v (v.t - 1)).length = 2 * v.t ∧ (powerBytes v 1).length = 2 * v.t ∧
    (∀ k < v.t, element v.field (powerBytes v (v.t - 1)) k = if k = v.t - 1 then 1 else 0) ∧
    ∀ k < v.t, element v.field (powerBytes v 1) k = if k = 1 then 1 else 0 := by
  have h1 : (powersState v).reg 1 = 0#32 := by cases v <;> rfl
  have h2 : (powersState v).reg (1 + 1#4) = 0#32 := by cases v <;> rfl
  have h3 : (powersState v).reg (1 + 2#4) = BitVec.ofNat 32 (2 * v.t) := by cases v <;> rfl
  have hl : (powersState v).lmemBytes = 2 ^ 21 := by unfold State.lmemBytes Build.lmemBytes; rfl
  have ht : v.t ≤ 128 := by cases v <;> decide
  have hn : (BitVec.ofNat 32 (2 * v.t)).toNat = 2 * v.t := by simp; omega
  dsimp only [Fits, Holds]
  rw [h1, h2, h3, hl, hn, powerBytes_length, powerBytes_length]
  refine ⟨.inr (by simp; omega), .inr (by simp; omega), .inr (by omega), ?_, ?_, rfl, rfl,
    fun k => powerBytes_element v _ k, fun k => powerBytes_element v _ k⟩
  · have e := Memory.read_write [] 0 (powerBytes v (v.t - 1))
    rw [powerBytes_length] at e
    exact (Memory.read_write_disjoint _ _ _ _ _ (by simp [powerBytes_length])).trans e
  · have e := Memory.read_write (Memory.write [] 0 (powerBytes v (v.t - 1))) (2 * v.t) (powerBytes v 1)
    rw [powerBytes_length] at e
    exact e

theorem witness_O30 (v : Variant) : (∀ i < v.t, Canonical v.field (gfAt #[] i)) ∧ (1 : Nat) < 2 * v.t - 1 := by
  refine ⟨fun i _ => by unfold Canonical; simp [gfAt], by cases v <;> decide⟩

theorem witness_O31 (v : Variant) : WellFormed (.genpoly 4 1) = true ∧ Fits (zeroed v) ((zeroed v).reg 1, 2 * v.t) ∧
    (List.replicate (2 * v.t) (0 : Byte)).length = 2 * v.t ∧ Fits (zeroed v) ((zeroed v).reg (1 + 1#4), 2 * v.t) ∧
    Holds (zeroed v) ((zeroed v).reg (1 + 1#4)) (List.replicate (2 * v.t) 0) := by
  obtain ⟨-, -, -, -, -, -, h, -⟩ := sizes_le v
  exact ⟨rfl, zeroed_fits v _ _ h, zeroed_buffer v _ _ h⟩

theorem witness_O33 (v : Variant) : WellFormed (.eval 0 2) = true ∧ WellFormed (.root 0 1) = true ∧
    Fits (zeroed v) ((zeroed v).reg 1, 2 * v.n) ∧
    (List.replicate (2 * (v.t + 1)) (0 : Byte)).length = 2 * (v.t + 1) ∧
    Fits (zeroed v) ((zeroed v).reg 2, 2 * (v.t + 1)) ∧
    Holds (zeroed v) ((zeroed v).reg 2) (List.replicate (2 * (v.t + 1)) 0) ∧
    (List.replicate (2 * v.n) (0 : Byte)).length = 2 * v.n ∧ Fits (zeroed v) ((zeroed v).reg 3, 2 * v.n) ∧
    Holds (zeroed v) ((zeroed v).reg 3) (List.replicate (2 * v.n) 0) := by
  obtain ⟨-, -, -, -, h1, -, -, h2, -⟩ := sizes_le v
  have a := zeroed_buffer v 2 _ h2
  exact ⟨rfl, rfl, zeroed_fits v _ _ h1, a.1, a.2.1, a.2.2, zeroed_buffer v _ _ h1⟩

theorem element_zeros (f : Field) (k i : Nat) (h : 2 * i + 1 < k) : element f (List.replicate k 0) i = 0 := by
  have e : half (List.replicate k 0) i = 0 := by
    simp only [half, List.getD_eq_getElem?_getD, List.getElem?_replicate]
    rw [if_pos h, if_pos (by omega)]; rfl
  rw [element, e]; simp

/-- The zero syndrome. -/
theorem witness_O34 (v : Variant) : WellFormed (.bm 0 1) = true ∧ Fits (zeroed v) ((zeroed v).reg 1, 2 * (v.t + 1)) ∧
    (List.replicate (4 * v.t) (0 : Byte)).length = 4 * v.t ∧ Fits (zeroed v) ((zeroed v).reg (1 + 1#4), 4 * v.t) ∧
    Holds (zeroed v) ((zeroed v).reg (1 + 1#4)) (List.replicate (4 * v.t) 0) ∧
    ∀ i < 2 * v.t, element v.field (List.replicate (4 * v.t) 0) i = 0 := by
  obtain ⟨-, -, -, -, -, -, -, h1, h2, -⟩ := sizes_le v
  have a := zeroed_buffer v (1 + 1#4) _ h2
  exact ⟨rfl, zeroed_fits v _ _ h1, a.1, a.2.1, a.2.2, fun i hi => element_zeros _ _ _ (by omega)⟩

/-- The sequence 3, 3 * 5 of one error, t = 1: it ends with length 1. -/
theorem witness_O35 : (∀ i < 2 * 1, Canonical .m12 (gfAt #[3, 15] i)) ∧ (bmRun .m12 1 #[3, 15] (2 * 1)).len = 1 ∧
    1 ≤ 1 ∧ 1 < 2 * 1 := by
  refine ⟨fun i hi => ?_, by decide +kernel, by decide, by decide⟩
  have : i = 0 ∨ i = 1 := by omega
  unfold Canonical
  rcases this with rfl | rfl <;> decide

theorem witness_O36 (v : Variant) : WellFormed (.synd 0 12) = true ∧ Fits (zeroed v) ((zeroed v).reg 12, 4 * v.t) ∧
    (List.replicate (2 * (v.t + 1)) (0 : Byte)).length = 2 * (v.t + 1) ∧
    (List.replicate (2 * v.n) (0 : Byte)).length = 2 * v.n ∧ (List.replicate (v.n / 8) (0 : Byte)).length = v.n / 8 ∧
    Fits (zeroed v) ((zeroed v).reg 13, 2 * (v.t + 1)) ∧ Fits (zeroed v) ((zeroed v).reg 14, 2 * v.n) ∧
    Fits (zeroed v) ((zeroed v).reg 15, v.n / 8) ∧
    Holds (zeroed v) ((zeroed v).reg 13) (List.replicate (2 * (v.t + 1)) 0) ∧
    Holds (zeroed v) ((zeroed v).reg 14) (List.replicate (2 * v.n) 0) ∧
    Holds (zeroed v) ((zeroed v).reg 15) (List.replicate (v.n / 8) 0) := by
  obtain ⟨-, -, -, -, h1, h2, -, h3, h4, -⟩ := sizes_le v
  exact ⟨rfl, zeroed_fits v _ _ h4, by simp, by simp, by simp, zeroed_fits v _ _ h3, zeroed_fits v _ _ h1,
    zeroed_fits v _ _ h2, zeroed_holds v _ _ h3, zeroed_holds v _ _ h1, zeroed_holds v _ _ h2⟩

theorem witness_O37 (v : Variant) : let s := zeroed v
    WellFormed (.pkgen 0 11) = true ∧ (List.replicate (2 * v.t) (0 : Byte)).length = 2 * v.t ∧
    (List.replicate (4 * v.nfull) (0 : Byte)).length = 4 * v.nfull ∧
    (∀ b ∈ [(s.reg 11, v.pkBytes), (s.reg 12, 2 * v.t), (s.reg 13, 4 * v.nfull), (s.reg 14, 2 * v.nfull), (s.reg 15, 8)],
      Fits s b) ∧
    Holds s (s.reg 12) (List.replicate (2 * v.t) 0) ∧ Holds s (s.reg 13) (List.replicate (4 * v.nfull) 0) := by
  obtain ⟨h1, h2, -, -, -, -, h3, -, -, h4, -⟩ := sizes_le v
  refine ⟨rfl, by simp, by simp, ?_, zeroed_holds v _ _ h3, zeroed_holds v _ _ h1⟩
  intro b hb
  simp only [List.mem_cons, List.not_mem_nil, or_false] at hb
  rcases hb with rfl | rfl | rfl | rfl | rfl
  · exact zeroed_fits v _ _ h4
  · exact zeroed_fits v _ _ h3
  · exact zeroed_fits v _ _ h1
  · exact zeroed_fits v _ _ h2
  · exact zeroed_fits v _ _ (by decide)

/-- Keys with no repeat, with the order that sorts them, and keys that are all equal. -/
theorem witness_O38 (v : Variant) :
    SortsKeys v ((List.range v.nfull).map (BitVec.ofNat 32)) (tabulate v.nfull (BitVec.ofNat 16)) ∧
    ((List.range v.nfull).map (BitVec.ofNat 32)).length = v.nfull ∧ ((List.range v.nfull).map (BitVec.ofNat 32)).Nodup ∧
    (List.replicate v.nfull (0 : Word)).length = v.nfull ∧ ¬ (List.replicate v.nfull (0 : Word)).Nodup := by
  have hn : v.nfull ≤ 2 ^ 16 ∧ 2 ≤ v.nfull := by cases v <;> decide
  have hp : ∀ i < v.nfull, (gfAt (tabulate v.nfull (BitVec.ofNat 16)) i).toNat = i := by
    intro i hi
    rw [gfAt, tabulate_getD, if_pos hi]; simp; omega
  have hk : ∀ i < v.nfull, (((List.range v.nfull).map (BitVec.ofNat 32)).getD i 0).toNat = i := by
    intro i hi
    simp [List.getD_eq_getElem?_getD, List.getElem?_range hi]; omega
  refine ⟨⟨by simp, ⟨fun i hi => by dsimp only; rw [hp i hi]; exact hi, fun x hx => ⟨x, hx, hp x hx⟩⟩,
    fun i j hij hj => ?_⟩, by simp, ?_, by simp, by rw [List.nodup_replicate]; omega⟩
  · rw [hp i (by omega), hp j hj, hk i (by omega), hk j hj]; exact hij
  refine List.Nodup.map_on (fun a ha b hb e => ?_) List.nodup_range
  rw [List.mem_range] at ha hb
  have := congrArg BitVec.toNat e
  simp only [BitVec.toNat_ofNat] at this
  omega

theorem witness_O39 (v : Variant) : (∀ x ∈ ([1] : List Gf), Canonical v.field x) ∧
    (∀ x ∈ List.replicate v.n (0 : Gf), Canonical v.field x) ∧ (List.replicate v.n (0 : Gf)).length = v.n := by
  refine ⟨?_, ?_, by simp⟩
  · intro x hx
    rw [List.mem_singleton.mp hx]; unfold Canonical; cases v <;> decide
  · intro x hx
    rw [(List.mem_replicate.mp hx).2]; unfold Canonical; cases v <;> decide

-- The elimination on the identity.

/-- The matrix whose row q has the bit q alone. -/
def identityRows (n rows : Nat) : Array (Row n) := tabulate rows fun q => BitVec.twoPow n q

theorem identityRows_bit (n rows q c : Nat) (hq : q < rows) (hc : c < n) :
    ((identityRows n rows).getD q 0).getLsbD c = decide (c = q) := by
  rw [identityRows, tabulate_getD, if_pos hq, BitVec.getLsbD_twoPow]
  by_cases h : q = c <;> simp [h, hc, eq_comm]

theorem reduceStep_identity (n rows r : Nat) (hr : r < rows) (hn : rows ≤ n) :
    reduceStep (identityRows n rows) r = some (identityRows n rows) := by
  have hp : pivotRow (identityRows n rows) r = some ((identityRows n rows).getD r 0) := by
    unfold pivotRow
    dsimp only
    rw [if_pos (by rw [identityRows_bit n rows r r hr (by omega)]; simp)]
  unfold reduceStep
  rw [hp, Option.map_some]
  congr 1
  apply Array.ext
  · simp
  intro q h1 h2
  have hq : q < rows := by simpa [identityRows] using h2
  have e : (identityRows n rows)[q] = (identityRows n rows).getD q 0 := by simp [Array.getD, h2]
  rw [Array.getElem_mapIdx]
  split
  · rename_i h; subst h; exact e.symm
  · rename_i h
    rw [if_neg]
    rw [e, identityRows_bit n rows q r hq (by omega)]
    simp; omega

theorem reduceSteps_identity (n rows : Nat) (hn : rows ≤ n) (rs : List Nat) (h : ∀ r ∈ rs, r < rows) :
    reduceSteps rs (identityRows n rows) = some (identityRows n rows) := by
  induction rs with
  | nil => rfl
  | cons r rs ih =>
    rw [reduceSteps, reduceStep_identity n rows r (h r (by simp)) hn]
    exact ih fun x hx => h x (by simp [hx])

theorem pkNrows_le (v : Variant) : v.pkNrows ≤ v.n ∧ 32 ≤ v.pkNrows ∧ v.pkNrows + 32 ≤ v.n := by cases v <;> decide

/-- The identity is reduced to itself. -/
theorem witness_O40 (v : Variant) (pi : Array Gf) : (identityRows v.n v.pkNrows).size = v.pkNrows ∧
    plainElim v (identityRows v.n v.pkNrows) pi =
      some { h := identityRows v.n v.pkNrows, pi := pi, pivots := 0x00000000FFFFFFFF } := by
  refine ⟨by simp [identityRows], ?_⟩
  rw [plainElim, reduceSteps_identity _ _ (pkNrows_le v).1 _ fun r hr => List.mem_range.mp hr]; rfl

theorem swapColumns_self {n : Nat} (a : Nat) (row : Row n) : swapColumns a a row = row := by simp [swapColumns]

theorem foldl_swapColumns_self {n : Nat} (r0 : Nat) (moves : List (Nat × Nat)) (h : ∀ m ∈ moves, m.1 = m.2) (row : Row n) :
    moves.foldl (fun row js => swapColumns (r0 + js.1) (r0 + js.2) row) row = row := by
  induction moves generalizing row with
  | nil => rfl
  | cons m ms ih =>
    rw [List.foldl_cons, h m (by simp), swapColumns_self]
    exact ih (fun x hx => h x (by simp [hx])) row

theorem windowPivots_identity : windowPivots 32 ((List.range 32).map (BitVec.twoPow 64)) = some (List.range 32) := by
  decide +kernel

/-- The identity passes the elimination with moved columns, and moves none. -/
theorem witness_O41 (v : Variant) : (identityRows v.n v.pkNrows).size = v.pkNrows ∧
    (Array.replicate v.nfull (0 : Gf)).size = v.nfull ∧
    ∃ k, fastElim v (identityRows v.n v.pkNrows) (Array.replicate v.nfull 0) = some k := by
  obtain ⟨h1, h2, h3⟩ := pkNrows_le v
  refine ⟨by simp [identityRows], by simp, ?_⟩
  have hw : ((identityRows v.n v.pkNrows).toList.drop (v.pkNrows - 32)).map
      (fun row => row.extractLsb' (v.pkNrows - 32) 64) = (List.range 32).map (BitVec.twoPow 64) := by
    apply List.ext_getElem
    · simp [identityRows]; omega
    intro i hi _
    have hi' : i < 32 := by simp [identityRows] at hi; omega
    ext c hc
    simp [identityRows, tabulate, BitVec.getElem_twoPow, BitVec.getElem_extractLsb', BitVec.getLsbD_twoPow]
    have h5 : v.pkNrows - 32 + i < v.n := by omega
    simp [h5, eq_comm]
  unfold fastElim
  dsimp only
  rw [reduceSteps_identity _ _ h1 _ fun r hr => by have := List.mem_range.mp hr; omega]
  dsimp only
  rw [hw, windowPivots_identity]
  dsimp only
  have hm : (identityRows v.n v.pkNrows).map (fun row => ((List.range 32).zip (List.range 32)).foldl
      (fun row js => swapColumns (v.pkNrows - 32 + js.1) (v.pkNrows - 32 + js.2) row) row) =
      identityRows v.n v.pkNrows := by
    have : (fun row : Row v.n => ((List.range 32).zip (List.range 32)).foldl
        (fun row js => swapColumns (v.pkNrows - 32 + js.1) (v.pkNrows - 32 + js.2) row) row) = id := by
      funext row
      exact foldl_swapColumns_self _ _ (by decide) row
    rw [this]; simp
  rw [hm, reduceSteps_identity _ _ h1]
  · exact ⟨_, rfl⟩
  · intro r hr
    obtain ⟨j, hj, rfl⟩ := List.mem_map.mp hr
    have := List.mem_range.mp hj
    omega

-- The minimal polynomial of y: the powers of y are the unit vectors, so the elimination meets 1 at every pivot.

theorem gfMul_right_zero (f : Field) (a : Gf) : gfMul f a 0#16 = 0#16 := by
  have h : clmul a 0#16 = 0#32 := by simp [clmul]
  cases f <;> simp [gfMul, gfMask, h, fold12, fold13]

theorem gfMul_left_zero (f : Field) (b : Gf) : gfMul f 0#16 b = 0#16 := by
  have h : ∀ c, clmul 0#16 c = 0#32 := fun c => by simp [clmul]
  cases f <;> simp [gfMul, gfMask, h, fold12, fold13]

theorem gfMul_one_one (f : Field) : gfMul f 1#16 1#16 = 1#16 := by cases f <;> decide +kernel

theorem gfInv_one (f : Field) : gfInv f 1#16 = 1#16 := by cases f <;> decide +kernel

/-- The coefficients of y^j. -/
def unitVec (t j : Nat) : Array Gf := tabulate t fun k => if k = j then 1 else 0

theorem gfAt_unitVec (t j k : Nat) : gfAt (unitVec t j) k = if k < t ∧ k = j then 1 else 0 := by
  rw [gfAt, unitVec, tabulate_getD]
  by_cases h1 : k < t <;> by_cases h2 : k = j <;> simp [h1, h2]

theorem gfSum_single (n j : Nat) (c : Gf) (g : Nat → Gf) (h : ∀ i < n, g i = if i = j then c else 0) :
    gfSum ((List.range n).map g) = if j < n then c else 0 := by
  induction n with
  | zero => rfl
  | succ n ih =>
    have e : gfSum ((List.range (n + 1)).map g) = gfSum ((List.range n).map g) ^^^ g n := by
      simp [gfSum, List.range_succ]
    rw [e, ih fun i hi => h i (by omega), h n (by omega)]
    by_cases h1 : j < n
    · rw [if_pos h1, if_neg (by omega), if_pos (by omega)]; simp
    · by_cases h2 : n = j
      · rw [if_neg h1, if_pos h2, if_pos (by omega)]; simp
      · rw [if_neg h1, if_neg h2, if_neg (by omega)]; simp

theorem productCoeff_unit (f : Field) (t j k : Nat) (hj : j < t) (ht : 1 < t) :
    productCoeff f t (unitVec t j) (unitVec t 1) k = if k = j + 1 then 1 else 0 := by
  unfold productCoeff
  rw [gfSum_single t j (if k = j + 1 then 1 else 0)]
  · rw [if_pos hj]
  intro i hi
  rw [gfAt_unitVec, gfAt_unitVec]
  by_cases h1 : i = j
  · subst h1
    by_cases h2 : k = i + 1
    · subst h2
      simp [hi, ht, gfMul_one_one]
    · have h3 : ¬ (k - i < t ∧ k - i = 1) := by omega
      simp [h2, h3, gfMul_right_zero]
  · have h3 : ¬ (i < t ∧ i = j) := by omega
    simp [h1, gfMul_left_zero]

theorem modify_eq_self {α : Type} (a : Array α) (i : Nat) (f : α → α) (h : ∀ x, f x = x) : a.modify i f = a := by
  have : f = id := funext h
  subst this
  apply Array.ext <;> simp [Array.getElem_modify]

theorem reduceCoeff_zero (v : Variant) (prod : Array Gf) (i : Nat) (h : gfAt prod i = 0) : reduceCoeff v prod i = prod := by
  unfold reduceCoeff
  rw [h]
  generalize v.ringTerms = terms
  have : ∀ p : Array Gf, terms.foldl (fun p kc => p.modify (i - v.t + kc.1) fun x => x ^^^ gfMul v.field 0 kc.2) p = p := by
    induction terms with
    | nil => intro p; rfl
    | cons kc terms ih =>
      intro p
      rw [List.foldl_cons, modify_eq_self _ _ _ fun x => by
        rw [show gfMul v.field 0 kc.2 = 0 from gfMul_left_zero _ _]; simp]
      exact ih p
  exact this prod

theorem polymul_unit (v : Variant) (j : Nat) (hj : j + 1 < v.t) :
    polymul v (unitVec v.t j) (unitVec v.t 1) = unitVec v.t (j + 1) := by
  have hp : productCoeff v.field v.t (unitVec v.t j) (unitVec v.t 1) = fun k => if k = j + 1 then 1 else 0 :=
    funext fun k => productCoeff_unit v.field v.t j k (by omega) (by omega)
  have hr : ∀ is : List Nat, (∀ i ∈ is, v.t ≤ i) →
      is.foldl (reduceCoeff v) (unitVec (2 * v.t - 1) (j + 1)) = unitVec (2 * v.t - 1) (j + 1) := by
    intro is
    induction is with
    | nil => intro _; rfl
    | cons i is ih =>
      intro h
      have := h i (by simp)
      rw [List.foldl_cons, reduceCoeff_zero v _ i (by rw [gfAt_unitVec, if_neg (by omega)])]
      exact ih fun x hx => h x (by simp [hx])
  unfold polymul
  dsimp only
  rw [hp]
  change tabulate v.t (gfAt (List.foldl (reduceCoeff v) (unitVec (2 * v.t - 1) (j + 1)) _)) = _
  rw [hr]
  · apply Array.ext
    · simp [unitVec]
    intro k h1 h2
    have hk : k < v.t := by simpa [unitVec] using h2
    simp [unitVec, tabulate, gfAt, Array.getD]
    omega
  · intro i hi
    obtain ⟨x, hx, rfl⟩ := List.mem_map.mp hi
    have := List.mem_range.mp hx
    omega

theorem powersRev_unit (v : Variant) (ht : 1 < v.t) (k : Nat) (hk : k < v.t) :
    powersRev v (unitVec v.t 1) k = ((List.range (k + 1)).map (unitVec v.t)).reverse := by
  have h1 : tabulate v.t (gfAt (unitVec v.t 1)) = unitVec v.t 1 := by
    apply Array.ext
    · simp [unitVec]
    intro k h1 h2
    simp [unitVec, tabulate, gfAt, Array.getD]
    intro h; simp [unitVec] at h2; omega
  match k with
  | 0 => rfl
  | 1 => rw [powersRev, h1]; rfl
  | c + 2 =>
    rw [powersRev, powersRev_unit v ht (c + 1) (by omega), List.range_succ (n := c + 1 + 1), List.map_append,
      List.reverse_append, List.range_succ (n := c + 1), List.map_append, List.reverse_append]
    simp [polymul_unit v (c + 1) hk]

/-- Columns 0 to t - 1 of the elimination are the unit vectors. -/
def UnitColumns (t : Nat) (mat : Array (Array Gf)) : Prop := ∀ c < t, mat.getD c #[] = unitVec t c

theorem matCol_unit {t j k : Nat} {mat : Array (Array Gf)} {g : Array Gf → Gf} (h : UnitColumns t mat)
    (hg : ∀ c < t, g (unitVec t c) = gfAt (unitVec t c) k) : UnitColumns t (matCol mat j k g) := by
  intro c hc
  have h1 := h c hc
  have hlt : c < mat.size := by
    by_contra hn
    rw [Array.getD_eq_getD_getElem?, Array.getElem?_eq_none (by omega)] at h1
    have := congrArg Array.size h1
    simp [unitVec] at this; omega
  have e : mat[c] = unitVec t c := by simpa [Array.getD, hlt] using h1
  have hs : (unitVec t c).setIfInBounds k (g (unitVec t c)) = unitVec t c := by
    rw [hg c hc]
    apply Array.ext
    · simp
    intro i h1 h2
    rw [Array.getElem_setIfInBounds]
    split
    · rename_i h; subst h; simp [gfAt, Array.getD, h2]
    · rfl
  simp only [matCol, Array.getD, Array.size_mapIdx, hlt, dif_pos, Array.getInternal_eq_getElem, Array.getElem_mapIdx, e]
  split
  · exact hs
  · rfl

theorem matAt_unit {t c k : Nat} {mat : Array (Array Gf)} (h : UnitColumns t mat) (hc : c < t) :
    matAt mat c k = if k < t ∧ k = c then 1 else 0 := by
  rw [matAt, h c hc, gfAt_unitVec]

theorem foldl_unit {t : Nat} (ks : List Nat) (step : Array (Array Gf) → Nat → Array (Array Gf))
    (hs : ∀ mat, UnitColumns t mat → ∀ k ∈ ks, UnitColumns t (step mat k)) (mat : Array (Array Gf))
    (h : UnitColumns t mat) : UnitColumns t (ks.foldl step mat) := by
  induction ks generalizing mat with
  | nil => exact h
  | cons k ks ih =>
    exact ih (fun m hm x hx => hs m hm x (by simp [hx])) _ (hs mat h k (by simp))

theorem elimStep_unit (f : Field) (t j : Nat) (hj : j < t) (acc : Bool × Array (Array Gf)) (h : UnitColumns t acc.2)
    (ha : acc.1 = true) : (elimStep f t acc j).1 = true ∧ UnitColumns t (elimStep f t acc j).2 := by
  have h1 : UnitColumns t (((List.range t).filter (j < ·)).foldl (fun mat k =>
      let mask := gfIsz (matAt mat j j)
      matCol mat j j fun row => gfAt row j ^^^ (gfAt row k &&& mask)) acc.2) := by
    refine foldl_unit _ _ (fun mat hm k _ => ?_) _ h
    dsimp only
    rw [matAt_unit hm hj, if_pos ⟨hj, rfl⟩]
    refine matCol_unit hm fun c _ => ?_
    rw [show gfIsz 1 = 0 by decide]; simp
  unfold elimStep
  dsimp only
  rw [matAt_unit h1 hj, if_pos ⟨hj, rfl⟩]
  refine ⟨by rw [ha]; decide, foldl_unit _ _ (fun mat hm k hk => ?_) _ (matCol_unit h1 fun c _ => ?_)⟩
  · have hkj : k ≠ j := by simpa using (List.mem_filter.mp hk).2
    rw [matAt_unit hm hj, if_neg (by tauto)]
    refine matCol_unit hm fun c _ => ?_
    rw [show gfMul f (gfAt (unitVec t c) j) 0 = 0 from gfMul_right_zero _ _]; simp
  · rw [show gfInv f 1 = 1 from gfInv_one f, gfAt_unitVec]
    split
    · exact gfMul_one_one f
    · exact gfMul_left_zero f 1

/-- The minimal polynomial of y exists. -/
theorem witness_O32 (v : Variant) : (unitVec v.t 1).size = v.t ∧
    (∀ k < v.t, Canonical v.field (gfAt (unitVec v.t 1) k)) ∧ (minimalPoly v (unitVec v.t 1)).1 = true := by
  have ht : 2 < v.t := by cases v <;> decide
  refine ⟨by simp [unitVec], fun k _ => ?_, ?_⟩
  · rw [gfAt_unitVec]; unfold Canonical; split <;> cases v <;> decide
  have hm : UnitColumns v.t (powersRev v (unitVec v.t 1) v.t).reverse.toArray := by
    obtain ⟨u, hu⟩ : ∃ u, v.t = u + 2 := ⟨v.t - 2, by omega⟩
    intro c hc
    have e : powersRev v (unitVec v.t 1) v.t =
        polymul v (unitVec v.t (u + 1)) (unitVec v.t 1) :: powersRev v (unitVec v.t 1) (u + 1) := by
      rw [hu, powersRev, ← hu, powersRev_unit v (by omega) (u + 1) (by omega), List.range_succ, List.map_append,
        List.reverse_append]
      rfl
    rw [e, powersRev_unit v (by omega) (u + 1) (by omega)]
    simp only [List.reverse_cons, List.reverse_reverse, Array.getD_eq_getD_getElem?, List.getElem?_toArray]
    rw [List.getElem?_append_left (by simp; omega)]
    simp
    rw [List.getElem?_range (by omega)]
    rfl
  have hf : ∀ (js : List Nat) (acc : Bool × Array (Array Gf)), (∀ j ∈ js, j < v.t) → acc.1 = true →
      UnitColumns v.t acc.2 → (js.foldl (elimStep v.field v.t) acc).1 = true := by
    intro js
    induction js with
    | nil => intro acc _ h _; exact h
    | cons j js ih =>
      intro acc hj h1 h2
      obtain ⟨h3, h4⟩ := elimStep_unit v.field v.t j (hj j (by simp)) acc h2 h1
      exact ih _ (fun x hx => hj x (by simp [hx])) h3 h4
  exact hf _ _ (fun j hj => List.mem_range.mp hj) rfl hm

/-- The values 0, 1, ..., 127 as the random bytes of GENE, and zeros: the batch succeeds, and fails. -/
def randBytes : List Byte := bytesOf 2 ((List.range 128).map (BitVec.ofNat 16))

/-- The accepted indices of a buffer, as O42 takes them. -/
def accepted (bs : List Byte) : List Nat :=
  (((List.range (256 / 2)).map fun i => (element .m12 bs i).toNat).filter fun x => decide (x < 3488)).take 64

theorem witness_O42 : let s := holding .mceliece348864 randBytes
    WellFormed (.gene 3 1) = true ∧ randBytes.length = 256 ∧ Fits s (s.reg 1, 3488 / 8) ∧
    Fits s (s.reg (1 + 1#4), 256) ∧ Holds s (s.reg (1 + 1#4)) randBytes ∧
    ((accepted randBytes).length = 64 ∧ (accepted randBytes).Nodup) ∧
    Holds (zeroed .mceliece348864) 0#32 (List.replicate 256 0) ∧
    ¬ ((accepted (List.replicate 256 0)).length = 64 ∧ (accepted (List.replicate 256 0)).Nodup) :=
  ⟨rfl, by simp [randBytes], holding_fits _ _ _ _ (by decide), holding_fits _ _ _ _ (by decide), holding_holds _ _ _,
    by decide +kernel, holds_zeros rfl _ _ (by decide), by decide +kernel⟩

theorem witness_O43 (v : Variant) : WellFormed (.encode 7 4) = true ∧ Fits (zeroed v) ((zeroed v).reg 4, v.syndBytes) ∧
    (List.replicate v.pkBytes (0 : Byte)).length = v.pkBytes ∧ (List.replicate (v.n / 8) (0 : Byte)).length = v.n / 8 ∧
    Fits (zeroed v) ((zeroed v).reg 5, v.pkBytes) ∧ Fits (zeroed v) ((zeroed v).reg 6, v.n / 8) ∧
    Holds (zeroed v) ((zeroed v).reg 5) (List.replicate v.pkBytes 0) ∧
    Holds (zeroed v) ((zeroed v).reg 6) (List.replicate (v.n / 8) 0) := by
  obtain ⟨-, -, -, -, -, h1, -, -, -, h2, h3, -⟩ := sizes_le v
  exact ⟨rfl, zeroed_fits v _ _ h3, by simp, by simp, zeroed_fits v _ _ h2, zeroed_fits v _ _ h1, zeroed_holds v _ _ h2,
    zeroed_holds v _ _ h1⟩

theorem witness_O44 (v : Variant) : let s := zeroed v
    WellFormed (.decrypt 8 1) = true ∧ (List.replicate (2 * v.t) (0 : Byte)).length = 2 * v.t ∧
    (List.replicate v.condBytes (0 : Byte)).length = v.condBytes ∧
    (List.replicate v.syndBytes (0 : Byte)).length = v.syndBytes ∧
    (∀ b ∈ [(s.reg 1, v.n / 8), (s.reg 2, 2 * v.t), (s.reg 3, v.condBytes), (s.reg 4, v.syndBytes)], Fits s b) ∧
    Holds s (s.reg 2) (List.replicate (2 * v.t) 0) ∧ Holds s (s.reg 3) (List.replicate v.condBytes 0) ∧
    Holds s (s.reg 4) (List.replicate v.syndBytes 0) := by
  obtain ⟨-, -, -, h1, -, h2, h3, -, -, -, h4, -⟩ := sizes_le v
  refine ⟨rfl, by simp, by simp, by simp, ?_, zeroed_holds v _ _ h3, zeroed_holds v _ _ h1, zeroed_holds v _ _ h4⟩
  intro b hb
  simp only [List.mem_cons, List.not_mem_nil, or_false] at hb
  rcases hb with rfl | rfl | rfl | rfl
  · exact zeroed_fits v _ _ h2
  · exact zeroed_fits v _ _ h3
  · exact zeroed_fits v _ _ h1
  · exact zeroed_fits v _ _ h4

/-- Three bytes in, 32 bytes out. -/
theorem witness_O45 : let s := ((holding .mceliece348864 [0x61, 0x62, 0x63]).setReg 13 32).setReg 15 3
    WellFormed (.shake256 0 12) = true ∧ (s.reg (12 + 1#4)).toNat = 32 ∧ (s.reg (12 + 3#4)).toNat = 3 ∧
    Fits s (s.reg 12, 32) ∧ Fits s (s.reg (12 + 2#4), 3) ∧ Holds s (s.reg (12 + 2#4)) [0x61, 0x62, 0x63] := by
  unfold Fits Holds
  exact ⟨by decide, by decide, by decide, by decide, by decide, rfl⟩

theorem witness_O46 : (0 : Nat) < 32 ∧ 31 < 32 ∧ 32 ≤ 200 := by decide

theorem witness_O47 : keccakZero.size = 25 ∧ (List.replicate 136 (0 : Byte)).length = 136 ∧ 4 < 5 :=
  ⟨by simp [keccakZero], by simp, by decide⟩

/-- Each access of O48, O49, O50 and O51 is the HOST's next event of some state, with RUN of either value. -/
theorem witness_host_event (run : Bool) (e : HostEvent) (rest : List HostEvent) :
    let s : State := { State.reset with run := run, host := e :: rest }
    s.run = run ∧ s.host = e :: rest := ⟨rfl, rfl⟩

theorem witness_O48 : let s : State := { State.reset with host := [.write 0x0C 4 5] }
    s.host = .write 0x0C 4 5 :: [] ∧ ((0x0C : BitVec 25) = 0x00 ∨ (0x0C : BitVec 25) = 0x04 ∨
      (0x0C : BitVec 25) = 0x08 ∨ (0x0C : BitVec 25) = 0x0C) := ⟨rfl, by decide⟩

/-- START and no START. -/
theorem witness_O49 : (1 : Word).getLsbD 0 = true ∧ (2 : Word).getLsbD 0 = false := by decide

theorem witness_O52 : let s : State := { State.reset with host := [.read (BitVec.ofNat 25 (0x100 + 4 * (15#4).toNat)) 4] }
    s.run = false ∧ s.host = .read (BitVec.ofNat 25 (0x100 + 4 * (15#4).toNat)) 4 :: [] := ⟨rfl, rfl⟩

/-- The last word of the window, one past it, and a misaligned address. -/
theorem witness_O53 : let s := State.writeMem State.reset 0x1FFFFC [1, 2, 3, 4]
    (0x1FFFFC < s.lmemBytes ∧ 0x1FFFFC % 4 = 0 ∧ s.run = false ∧ Holds s (BitVec.ofNat 32 0x1FFFFC) [1, 2, 3, 4]) ∧
    (0x200000 < 2 ^ 24 ∧ s.lmemBytes ≤ 0x200000) ∧ 0x1FFFFE % 4 ≠ 0 := by
  unfold Holds
  exact ⟨⟨by decide, by decide, rfl, rfl⟩, by decide, by decide⟩

theorem witness_O54 : ReservedOffset State.reset 0x28 ∧ ReservedOffset State.reset 0xFC ∧
    ReservedOffset State.reset 0x140 ∧ ReservedOffset State.reset 0x1200000 ∧ BadAccess 0x10 2 ∧ BadAccess 0x12 4 ∧
    BadAccess 0x1000000 3 ∧ BadAccess 0x1000001 2 := by
  unfold ReservedOffset BadAccess
  decide

theorem witness_O55 : let s : State := { State.reset with run := true, host := [.write 0x1000000 4 7] }
    s.run = true ∧ s.host = .write 0x1000000 4 7 :: [] := ⟨rfl, rfl⟩

theorem witness_O56 : ({ State.reset with run := true, host := [.reset] } : State).host = .reset :: [] := rfl

theorem witness_O58 : Inv State.reset ∧ step State.reset = .next State.reset := ⟨reset_inv, rfl⟩

/-- An instruction that goes on, one that halts and one that faults. -/
theorem witness_O59 : (∃ t, exec (.add 1 2 3) State.reset = .next t) ∧ (∃ t, exec .halt State.reset = .next t) ∧
    ∃ t, exec (.jalr 1 2 2) State.reset = .next t := ⟨⟨_, rfl⟩, ⟨_, rfl⟩, ⟨_, rfl⟩⟩

theorem fetching_inv (w : Word) : Inv (fetching w) := by
  refine ⟨Memory.wf_write List.Pairwise.nil _ _, ?_, rfl, rfl, fun _ => ⟨rfl, rfl, rfl, rfl, rfl, rfl⟩, fun _ => rfl,
    fun h => absurd h Bool.false_ne_true,
    fun h => absurd h Bool.false_ne_true⟩
  intro c hc
  rcases Memory.mem_write hc with h | h
  · cases h
  · have : (fetching w).lmemBytes = 2 ^ 21 := by unfold State.lmemBytes Build.lmemBytes; rfl
    rw [this]; simp [bytesOfWord] at h; omega

/-- A test of the next state, false where there is none. -/
def nextHas (o : Host.Outcome State Fault Refusal) (p : State → Bool) : Bool :=
  match o with
  | .next t => p t
  | _ => false

/-- The three ends of a run. -/
theorem witness_O60 :
    (Inv (fetching 0x3F) ∧ nextHas (step (fetching 0x3F)) (fun t => !t.run && t.isDone) = true) ∧
    (Inv (fetching 0) ∧ nextHas (step (fetching 0)) (fun t => !t.run && t.isFault) = true) ∧
    Inv { State.reset with run := true, stopReq := true } ∧
    nextHas (step { State.reset with run := true, stopReq := true }) (fun t => !t.run && t.isStopped) = true :=
  ⟨⟨fetching_inv _, by decide +kernel⟩, ⟨fetching_inv _, by decide +kernel⟩,
    ⟨by decide, by decide, by decide, by decide, by decide, by decide, by decide, by decide⟩, by decide +kernel⟩

end Sys2Proof.Tests
end

/-!
The host port (spec/10_state.md R31 to R46): where each offset leads, what an access of each register does, said once,
and the statements about the registers of the window.
-/

namespace Sys2Proof.Machine

-- Reads of the registers, in the order of their offsets.

theorem hostRead_id (s : State) : hostRead s 0x00 4 = .next (s.give idValue) := rfl
theorem hostRead_version (s : State) : hostRead s 0x04 4 = .next (s.give versionValue) := rfl
theorem hostRead_variant (s : State) : hostRead s 0x08 4 = .next (s.give s.build.variantReg) := rfl
theorem hostRead_lmemsz (s : State) : hostRead s 0x0C 4 = .next (s.give (BitVec.ofNat 32 s.lmemBytes)) := rfl
theorem hostRead_ctrl (s : State) : hostRead s 0x10 4 = .next (s.give s.ctrlWord) := rfl
theorem hostRead_status (s : State) : hostRead s 0x14 4 = .next (s.give s.statusWord) := rfl
theorem hostRead_entryPc (s : State) : hostRead s 0x18 4 = .next (s.give s.entryPc) := rfl
theorem hostRead_faultInfo (s : State) : hostRead s 0x20 4 = .next (s.give s.faultInfo) := rfl
theorem hostRead_faultInsn (s : State) : hostRead s 0x24 4 = .next (s.give s.faultInsn) := rfl

theorem hostRead_pc_stopped {s : State} (h : s.run = false) : hostRead s 0x1C 4 = .next (s.give s.pcReg) :=
  if_neg (ne_true_of_eq_false h)

theorem hostRead_pc_running {s : State} (h : s.run = true) :
    hostRead s 0x1C 4 = .next { s.give (Config.freePcRead s.draws) with draws := s.draws + 1 } := if_pos h

/-- VARIANT and FAST stand in the printed columns 0 and 4 of PARAMTAB (10_state.md R34; 48_base.md R250). -/
theorem variantReg_eq_paramColumn (b : Build) : b.variantReg =
    BitVec.ofNat 32 ((paramColumn b.variant).getD 0 0 + 2 ^ 4 * (paramColumn b.variant).getD 4 0) := by
  obtain ⟨v, n⟩ := b
  cases v <;> rfl

-- Writes of the registers.

/-- The registers that ignore writes without HERR (10_state.md R33 to R35, R39 to R41). -/
theorem hostWrite_readOnly (s : State) (d : Word) {off : BitVec 25}
    (h : off = 0x00 ∨ off = 0x04 ∨ off = 0x08 ∨ off = 0x0C ∨ off = 0x1C ∨ off = 0x20 ∨ off = 0x24) :
    hostWrite s off 4 d = s := by
  rcases h with rfl | rfl | rfl | rfl | rfl | rfl | rfl <;> rfl

theorem hostWrite_ctrl (s : State) (d : Word) : hostWrite s 0x10 4 d = s.writeCtrl d := rfl

theorem hostWrite_status (s : State) (d : Word) : hostWrite s 0x14 4 d = s.writeStatus d := rfl

theorem hostWrite_entryPc_stopped {s : State} (h : s.run = false) (d : Word) :
    hostWrite s 0x18 4 d = { s with entry := d.extractLsb' 2 30 } := if_neg (ne_true_of_eq_false h)

theorem hostWrite_entryPc_running {s : State} (h : s.run = true) (d : Word) : hostWrite s 0x18 4 d = s.refuse := if_pos h

/-- CTRL.START acts only while RUN = 0 (10_state.md R36). -/
theorem State.writeCtrl_start {s : State} {d : Word} (h : s.run = false) (hd : d.getLsbD 0 = true) :
    s.writeCtrl d =
      State.start { s with ieDone := d.getLsbD 8, ieFault := d.getLsbD 9, ieStop := d.getLsbD 10 } := by
  rw [State.writeCtrl, if_neg (ne_true_of_eq_false h), if_pos hd]

theorem State.writeCtrl_stopped {s : State} {d : Word} (h : s.run = false) (hd : d.getLsbD 0 = false) :
    s.writeCtrl d = { s with ieDone := d.getLsbD 8, ieFault := d.getLsbD 9, ieStop := d.getLsbD 10 } := by
  rw [State.writeCtrl, if_neg (ne_true_of_eq_false h), if_neg (ne_true_of_eq_false hd)]

/-- CTRL.STOP acts only while RUN = 1 (10_state.md R36). -/
theorem State.writeCtrl_running {s : State} (h : s.run = true) (d : Word) :
    s.writeCtrl d = { s with
      ieDone := d.getLsbD 8, ieFault := d.getLsbD 9, ieStop := d.getLsbD 10
      stopReq := s.stopReq || d.getLsbD 1 } := by
  rw [State.writeCtrl, if_pos h]

theorem State.writeStatus_stopped {s : State} (h : s.run = false) (d : Word) :
    s.writeStatus d = { s with
      isDone := s.isDone && !d.getLsbD 1, isFault := s.isFault && !d.getLsbD 2
      isStopped := s.isStopped && !d.getLsbD 3, herr := s.herr && !d.getLsbD 4 } :=
  if_neg (ne_true_of_eq_false h)

theorem State.writeStatus_running {s : State} (h : s.run = true) (d : Word) :
    s.writeStatus d = { s with herr := s.herr && !d.getLsbD 4 } := if_pos h

-- The words CTRL and STATUS.

/-- Only the three enable bits of CTRL read as anything but 0 (10_state.md R36). -/
theorem State.ctrlWord_getLsbD (s : State) (i : Nat) : s.ctrlWord.getLsbD i =
    (decide (i = 8) && s.ieDone || decide (i = 9) && s.ieFault || decide (i = 10) && s.ieStop) := by
  have low : ∀ i < 32, ∀ a b c : Bool,
      (BitVec.ofNat 32 (2 ^ 8 * a.toNat + 2 ^ 9 * b.toNat + 2 ^ 10 * c.toNat)).getLsbD i =
        (decide (i = 8) && a || decide (i = 9) && b || decide (i = 10) && c) := by decide
  by_cases hi : i < 32
  · exact low i hi _ _ _
  · rw [BitVec.getLsbD_of_ge _ _ (by omega)]
    simp [show i ≠ 8 by omega, show i ≠ 9 by omega, show i ≠ 10 by omega]

theorem Cause.code_lt (c : Cause) : c.code < 10 := by cases c <;> decide

/-- No field of STATUS runs into the next one: the word is the sum of its fields (10_state.md R37). -/
theorem State.statusWord_toNat (s : State) : s.statusWord.toNat =
    s.run.toNat + 2 * s.isDone.toNat + 4 * s.isFault.toNat + 8 * s.isStopped.toNat + 16 * s.herr.toNat
      + 256 * s.cause.code + 65536 * s.irq.toNat := by
  have := s.cause.code_lt
  have := s.run.toNat_le
  have := s.isDone.toNat_le
  have := s.isFault.toNat_le
  have := s.isStopped.toNat_le
  have := s.herr.toNat_le
  have := s.irq.toNat_le
  rw [State.statusWord, BitVec.toNat_ofNat]
  omega

theorem getLsbD_eq_of_toNat {n i : Nat} {c : BitVec n} {b : Bool} (h : c.toNat / 2 ^ i % 2 = b.toNat) :
    c.getLsbD i = b := by
  rw [BitVec.getLsbD, Nat.testBit_eq_decide_div_mod_eq, h]
  cases b <;> rfl

/-- The bits of STATUS, one by one, the reserved ones 0 (10_state.md R37). -/
theorem State.statusWord_fields (s : State) :
    s.statusWord.getLsbD 0 = s.run ∧ s.statusWord.getLsbD 1 = s.isDone ∧ s.statusWord.getLsbD 2 = s.isFault ∧
    s.statusWord.getLsbD 3 = s.isStopped ∧ s.statusWord.getLsbD 4 = s.herr ∧
    s.statusWord.extractLsb' 5 3 = 0#3 ∧ (s.statusWord.extractLsb' 8 8).toNat = s.cause.code ∧
    s.statusWord.getLsbD 16 = s.irq ∧ s.statusWord.extractLsb' 17 15 = 0#15 := by
  have hsum := s.statusWord_toNat
  have := s.cause.code_lt
  have := s.run.toNat_le
  have := s.isDone.toNat_le
  have := s.isFault.toNat_le
  have := s.isStopped.toNat_le
  have := s.herr.toNat_le
  have := s.irq.toNat_le
  refine ⟨getLsbD_eq_of_toNat (by omega), getLsbD_eq_of_toNat (by omega), getLsbD_eq_of_toNat (by omega),
    getLsbD_eq_of_toNat (by omega), getLsbD_eq_of_toNat (by omega), BitVec.eq_of_toNat_eq ?_, ?_,
    getLsbD_eq_of_toNat (by omega), BitVec.eq_of_toNat_eq ?_⟩
  · rw [BitVec.extractLsb'_toNat, Nat.shiftRight_eq_div_pow, BitVec.toNat_ofNat]
    omega
  · rw [BitVec.extractLsb'_toNat, Nat.shiftRight_eq_div_pow]
    omega
  · rw [BitVec.extractLsb'_toNat, Nat.shiftRight_eq_div_pow, BitVec.toNat_ofNat]
    omega

-- The windows.

/-- Register i of the GPR window stands at offset 0x100 + 4 i (10_state.md R42). -/
theorem portTarget_gpr (b : Build) (i : Reg) : portTarget b (BitVec.ofNat 25 (0x100 + 4 * i.toNat)) = .gpr i := by
  have hi := i.isLt
  have ho : (BitVec.ofNat 25 (0x100 + 4 * i.toNat)).toNat = 0x100 + 4 * i.toNat := by
    rw [BitVec.toNat_ofNat]; omega
  unfold portTarget
  dsimp only
  rw [ho, if_neg (by omega), if_pos (by omega), show (0x100 + 4 * i.toNat - 0x100) / 4 = i.toNat by omega,
    BitVec.ofNat_toNat, BitVec.setWidth_eq]

theorem portWidthOk_gpr (i : Reg) : portWidthOk (BitVec.ofNat 25 (0x100 + 4 * i.toNat)) 4 (.gpr i) = true := by
  have hi := i.isLt
  simp only [portWidthOk, BitVec.toNat_ofNat, decide_true, Bool.true_and, decide_eq_true_eq]
  omega

theorem hostRead_gpr (s : State) (i : Reg) : hostRead s (BitVec.ofNat 25 (0x100 + 4 * i.toNat)) 4 =
    if s.run then .next (s.give 0).refuse else .next (s.give (s.reg i)) := by
  unfold hostRead
  dsimp only
  rw [portTarget_gpr, if_pos (portWidthOk_gpr i)]

theorem hostRead_gpr_stopped {s : State} (h : s.run = false) (i : Reg) :
    hostRead s (BitVec.ofNat 25 (0x100 + 4 * i.toNat)) 4 = .next (s.give (s.reg i)) :=
  (hostRead_gpr s i).trans (if_neg (ne_true_of_eq_false h))

theorem hostRead_gpr_running {s : State} (h : s.run = true) (i : Reg) :
    hostRead s (BitVec.ofNat 25 (0x100 + 4 * i.toNat)) 4 = .next (s.give 0).refuse :=
  (hostRead_gpr s i).trans (if_pos h)

theorem hostWrite_gpr (s : State) (i : Reg) (d : Word) :
    hostWrite s (BitVec.ofNat 25 (0x100 + 4 * i.toNat)) 4 d = if s.run then s.refuse else s.setReg i d := by
  unfold hostWrite
  dsimp only
  rw [portTarget_gpr, if_pos (portWidthOk_gpr i)]

theorem hostWrite_gpr_stopped {s : State} (h : s.run = false) (i : Reg) (d : Word) :
    hostWrite s (BitVec.ofNat 25 (0x100 + 4 * i.toNat)) 4 d = s.setReg i d :=
  (hostWrite_gpr s i d).trans (if_neg (ne_true_of_eq_false h))

theorem hostWrite_gpr_running {s : State} (h : s.run = true) (i : Reg) (d : Word) :
    hostWrite s (BitVec.ofNat 25 (0x100 + 4 * i.toNat)) 4 d = s.refuse :=
  (hostWrite_gpr s i d).trans (if_pos h)

-- Refused accesses.

theorem portTarget_of_reserved {s : State} {off : BitVec 25} (h : ReservedOffset s off) :
    portTarget s.build off = .reserved := by
  unfold ReservedOffset State.lmemBytes at h
  unfold portTarget
  dsimp only
  by_cases hwin : 0x1000000 ≤ off.toNat
  · rw [if_pos hwin, if_neg (by omega)]
  · obtain ⟨q, hq⟩ : ∃ q, off.toNat / 4 = q + 10 := ⟨off.toNat / 4 - 10, by omega⟩
    rw [if_neg hwin, if_neg (by omega), hq]
    rfl

/-- Outside the LMEM window an access is of 4 bytes, aligned (20_memory.md R79). -/
theorem portWidthOk_of_low {b : Build} {off : BitVec 25} (k : Nat) (h : off.toNat < 0x1000000) :
    portWidthOk off k (portTarget b off) = (decide (k = 4) && decide (off.toNat % 4 = 0)) := by
  cases ht : portTarget b off with
  | lmem a => have := portTarget_lmem ht; omega
  | _ => rfl

/-- From 0x1000000 up an offset is a byte of LMEM or reserved (10_state.md R31, R32). -/
theorem portTarget_of_high {b : Build} {off : BitVec 25} (h : 0x1000000 ≤ off.toNat) :
    portTarget b off = .reserved ∨ portTarget b off = .lmem (off.toNat - 0x1000000) := by
  unfold portTarget
  dsimp only
  rw [if_pos h]
  split
  · exact .inr rfl
  · exact .inl rfl

/-- Both kinds of refused access fail the host port's own checks (10_state.md R32; 20_memory.md R79). -/
theorem portChecks_refuse {s : State} {off : BitVec 25} {k : Nat} (h : ReservedOffset s off ∨ BadAccess off k) :
    portTarget s.build off = .reserved ∨ portWidthOk off k (portTarget s.build off) = false := by
  rcases h with h | h
  · exact .inl (portTarget_of_reserved h)
  · unfold BadAccess at h
    split at h
    · next hlow =>
      rw [portWidthOk_of_low k hlow]
      exact .inr (by simpa [imp_iff_not_or] using h)
    · next hhigh =>
      rcases portTarget_of_high (b := s.build) (Nat.le_of_not_lt hhigh) with e | e
      · exact .inl e
      · rw [e, portWidthOk]
        refine .inr (Bool.eq_false_iff.mpr fun hok => ?_)
        simp only [Bool.and_eq_true, Bool.or_eq_true, decide_eq_true_eq] at hok
        omega

theorem hostRead_refused {s : State} {off : BitVec 25} {k : Nat} (h : ReservedOffset s off ∨ BadAccess off k) :
    hostRead s off k = .next (s.give 0).refuse := by
  unfold hostRead
  rcases portChecks_refuse h with e | e
  · simp only [e, ite_self]
  · simp only [e, Bool.false_eq_true, if_false]

theorem hostWrite_refused {s : State} {off : BitVec 25} {k : Nat} (h : ReservedOffset s off ∨ BadAccess off k) (d : Word) :
    hostWrite s off k d = s.refuse := by
  unfold hostWrite
  rcases portChecks_refuse h with e | e
  · simp only [e, ite_self]
  · simp only [e, Bool.false_eq_true, if_false]

-- Accesses while SEQ runs.

/-- A read while RUN = 1 changes at most what the HOST got, HERR and the counter of free values, and never stops the
model (20_memory.md R69, R70). -/
theorem hostRead_running {s : State} (h : s.run = true) (off : BitVec 25) (k : Nat) :
    ∃ d herr draws, hostRead s off k = .next { s with hostData := d, herr := herr, draws := draws } := by
  rcases hostRead_cases s off k with e | ⟨hr, -⟩
  · exact e
  · exact absurd (h.symm.trans hr) Bool.noConfusion

/-- A write while RUN = 1 changes at most the enable bits of CTRL, STOPREQ and HERR (10_state.md R36, R37, R38, R42). -/
theorem hostWrite_running {s : State} (h : s.run = true) (off : BitVec 25) (k : Nat) (d : Word) :
    ∃ ieDone ieFault ieStop stopReq herr, hostWrite s off k d = { s with
      ieDone := ieDone, ieFault := ieFault, ieStop := ieStop, stopReq := stopReq, herr := herr } := by
  have hns : s.run ≠ false := by simp [h]
  rcases hostWrite_cases s off k d with e | e | e | e | ⟨hr, -⟩ | ⟨hr, -⟩ | ⟨hr, -⟩
  · exact ⟨_, _, _, _, _, e⟩
  · exact ⟨_, _, _, _, _, e⟩
  · exact ⟨_, _, _, _, _, e.trans (State.writeCtrl_running h d)⟩
  · exact ⟨_, _, _, _, _, e.trans (State.writeStatus_running h d)⟩
  · exact absurd hr hns
  · exact absurd hr hns
  · exact absurd hr hns

end Sys2Proof.Machine

/-!
The invariant of the machine, kept by every step (spec/10_state.md R20, R25, R29, R37; spec/20_memory.md R60, R66).
An update that changes no field the invariant speaks of keeps it as `{ h with }`; the ends of a run share one lemma.
-/

namespace Sys2Proof.Machine

/-- An update that ends the run, with PC the address SEQ was at, keeps the invariant (70_reset_and_hazards.md R304). -/
theorem Inv.of_ended {s t : State} (h : Inv s) (hmem : t.mem = s.mem) (hbuild : t.build = s.build) (hpc : t.pc = s.pc)
    (hpcReg : t.pcReg = s.pc) (hrun : t.run = false) (hstop : t.stopReq = false) (hbegun : t.begun = false)
    (hcause : t.isFault = true → t.cause ≠ .none) : Inv t where
  memWf := hmem ▸ h.memWf
  memRange c hc := (State.lmemBytes_congr hbuild).symm ▸ h.memRange c (hmem ▸ hc)
  pcAligned := hpc ▸ h.pcAligned
  pcRegAligned := hpcReg ▸ h.pcAligned
  runClear hr := absurd (hr.symm.trans hrun) Bool.noConfusion
  stopRuns hs := absurd (hs.symm.trans hstop) Bool.noConfusion
  begunRuns hb := absurd (hb.symm.trans hbegun) Bool.noConfusion
  faultCause := hcause

theorem Inv.raise {s : State} (h : Inv s) (hb : s.begun = false) {c : Cause} (hc : c ≠ .none) (info w : Word) :
    Inv (s.raise c info w) :=
  h.of_ended rfl rfl rfl rfl rfl rfl hb fun _ => hc

theorem Inv.halt {s : State} (h : Inv s) (hb : s.begun = false) : Inv s.halt :=
  h.of_ended rfl rfl rfl rfl rfl rfl hb h.faultCause

theorem Inv.honourStop {s : State} (h : Inv s) (hb : s.begun = false) : Inv s.honourStop :=
  h.of_ended rfl rfl rfl rfl rfl rfl hb h.faultCause

theorem Inv.withHost {s : State} (h : Inv s) (rest : List HostEvent) : Inv (s.withHost rest) := { h with }

theorem Inv.finish {s : State} (h : Inv s) : Inv s.finish :=
  { h with begunRuns := fun hb => absurd hb Bool.noConfusion }

theorem Inv.beginInstr {s : State} (h : Inv s) : Inv s.beginInstr := by
  rcases s.beginInstr_cases with ⟨-, e⟩ | ⟨-, hs, e⟩ | ⟨hr, -, e⟩ <;> rw [e]
  · exact h
  · exact h.honourStop (s.stopTaken_eq_true.mp hs).2
  · exact { h with begunRuns := fun _ => hr }

theorem Inv.start {s : State} (h : Inv s) : Inv s.start where
  memWf := h.memWf
  memRange := h.memRange
  pcAligned := by
    rw [State.start_pc, State.entryPc, BitVec.toNat_append, ← Nat.shiftLeft_add_eq_or_of_lt (by decide),
      Nat.shiftLeft_eq, BitVec.toNat_ofNat]
    omega
  pcRegAligned := h.pcRegAligned
  runClear _ := ⟨rfl, rfl, rfl, rfl, rfl, rfl⟩
  stopRuns _ := rfl
  begunRuns _ := rfl
  faultCause hf := absurd hf Bool.noConfusion

-- Memory.

/-- A write within local memory lists no address outside it (20_memory.md R60, R66). -/
theorem Memory.mem_write_lt {m : Memory} {n a : Nat} {bs : List Byte} (h : ∀ c ∈ m, c.1 < n)
    (hfit : bs.length = 0 ∨ a + bs.length ≤ n) : ∀ c ∈ m.write a bs, c.1 < n := by
  intro c hc
  rcases Memory.mem_write hc with hc | ⟨hlo, hhi⟩
  · exact h c hc
  · omega

theorem Inv.writeMem {s : State} (h : Inv s) {a : Nat} {bs : List Byte}
    (hfit : bs.length = 0 ∨ a + bs.length ≤ s.lmemBytes) : Inv (s.writeMem a bs) :=
  { h with memWf := Memory.wf_write h.memWf a bs, memRange := Memory.mem_write_lt h.memRange hfit }

theorem Inv.writeBufs {s : State} (h : Inv s) (outs : List (Word × List Byte))
    (hfits : ∀ o ∈ outs, Fits s (o.1, o.2.length)) : Inv (s.writeBufs outs) := by
  induction outs generalizing s with
  | nil => exact h
  | cons o rest ih =>
    exact ih (h.writeMem (hfits o List.mem_cons_self)) fun o' ho' => hfits o' (List.mem_cons_of_mem _ ho')

theorem Inv.setReg {s : State} (h : Inv s) (i : Reg) (v : Word) : Inv (s.setReg i v) := by
  unfold State.setReg
  split
  · exact h
  · exact { h with }

theorem Inv.setPc {s : State} (h : Inv s) {pc : Word} (hpc : pc.toNat % 4 = 0) : Inv (s.setPc pc) :=
  { h with pcAligned := hpc }

-- Moves of SEQ.

/-- Every instruction keeps the invariant, whichever of the things of `Did` it does. -/
theorem Inv.exec {i : Instr} {s t : State} (h : Inv s) (hb : s.begun = false) (e : exec i s = .next t) : Inv t := by
  have hdid := exec_did i s
  rw [e] at hdid
  cases hdid with
  | faults c info hc => exact h.raise hb hc info _
  | goesOn v pc outs aligned runs fits =>
    exact ((h.writeBufs outs fits).setReg (destReg i) v).setPc (aligned h.pcAligned)
  | halts => exact h.halt hb

theorem exec_build {i : Instr} {s t : State} (e : exec i s = .next t) : t.build = s.build := by
  have hdid := exec_did i s
  rw [e] at hdid
  cases hdid <;> simp

/-- An instruction takes effect on a state in which none is in progress (60_exceptions.md R278). -/
theorem Inv.fetchAndRun {s t : State} (h : Inv s) (hb : s.begun = false) (e : fetchAndRun s = .next t) :
    Inv t ∧ t.build = s.build := by
  rcases fetchAndRun_cases s with ⟨-, e'⟩ | ⟨-, w, -, ⟨i, -, e'⟩ | ⟨-, e'⟩⟩ | ⟨a, -, -, e'⟩ <;> rw [e'] at e
  · cases e
    exact ⟨h.raise hb (by decide) _ _, rfl⟩
  · exact ⟨h.exec hb e, exec_build e⟩
  · cases e
    exact ⟨h.raise hb (by decide) _ _, rfl⟩
  · cases e

theorem Inv.seqStep {s t : State} (h : Inv s) (e : seqStep s = .next t) : Inv t ∧ t.build = s.build := by
  rcases seqStep_cases s with ⟨-, e'⟩ | ⟨-, -, hb, e'⟩ | ⟨-, -, e'⟩ <;> rw [e'] at e
  · cases e
    exact ⟨h, rfl⟩
  · cases e
    exact ⟨h.honourStop hb, rfl⟩
  · exact h.finish.fetchAndRun rfl e

-- Events of the HOST.

theorem Inv.hostRead {s t : State} (h : Inv s) {off : BitVec 25} {k : Nat} (e : hostRead s off k = .next t) :
    Inv t ∧ t.build = s.build := by
  rcases hostRead_cases s off k with ⟨d, herr, draws, e'⟩ | ⟨-, a, -, -, e'⟩ <;> rw [e'] at e
  · cases e
    exact ⟨{ h with }, rfl⟩
  · cases e

/-- Only START begins a run, and only STOP while RUN = 1 makes a STOP pending (10_state.md R36). -/
theorem Inv.writeCtrl {s : State} (h : Inv s) (d : Word) : Inv (s.writeCtrl d) := by
  have hen : Inv { s with ieDone := d.getLsbD 8, ieFault := d.getLsbD 9, ieStop := d.getLsbD 10 } :=
    { h with }
  cases hr : s.run with
  | true =>
    rw [State.writeCtrl_running hr]
    exact { hen with stopRuns := fun _ => hr }
  | false =>
    cases hd : d.getLsbD 0 with
    | true =>
      rw [State.writeCtrl_start hr hd]
      exact hen.start
    | false =>
      rw [State.writeCtrl_stopped hr hd]
      exact hen

/-- A cleared bit of STATUS stays within the invariant, since CAUSE is not written (10_state.md R37). -/
theorem Inv.writeStatus {s : State} (h : Inv s) (d : Word) : Inv (s.writeStatus d) := by
  cases hr : s.run with
  | true =>
    rw [State.writeStatus_running hr]
    exact { h with }
  | false =>
    rw [State.writeStatus_stopped hr]
    exact { h with
      runClear := fun hrun => absurd (hrun.symm.trans hr) Bool.noConfusion
      faultCause := fun hf => h.faultCause (Bool.and_eq_true _ _ ▸ hf).1 }

theorem State.writeCtrl_build (s : State) (d : Word) : (s.writeCtrl d).build = s.build := by
  unfold State.writeCtrl
  dsimp only
  split
  · rfl
  · split <;> rfl

theorem State.writeStatus_build (s : State) (d : Word) : (s.writeStatus d).build = s.build := by
  unfold State.writeStatus
  split <;> rfl

theorem Inv.hostWrite {s : State} (h : Inv s) (off : BitVec 25) (k : Nat) (d : Word) :
    Inv (hostWrite s off k d) ∧ (hostWrite s off k d).build = s.build := by
  rcases hostWrite_cases s off k d with e | e | e | e | ⟨-, e⟩ | ⟨-, i, e⟩ | ⟨-, a, hfit, e⟩ <;> rw [e]
  · exact ⟨h, rfl⟩
  · exact ⟨{ h with }, rfl⟩
  · exact ⟨h.writeCtrl d, s.writeCtrl_build d⟩
  · exact ⟨h.writeStatus d, s.writeStatus_build d⟩
  · exact ⟨{ h with }, rfl⟩
  · exact ⟨h.setReg i d, s.setReg_build i d⟩
  · exact ⟨h.writeMem (.inr (by rwa [leBytes_length])), rfl⟩

/-- The state after a reset event meets the invariant whatever came before (70_reset_and_hazards.md R300, R301). -/
theorem inv_resetEvent (s : State) : Inv s.resetEvent where
  memWf := List.Pairwise.nil
  memRange _ hc := absurd hc List.not_mem_nil
  pcAligned := rfl
  pcRegAligned := rfl
  runClear hr := absurd hr Bool.noConfusion
  stopRuns hs := absurd hs Bool.noConfusion
  begunRuns hb := absurd hb Bool.noConfusion
  faultCause hf := absurd hf Bool.noConfusion

theorem State.beginInstr_build (s : State) : s.beginInstr.build = s.build := by
  rcases s.beginInstr_cases with ⟨-, e⟩ | ⟨-, -, e⟩ | ⟨-, -, e⟩ <;> simp [e]

end Sys2Proof.Machine

namespace Sys2Proof

open Sys2Proof.Machine

/-- Settles O58, by the kind of event that comes next. -/
theorem invariantKeptByStep : Obligations.InvariantKeptByStep := by
  unfold Obligations.InvariantKeptByStep
  intro s t h e
  cases hh : s.host with
  | nil => exact h.seqStep ((step_nil hh).symm.trans e)
  | cons event rest =>
    have h' := h.withHost rest
    cases event with
    | idle => exact h'.seqStep ((step_idle hh).symm.trans e)
    | begins =>
      cases (step_begins hh).symm.trans e
      exact ⟨h'.beginInstr, State.beginInstr_build _⟩
    | read off k => exact h'.hostRead ((step_read hh).symm.trans e)
    | write off k d =>
      cases (step_write hh).symm.trans e
      exact h'.hostWrite off k d
    | reset =>
      cases (step_reset hh).symm.trans e
      exact ⟨inv_resetEvent _, rfl⟩

end Sys2Proof

/-!
The frame of every instruction: what `Did` leaves unchanged (spec/60_exceptions.md R272, R273; spec/20_memory.md R66, R70;
spec/10_state.md R21).
-/

namespace Sys2Proof.Machine

/-- What a fault's next state is, as `faults_raiseFault` says it (60_exceptions.md R272). -/
theorem faultEntry_raise (s : State) (c : Cause) (info w : Word) : FaultEntry s (s.raise c info w) c info w := by
  obtain ⟨t, e, ht⟩ := faults_raiseFault s c info w
  cases e
  exact ht

theorem SameHostSide.halt (s : State) : SameHostSide s s.halt := by constructor <;> rfl

/-- Where pc goes is the only difference between `setPc` and `advance`. -/
theorem changed_setPc (s : State) (rd : Reg) (v pc : Word) (outs : List (Word × List Byte)) :
    Changed s (((s.writeBufs outs).setReg rd v).setPc pc) rd v pc outs where
  reg := (changed_advance s rd v outs).reg
  pc := rfl
  mem := (changed_advance s rd v outs).mem
  hostSide := { (changed_advance s rd v outs).hostSide with }
  runState := { (changed_advance s rd v outs).runState with }

/-- Runs that do not cover an address store nothing there. -/
theorem storedByte_eq_none {outs : List (Word × List Byte)} {x : Nat}
    (h : ∀ o ∈ outs, x < o.1.toNat ∨ o.1.toNat + o.2.length ≤ x) : storedByte outs x = none := by
  induction outs with
  | nil => rfl
  | cons o rest ih =>
    obtain ⟨a, bs⟩ := o
    have hx : x < a.toNat ∨ a.toNat + bs.length ≤ x := h (a, bs) List.mem_cons_self
    rw [storedByte, ih fun o ho => h o (List.mem_cons_of_mem _ ho), Option.none_or]
    split
    · exact List.getElem?_eq_none (by omega)
    · rfl

end Sys2Proof.Machine

namespace Sys2Proof

open Sys2Proof.Machine

/-- Settles O59, by the things an instruction can do (`Did`). -/
theorem instructionFrame : Obligations.InstructionFrame := by
  unfold Obligations.InstructionFrame
  intro i s t e
  have hdid := exec_did i s
  rw [e] at hdid
  cases hdid with
  | faults c info hc =>
    have ht := faultEntry_raise s c info (encode i)
    exact ⟨fun r _ => ht.reg r, ht.hostSide, fun a _ => State.byte_congr ht.mem a, .inr (.inr ⟨c, info, hc, ht⟩)⟩
  | goesOn v pc outs _ runs _ =>
    have ht := changed_setPc s (destReg i) v pc outs
    refine ⟨fun r hr => ?_, ht.hostSide, fun a ha => ?_, .inl ht.runState⟩
    · rw [ht.reg, if_neg fun h => hr h.1]
    · rw [ht.mem, storedByte_eq_none fun o ho => ha _ (runs o ho), Option.none_or]
  | halts hi =>
    exact ⟨fun _ _ => rfl, SameHostSide.halt s, fun _ _ => rfl, .inr (.inl ⟨hi, rfl, rfl, rfl, rfl⟩)⟩

/-- Settles O52, by the value of RUN. -/
theorem gprWindowAccess : Obligations.GprWindowAccess := by
  unfold Obligations.GprWindowAccess
  intro s rest i d
  refine ⟨fun hr h => ?_, fun hr h => ?_, fun hr h => ?_, fun hr h => ?_⟩
  · exact (step_read h).trans (hostRead_gpr_stopped (s := s.withHost rest) hr i)
  · rw [step_write h, hostWrite_gpr_stopped (s := s.withHost rest) hr]
    exact ⟨_, rfl, changed_setPc_setReg (s.withHost rest) i d s.pc⟩
  · exact (step_read h).trans (hostRead_gpr_running (s := s.withHost rest) hr i)
  · rw [step_write h, hostWrite_gpr_running (s := s.withHost rest) hr]
    rfl

/-- Settles O54: both kinds of access fail the port's checks, and HERR is no term of IRQ. -/
theorem refusedAccessOnlySetsHerr : Obligations.RefusedAccessOnlySetsHerr := by
  unfold Obligations.RefusedAccessOnlySetsHerr
  intro s rest off k d hbad
  have hbad' : ReservedOffset (s.withHost rest) off ∨ BadAccess off k := hbad
  refine ⟨fun h => (step_read h).trans (hostRead_refused hbad'), fun h => ?_, rfl⟩
  rw [step_write h, hostWrite_refused hbad']
  rfl

/-- Settles O55: a running read or write touches only what `hostRead_running` and `hostWrite_running` name. -/
theorem hostCannotDisturbRun : Obligations.HostCannotDisturbRun := by
  unfold Obligations.HostCannotDisturbRun
  rintro s rest e hr h (⟨off, k, rfl⟩ | ⟨off, k, d, rfl⟩)
  · obtain ⟨data, herr, draws, ht⟩ := hostRead_running (s := s.withHost rest) hr off k
    exact ⟨_, (step_read h).trans ht, fun _ => rfl, rfl, rfl, hr, rfl, rfl, rfl, rfl, rfl, rfl, rfl, rfl, rfl, rfl⟩
  · obtain ⟨ieDone, ieFault, ieStop, stopReq, herr, ht⟩ := hostWrite_running (s := s.withHost rest) hr off k d
    exact ⟨_, (step_write h).trans (congrArg Host.Outcome.next ht), fun _ => rfl, rfl, rfl, hr, rfl, rfl, rfl, rfl, rfl,
      rfl, rfl, rfl, rfl, rfl⟩

/-- Settles O48, register by register. -/
theorem identityRegisters : Obligations.IdentityRegisters := by
  unfold Obligations.IdentityRegisters
  intro s rest d
  refine ⟨fun h => (step_read h).trans (hostRead_id _), fun h => (step_read h).trans (hostRead_version _),
    fun h => ?_, fun h => (step_read h).trans (hostRead_lmemsz _), fun off hoff h => ?_⟩
  · rw [step_read h, hostRead_variant, State.withHost_build, variantReg_eq_paramColumn]
    rfl
  · rw [step_write h, hostWrite_readOnly _ d (by tauto)]
    rfl

/-- Settles O49, by RUN and START. -/
theorem ctrlAccess : Obligations.CtrlAccess := by
  unfold Obligations.CtrlAccess
  intro s rest d
  refine ⟨fun h => ⟨s.ctrlWord, (step_read h).trans (hostRead_ctrl _), s.ctrlWord_getLsbD⟩, fun h => ?_⟩
  rw [step_write h, hostWrite_ctrl]
  refine ⟨fun hr hd => ?_, fun hr hd => ?_, fun hr => ?_⟩
  · rw [State.writeCtrl_start (s := s.withHost rest) hr hd]
    rfl
  · rw [State.writeCtrl_stopped (s := s.withHost rest) hr hd]
    rfl
  · rw [State.writeCtrl_running (s := s.withHost rest) hr]
    rfl

/-- Settles O50: the fields of the STATUS word, and its write by RUN. -/
theorem statusAccess : Obligations.StatusAccess := by
  unfold Obligations.StatusAccess
  refine ⟨rfl, fun s rest d => ⟨fun h => ?_, fun h => ?_⟩⟩
  · exact ⟨s.statusWord, (step_read h).trans (hostRead_status _), s.statusWord_fields⟩
  · rw [step_write h, hostWrite_status]
    refine ⟨fun hr => ?_, fun hr => ?_⟩
    · rw [State.writeStatus_stopped (s := s.withHost rest) hr]
      rfl
    · rw [State.writeStatus_running (s := s.withHost rest) hr]
      rfl

/-- Settles O51, register by register; ENTRY_PC's writes and PC's reads by RUN. -/
theorem addressAndFaultRegisters : Obligations.AddressAndFaultRegisters := by
  unfold Obligations.AddressAndFaultRegisters
  intro s rest d
  refine ⟨fun h => (step_read h).trans (hostRead_entryPc _), fun h => ?_, fun h => ?_,
    fun h => (step_read h).trans (hostRead_faultInfo _), fun h => (step_read h).trans (hostRead_faultInsn _),
    fun off hoff h => ?_⟩
  · rw [step_write h]
    refine ⟨fun hr => ?_, fun hr => ?_⟩
    · rw [hostWrite_entryPc_stopped (s := s.withHost rest) hr]
      rfl
    · rw [hostWrite_entryPc_running (s := s.withHost rest) hr]
      rfl
  · rw [step_read h]
    exact ⟨fun hr => hostRead_pc_stopped (s := s.withHost rest) hr,
      fun hr => ⟨_, hostRead_pc_running (s := s.withHost rest) hr⟩⟩
  · rw [step_write h, hostWrite_readOnly _ d (by tauto)]
    rfl

end Sys2Proof

/-!
Local memory as a fetch, an access of any width and the LMEM window see it (spec/20_memory.md R61, R62, R70, R79).
-/

namespace Sys2Proof.Machine

-- Little-endian values.

theorem leNat_eq_sum (bs : List Byte) :
    leNat bs = ∑ j ∈ Finset.range bs.length, (bs.getD j 0).toNat * 2 ^ (8 * j) := by
  induction bs with
  | nil => rfl
  | cons b bs ih =>
    have hterm : ∀ j, ((b :: bs).getD (j + 1) 0).toNat * 2 ^ (8 * (j + 1)) =
        256 * ((bs.getD j 0).toNat * 2 ^ (8 * j)) := by
      intro j
      rw [List.getD_cons_succ, Nat.mul_succ, Nat.pow_add]
      ring
    rw [leNat, ih, List.length_cons, Finset.sum_range_succ', Finset.mul_sum, add_comm]
    simp only [hterm, List.getD_cons_zero, Nat.mul_zero, Nat.pow_zero, Nat.mul_one]

theorem leBytes_getElem (k v j : Nat) (h : j < (leBytes k v).length) :
    (leBytes k v)[j] = BitVec.ofNat 8 (v / 2 ^ (8 * j)) := by
  induction k generalizing v j with
  | zero => simp at h
  | succ k ih =>
    cases j with
    | zero => simp [leBytes]
    | succ j =>
      simp only [leBytes, List.getElem_cons_succ, ih]
      rw [Nat.div_div_eq_div_mul, Nat.mul_succ, Nat.pow_add, Nat.mul_comm (2 ^ (8 * j))]

/-- The bytes of a word that a write of k bytes stores, as bit fields (20_memory.md R61). -/
theorem leBytes_toNat (k : Nat) (d : Word) :
    leBytes k d.toNat = (List.range k).map fun j => d.extractLsb' (8 * j) 8 := by
  refine List.ext_getElem (by simp) fun j h _ => ?_
  rw [leBytes_getElem, List.getElem_map, List.getElem_range, BitVec.extractLsb', Nat.shiftRight_eq_div_pow]

/-- A narrower read of what a wider write stored: the bytes from the i-th up, as if they alone had been written
(20_memory.md R61, R70). -/
theorem Memory.read_write_leBytes (m : Memory) (a v : Nat) {n i k : Nat} (h : i + k ≤ n) :
    (m.write a (leBytes n v)).read (a + i) k = .ok (leBytes k (v / 2 ^ (8 * i))) := by
  refine (Memory.read_eq_ok _ _ _ _).mpr ⟨leBytes_length k _, fun j hj => ?_⟩
  rw [leBytes_length] at hj
  rw [Nat.add_assoc, Memory.byte_write_inside m a _ (i + j) (by rw [leBytes_length]; omega), leBytes_getElem,
    leBytes_getElem, Nat.div_div_eq_div_mul, ← Nat.pow_add, Nat.mul_add]

-- Fetch.

/-- A move of SEQ that executes an instruction is the fetch, and what was fetched (60_exceptions.md R278). -/
theorem seqStep_running {s : State} (hr : s.run = true) (hgo : s.begun = true ∨ s.stopReq = false) :
    seqStep s = fetchAndRun s.finish := by
  rw [seqStep, if_neg (by simp [hr]), if_neg (by simp [s.stopTaken_eq_false.mpr hgo])]

theorem Running.step_eq {s : State} (h : Running s) : step s = fetchAndRun s.finish :=
  (step_nil h.host).trans (seqStep_running h.run h.goesOn)

theorem fetchAndRun_past_end {s : State} (h : s.lmemBytes < s.pc.toNat + 4) :
    fetchAndRun s = raiseFault s .fetchAccess s.pc 0 := if_pos h

theorem fetchAndRun_of_read {s : State} {bs : List Byte} (hfit : s.pc.toNat + 4 ≤ s.lmemBytes)
    (hread : Memory.read s.mem s.pc.toNat 4 = .ok bs) : fetchAndRun s = runBytes bs s := by
  rw [fetchAndRun, if_neg (Nat.not_lt.mpr hfit), withRead_ok hread]

theorem runBytes_bytesOfWord {w : Word} {i : Instr} (h : decodeWord w = .ok i) (s : State) :
    runBytes (bytesOfWord w) s = exec i s := by
  have hd := decode_bytesOfWord w []
  rw [List.append_nil, h] at hd
  rw [runBytes, hd]

/-- Where the word w is fetched, the fetch of a state with the same pc and memory runs the instruction of w. -/
theorem Fetches.fetchAndRun_eq {s t : State} {w : Word} {i : Instr} (h : Fetches s w) (hd : decodeWord w = .ok i)
    (hpc : t.pc = s.pc) (hmem : t.mem = s.mem) (hbuild : t.build = s.build) : fetchAndRun t = exec i t := by
  have hfit : t.pc.toNat + 4 ≤ t.lmemBytes := by
    rw [hpc, State.lmemBytes_congr hbuild]
    exact h.fits
  rw [fetchAndRun_of_read hfit (by rw [hpc, hmem]; exact h.bytes), runBytes_bytesOfWord hd]

/-- Four written bytes are read as a list. -/
theorem Memory.read_four {m : Memory} {a : Nat} {b0 b1 b2 b3 : Byte} (h0 : m.byte a = some b0)
    (h1 : m.byte (a + 1) = some b1) (h2 : m.byte (a + 2) = some b2) (h3 : m.byte (a + 3) = some b3) :
    m.read a 4 = .ok [b0, b1, b2, b3] := by
  simp only [Memory.read, h0, h1, h2, h3, Nat.add_assoc]

-- The LMEM window.

theorem toNat_lmemOffset {a : Nat} (h : a < 2 ^ 24) : (BitVec.ofNat 25 (0x1000000 + a)).toNat = 0x1000000 + a := by
  rw [BitVec.toNat_ofNat]
  omega

/-- The window stands at a multiple of every width. -/
theorem lmemOffset_mod {a k : Nat} (hk : k = 1 ∨ k = 2 ∨ k = 4) : (0x1000000 + a) % k = a % k := by
  rcases hk with rfl | rfl | rfl <;> omega

/-- The access of k bytes at address a of the window is one that R79 allows while RUN = 0: a is a byte of local memory
and a multiple of k (20_memory.md R79). -/
structure LmemAligned (s : State) (a k : Nat) : Prop where
  width : k = 1 ∨ k = 2 ∨ k = 4
  offset : a < 2 ^ 24
  inside : a < s.lmemBytes
  aligned : a % k = 0

section
variable {s : State} {a k : Nat}

theorem LmemAligned.portTarget (h : LmemAligned s a k) :
    portTarget s.build (BitVec.ofNat 25 (0x1000000 + a)) = .lmem a := by
  have hin : a < s.build.lmemBytes := h.inside
  unfold Machine.portTarget
  dsimp only
  rw [toNat_lmemOffset h.offset, if_pos (by omega), if_pos (by omega), Nat.add_sub_cancel_left]

theorem LmemAligned.portWidthOk (h : LmemAligned s a k) :
    portWidthOk (BitVec.ofNat 25 (0x1000000 + a)) k (.lmem a) = true := by
  simp only [Machine.portWidthOk, toNat_lmemOffset h.offset, lmemOffset_mod h.width, h.aligned, Bool.and_eq_true,
    Bool.or_eq_true, decide_eq_true_eq, and_true, or_assoc]
  exact h.width

theorem LmemAligned.hostRead (h : LmemAligned s a k) : hostRead s (BitVec.ofNat 25 (0x1000000 + a)) k =
    if s.run then .next (s.give 0).refuse
    else withRead s a k fun bs => .next (s.give (BitVec.ofNat 32 (leNat bs))) := by
  unfold Machine.hostRead
  dsimp only
  rw [h.portTarget, if_pos h.portWidthOk]

theorem LmemAligned.hostWrite (h : LmemAligned s a k) (d : Word) :
    hostWrite s (BitVec.ofNat 25 (0x1000000 + a)) k d =
      if s.run then s.refuse else s.writeMem a (leBytes k d.toNat) := by
  unfold Machine.hostWrite
  dsimp only
  rw [h.portTarget, if_pos h.portWidthOk]

/-- An access of the window past local memory or misaligned is one of the refused kinds (10_state.md R32; 20_memory.md
R79). -/
theorem refused_of_not_lmemAligned (ha : a < 2 ^ 24) (hk : k = 1 ∨ k = 2 ∨ k = 4)
    (h : s.lmemBytes ≤ a ∨ a % k ≠ 0) :
    ReservedOffset s (BitVec.ofNat 25 (0x1000000 + a)) ∨ BadAccess (BitVec.ofNat 25 (0x1000000 + a)) k := by
  unfold ReservedOffset BadAccess
  rw [toNat_lmemOffset ha, if_neg (by omega)]
  rcases h with h | h
  · exact .inl (by omega)
  · exact .inr (.inr (by rwa [lmemOffset_mod hk]))

/-- While RUN = 1, and past local memory or misaligned whatever RUN is, an access of the window is refused (20_memory.md
R79). -/
theorem lmemWindow_refused (ha : a < 2 ^ 24) (hk : k = 1 ∨ k = 2 ∨ k = 4)
    (h : s.run = true ∨ s.lmemBytes ≤ a ∨ a % k ≠ 0) :
    hostRead s (BitVec.ofNat 25 (0x1000000 + a)) k = .next (s.give 0).refuse ∧
      ∀ d, hostWrite s (BitVec.ofNat 25 (0x1000000 + a)) k d = s.refuse := by
  by_cases hbad : s.lmemBytes ≤ a ∨ a % k ≠ 0
  · have href := refused_of_not_lmemAligned ha hk hbad
    exact ⟨hostRead_refused href, hostWrite_refused href⟩
  · have hok : LmemAligned s a k := ⟨hk, ha, by omega, by omega⟩
    have hrun : s.run = true := h.resolve_right hbad
    exact ⟨hok.hostRead.trans (if_pos hrun), fun d => (hok.hostWrite d).trans (if_pos hrun)⟩

end

/-- A write of local memory by the HOST changes those bytes alone, and pc does not move. -/
theorem completes_writeMem (s : State) (a : Word) (bs : List Byte) :
    Completes s (.next (s.writeMem a.toNat bs)) 0#4 0#32 s.pc [(a, bs)] := by
  have h := changed_setPc s 0#4 0#32 s.pc [(a, bs)]
  rw [State.setReg_zero] at h
  exact ⟨_, rfl, h⟩

end Sys2Proof.Machine

namespace Sys2Proof

open Sys2Proof.Machine

/-- Settles O5, at the state itself and at the state whose list has lost its idle. -/
theorem stepRunsDecodedInstruction : Obligations.StepRunsDecodedInstruction := by
  unfold Obligations.StepRunsDecodedInstruction
  intro s w i h hd
  have hstep : step s = exec i s.finish := h.running.step_eq.trans (h.fetchAndRun_eq hd rfl rfl rfl)
  refine ⟨hstep, fun hb => by rw [hstep, State.finish_eq hb], fun rest => ?_⟩
  have hseq := seqStep_running (s := s.withHost rest) h.running.run h.running.goesOn
  exact (step_idle rfl).trans (hseq.trans (h.fetchAndRun_eq hd rfl rfl rfl))

/-- Settles O6: the check of the end of local memory, the bytes read, and the alignment that `Inv` carries. -/
theorem fetchChecksThenReads : Obligations.FetchChecksThenReads := by
  unfold Obligations.FetchChecksThenReads
  refine ⟨fun s h hend => ?_, fun s b0 b1 b2 b3 h hfit h0 h1 h2 h3 => ?_, fun s h => h.pcAligned⟩
  · rw [h.step_eq, fetchAndRun_past_end (s := s.finish) hend]
    exact faults_raiseFault _ _ _ _
  · have hread : Memory.read s.mem s.pc.toNat 4 = .ok [b0, b1, b2, b3] := Memory.read_four h0 h1 h2 h3
    have hstep : step s = runBytes [b0, b1, b2, b3] s.finish := h.step_eq.trans (fetchAndRun_of_read hfit hread)
    obtain ⟨w, hw, hrun⟩ := runBytes_cases (bs := [b0, b1, b2, b3]) rfl s.finish
    rw [bytesOfWord] at hw
    cases hw
    refine ⟨w, ⟨h, hfit, hread⟩, rfl, rfl, rfl, rfl, ?_⟩
    rw [hstep]
    rcases hrun with hexec | ⟨-, hill⟩
    · exact .inl hexec
    · rw [hill]
      exact .inr (faults_raiseFault _ _ _ _)

/-- Settles O13: the sum of the bytes, the bytes of a write, and the two halves of a word. -/
theorem memoryIsLittleEndian : Obligations.MemoryIsLittleEndian := by
  unfold Obligations.MemoryIsLittleEndian
  refine ⟨fun m a k bs h => ?_, fun m a k v x => ?_, fun m a w => ?_⟩
  · obtain ⟨rfl, hbytes⟩ := (Memory.read_eq_ok _ _ _ _).mp h
    refine ⟨leNat_eq_sum bs, fun j hj => ?_⟩
    rw [hbytes j hj, List.getD_eq_getElem _ _ hj]
  · rw [Memory.byte_write, leBytes_length]
    split
    · next hx => rw [List.getElem?_eq_getElem (by rw [leBytes_length]; omega), leBytes_getElem]
    · rfl
  · have hw := w.isLt
    refine ⟨_, _, Memory.read_write_leBytes m a w.toNat (i := 0) (by omega),
      Memory.read_write_leBytes m a w.toNat (by omega), ?_, ?_⟩
    · rw [leNat_leBytes]
      omega
    · rw [leNat_leBytes]
      omega

/-- Settles O53: the aligned accesses by RUN, and all others refused. -/
theorem lmemWindowAccess : Obligations.LmemWindowAccess := by
  unfold Obligations.LmemWindowAccess
  intro s rest a k d ha hk
  have haddr : (BitVec.ofNat 32 a).toNat = a := by
    rw [BitVec.toNat_ofNat]
    omega
  refine ⟨fun hr hin hal => ?_, fun hbad => ?_⟩
  · have hok : LmemAligned (s.withHost rest) a k := ⟨hk, ha, hin, hal⟩
    have hstop : ¬ (s.withHost rest).run = true := ne_true_of_eq_false hr
    refine ⟨fun bs hlen hbs h => ?_, fun h => ?_⟩
    · have hread : Memory.read (s.withHost rest).mem a k = .ok bs := by
        unfold Holds at hbs
        rwa [haddr, hlen] at hbs
      rw [step_read h, hok.hostRead, if_neg hstop, withRead_ok hread]
      rfl
    · rw [step_write h, hok.hostWrite, if_neg hstop, leBytes_toNat]
      have hwrite := completes_writeMem (s.withHost rest) (BitVec.ofNat 32 a)
      rw [haddr] at hwrite
      exact hwrite _
  · obtain ⟨hread, hwrite⟩ := lmemWindow_refused (s := s.withHost rest) ha hk hbad
    refine ⟨fun h => (step_read h).trans hread, fun h => ?_⟩
    rw [step_write h, hwrite]
    rfl

end Sys2Proof

/-!
The codec (spec/30_encoding.md R90 to R105). Each format's decoder is taken on the words its format builds, which gives
decoding after encoding, and on every word of an opcode against the row of the opcode map (`ReadsRow`), which gives
encoding after decoding and the legality of a word.
-/

namespace Sys2Proof

open Sys2Proof.Machine

-- Each format's decoder on the words of its format (30_encoding.md R92 to R98).

theorem decodeR_formR (op : BitVec 8) (a b c : Reg) (mk : Reg → Reg → Reg → Instr) :
    decodeR (formR op a b c) mk = .ok (mk a b c) := by simp [decodeR]

theorem decodeR2_formR (op : BitVec 8) (a b : Reg) (mk : Reg → Reg → Instr) :
    decodeR2 (formR op a b 0) mk = .ok (mk a b) := by
  rw [decodeR2, if_pos (zeroFrom_formR_two op a b), fieldA_formR, fieldB_formR]

theorem decodeI_formI (op : BitVec 8) (a b : Reg) (imm : BitVec 16) (mk : Reg → Reg → BitVec 16 → Instr) :
    decodeI (formI op a b imm) mk = .ok (mk a b imm) := by simp [decodeI]

theorem decodeShift_formShift (op : BitVec 8) (a b : Reg) (sh : BitVec 5) (mk : Reg → Reg → BitVec 5 → Instr) :
    decodeShift (formShift op a b sh) mk = .ok (mk a b sh) := by simp [decodeShift]

theorem decodeLui_formI (op : BitVec 8) (a : Reg) (imm : BitVec 16) :
    decodeLui (formI op a 0 imm) = .ok (.lui a imm) := by simp [decodeLui]

theorem decodeParam_formR (op : BitVec 8) (a c : Reg) :
    decodeParam (formR op a 0 c) = .ok (.param a c) := by simp [decodeParam]

theorem decodeJ_formJ (op : BitVec 8) (a : Reg) (off : BitVec 20) (mk : Reg → BitVec 20 → Instr) :
    decodeJ (formJ op a off) mk = .ok (mk a off) := by simp [decodeJ]

theorem decodeE_formI (op : BitVec 8) (a b : Reg) {k : Nat} (mk : Reg → Reg → Instr) (h : groupFits b k = true) :
    decodeE (formI op a b 0#16) k mk = .ok (mk a b) := by simp [decodeE, h]

theorem decodeBenes_formI (op : BitVec 8) (a b : Reg) (rev : Bool) (h : groupFits b 2 = true) :
    decodeBenes (formI op a b (if rev then 1#16 else 0#16)) = .ok (.benes a b rev) := by
  cases rev <;> simp [decodeBenes, h]

/-- One format at a time: the word's opcode selects the arm, and the format's decoder reads its own format (30_encoding.md
R91, R104). -/
theorem decodeWord_encode {i : Instr} (h : WellFormed i = true) : decodeWord (encode i) = .ok i := by
  cases i
  case halt => rfl
  case add | sub | and | or | xor | sll | srl | sra | slt | sltu | mul | gfMul | gfFrac =>
    rw [encode, decodeWord, fieldOp_formR]
    exact decodeR_formR _ _ _ _ _
  case gfSq | gfInv | gfIsz | gfBitrev =>
    rw [encode, decodeWord, fieldOp_formR]
    exact decodeR2_formR _ _ _ _
  case addi | andi | ori | xori | lbu | lhu | lw | sb | sh | sw | beq | bne | blt | bge | bltu | bgeu | jalr =>
    rw [encode, decodeWord, fieldOp_formI]
    exact decodeI_formI _ _ _ _ _
  case slli | srli | srai =>
    rw [encode, decodeWord, fieldOp_formShift]
    exact decodeShift_formShift _ _ _ _ _
  case lui =>
    rw [encode, decodeWord, fieldOp_formI]
    exact decodeLui_formI _ _ _
  case param =>
    rw [encode, decodeWord, fieldOp_formR]
    exact decodeParam_formR _ _ _
  case jal =>
    rw [encode, decodeWord, fieldOp_formJ]
    exact decodeJ_formJ _ _ _ _
  case sort32 | sort64 | transpose | cbits | support | polymul | genpoly | eval | root | bm | synd | pkgen | gene | encode
      | decrypt | shake256 =>
    rw [encode, decodeWord, fieldOp_formI]
    exact decodeE_formI _ _ _ _ h
  case benes rev =>
    rw [encode, decodeWord, fieldOp_formI]
    exact decodeBenes_formI _ _ _ rev h

-- The conditions of a row of the opcode map, as the decoder tests them (30_encoding.md R101, R102).

/-- The word meets the row's conditions: R102 conditions 2, 3 and 5 by the must-be-zero bits, condition 4 by k. -/
def Machine.EncodingRow.Admits (row : EncodingRow) (w : Word) : Prop :=
  w &&& row.mustBeZero = 0#32 ∧ (fieldB w).toNat + row.k ≤ 16

theorem legalWord_iff (w : Word) : LegalWord w ↔ ∃ row ∈ encodingRows, fieldOp w = row.op ∧ row.Admits w := Iff.rfl

/-- The opcode alone selects the row (30_encoding.md R91). -/
theorem encodingRow_unique {row row' : EncodingRow} (h : row ∈ encodingRows) (h' : row' ∈ encodingRows)
    (hop : row.op = row'.op) : row = row' :=
  List.inj_on_of_nodup_map (f := EncodingRow.op) (by decide) h h' hop

/-- The mask of the len bits from position lo up. -/
def bitMask (lo len : Nat) : Word := (BitVec.allOnes len).setWidth 32 <<< lo

theorem getLsbD_bitMask {lo len j : Nat} (h : j < 32) :
    (bitMask lo len).getLsbD j = decide (lo ≤ j ∧ j < lo + len) := by
  simp only [bitMask, BitVec.getLsbD_shiftLeft, BitVec.getLsbD_setWidth, BitVec.getLsbD_allOnes]
  grind

theorem and_bitMask_eq_zero_iff (w : Word) (lo len : Nat) :
    w &&& bitMask lo len = 0#32 ↔ ∀ j, lo ≤ j → j < lo + len → w.getLsbD j = false := by
  simp only [BitVec.eq_of_getLsbD_eq_iff, BitVec.getLsbD_and, BitVec.getLsbD_zero]
  grind [getLsbD_bitMask]

theorem zeroFrom_iff_bitMask (w : Word) (lo : Nat) : zeroFrom w lo = true ↔ w &&& bitMask lo (32 - lo) = 0#32 := by
  rw [zeroFrom_iff, and_bitMask_eq_zero_iff]
  grind

theorem extractLsb'_eq_zero_iff_bitMask (w : Word) (lo len : Nat) :
    w.extractLsb' lo len = 0#len ↔ w &&& bitMask lo len = 0#32 := by
  rw [and_bitMask_eq_zero_iff]
  simp only [BitVec.eq_of_getLsbD_eq_iff, BitVec.getLsbD_extractLsb', BitVec.getLsbD_zero]
  constructor
  · intro h j hlo hlen
    have hbit := h (j - lo)
    grind
  · grind

section
variable {w : Word} {op : BitVec 8} {k : Nat}

theorem admits_zeroFrom {lo : Nat} : EncodingRow.Admits ⟨op, bitMask lo (32 - lo), 0⟩ w ↔ zeroFrom w lo = true := by
  have hB := (fieldB w).isLt
  rw [EncodingRow.Admits, zeroFrom_iff_bitMask]
  exact and_iff_left (by dsimp only; omega)

theorem admits_free : EncodingRow.Admits ⟨op, 0#32, 0⟩ w := by
  have hB := (fieldB w).isLt
  exact ⟨BitVec.and_zero, by dsimp only; omega⟩

theorem admits_lui : EncodingRow.Admits ⟨op, bitMask 12 4, 0⟩ w ↔ fieldB w = 0#4 := by
  have hB := (fieldB w).isLt
  rw [fieldB, extractLsb'_eq_zero_iff_bitMask]
  exact and_iff_left (by dsimp only; omega)

theorem admits_param :
    EncodingRow.Admits ⟨op, bitMask 12 4 ||| bitMask 20 12, 0⟩ w ↔ fieldB w = 0#4 ∧ zeroFrom w 20 = true := by
  have hB := (fieldB w).isLt
  rw [fieldB, extractLsb'_eq_zero_iff_bitMask, zeroFrom_iff_bitMask, ← BitVec.or_eq_zero_iff,
    ← BitVec.and_or_distrib_left]
  exact and_iff_left (by dsimp only; omega)

theorem admits_engine :
    EncodingRow.Admits ⟨op, bitMask 16 16, k⟩ w ↔ groupFits (fieldB w) k = true ∧ fieldImm w = 0#16 := by
  rw [fieldImm, extractLsb'_eq_zero_iff_bitMask, groupFits, decide_eq_true_iff, and_comm]
  rfl

theorem fieldImm_eq_zero_or_one_iff : fieldImm w = 0#16 ∨ fieldImm w = 1#16 ↔ w &&& bitMask 17 15 = 0#32 := by
  rw [fieldImm, ← extractLsb'_eq_zero_iff_bitMask]
  simp only [← BitVec.toNat_inj, BitVec.extractLsb'_toNat, BitVec.toNat_ofNat, Nat.shiftRight_eq_div_pow]
  omega

theorem admits_benes : EncodingRow.Admits ⟨op, bitMask 17 15, 2⟩ w ↔
    groupFits (fieldB w) 2 = true ∧ (fieldImm w = 0#16 ∨ fieldImm w = 1#16) := by
  rw [fieldImm_eq_zero_or_one_iff, groupFits, decide_eq_true_iff, and_comm]
  rfl

end

-- Each format's decoder on every word of a row (30_encoding.md R101 to R103).

/-- The decoder's answer d on the word w is what the row says: the instruction i₀ where the row's conditions are met,
which w then is the word of, and no instruction elsewhere. -/
structure ReadsRow (w : Word) (d : Except DecodeError Instr) (row : EncodingRow) (i₀ : Instr) : Prop where
  mem : row ∈ encodingRows
  op : fieldOp w = row.op
  decoded : ∀ i, d = .ok i ↔ row.Admits w ∧ i₀ = i
  encoded : row.Admits w → encode i₀ = w
  wellFormed : row.Admits w → WellFormed i₀ = true

theorem ite_error_eq_ok_iff {c : Prop} [Decidable c] {d : Except DecodeError Instr} {e : DecodeError} {i : Instr} :
    (if c then d else .error e) = .ok i ↔ c ∧ d = .ok i := by
  by_cases h : c <;> simp [h]

section
variable {w : Word} {op : BitVec 8} {k : Nat} (hop : fieldOp w = op)
include hop

theorem readsRow_decodeR {mk : Reg → Reg → Reg → Instr} (hmem : ⟨op, bitMask 20 12, 0⟩ ∈ encodingRows)
    (henc : ∀ a b c, encode (mk a b c) = formR op a b c) (hwf : ∀ a b c, WellFormed (mk a b c) = true) :
    ∃ row i₀, ReadsRow w (decodeR w mk) row i₀ := by
  refine ⟨_, mk (fieldA w) (fieldB w) (fieldC w), hmem, hop, fun i => ?_, fun h => ?_, fun _ => hwf _ _ _⟩
  · rw [decodeR, ite_error_eq_ok_iff, admits_zeroFrom, Except.ok.injEq]
  · rw [henc, ← hop, formR_fields w (admits_zeroFrom.mp h)]

theorem readsRow_decodeR2 {mk : Reg → Reg → Instr} (hmem : ⟨op, bitMask 16 16, 0⟩ ∈ encodingRows)
    (henc : ∀ a b, encode (mk a b) = formR op a b 0) (hwf : ∀ a b, WellFormed (mk a b) = true) :
    ∃ row i₀, ReadsRow w (decodeR2 w mk) row i₀ := by
  refine ⟨_, mk (fieldA w) (fieldB w), hmem, hop, fun i => ?_, fun h => ?_, fun _ => hwf _ _⟩
  · rw [decodeR2, ite_error_eq_ok_iff, admits_zeroFrom, Except.ok.injEq]
  · rw [henc, ← hop, formR_two_fields w (admits_zeroFrom.mp h)]

theorem readsRow_decodeI {mk : Reg → Reg → BitVec 16 → Instr} (hmem : ⟨op, 0#32, 0⟩ ∈ encodingRows)
    (henc : ∀ a b imm, encode (mk a b imm) = formI op a b imm) (hwf : ∀ a b imm, WellFormed (mk a b imm) = true) :
    ∃ row i₀, ReadsRow w (decodeI w mk) row i₀ := by
  refine ⟨_, mk (fieldA w) (fieldB w) (fieldImm w), hmem, hop, fun i => ?_, fun _ => ?_, fun _ => hwf _ _ _⟩
  · rw [decodeI, Except.ok.injEq, and_iff_right admits_free]
  · rw [henc, ← hop, formI_fields]

theorem readsRow_decodeShift {mk : Reg → Reg → BitVec 5 → Instr} (hmem : ⟨op, bitMask 21 11, 0⟩ ∈ encodingRows)
    (henc : ∀ a b sh, encode (mk a b sh) = formShift op a b sh) (hwf : ∀ a b sh, WellFormed (mk a b sh) = true) :
    ∃ row i₀, ReadsRow w (decodeShift w mk) row i₀ := by
  refine ⟨_, mk (fieldA w) (fieldB w) (fieldSh w), hmem, hop, fun i => ?_, fun h => ?_, fun _ => hwf _ _ _⟩
  · rw [decodeShift, ite_error_eq_ok_iff, admits_zeroFrom, Except.ok.injEq]
  · rw [henc, ← hop, formShift_fields w (admits_zeroFrom.mp h)]

theorem readsRow_decodeJ {mk : Reg → BitVec 20 → Instr} (hmem : ⟨op, 0#32, 0⟩ ∈ encodingRows)
    (henc : ∀ a off, encode (mk a off) = formJ op a off) (hwf : ∀ a off, WellFormed (mk a off) = true) :
    ∃ row i₀, ReadsRow w (decodeJ w mk) row i₀ := by
  refine ⟨_, mk (fieldA w) (fieldOff20 w), hmem, hop, fun i => ?_, fun _ => ?_, fun _ => hwf _ _⟩
  · rw [decodeJ, Except.ok.injEq, and_iff_right admits_free]
  · rw [henc, ← hop, formJ_fields]

theorem readsRow_decodeE {mk : Reg → Reg → Instr} (hmem : ⟨op, bitMask 16 16, k⟩ ∈ encodingRows)
    (henc : ∀ a b, encode (mk a b) = formI op a b 0) (hwf : ∀ a b, WellFormed (mk a b) = groupFits b k) :
    ∃ row i₀, ReadsRow w (decodeE w k mk) row i₀ := by
  refine ⟨_, mk (fieldA w) (fieldB w), hmem, hop, fun i => ?_, fun h => ?_, fun h => ?_⟩
  · rw [decodeE, ite_error_eq_ok_iff, ite_error_eq_ok_iff, admits_engine, Except.ok.injEq, and_assoc]
  · obtain ⟨-, himm⟩ := admits_engine.mp h
    have hfields := formI_fields w
    rw [himm, hop] at hfields
    rw [henc]
    exact hfields
  · rw [hwf]
    exact (admits_engine.mp h).1

end

theorem readsRow_decodeLui {w : Word} (hop : fieldOp w = 0x17#8) : ∃ row i₀, ReadsRow w (decodeLui w) row i₀ := by
  refine ⟨⟨0x17, bitMask 12 4, 0⟩, .lui (fieldA w) (fieldImm w), by decide, hop, fun i => ?_, fun h => ?_, fun _ => rfl⟩
  · rw [decodeLui, ite_error_eq_ok_iff, admits_lui, Except.ok.injEq]
  · have hfields := formI_fields w
    rw [admits_lui.mp h, hop] at hfields
    exact hfields

theorem readsRow_decodeParam {w : Word} (hop : fieldOp w = 0x18#8) : ∃ row i₀, ReadsRow w (decodeParam w) row i₀ := by
  refine ⟨⟨0x18, bitMask 12 4 ||| bitMask 20 12, 0⟩, .param (fieldA w) (fieldC w), by decide, hop, fun i => ?_,
    fun h => ?_, fun _ => rfl⟩
  · rw [decodeParam, ite_error_eq_ok_iff, admits_param, Except.ok.injEq, Bool.and_eq_true, decide_eq_true_iff]
  · obtain ⟨hB, hzero⟩ := admits_param.mp h
    have hfields := formR_fields w hzero
    rw [hB, hop] at hfields
    exact hfields

theorem readsRow_decodeN {w : Word} (hop : fieldOp w = 0x3F#8) : ∃ row i₀, ReadsRow w (decodeN w .halt) row i₀ := by
  refine ⟨⟨0x3F, bitMask 8 24, 0⟩, .halt, by decide, hop, fun i => ?_, fun h => ?_, fun _ => rfl⟩
  · rw [decodeN, ite_error_eq_ok_iff, admits_zeroFrom, Except.ok.injEq]
  · have hhigh : w >>> 8 = 0#32 := beq_iff_eq.mp (admits_zeroFrom.mp h)
    simp only [fieldOp, ← BitVec.toNat_inj, BitVec.extractLsb'_toNat, BitVec.toNat_ushiftRight, BitVec.toNat_ofNat,
      Nat.shiftRight_eq_div_pow] at hop hhigh
    exact BitVec.eq_of_toNat_eq (show 0x3F = w.toNat by omega)

theorem readsRow_decodeBenes {w : Word} (hop : fieldOp w = 0x55#8) : ∃ row i₀, ReadsRow w (decodeBenes w) row i₀ := by
  refine ⟨⟨0x55, bitMask 17 15, 2⟩, .benes (fieldA w) (fieldB w) (fieldImm w == 1#16), by decide, hop, fun i => ?_,
    fun h => ?_, fun h => (admits_benes.mp h).1⟩
  · rw [decodeBenes, ite_error_eq_ok_iff, admits_benes, and_assoc]
    refine and_congr_right fun _ => ?_
    by_cases h0 : fieldImm w = 0#16
    · simp [h0]
    · rw [if_neg h0, ite_error_eq_ok_iff, or_iff_right h0, Except.ok.injEq]
      exact and_congr_right fun h1 => by rw [h1]; rfl
  · have hfields := formI_fields w
    rw [hop] at hfields
    obtain ⟨-, himm | himm⟩ := admits_benes.mp h <;> rw [himm] at hfields ⊢ <;> exact hfields

theorem fieldOp_eq_of_toNat {w : Word} {n : Nat} (h : (fieldOp w).toNat = n) : fieldOp w = BitVec.ofNat 8 n := by
  rw [← h, BitVec.ofNat_toNat, BitVec.setWidth_eq]

/-- Every word is read as the row of its opcode says, and a word of no row is refused (30_encoding.md R102 condition 1). A
case is an arm of `decodeWord`, counted in its order, and the arms of one format go together. -/
theorem decodeWord_readsRow (w : Word) : (∃ row i₀, ReadsRow w (decodeWord w) row i₀) ∨
    (decodeWord w = .error .unassignedOpcode ∧ ∀ row ∈ encodingRows, fieldOp w ≠ row.op) := by
  rw [decodeWord]
  split
  case h_1 h | h_2 h | h_3 h | h_4 h | h_5 h | h_6 h | h_7 h | h_8 h | h_9 h | h_10 h | h_11 h | h_36 h | h_39 h =>
    exact .inl (readsRow_decodeR (fieldOp_eq_of_toNat h) (by decide) (fun _ _ _ => rfl) fun _ _ _ => rfl)
  case h_37 h | h_38 h | h_40 h | h_41 h =>
    exact .inl (readsRow_decodeR2 (fieldOp_eq_of_toNat h) (by decide) (fun _ _ => rfl) fun _ _ => rfl)
  case h_12 h | h_13 h | h_14 h | h_15 h | h_21 h | h_22 h | h_23 h | h_24 h | h_25 h | h_26 h | h_27 h | h_28 h | h_29 h
      | h_30 h | h_31 h | h_32 h | h_34 h =>
    exact .inl (readsRow_decodeI (fieldOp_eq_of_toNat h) (by decide) (fun _ _ _ => rfl) fun _ _ _ => rfl)
  case h_16 h | h_17 h | h_18 h =>
    exact .inl (readsRow_decodeShift (fieldOp_eq_of_toNat h) (by decide) (fun _ _ _ => rfl) fun _ _ _ => rfl)
  case h_19 h => exact .inl (readsRow_decodeLui (fieldOp_eq_of_toNat h))
  case h_20 h => exact .inl (readsRow_decodeParam (fieldOp_eq_of_toNat h))
  case h_33 h => exact .inl (readsRow_decodeJ (fieldOp_eq_of_toNat h) (by decide) (fun _ _ => rfl) fun _ _ => rfl)
  case h_35 h => exact .inl (readsRow_decodeN (fieldOp_eq_of_toNat h))
  case h_42 h | h_43 h | h_44 h | h_46 h | h_47 h | h_48 h | h_49 h | h_50 h | h_51 h | h_52 h | h_53 h | h_54 h | h_55 h
      | h_56 h | h_57 h | h_58 h =>
    exact .inl (readsRow_decodeE (fieldOp_eq_of_toNat h) (by decide) (fun _ _ => rfl) fun _ _ => rfl)
  case h_45 h => exact .inl (readsRow_decodeBenes (fieldOp_eq_of_toNat h))
  case h_59 =>
    refine .inr ⟨rfl, fun row hrow hop => ?_⟩
    have hmem : (fieldOp w).toNat ∈ encodingRows.map (·.op.toNat) := List.mem_map.mpr ⟨row, hrow, by rw [hop]⟩
    simp only [encodingRows, BitVec.ofNat_eq_ofNat, List.cons_append, List.nil_append, List.map_cons, List.map_nil,
      BitVec.toNat_ofNat, Nat.reducePow, Nat.one_mod, Nat.reduceMod, List.mem_cons, List.not_mem_nil, or_false] at hmem
    grind

-- A word decodes exactly where it is legal (30_encoding.md R102, R103).

theorem exists_readsRow_of_decodeWord {w : Word} {i : Instr} (h : decodeWord w = .ok i) :
    ∃ row, ReadsRow w (decodeWord w) row i ∧ row.Admits w := by
  rcases decodeWord_readsRow w with ⟨row, i₀, hreads⟩ | ⟨herr, -⟩
  · obtain ⟨hadm, rfl⟩ := (hreads.decoded i).mp h
    exact ⟨row, hreads, hadm⟩
  · simp [herr] at h

theorem legalWord_of_decodeWord {w : Word} {i : Instr} (h : decodeWord w = .ok i) : LegalWord w := by
  obtain ⟨row, hreads, hadm⟩ := exists_readsRow_of_decodeWord h
  exact ⟨row, hreads.mem, hreads.op, hadm⟩

theorem exists_decodeWord_of_legalWord {w : Word} (h : LegalWord w) : ∃ i, decodeWord w = .ok i := by
  obtain ⟨row, hmem, hop, hadm⟩ := (legalWord_iff w).mp h
  rcases decodeWord_readsRow w with ⟨row', i₀, hreads⟩ | ⟨-, hnone⟩
  · obtain rfl := encodingRow_unique hmem hreads.mem (hop.symm.trans hreads.op)
    exact ⟨i₀, (hreads.decoded i₀).mpr ⟨hadm, rfl⟩⟩
  · exact absurd hop (hnone row hmem)

theorem bytesOfWord_injective : Function.Injective bytesOfWord := by
  intro w w' h
  simp only [bytesOfWord, List.cons.injEq] at h
  obtain ⟨h0, h1, h2, h3, -⟩ := h
  rw [← wordOfBytes_wordByte w, h0, h1, h2, h3, wordOfBytes_wordByte]

/-- Execution of an illegal word is ILLEGAL with the word (30_encoding.md R102). -/
theorem runBytes_bytesOfWord_illegal {w : Word} (h : ¬ LegalWord w) (s : State) :
    runBytes (bytesOfWord w) s = raiseFault s .illegal w w := by
  obtain ⟨w', hw, ⟨i, hi, -⟩ | ⟨-, hrun⟩⟩ := runBytes_cases (bs := bytesOfWord w) rfl s
  · rw [bytesOfWord_injective hw] at h
    exact absurd (legalWord_of_decodeWord hi) h
  · rw [hrun, bytesOfWord_injective hw]

-- The statements.

/-- Settles O1, by the round trip of each format. -/
theorem decodeOfEncode : Obligations.DecodeOfEncode := by
  unfold Obligations.DecodeOfEncode
  intro i rest h
  have hword := decodeWord_encode h
  exact ⟨hword, by rw [decode_bytesOfWord, hword]⟩

/-- Settles O2: the row that reads the word rebuilds it from its fields. -/
theorem encodeOfDecode : Obligations.EncodeOfDecode := by
  unfold Obligations.EncodeOfDecode
  intro w i h
  obtain ⟨row, hreads, hadm⟩ := exists_readsRow_of_decodeWord h
  exact ⟨hreads.encoded hadm, hreads.wellFormed hadm⟩

/-- Settles O3: the decoder reads a word exactly where its row admits it, and SEQ raises ILLEGAL elsewhere. -/
theorem illegalWordRaisesIllegal : Obligations.IllegalWordRaisesIllegal := by
  unfold Obligations.IllegalWordRaisesIllegal
  refine ⟨fun w => ⟨exists_decodeWord_of_legalWord, fun ⟨_, hi⟩ => legalWord_of_decodeWord hi⟩, fun s w h hill => ?_⟩
  have hstep : step s = raiseFault s.finish .illegal w w := by
    rw [h.running.step_eq, fetchAndRun_of_read (s := s.finish) h.fits h.bytes, runBytes_bytesOfWord_illegal hill]
  rw [hstep]
  exact faults_raiseFault _ _ _ _

/-- Settles O4 by evaluation: the words are literals. -/
theorem sampleWordsDecode : Obligations.SampleWordsDecode := by
  unfold Obligations.SampleWordsDecode
  decide

end Sys2Proof

/-!
Bit vectors as polynomials over GF(2) (spec/00_scope.md R14): bit i is the coefficient of X^i, XOR is the sum, and the
carry-less product is the product.
-/

namespace Sys2Proof

open Polynomial Sys2Proof.Machine

-- A bit as an element of GF(2).

/-- A bit as an element of GF(2). -/
def bitValue (b : Bool) : ZMod 2 := if b then 1 else 0

@[simp] theorem bitValue_false : bitValue false = 0 := rfl

@[simp] theorem bitValue_true : bitValue true = 1 := rfl

@[simp] theorem bitValue_xor (a b : Bool) : bitValue (a ^^ b) = bitValue a + bitValue b := by
  revert a b; decide

@[simp] theorem bitValue_and (a b : Bool) : bitValue (a && b) = bitValue a * bitValue b := by
  revert a b; decide

theorem bitValue_injective : Function.Injective bitValue := by
  unfold Function.Injective; decide

theorem bitValue_parity (n : Nat) (b : Nat → Bool) : bitValue (parity n b) = ∑ i ∈ Finset.range n, bitValue (b i) := by
  induction n with
  | zero => rfl
  | succ n ih => rw [parity, bitValue_xor, ih, Finset.sum_range_succ]

-- The polynomial of a bit vector.

/-- The polynomial over GF(2) whose coefficient of X^i is bit i. -/
noncomputable def bitPoly {w : Nat} (a : BitVec w) : (ZMod 2)[X] :=
  ∑ i ∈ Finset.range w, monomial i (bitValue (a.getLsbD i))

@[simp] theorem coeff_bitPoly {w : Nat} (a : BitVec w) (i : Nat) : (bitPoly a).coeff i = bitValue (a.getLsbD i) := by
  by_cases h : i < w
  · simp [bitPoly, coeff_monomial, h]
  · simp [bitPoly, coeff_monomial, h, BitVec.getLsbD_of_ge a i (by omega)]

theorem bitPoly_injective {w : Nat} : Function.Injective (bitPoly (w := w)) := fun a b h =>
  BitVec.eq_of_getLsbD_eq fun i _ => bitValue_injective <| by simpa using congrArg (coeff · i) h

@[simp] theorem bitPoly_xor {w : Nat} (a b : BitVec w) : bitPoly (a ^^^ b) = bitPoly a + bitPoly b := by
  ext i; simp

@[simp] theorem bitPoly_zero {w : Nat} : bitPoly 0#w = 0 := by
  ext i; simp

theorem bitPoly_twoPow {w i : Nat} (h : i < w) : bitPoly (BitVec.twoPow w i) = X ^ i := by
  ext k
  rw [coeff_bitPoly, BitVec.getLsbD_twoPow, coeff_X_pow, decide_eq_true h, Bool.true_and]
  by_cases hk : i = k
  · simp [hk]
  · simp [hk, Ne.symm hk]

theorem getLsbD_setWidth_of_le {v w : Nat} (a : BitVec v) (h : v ≤ w) (i : Nat) :
    (a.setWidth w).getLsbD i = a.getLsbD i := by
  rw [BitVec.getLsbD_setWidth, Bool.and_eq_right_iff_imp, decide_eq_true_iff]
  exact fun hbit => (BitVec.lt_of_getLsbD hbit).trans_le h

theorem bitPoly_setWidth {v w : Nat} (a : BitVec v) (h : v ≤ w) : bitPoly (a.setWidth w) = bitPoly a := by
  ext i; rw [coeff_bitPoly, coeff_bitPoly, getLsbD_setWidth_of_le a h]

theorem toNat_lt_two_pow_iff {w : Nat} (a : BitVec w) (n : Nat) :
    a.toNat < 2 ^ n ↔ ∀ i, n ≤ i → a.getLsbD i = false :=
  ⟨fun h _ hi => Nat.testBit_lt_two_pow (h.trans_le (Nat.pow_le_pow_right Nat.two_pos hi)),
    fun h => Nat.lt_pow_two_of_testBit _ h⟩

/-- The degree counts the bits in use. -/
theorem natDegree_bitPoly_le_iff {w : Nat} (a : BitVec w) (n : Nat) :
    (bitPoly a).natDegree ≤ n ↔ a.toNat < 2 ^ (n + 1) := by
  have hbit (i : Nat) : (bitPoly a).coeff i = 0 ↔ a.getLsbD i = false := by
    rw [coeff_bitPoly, ← bitValue_false, bitValue_injective.eq_iff]
  simp only [natDegree_le_iff_coeff_eq_zero, hbit, toNat_lt_two_pow_iff, Nat.succ_le_iff]

-- The carry-less product.

theorem bitPoly_shift (a : Gf) {i : Nat} (h : i ≤ 16) : bitPoly (a.zeroExtend 32 <<< i) = bitPoly a * X ^ i := by
  ext k
  rw [coeff_mul_X_pow', coeff_bitPoly, coeff_bitPoly, BitVec.getLsbD_shiftLeft, BitVec.zeroExtend_eq_setWidth,
    getLsbD_setWidth_of_le a (by decide)]
  by_cases hk : i ≤ k
  · cases hbit : a.getLsbD (k - i) with
    | false => simp
    | true =>
      have := BitVec.lt_of_getLsbD hbit
      rw [if_pos hk, decide_eq_true (by omega), decide_eq_false (by omega)]
      rfl
  · rw [if_neg hk, decide_eq_true (Nat.lt_of_not_le hk), Bool.not_true, Bool.and_false, Bool.false_and, bitValue_false]

/-- `clmul` after its first n steps has multiplied by the low n bits of b. -/
theorem bitPoly_clmul_steps (a b : Gf) {n : Nat} (h : n ≤ 16) :
    bitPoly ((List.range n).foldl (fun p i => if b.getLsbD i then p ^^^ (a.zeroExtend 32 <<< i) else p) (0 : Word)) =
      bitPoly a * ∑ i ∈ Finset.range n, monomial i (bitValue (b.getLsbD i)) := by
  induction n with
  | zero => simp
  | succ n ih =>
    rw [List.range_succ, List.foldl_append, List.foldl_cons, List.foldl_nil, Finset.sum_range_succ, mul_add,
      ← ih (by omega)]
    by_cases hb : b.getLsbD n
    · rw [if_pos hb, bitPoly_xor, bitPoly_shift a (by omega), hb, bitValue_true, monomial_one_right_eq_X_pow]
    · rw [if_neg hb, Bool.eq_false_of_not_eq_true hb, bitValue_false, monomial_zero_right, mul_zero, add_zero]

/-- `clmul` is the product of polynomials over GF(2). -/
@[simp] theorem bitPoly_clmul (a b : Gf) : bitPoly (clmul a b) = bitPoly a * bitPoly b := bitPoly_clmul_steps a b le_rfl

/-- Bit k of the carry-less product (00_scope.md R14). -/
theorem clmul_getLsbD (a b : Gf) (k : Nat) :
    (clmul a b).getLsbD k = parity (k + 1) fun i => a.getLsbD i && b.getLsbD (k - i) := by
  apply bitValue_injective
  have hcoeff := congrArg (coeff · k) (bitPoly_clmul a b)
  simpa only [coeff_bitPoly, coeff_mul, bitValue_parity, bitValue_and,
    Finset.Nat.sum_antidiagonal_eq_sum_range_succ fun i j => bitValue (a.getLsbD i) * bitValue (b.getLsbD j)] using hcoeff

theorem clmul_xor_left (a b c : Gf) : clmul (a ^^^ b) c = clmul a c ^^^ clmul b c :=
  bitPoly_injective (by simp [add_mul])

theorem clmul_lt {a b : Gf} {m n : Nat} (ha : a.toNat < 2 ^ (m + 1)) (hb : b.toNat < 2 ^ (n + 1)) :
    (clmul a b).toNat < 2 ^ (m + n + 1) := by
  rw [← natDegree_bitPoly_le_iff, bitPoly_clmul]
  exact natDegree_mul_le_of_le ((natDegree_bitPoly_le_iff a m).mpr ha) ((natDegree_bitPoly_le_iff b n).mpr hb)

end Sys2Proof

/-!
The reduction of the multiplier (spec/41_gf.md R121) divides by p(z): it is linear, so the quotient and the remainder are
checked on the powers of z.
-/

namespace Sys2Proof

open Sys2Proof.Machine

-- Masks.

theorem gfMask_eq_and (f : Field) (a : Gf) : gfMask f a = a &&& BitVec.ofNat 16 (2 ^ f.m - 1) := by cases f <;> rfl

@[simp] theorem toNat_gfMask (f : Field) (a : Gf) : (gfMask f a).toNat = a.toNat % 2 ^ f.m := by
  rw [gfMask_eq_and, BitVec.toNat_and, ← Nat.and_two_pow_sub_one_eq_mod]
  cases f <;> rfl

theorem canonical_gfMask (f : Field) (a : Gf) : Canonical f (gfMask f a) := by
  rw [Canonical, toNat_gfMask]
  exact Nat.mod_lt _ (Nat.two_pow_pos _)

theorem gfMask_of_canonical {f : Field} {a : Gf} (h : Canonical f a) : gfMask f a = a :=
  BitVec.eq_of_toNat_eq ((toNat_gfMask f a).trans (Nat.mod_eq_of_lt h))

theorem canonical_xor {f : Field} {a b : Gf} (ha : Canonical f a) (hb : Canonical f b) : Canonical f (a ^^^ b) := by
  rw [Canonical, BitVec.toNat_xor]
  exact Nat.xor_lt_two_pow ha hb

theorem canonical_zero (f : Field) : Canonical f 0#16 := Nat.two_pow_pos _

theorem canonical_one (f : Field) : Canonical f 1#16 := Nat.one_lt_two_pow (by cases f <;> decide)

-- Linear functions of a bit vector.

/-- Two functions that send XOR to XOR, and agree on the n lowest bits, agree below 2^n. -/
theorem eq_of_xor_linear {v w : Nat} {F G : BitVec v → BitVec w} (hF : ∀ x y, F (x ^^^ y) = F x ^^^ F y)
    (hG : ∀ x y, G (x ^^^ y) = G x ^^^ G y) :
    ∀ {n : Nat}, (∀ i < n, F (BitVec.twoPow v i) = G (BitVec.twoPow v i)) → ∀ x : BitVec v, x.toNat < 2 ^ n → F x = G x
  | 0, _, x, hx => by
    have hzero {H : BitVec v → BitVec w} (hH : ∀ x y, H (x ^^^ y) = H x ^^^ H y) : H 0#v = 0#w := by
      simpa using hH 0#v 0#v
    obtain rfl : x = 0#v := BitVec.eq_of_toNat_eq (by simpa using hx)
    rw [hzero hF, hzero hG]
  | n + 1, h, x, hx => by
    have ih := eq_of_xor_linear hF hG (n := n) fun i hi => h i (hi.trans n.lt_succ_self)
    rw [toNat_lt_two_pow_iff] at hx
    cases hbit : x.getLsbD n with
    | false =>
      refine ih x ((toNat_lt_two_pow_iff x n).mpr fun i hi => ?_)
      rcases hi.eq_or_lt with rfl | hlt
      · exact hbit
      · exact hx i hlt
    | true =>
      have hlow : (x ^^^ BitVec.twoPow v n).toNat < 2 ^ n := (toNat_lt_two_pow_iff _ n).mpr fun i hi => by
        rw [BitVec.getLsbD_xor, BitVec.getLsbD_twoPow]
        rcases hi.eq_or_lt with rfl | hlt
        · simp [hbit, BitVec.lt_of_getLsbD hbit]
        · simp [hx i hlt, hlt.ne]
      have hx' : x = x ^^^ BitVec.twoPow v n ^^^ BitVec.twoPow v n := by simp
      rw [hx', hF, hG, ih _ hlow, h n n.lt_succ_self]

-- The reduction.

/-- The two steps of the reduction in GF.MUL's datapath, on the carry-less product (41_gf.md R121). -/
def gfFold : Field → Word → Word
  | .m12, p => fold12 0x003000 (fold12 0x7FC000 p)
  | .m13, p => fold13 0x000E000 (fold13 0x1FF0000 p)

/-- The reduction in GF.MUL's datapath: two steps, then the low m bits (41_gf.md R121). -/
def gfReduce (f : Field) (p : Word) : Gf := gfMask f ((gfFold f p).truncate 16)

/-- The quotient of the reduction: the bits that its two steps fold, as multiples of z^m. -/
def gfQuotient : Field → Word → Gf
  | .m12, p => (((p &&& 0x7FC000) ^^^ (fold12 0x7FC000 p &&& 0x003000)) >>> 12).truncate 16
  | .m13, p => (((p &&& 0x1FF0000) ^^^ (fold13 0x1FF0000 p &&& 0x000E000)) >>> 13).truncate 16

theorem gfMul_eq_gfReduce (f : Field) (a b : Gf) : gfMul f a b = gfReduce f (clmul a (gfMask f b)) := by cases f <;> rfl

theorem and_xor_distrib {w : Nat} (x y z : BitVec w) : (x ^^^ y) &&& z = (x &&& z) ^^^ (y &&& z) := by
  ext i; simp [Bool.and_xor_distrib_right]

theorem fold12_xor (mask p q : Word) : fold12 mask (p ^^^ q) = fold12 mask p ^^^ fold12 mask q := by
  simp only [fold12, and_xor_distrib, BitVec.ushiftRight_xor_distrib]
  ac_rfl

theorem fold13_xor (mask p q : Word) : fold13 mask (p ^^^ q) = fold13 mask p ^^^ fold13 mask q := by
  simp only [fold13, and_xor_distrib, BitVec.ushiftRight_xor_distrib]
  ac_rfl

theorem gfMask_xor (f : Field) (a b : Gf) : gfMask f (a ^^^ b) = gfMask f a ^^^ gfMask f b := by
  simp only [gfMask_eq_and, and_xor_distrib]

theorem gfFold_xor (f : Field) (p q : Word) : gfFold f (p ^^^ q) = gfFold f p ^^^ gfFold f q := by
  cases f <;> simp only [gfFold, fold12_xor, fold13_xor]

theorem gfReduce_xor (f : Field) (p q : Word) : gfReduce f (p ^^^ q) = gfReduce f p ^^^ gfReduce f q := by
  simp only [gfReduce, gfFold_xor, BitVec.truncate_eq_setWidth, BitVec.setWidth_xor, gfMask_xor]

theorem gfQuotient_xor (f : Field) (p q : Word) : gfQuotient f (p ^^^ q) = gfQuotient f p ^^^ gfQuotient f q := by
  cases f <;>
    simp only [gfQuotient, fold12_xor, fold13_xor, and_xor_distrib, BitVec.truncate_eq_setWidth, BitVec.setWidth_xor,
      BitVec.ushiftRight_xor_distrib] <;>
    ac_rfl

theorem canonical_gfReduce (f : Field) (p : Word) : Canonical f (gfReduce f p) := canonical_gfMask _ _

/-- Division with remainder by p(z), of a polynomial no longer than the product of two canonical elements: both sides are
linear, and agree on the powers of z. -/
theorem eq_quotient_xor_gfReduce (f : Field) {p : Word} (h : p.toNat < 2 ^ (2 * f.m - 1)) :
    p = clmul (gfQuotient f p) (fieldPoly f) ^^^ gfWord (gfReduce f p) := by
  refine eq_of_xor_linear (F := id) (G := fun p => clmul (gfQuotient f p) (fieldPoly f) ^^^ gfWord (gfReduce f p))
    (fun _ _ => rfl) (fun p q => ?_) (n := 2 * f.m - 1) ?_ p h
  · simp only [gfQuotient_xor, gfReduce_xor, clmul_xor_left, gfWord, BitVec.zeroExtend_eq_setWidth, BitVec.setWidth_xor]
    ac_rfl
  · cases f <;> decide +kernel

end Sys2Proof

/-!
The field GF(2^m) (spec/00_scope.md R9, spec/41_gf.md R127): p(z) is irreducible, so the polynomials over GF(2) modulo
p(z) are a field, and the datapath's product on canonical elements is its product.
-/

namespace Sys2Proof

open Polynomial Sys2Proof.Machine

-- The ring of the polynomials modulo p(z).

/-- The reduction polynomial p(z) (00_scope.md R9). -/
noncomputable def modulus (f : Field) : (ZMod 2)[X] := bitPoly (fieldPoly f)

/-- GF(2^m), as the polynomials over GF(2) modulo p(z). -/
abbrev GF (f : Field) : Type := AdjoinRoot (modulus f)

theorem Field.m_injective : Function.Injective Field.m := by
  intro f g
  cases f <;> cases g <;> decide

theorem Field.m_pos (f : Field) : 0 < f.m := by cases f <;> decide

theorem Field.m_lt (f : Field) : f.m < 16 := by cases f <;> decide

theorem natDegree_modulus_le (f : Field) : (modulus f).natDegree ≤ f.m :=
  (natDegree_bitPoly_le_iff _ _).mpr (by cases f <;> decide)

theorem coeff_modulus (f : Field) : (modulus f).coeff f.m = 1 := by
  rw [modulus, coeff_bitPoly]; cases f <;> rfl

theorem modulus_monic (f : Field) : (modulus f).Monic :=
  monic_of_natDegree_le_of_coeff_eq_one f.m (natDegree_modulus_le f) (coeff_modulus f)

theorem natDegree_modulus (f : Field) : (modulus f).natDegree = f.m :=
  natDegree_eq_of_le_of_coeff_ne_zero (natDegree_modulus_le f) (by rw [coeff_modulus]; exact one_ne_zero)

theorem canonical_iff_natDegree_lt (f : Field) (a : Gf) : Canonical f a ↔ (bitPoly a).natDegree < f.m := by
  obtain ⟨n, hn⟩ := Nat.exists_eq_add_one_of_ne_zero f.m_pos.ne'
  rw [Canonical, hn, Nat.lt_succ_iff, natDegree_bitPoly_le_iff]

-- The element of the ring that a 16-bit value stands for.

/-- The element of GF(2^m) that the bits of a stand for. -/
noncomputable def gfVal (f : Field) {w : Nat} (a : BitVec w) : GF f := AdjoinRoot.mk (modulus f) (bitPoly a)

section
variable (f : Field)

@[simp] theorem gfVal_zero {w : Nat} : gfVal f 0#w = 0 := by rw [gfVal, bitPoly_zero, map_zero]

theorem gfVal_twoPow {w i : Nat} (h : i < w) : gfVal f (BitVec.twoPow w i) = AdjoinRoot.root (modulus f) ^ i := by
  rw [gfVal, bitPoly_twoPow h, map_pow, AdjoinRoot.mk_X]

@[simp] theorem gfVal_one : gfVal f 1#16 = 1 := (gfVal_twoPow f (w := 16) (i := 0) (by decide)).trans (pow_zero _)

@[simp] theorem gfVal_two : gfVal f 2#16 = AdjoinRoot.root (modulus f) :=
  (gfVal_twoPow f (w := 16) (i := 1) (by decide)).trans (pow_one _)

@[simp] theorem gfVal_xor {w : Nat} (a b : BitVec w) : gfVal f (a ^^^ b) = gfVal f a + gfVal f b := by
  rw [gfVal, bitPoly_xor, map_add]; rfl

@[simp] theorem gfVal_clmul (a b : Gf) : gfVal f (clmul a b) = gfVal f a * gfVal f b := by
  rw [gfVal, bitPoly_clmul, map_mul]; rfl

@[simp] theorem gfVal_gfWord (a : Gf) : gfVal f (gfWord a) = gfVal f a := by
  rw [gfVal, gfWord, bitPoly_setWidth a (by decide)]; rfl

@[simp] theorem gfVal_fieldPoly : gfVal f (fieldPoly f) = 0 := AdjoinRoot.mk_self

end

/-- No two canonical elements stand for one element of the ring. -/
theorem gfVal_injOn {f : Field} {a b : Gf} (ha : Canonical f a) (hb : Canonical f b) (h : gfVal f a = gfVal f b) :
    a = b := by
  have hdeg : (bitPoly (a ^^^ b)).natDegree < (modulus f).natDegree := by
    rw [natDegree_modulus]
    exact (canonical_iff_natDegree_lt f _).mp (canonical_xor ha hb)
  have hsum : gfVal f (a ^^^ b) = 0 := by rw [gfVal_xor, h, ← gfVal_xor, BitVec.xor_self, gfVal_zero]
  have hzero : bitPoly (a ^^^ b) = 0 := by
    by_contra hne
    exact AdjoinRoot.mk_ne_zero_of_natDegree_lt (modulus_monic f) hne hdeg hsum
  rw [← bitPoly_zero] at hzero
  exact BitVec.xor_eq_zero_iff.mp (bitPoly_injective hzero)

-- The product.

theorem canonical_gfMul (f : Field) (a b : Gf) : Canonical f (gfMul f a b) := by
  rw [gfMul_eq_gfReduce]
  exact canonical_gfReduce _ _

/-- The product and the carry-less product differ by a multiple of p(z) (41_gf.md R121). -/
theorem clmul_eq_quotient_xor_gfMul {f : Field} {a : Gf} (ha : Canonical f a) (b : Gf) :
    clmul a (gfMask f b) =
      clmul (gfQuotient f (clmul a (gfMask f b))) (fieldPoly f) ^^^ gfWord (gfMul f a b) := by
  rw [gfMul_eq_gfReduce]
  apply eq_quotient_xor_gfReduce
  obtain ⟨n, hn⟩ := Nat.exists_eq_add_one_of_ne_zero f.m_pos.ne'
  have hb := canonical_gfMask f b
  rw [Canonical, hn] at ha hb
  rw [show 2 * f.m - 1 = n + n + 1 by omega]
  exact clmul_lt ha hb

theorem gfVal_gfMul_mask {f : Field} {a : Gf} (ha : Canonical f a) (b : Gf) :
    gfVal f (gfMul f a b) = gfVal f a * gfVal f (gfMask f b) := by
  simpa using (congrArg (gfVal f) (clmul_eq_quotient_xor_gfMul ha b)).symm

theorem gfVal_gfMul {f : Field} {a b : Gf} (ha : Canonical f a) (hb : Canonical f b) :
    gfVal f (gfMul f a b) = gfVal f a * gfVal f b := by
  rw [gfVal_gfMul_mask ha, gfMask_of_canonical hb]

theorem canonical_gfSq (f : Field) (a : Gf) : Canonical f (gfSq f a) := canonical_gfMul _ _ _

theorem gfVal_gfSq {f : Field} {a : Gf} (ha : Canonical f a) : gfVal f (gfSq f a) = gfVal f a ^ 2 := by
  rw [gfSq, gfMask_of_canonical ha, gfVal_gfMul ha ha, sq]

theorem canonical_gfPow (f : Field) (a : Gf) : ∀ k, Canonical f (gfPow f a k)
  | 0 => canonical_one f
  | _ + 1 => canonical_gfMul _ _ _

theorem gfVal_gfPow {f : Field} {a : Gf} (ha : Canonical f a) (k : Nat) : gfVal f (gfPow f a k) = gfVal f a ^ k := by
  induction k with
  | zero => exact gfVal_one f
  | succ k ih => rw [gfPow, gfVal_gfMul (canonical_gfPow f a k) ha, ih, pow_succ]

theorem canonical_gfInvLoop {f : Field} {acc : Gf} (hacc : Canonical f acc) (k : Nat) (p : Gf) :
    Canonical f (gfInvLoop f k acc p) := by
  induction k generalizing acc p with
  | zero => exact hacc
  | succ k ih => exact ih (canonical_gfMul ..) _

/-- The chain of squarings and multiplications (41_gf.md R123). -/
theorem gfVal_gfInvLoop {f : Field} {acc p : Gf} (hacc : Canonical f acc) (hp : Canonical f p) (k : Nat) :
    gfVal f (gfInvLoop f k acc p) = gfVal f acc * gfVal f p ^ (2 ^ (k + 1) - 2) := by
  induction k generalizing acc p with
  | zero => rw [gfInvLoop, Nat.zero_add, pow_one, Nat.sub_self, pow_zero, mul_one]
  | succ k ih =>
    have hexp : 2 ^ (k + 1 + 1) - 2 = 2 + 2 * (2 ^ (k + 1) - 2) := by
      have := Nat.two_pow_pos k
      omega
    rw [gfInvLoop, ih (canonical_gfMul ..) (canonical_gfSq ..), gfVal_gfMul hacc (canonical_gfSq ..), gfVal_gfSq hp, hexp]
    ring

theorem canonical_gfInv (f : Field) (a : Gf) : Canonical f (gfInv f a) := canonical_gfInvLoop (canonical_one f) _ _

theorem gfVal_gfInv {f : Field} {a : Gf} (ha : Canonical f a) : gfVal f (gfInv f a) = gfVal f a ^ (2 ^ f.m - 2) := by
  rw [gfInv, BitVec.ofNat_eq_ofNat, gfMask_of_canonical ha, gfVal_gfInvLoop (canonical_one f) ha, gfVal_one, one_mul,
    Nat.sub_add_cancel f.m_pos]

-- p(z) is irreducible, by Rabin's test: z^(2^m) = z, and z^(2^k) - z is a unit for every proper divisor k of m.

/-- z^(2^k), by k squarings. -/
def zPow (f : Field) (k : Nat) : Gf := (gfSq f)^[k] 2#16

theorem canonical_zPow (f : Field) : ∀ k, Canonical f (zPow f k)
  | 0 => by unfold Canonical; cases f <;> decide
  | k + 1 => by
    rw [zPow, Function.iterate_succ_apply']
    exact canonical_gfSq _ _

theorem gfVal_zPow (f : Field) (k : Nat) : gfVal f (zPow f k) = AdjoinRoot.root (modulus f) ^ 2 ^ k := by
  induction k with
  | zero => rw [zPow, Function.iterate_zero_apply, gfVal_two, pow_zero, pow_one]
  | succ k ih =>
    rw [zPow, Function.iterate_succ_apply', ← zPow, gfVal_gfSq (canonical_zPow f k), ih, ← pow_mul, ← pow_succ]

theorem zPow_m (f : Field) : zPow f f.m = 2#16 := by cases f <;> decide +kernel

theorem gfMul_zPow_gfInv (f : Field) : ∀ k ∈ f.m.properDivisors,
    gfMul f (zPow f k ^^^ 2#16) (gfInv f (zPow f k ^^^ 2#16)) = 1#16 := by
  cases f <;> decide +kernel

theorem mk_X_pow_sub_X (f : Field) (k : Nat) :
    AdjoinRoot.mk (modulus f) (X ^ 2 ^ k - X) = gfVal f (zPow f k ^^^ 2#16) := by
  rw [CharTwo.sub_eq_add, map_add, map_pow, AdjoinRoot.mk_X, gfVal_xor, gfVal_zPow, gfVal_two]

theorem modulus_dvd (f : Field) : modulus f ∣ X ^ 2 ^ f.m - X := by
  rw [← AdjoinRoot.mk_eq_zero, mk_X_pow_sub_X, zPow_m, BitVec.xor_self, gfVal_zero]

theorem isCoprime_modulus {f : Field} {k : Nat} (h : k ∈ f.m.properDivisors) :
    IsCoprime (modulus f) (X ^ 2 ^ k - X) := by
  have hz : Canonical f (zPow f k ^^^ 2#16) := canonical_xor (canonical_zPow f k) (canonical_zPow f 0)
  have hmul : AdjoinRoot.mk (modulus f) ((X ^ 2 ^ k - X) * bitPoly (gfInv f (zPow f k ^^^ 2#16))) =
      AdjoinRoot.mk (modulus f) 1 := by
    rw [map_mul, mk_X_pow_sub_X, map_one, ← gfVal, ← gfVal_gfMul hz (canonical_gfInv f _), gfMul_zPow_gfInv f k h,
      gfVal_one]
  obtain ⟨c, hc⟩ := AdjoinRoot.mk_eq_mk.mp hmul
  exact ⟨-c, bitPoly (gfInv f (zPow f k ^^^ 2#16)), by linear_combination hc⟩

theorem natDegree_of_irreducible_dvd_modulus {f : Field} {g : (ZMod 2)[X]} (hg : Irreducible g) (hdvd : g ∣ modulus f) :
    g.natDegree = f.m := by
  have hroots (k : Nat) : g.natDegree ∣ k ↔ g ∣ X ^ 2 ^ k - X := by
    simpa using hg.natDegree_dvd_iff_dvd_X_pow_card_pow_sub_X (n := k)
  by_contra hne
  have hm : g.natDegree ∣ f.m := (hroots f.m).mpr (hdvd.trans (modulus_dvd f))
  have hlt : g.natDegree < f.m := (Nat.le_of_dvd f.m_pos hm).lt_of_ne hne
  have hcop := isCoprime_modulus (Nat.mem_properDivisors.mpr ⟨hm, hlt⟩)
  exact hg.not_isUnit (hcop.isUnit_of_dvd' hdvd ((hroots _).mp dvd_rfl))

theorem modulus_irreducible (f : Field) : Irreducible (modulus f) := by
  obtain ⟨g, hg, hdvd⟩ := exists_irreducible_of_natDegree_pos (f := modulus f) (by rw [natDegree_modulus]; exact f.m_pos)
  have hdeg : (modulus f).natDegree ≤ g.natDegree := by
    rw [natDegree_of_irreducible_dvd_modulus hg hdvd, natDegree_modulus]
  exact (associated_of_dvd_of_natDegree_le hdvd (modulus_monic f).ne_zero hdeg).irreducible hg

theorem fact_modulus_irreducible (f : Field) : Fact (Irreducible (modulus f)) := ⟨modulus_irreducible f⟩

theorem GF.pow_two_pow_m {f : Field} (x : GF f) : x ^ 2 ^ f.m = x := by
  have := fact_modulus_irreducible f
  have := (modulus_monic f).finite_adjoinRoot
  have := Module.finite_of_finite (M := GF f) (ZMod 2)
  have := Fintype.ofFinite (GF f)
  have hcard : Fintype.card (GF f) = 2 ^ f.m := by
    rw [Module.card_eq_pow_finrank (K := ZMod 2), ZMod.card, ← natDegree_modulus]
    exact congrArg _ finrank_quotient_span_eq_natDegree
  rw [← hcard, FiniteField.pow_card]

end Sys2Proof

/-!
The laws of the field on canonical elements (spec/41_gf.md R127), each the law of GF(2^m) itself, as no two canonical
elements stand for one element.
-/

namespace Sys2Proof

open Sys2Proof.Machine

section
variable {f : Field} {a b c : Gf} (ha : Canonical f a) (hb : Canonical f b) (hc : Canonical f c)
include ha

theorem gfMul_one : gfMul f a 1#16 = a :=
  gfVal_injOn (canonical_gfMul ..) ha (by rw [gfVal_gfMul ha (canonical_one f), gfVal_one, mul_one])

theorem gfMul_zero : gfMul f a 0#16 = 0#16 :=
  gfVal_injOn (canonical_gfMul ..) (canonical_zero f) (by rw [gfVal_gfMul ha (canonical_zero f), gfVal_zero, mul_zero])

theorem zero_gfMul : gfMul f 0#16 a = 0#16 :=
  gfVal_injOn (canonical_gfMul ..) (canonical_zero f) (by rw [gfVal_gfMul (canonical_zero f) ha, gfVal_zero, zero_mul])

theorem gfVal_eq_zero_iff : gfVal f a = 0 ↔ a = 0#16 :=
  ⟨fun h => gfVal_injOn ha (canonical_zero f) (h.trans (gfVal_zero f).symm), fun h => h ▸ gfVal_zero f⟩

theorem gfVal_gfInv_of_ne_zero (h : a ≠ 0#16) : gfVal f a * gfVal f (gfInv f a) = 1 := by
  have := fact_modulus_irreducible f
  have hm : 2 ^ f.m = 2 ^ f.m - 2 + 1 + 1 := by cases f <;> rfl
  have hne : gfVal f a ≠ 0 := (gfVal_eq_zero_iff ha).not.mpr h
  have hpow := GF.pow_two_pow_m (gfVal f a)
  rw [hm, pow_succ, mul_eq_right₀ hne] at hpow
  rw [gfVal_gfInv ha, ← pow_succ', hpow]

theorem gfMul_gfInv (h : a ≠ 0#16) : gfMul f a (gfInv f a) = 1#16 :=
  gfVal_injOn (canonical_gfMul ..) (canonical_one f)
    (by rw [gfVal_gfMul ha (canonical_gfInv f a), gfVal_gfInv_of_ne_zero ha h, gfVal_one])

theorem gfInv_eq_gfPow : gfInv f a = gfPow f a (2 ^ f.m - 2) :=
  gfVal_injOn (canonical_gfInv f a) (canonical_gfPow f a _) (by rw [gfVal_gfInv ha, gfVal_gfPow ha])

theorem gfPow_two_pow_m : gfPow f a (2 ^ f.m) = a :=
  gfVal_injOn (canonical_gfPow f a _) ha (by rw [gfVal_gfPow ha, GF.pow_two_pow_m])

include hb

theorem gfMul_comm : gfMul f a b = gfMul f b a :=
  gfVal_injOn (canonical_gfMul ..) (canonical_gfMul ..) (by rw [gfVal_gfMul ha hb, gfVal_gfMul hb ha, mul_comm])

/-- The inverse is the only one (41_gf.md R123). -/
theorem eq_gfInv_of_gfMul_eq_one (h : a ≠ 0#16) (hab : gfMul f a b = 1#16) : b = gfInv f a := by
  have hval : gfVal f b * gfVal f a = 1 := by rw [mul_comm, ← gfVal_gfMul ha hb, hab, gfVal_one]
  exact gfVal_injOn hb (canonical_gfInv f a) (left_inv_eq_right_inv hval (gfVal_gfInv_of_ne_zero ha h))

theorem gfMul_gfInv_gfMul (h : a ≠ 0#16) : gfMul f a (gfMul f (gfInv f a) b) = b :=
  gfVal_injOn (canonical_gfMul ..) hb (by
    rw [gfVal_gfMul ha (canonical_gfMul ..), gfVal_gfMul (canonical_gfInv f a) hb, ← mul_assoc,
      gfVal_gfInv_of_ne_zero ha h, one_mul])

include hc

theorem gfMul_assoc : gfMul f (gfMul f a b) c = gfMul f a (gfMul f b c) :=
  gfVal_injOn (canonical_gfMul ..) (canonical_gfMul ..) (by
    rw [gfVal_gfMul (canonical_gfMul ..) hc, gfVal_gfMul ha (canonical_gfMul ..), gfVal_gfMul ha hb, gfVal_gfMul hb hc,
      mul_assoc])

theorem gfMul_xor : gfMul f a (b ^^^ c) = gfMul f a b ^^^ gfMul f a c :=
  gfVal_injOn (canonical_gfMul ..) (canonical_xor (canonical_gfMul ..) (canonical_gfMul ..)) (by
    rw [gfVal_gfMul ha (canonical_xor hb hc), gfVal_xor, gfVal_xor, gfVal_gfMul ha hb, gfVal_gfMul ha hc, mul_add])

end

theorem gfInv_zero (f : Field) : gfInv f 0#16 = 0#16 := by cases f <;> decide +kernel

theorem gfInv_gfMask (f : Field) (a : Gf) : gfInv f (gfMask f a) = gfInv f a := by
  rw [gfInv, gfMask_of_canonical (canonical_gfMask f a), gfInv]

end Sys2Proof

/-!
The six instructions of the GF unit (spec/41_gf.md R121 to R126): the value each writes, in terms of its registers, and
the statements about them.
-/

namespace Sys2Proof

open Sys2Proof.Machine

namespace Machine

theorem append_eq_gfWord (a : Gf) : 0#16 ++ a = gfWord a := (BitVec.setWidth_eq_append (by decide)).symm

theorem gfWord_gfMask (f : Field) (p : Word) :
    gfWord (gfMask f (p.truncate 16)) = p &&& BitVec.ofNat 32 (2 ^ f.m - 1) := by
  refine BitVec.eq_of_toNat_eq ?_
  have hmask : (BitVec.ofNat 32 (2 ^ f.m - 1)).toNat = 2 ^ f.m - 1 := by cases f <;> rfl
  have hlt : p.toNat % 2 ^ 16 % 2 ^ f.m < 2 ^ 32 := (Nat.mod_le _ _).trans_lt (by omega)
  rw [BitVec.toNat_and, hmask, Nat.and_two_pow_sub_one_eq_mod, gfWord, BitVec.zeroExtend_eq_setWidth,
    BitVec.truncate_eq_setWidth, BitVec.toNat_setWidth, toNat_gfMask, BitVec.toNat_setWidth, Nat.mod_eq_of_lt hlt,
    Nat.mod_mod_of_dvd _ (Nat.pow_dvd_pow 2 f.m_lt.le)]

theorem getLsbD_gfWord (a : Gf) (j : Nat) : (gfWord a).getLsbD j = a.getLsbD j :=
  getLsbD_setWidth_of_le a (by decide) j

section
variable (s : State) (rd rs1 rs2 i : Reg)

theorem State.gfReg_eq_extractLsb' : s.gfReg i = (s.reg i).extractLsb' 0 16 := BitVec.setWidth_eq_extractLsb' (by decide)

theorem State.gfReg_getLsbD {j : Nat} (h : j < 16) : (s.gfReg i).getLsbD j = (s.reg i).getLsbD j := by
  simp [State.gfReg, h]

theorem regElement_eq : regElement s i = gfMask s.field (s.gfReg i) := by
  rw [regElement, gfMask_eq_and, State.gfReg_eq_extractLsb']
  rfl

theorem canonical_regElement : Canonical s.field (regElement s i) := by
  rw [regElement_eq]
  exact canonical_gfMask ..

theorem exec_gfMul {f : Field} (hf : s.field = f) : exec (.gfMul rd rs1 rs2) s =
    writeBack s rd (gfFold f (clmul ((s.reg rs1).extractLsb' 0 16) (gfMask f ((s.reg rs2).extractLsb' 0 16))) &&&
      BitVec.ofNat 32 (2 ^ f.m - 1)) := by
  rw [← gfWord_gfMask, ← gfReduce, ← gfMul_eq_gfReduce, ← hf, ← State.gfReg_eq_extractLsb', ← State.gfReg_eq_extractLsb']
  rfl

theorem exec_gfSq :
    exec (.gfSq rd rs1) s = writeBack s rd (gfWord (gfMul s.field (regElement s rs1) (regElement s rs1))) := by
  rw [regElement_eq]
  rfl

theorem exec_gfInv : exec (.gfInv rd rs1) s = writeBack s rd (gfWord (gfInv s.field (regElement s rs1))) := by
  rw [regElement_eq, gfInv_gfMask]
  rfl

theorem exec_gfFrac : exec (.gfFrac rd rs1 rs2) s =
    writeBack s rd (gfWord (gfMul s.field (gfInv s.field (regElement s rs1)) (regElement s rs2))) := by
  rw [regElement_eq, regElement_eq, gfInv_gfMask]
  rfl

theorem exec_gfIsz : exec (.gfIsz rd rs1) s =
    writeBack s rd (if (s.reg rs1).toNat % 2 ^ 16 = 0 then 0x00001FFF else 0) := by
  have hzero : s.gfReg rs1 = 0#16 ↔ (s.reg rs1).toNat % 2 ^ 16 = 0 := by
    rw [← BitVec.toNat_inj, State.gfReg, BitVec.truncate_eq_setWidth, BitVec.toNat_setWidth, BitVec.toNat_ofNat,
      Nat.zero_mod]
  change writeBack s rd (gfWord (if s.gfReg rs1 = 0#16 then 0x1FFF else 0)) = _
  simp only [hzero]
  split <;> rfl

theorem exec_gfBitrev : exec (.gfBitrev rd rs1) s = writeBack s rd (gfWord (gfRev s.field (s.gfReg rs1))) := rfl

end

theorem natOfBits_testBit (bs : List Bool) (i : Nat) : (natOfBits bs).testBit i = bs.getD i false := by
  induction bs generalizing i with
  | nil => simp [natOfBits]
  | cons b bs ih =>
    have hbit : natOfBits (b :: bs) = Nat.bit b (natOfBits bs) := by
      cases b <;> simp [natOfBits, Nat.bit, Nat.add_comm]
    rw [hbit]
    cases i with
    | zero => rw [Nat.testBit_bit_zero, List.getD_cons_zero]
    | succ i => rw [Nat.testBit_bit_succ, ih, List.getD_cons_succ]

end Machine

theorem gfRev_getLsbD (f : Field) (a : Gf) (j : Nat) :
    (gfRev f a).getLsbD j = (decide (j < f.m) && a.getLsbD (f.m - 1 - j)) := by
  rw [gfRev, BitVec.getLsbD_ofNat, natOfBits_testBit]
  by_cases hj : j < f.m
  · simp [List.getD, hj, hj.trans f.m_lt]
  · simp [List.getD, hj]

theorem decodeWord_unary_mustBeZero {w : Word}
    (hop : fieldOp w = 0x41#8 ∨ fieldOp w = 0x42#8 ∨ fieldOp w = 0x44#8 ∨ fieldOp w = 0x45#8)
    (h : fieldC w ≠ 0#4) : decodeWord w = .error .mustBeZero := by
  have hzero : ¬ zeroFrom w 16 = true := by
    rw [zeroFrom_iff]
    exact fun hw => h (BitVec.eq_of_getLsbD_eq fun i _ => by simp [fieldC, hw])
  have hR2 (mk : Reg → Reg → Instr) : decodeR2 w mk = .error .mustBeZero := if_neg hzero
  rcases hop with hop | hop | hop | hop <;> simp only [decodeWord, hop] <;> exact hR2 _

-- The statements.

/-- Settles O17: `clmul` is the product of polynomials, coefficient by coefficient, and the meaning is the datapath. -/
theorem gfMulDatapath : Obligations.GfMulDatapath := by
  unfold Obligations.GfMulDatapath
  refine ⟨fun a b k _ => clmul_getLsbD a b k, fun s rd rs1 rs2 hm => ?_, fun s rd rs1 rs2 hm => ?_⟩
  · rw [exec_gfMul s rd rs1 rs2 (f := .m12) (Field.m_injective hm)]
    exact completes_writeBack ..
  · rw [exec_gfMul s rd rs1 rs2 (f := .m13) (Field.m_injective hm)]
    exact completes_writeBack ..

/-- Settles O18: the two steps of the reduction divide by p(z), and the field product is the remainder. -/
theorem gfMulIsFieldProduct : Obligations.GfMulIsFieldProduct := by
  unfold Obligations.GfMulIsFieldProduct
  intro f a b ha
  refine ⟨canonical_gfMul f a b, gfQuotient f (clmul a (gfMask f b)), ?_⟩
  rw [append_eq_gfWord, ← gfMask_eq_and]
  exact clmul_eq_quotient_xor_gfMul ha b

/-- Settles O19: the laws are those of GF(2^m). -/
theorem gfFieldLaws : Obligations.GfFieldLaws := by
  unfold Obligations.GfFieldLaws
  intro f a b c ha hb hc
  exact ⟨gfMul_comm ha hb, gfMul_assoc ha hb hc, gfMul_xor ha hb hc, gfMul_one ha, gfMul_zero ha, gfMul_gfInv ha,
    gfPow_two_pow_m ha⟩

/-- Settles O20: the chain of R123 is the power 2^m - 2, which is the inverse in GF(2^m). -/
theorem gfSquareInverseFraction : Obligations.GfSquareInverseFraction := by
  unfold Obligations.GfSquareInverseFraction
  refine ⟨fun s rd rs1 rs2 => ?_, fun w hop h => decodeWord_unary_mustBeZero (by tauto) h⟩
  intro f a num
  have ha : Canonical f a := canonical_regElement s rs1
  have hnum : Canonical f num := canonical_regElement s rs2
  have hzero (h : a = 0#16) : gfInv f a = 0#16 := by rw [h, gfInv_zero]
  refine ⟨?_, ⟨gfInv f a, ?_, canonical_gfInv f a, gfInv_eq_gfPow ha, hzero, fun h => ⟨gfMul_gfInv ha h, fun c hc =>
    eq_gfInv_of_gfMul_eq_one ha hc h⟩⟩, gfMul f (gfInv f a) num, ?_, canonical_gfMul .., by rw [gfInv_eq_gfPow ha],
    fun h => ?_, gfMul_gfInv_gfMul ha hnum⟩
  · rw [append_eq_gfWord, exec_gfSq]
    exact completes_writeBack ..
  · rw [append_eq_gfWord, exec_gfInv]
    exact completes_writeBack ..
  · rw [append_eq_gfWord, exec_gfFrac]
    exact completes_writeBack ..
  · rw [hzero h, zero_gfMul hnum]
    rfl

/-- Settles O21: the zero test reads all 16 bits, and the sum of R126 has the reversed bits. -/
theorem gfIszBitrevResults : Obligations.GfIszBitrevResults := by
  unfold Obligations.GfIszBitrevResults
  refine ⟨fun s rd rs1 => ⟨?_, _, completes_writeBack .., fun j => ?_⟩,
    fun w hop h => decodeWord_unary_mustBeZero (by tauto) h⟩
  · rw [exec_gfIsz]
    exact completes_writeBack ..
  · have hm : s.field.m - 1 - j < 16 := by have := s.field.m_lt; omega
    rw [getLsbD_gfWord, gfRev_getLsbD, State.gfReg_getLsbD s rs1 hm]
    rfl

end Sys2Proof

/-!
The sorting engine (spec/42_sort.md R140 to R142). Its insertion sort is the library's, which gives the permutation and
the order; and what an engine reads as a list of elements is the array of values that the spec sees in the same bytes.
-/

namespace Sys2Proof.Machine

-- The order (42_sort.md R140).

section
variable {α : Type} (le : α → α → Bool)

theorem insertBy_eq_orderedInsert (x : α) (ys : List α) :
    insertBy le x ys = ys.orderedInsert (fun a b => le a b) x := by
  induction ys with
  | nil => rfl
  | cons y ys ih => rw [insertBy, ih, List.orderedInsert_cons]

theorem sortBy_eq_insertionSort (xs : List α) : sortBy le xs = xs.insertionSort (fun a b => le a b) := by
  induction xs with
  | nil => rfl
  | cons x xs ih => rw [sortBy, ih, insertBy_eq_orderedInsert, List.insertionSort_cons]

theorem sortBy_perm (xs : List α) : (sortBy le xs).Perm xs := by
  rw [sortBy_eq_insertionSort]
  exact List.perm_insertionSort _ xs

variable {le}

/-- Sorting by the numbers that `f` gives the elements puts those numbers in order. -/
theorem sortBy_pairwise_of_key {β : Type} [LinearOrder β] (f : α → β) (hle : ∀ a b, le a b = true ↔ f a ≤ f b)
    (xs : List α) : (sortBy le xs).Pairwise fun a b => f a ≤ f b := by
  have htotal : Std.Total fun a b => le a b = true := ⟨fun a b => by simpa only [hle] using le_total (f a) (f b)⟩
  have htrans : IsTrans α fun a b => le a b = true := ⟨fun a b c => by simpa only [hle] using le_trans⟩
  rw [sortBy_eq_insertionSort]
  exact (List.pairwise_insertionSort (fun a b => le a b = true) xs).imp (hle _ _).mp

end

theorem sortSigned_pairwise (xs : List Word) : (sortSigned xs).Pairwise fun a b => a.toInt ≤ b.toInt :=
  sortBy_pairwise_of_key BitVec.toInt (fun _ _ => decide_eq_true_iff) xs

theorem sortUnsigned_pairwise (xs : List Lane) : (sortUnsigned xs).Pairwise fun a b => a.toNat ≤ b.toNat :=
  sortBy_pairwise_of_key BitVec.toNat (fun _ _ => decide_eq_true_iff) xs

-- Arrays in bytes (20_memory.md R61).

/-- `elems` lists the little-endian values of k bytes each that stand in a run of bytes, and `value` is the i-th of them:
what an engine reads, and what the statements say of the same bytes (20_memory.md R61). -/
structure ReadsArray {w : Nat} (k : Nat) (elems : List Byte → List (BitVec w)) (value : List Byte → Nat → BitVec w) :
    Prop where
  width : w = 8 * k
  elems_nil : elems [] = []
  elems_append : ∀ bs rest, bs.length = k → elems (bs ++ rest) = BitVec.ofNat w (leNat bs) :: elems rest
  value_zero : ∀ bs rest, bs.length = k → value (bs ++ rest) 0 = BitVec.ofNat w (leNat bs)
  value_succ : ∀ bs rest i, bs.length = k → value (bs ++ rest) (i + 1) = value rest i

namespace ReadsArray

variable {w k n : Nat} {elems : List Byte → List (BitVec w)} {value : List Byte → Nat → BitVec w} {bs : List Byte}

theorem elems_eq_map_value (h : ReadsArray k elems value) (hlen : bs.length = k * n) :
    elems bs = (List.range n).map (value bs) := by
  induction n generalizing bs with
  | zero =>
    rw [List.eq_nil_of_length_eq_zero hlen, h.elems_nil]
    rfl
  | succ n ih =>
    have hk : k ≤ bs.length := hlen ▸ Nat.le_mul_of_pos_right k n.succ_pos
    obtain ⟨b, rest, rfl, hb⟩ : ∃ b rest, bs = b ++ rest ∧ b.length = k :=
      ⟨bs.take k, bs.drop k, (List.take_append_drop k bs).symm, List.length_take_of_le hk⟩
    have hrest : rest.length = k * n := by
      rw [List.length_append, Nat.mul_succ] at hlen
      omega
    rw [h.elems_append b rest hb, ih hrest, List.range_succ_eq_map, List.map_cons, List.map_map, h.value_zero b rest hb]
    exact congrArg _ (List.map_congr_left fun i _ => (h.value_succ b rest i hb).symm)

/-- An array that was stored is read back (20_memory.md R61). -/
theorem elems_bytesOf (h : ReadsArray k elems value) (xs : List (BitVec w)) : elems (bytesOf k xs) = xs := by
  induction xs with
  | nil => exact h.elems_nil
  | cons x xs ih =>
    have hx : x.toNat < 256 ^ k := by
      calc x.toNat < 2 ^ w := x.isLt
        _ = 256 ^ k := by rw [h.width, Nat.pow_mul]
    have hcons : bytesOf k (x :: xs) = leBytes k x.toNat ++ bytesOf k xs := rfl
    rw [hcons, h.elems_append _ _ (leBytes_length ..), ih, leNat_leBytes, Nat.mod_eq_of_lt hx, BitVec.ofNat_toNat,
      BitVec.setWidth_eq]

/-- The values of a stored array are its elements. -/
theorem map_value_bytesOf (h : ReadsArray k elems value) {xs : List (BitVec w)} (hlen : xs.length = n) :
    (List.range n).map (value (bytesOf k xs)) = xs := by
  rw [← h.elems_eq_map_value (by rw [bytesOf_length, hlen]), h.elems_bytesOf]

/-- A rearrangement in order, stored in place of the array: the same values, neighbours in order (42_sort.md R140). -/
theorem values_of_sorted (h : ReadsArray k elems value) (hlen : bs.length = k * n) {xs : List (BitVec w)}
    (hperm : xs.Perm (elems bs)) {r : BitVec w → BitVec w → Prop} (hsorted : xs.Pairwise r) :
    (bytesOf k xs).length = k * n ∧
    ((List.range n).map (value (bytesOf k xs))).Perm ((List.range n).map (value bs)) ∧
    ∀ i, i + 1 < n → r (value (bytesOf k xs) i) (value (bytesOf k xs) (i + 1)) := by
  rw [h.elems_eq_map_value hlen] at hperm
  have hxs : xs.length = n := by simpa using hperm.length_eq
  have hval := h.map_value_bytesOf hxs
  refine ⟨by rw [bytesOf_length, hxs], by rwa [hval], fun i hi => ?_⟩
  rw [← hval, List.pairwise_map] at hsorted
  exact (List.isChain_range _ n).mp hsorted.isChain i (by omega)

end ReadsArray

theorem toNat_append_eq {m n : Nat} (x : BitVec m) (y : BitVec n) : (x ++ y).toNat = x.toNat * 2 ^ n + y.toNat := by
  rw [BitVec.toNat_append, ← Nat.shiftLeft_add_eq_or_of_lt y.isLt, Nat.shiftLeft_eq]

theorem append_four_eq_ofNat_leNat (b0 b1 b2 b3 : Byte) :
    b3 ++ b2 ++ b1 ++ b0 = BitVec.ofNat 32 (leNat [b0, b1, b2, b3]) := by
  have hlt : leNat [b0, b1, b2, b3] < 2 ^ 32 := (leNat_lt _).trans_eq (by norm_num)
  refine BitVec.eq_of_toNat_eq ?_
  rw [BitVec.toNat_ofNat, Nat.mod_eq_of_lt hlt]
  simp only [toNat_append_byte, leNat]
  omega

theorem append_eight_eq_ofNat_leNat (b0 b1 b2 b3 b4 b5 b6 b7 : Byte) :
    b7 ++ b6 ++ b5 ++ b4 ++ b3 ++ b2 ++ b1 ++ b0 = BitVec.ofNat 64 (leNat [b0, b1, b2, b3, b4, b5, b6, b7]) := by
  have hlt : leNat [b0, b1, b2, b3, b4, b5, b6, b7] < 2 ^ 64 := (leNat_lt _).trans_eq (by norm_num)
  refine BitVec.eq_of_toNat_eq ?_
  rw [BitVec.toNat_ofNat, Nat.mod_eq_of_lt hlt]
  simp only [toNat_append_byte, leNat]
  omega

theorem append_halves_eq_append_eight (b0 b1 b2 b3 b4 b5 b6 b7 : Byte) :
    (b7 ++ b6 ++ b5 ++ b4) ++ (b3 ++ b2 ++ b1 ++ b0) = b7 ++ b6 ++ b5 ++ b4 ++ b3 ++ b2 ++ b1 ++ b0 := by
  refine BitVec.eq_of_toNat_eq ?_
  simp only [toNat_append_eq]
  omega

theorem readsArray_word : ReadsArray 4 elems32 word where
  width := rfl
  elems_nil := rfl
  elems_append
    | [b0, b1, b2, b3], rest, _ => congrArg (· :: elems32 rest) (append_four_eq_ofNat_leNat b0 b1 b2 b3)
  value_zero
    | [b0, b1, b2, b3], _, _ => append_four_eq_ofNat_leNat b0 b1 b2 b3
  value_succ
    | [_, _, _, _], _, _, _ => rfl

theorem readsArray_quad : ReadsArray 8 elems64 quad where
  width := rfl
  elems_nil := rfl
  elems_append
    | [b0, b1, b2, b3, b4, b5, b6, b7], rest, _ =>
      congrArg (· :: elems64 rest) (append_eight_eq_ofNat_leNat b0 b1 b2 b3 b4 b5 b6 b7)
  value_zero
    | [b0, b1, b2, b3, b4, b5, b6, b7], _, _ =>
      (append_halves_eq_append_eight ..).trans (append_eight_eq_ofNat_leNat b0 b1 b2 b3 b4 b5 b6 b7)
  value_succ
    | [_, _, _, _, _, _, _, _], _, _, _ => rfl

-- The instructions.

theorem State.operand_zero (s : State) (rb : Reg) : s.operand rb 0 = s.reg rb := by
  rw [State.operand, BitVec.add_zero]

/-- An engine that reads one buffer and writes it back: the check of the buffer, and its new content (20_memory.md R66,
R67). -/
theorem inPlaceEngine {i : Instr} {s : State} {rd : Reg} {x : Word} {len : Nat} {f : List Byte → List Byte}
    (hw : WellFormed i = true) (hx : exec i s =
      engineChecks i s [(x, len)] (withBuf s (x, len) fun bs => engineDone s rd 0 [(x, f bs)])) :
    FaultsAtFirstBadBuffer i s [(x, len)] ∧
    ∀ bs : List Byte, bs.length = len → Fits s (x, len) → Holds s x bs →
      Completes s (exec i s) rd 0#32 (s.pc + 4) [(x, f bs)] := by
  refine ⟨engineChecks_faults hw _ hx, fun bs hlen hfit hbs => ?_⟩
  subst hlen
  rw [hx, engineChecks_pass hw (by simpa using hfit), withBuf, withRead_ok hbs]
  exact completes_engineDone ..

theorem exec_sort32 (s : State) (rd rb : Reg) : exec (.sort32 rd rb) s =
    let buf := (s.reg rb, 4 * (s.reg (rb + 1#4)).toNat)
    engineChecks (.sort32 rd rb) s [buf]
      (withBuf s buf fun bs => engineDone s rd 0 [(s.reg rb, bytesOf 4 (sortSigned (elems32 bs)))]) := by
  rw [← s.operand_zero rb]
  rfl

theorem exec_sort64 (s : State) (rd rb : Reg) : exec (.sort64 rd rb) s =
    let buf := (s.reg rb, 8 * (s.reg (rb + 1#4)).toNat)
    engineChecks (.sort64 rd rb) s [buf]
      (withBuf s buf fun bs => engineDone s rd 0 [(s.reg rb, bytesOf 8 (sortUnsigned (elems64 bs)))]) := by
  rw [← s.operand_zero rb]
  rfl

end Sys2Proof.Machine

namespace Sys2Proof

open Sys2Proof.Machine

/-- Settles O22: each engine stores the insertion sort of the elements it reads in place of them. -/
theorem sortResults : Obligations.SortResults := by
  unfold Obligations.SortResults
  refine ⟨fun s rd rb hw => ?_, fun s rd rb hw => ?_⟩
  · obtain ⟨hfault, hdone⟩ := inPlaceEngine hw (exec_sort32 s rd rb)
    refine ⟨hfault, fun bs hlen hfit hbs => ⟨_, hdone bs hlen hfit hbs, ?_⟩⟩
    exact readsArray_word.values_of_sorted hlen (sortBy_perm ..) (sortSigned_pairwise _)
  · obtain ⟨hfault, hdone⟩ := inPlaceEngine hw (exec_sort64 s rd rb)
    refine ⟨hfault, fun bs hlen hfit hbs => ⟨_, hdone bs hlen hfit hbs, ?_⟩⟩
    exact readsArray_quad.values_of_sorted hlen (sortBy_perm ..) (sortUnsigned_pairwise _)

end Sys2Proof

/-!
What the engines of spec/43_benes.md have in common: the checks of their buffers (spec/20_memory.md R66), the arrays and
bit strings that they read and write (spec/20_memory.md R61, spec/00_scope.md R15); and the first of them, TRANSPOSE.
-/

namespace Sys2Proof.Machine

-- The checks and the reads of an engine (20_memory.md R66, R67).

/-- An engine that begins with the checks of its buffers faults at the first bad one, or goes on (20_memory.md R66). -/
theorem exec_of_engineChecks {i : Instr} {s : State} {bufs : List Buffer} {k : Host.Outcome State Fault Refusal}
    (hw : WellFormed i = true) (hx : exec i s = engineChecks i s bufs k) :
    FaultsAtFirstBadBuffer i s bufs ∧ ((∀ b ∈ bufs, Fits s b) → exec i s = k) :=
  ⟨engineChecks_faults hw k hx, fun hfit => hx.trans (engineChecks_pass hw hfit k)⟩

theorem withBuf_of_holds {s : State} {a : Word} {len : Nat} {bs : List Byte} (hlen : bs.length = len) (h : Holds s a bs)
    (k : List Byte → Host.Outcome State Fault Refusal) : withBuf s (a, len) k = k bs := by
  subst hlen
  exact withRead_ok h k

/-- An engine that checks its output buffer, then its input buffer, and reads the input (20_memory.md R66, R67). -/
theorem outInEngine {i : Instr} {s : State} {out inp : Word} {m n : Nat}
    {k : List Byte → Host.Outcome State Fault Refusal} (hw : WellFormed i = true)
    (hx : exec i s = engineChecks i s [(out, m), (inp, n)] (withBuf s (inp, n) k)) :
    FaultsAtFirstBadBuffer i s [(out, m), (inp, n)] ∧
    ∀ bs : List Byte, bs.length = n → Fits s (out, m) → Fits s (inp, n) → Holds s inp bs → exec i s = k bs := by
  obtain ⟨hfault, hpass⟩ := exec_of_engineChecks hw hx
  refine ⟨hfault, fun bs hlen hout hinp hbs => ?_⟩
  rw [hpass (by simp [hout, hinp]), withBuf_of_holds hlen hbs]

section
variable (s : State) (rd rb : Reg)

theorem exec_transpose : exec (.transpose rd rb) s =
    engineChecks (.transpose rd rb) s [(s.reg rb, 512), (s.reg (rb + 1#4), 512)]
      (withBuf s (s.reg (rb + 1#4), 512) fun bs =>
        engineDone s rd 0 [(s.reg rb, bytesOf 8 (transposeRows (elems64 bs)))]) := by
  rw [← s.operand_zero rb]
  rfl

theorem exec_benes (rev : Bool) : exec (.benes rd rb rev) s =
    let v := s.build.variant
    engineChecks (.benes rd rb rev) s [(s.reg rb, v.nfull / 8), (s.reg (rb + 1#4), v.condBytes)]
      (withBuf s (s.reg rb, v.nfull / 8) fun rBytes =>
        withBuf s (s.reg (rb + 1#4), v.condBytes) fun cBytes =>
          engineDone s rd 0
            [(s.reg rb, bitVectorBytes (benesPass v.m rev cBytes.toArray (bitVector v.nfull rBytes)))]) := by
  rw [← s.operand_zero rb]
  rfl

theorem exec_cbits : exec (.cbits rd rb) s =
    let v := s.build.variant
    engineChecks (.cbits rd rb) s [(s.reg rb, v.condBytes), (s.reg (rb + 1#4), 2 * v.nfull)]
      (withBuf s (s.reg (rb + 1#4), 2 * v.nfull) fun bs =>
        if isPermutation v.nfull (elems16 bs) then
          engineDone s rd 0 [(s.reg rb, bitVectorBytes (controlBits v.m (elems16 bs)))]
        else raiseFault s .badPerm (s.reg (rb + 1#4)) (encode (.cbits rd rb))) := by
  rw [← s.operand_zero rb]
  rfl

theorem exec_support : exec (.support rd rb) s =
    let v := s.build.variant
    engineChecks (.support rd rb) s [(s.reg rb, 2 * v.n), (s.reg (rb + 1#4), v.condBytes)]
      (withBuf s (s.reg (rb + 1#4), v.condBytes) fun bs =>
        engineDone s rd 0 [(s.reg rb, bytesOf 2 (supportOf v.field v.n bs))]) := by
  rw [← s.operand_zero rb]
  rfl

end

-- Arrays and bit strings (20_memory.md R61; 00_scope.md R15).

theorem ReadsArray.value_bytesOf {w k : Nat} {elems : List Byte → List (BitVec w)} {value : List Byte → Nat → BitVec w}
    (h : ReadsArray k elems value) {xs : List (BitVec w)} {i : Nat} (hi : i < xs.length) :
    value (bytesOf k xs) i = xs[i] := by
  rw [← List.getElem_of_eq (h.map_value_bytesOf rfl) (by simpa using hi), List.getElem_map, List.getElem_range]

theorem append_two_eq_ofNat_leNat (b0 b1 : Byte) : b1 ++ b0 = BitVec.ofNat 16 (leNat [b0, b1]) := by
  have hlt : leNat [b0, b1] < 2 ^ 16 := (leNat_lt _).trans_eq (by norm_num)
  refine BitVec.eq_of_toNat_eq ?_
  rw [BitVec.toNat_ofNat, Nat.mod_eq_of_lt hlt]
  simp only [toNat_append_byte, leNat]
  omega

theorem readsArray_half : ReadsArray 2 elems16 half where
  width := rfl
  elems_nil := rfl
  elems_append
    | [b0, b1], rest, _ => congrArg (· :: elems16 rest) (append_two_eq_ofNat_leNat b0 b1)
  value_zero
    | [b0, b1], _, _ => append_two_eq_ofNat_leNat b0 b1
  value_succ
    | [_, _], _, _, _ => rfl

theorem ofNat_natOfBits_getLsbD (w : Nat) (n : Nat) (f : Nat → Bool) (j : Nat) :
    (BitVec.ofNat w (natOfBits ((List.range n).map f))).getLsbD j = (decide (j < w) && (decide (j < n) && f j)) := by
  rw [BitVec.getLsbD_ofNat, natOfBits_testBit]
  by_cases hj : j < n <;> simp [List.getD, hj]

theorem bitAt_toArray (bs : List Byte) (p : Nat) : bitAt bs.toArray p = bit bs p := by
  simp [bitAt, bit]

/-- A bit string reads back from its bytes, with padding 0 (00_scope.md R15). -/
theorem bit_packBits (len : Nat) (f : Nat → Bool) (p : Nat) : bit (packBits len f) p = (decide (p < len) && f p) := by
  have hmod : p % 8 < 8 := Nat.mod_lt p (by decide)
  by_cases hq : p / 8 < (len + 7) / 8
  · rw [bit, packBits, List.getD_eq_getElem _ _ (by simpa using hq), List.getElem_map, List.getElem_range,
      ofNat_natOfBits_getLsbD, Nat.div_add_mod, decide_eq_true hmod, Bool.true_and, Bool.true_and]
  · rw [bit, packBits, List.getD_eq_default _ _ (by simpa using hq), decide_eq_false (by omega)]
    simp

theorem bit_bitVectorBytes (v : Array Bool) (p : Nat) : bit (bitVectorBytes v) p = v.getD p false := by
  rw [bitVectorBytes, bit_packBits]
  by_cases hp : p < v.size <;> simp [hp]

theorem bitVector_getD {n i : Nat} (bs : List Byte) (hi : i < n) : (bitVector n bs).getD i false = bit bs i := by
  rw [bitVector, tabulate_getD, if_pos hi, bitAt_toArray]

theorem transposeRow_getLsbD (w : Array Lane) (i : Nat) {j : Nat} (hj : j < 64) :
    (transposeRow w i).getLsbD j = (w.getD j 0).getLsbD i := by
  rw [transposeRow, ofNat_natOfBits_getLsbD, decide_eq_true hj, Bool.true_and, Bool.true_and]

theorem transposeRows_getElem (w : List Lane) {i : Nat} (hi : i < (transposeRows w).length) :
    (transposeRows w)[i] = transposeRow w.toArray i := by simp [transposeRows]

end Sys2Proof.Machine

namespace Sys2Proof

open Sys2Proof.Machine

/-- Settles O23: bit j of row i is the sum's bit j, and both buffers are arrays of 64 rows. -/
theorem transposeResult : Obligations.TransposeResult := by
  unfold Obligations.TransposeResult
  intro s rd rb hw out inp
  obtain ⟨hfault, hdone⟩ := outInEngine hw (exec_transpose s rd rb)
  refine ⟨hfault, fun bs hlen hout hinp hbs =>
    ⟨bytesOf 8 (transposeRows (elems64 bs)), ?_, by simp, fun i hi j hj => ?_⟩⟩
  · rw [hdone bs hlen hout hinp hbs]
    exact completes_engineDone ..
  · rw [readsArray_quad.value_bytesOf (by simpa using hi), transposeRows_getElem, transposeRow_getLsbD _ i hj,
      readsArray_quad.elems_eq_map_value (n := 64) hlen]
    simp [hj]

end Sys2Proof

/-!
The Benes network (spec/43_benes.md R151 to R153) and the support that it gives (R157). A layer is an involution of the
positions, so the layers backwards undo the layers forwards.
-/

namespace Sys2Proof.Machine

-- The pairs of a layer (43_benes.md R151).

section
variable (e k i j : Nat)

/-- The lower position of pair k is k with a 0 inserted as bit e. -/
theorem pairLo_testBit :
    (pairLo e k).testBit j = if j < e then k.testBit j else decide (j ≠ e) && k.testBit (j - 1) := by
  rw [pairLo, Nat.testBit_or, Nat.testBit_shiftLeft, Nat.testBit_shiftRight, Nat.testBit_mod_two_pow]
  grind

/-- The pair of position i is i without its bit e. -/
theorem pairOf_testBit : (pairOf e i).testBit j = if j < e then i.testBit j else i.testBit (j + 1) := by
  rw [pairOf, Nat.testBit_or, Nat.testBit_shiftLeft, Nat.testBit_shiftRight, Nat.testBit_mod_two_pow]
  grind

theorem pairMate_testBit : (pairMate e i).testBit j = (i.testBit j ^^ decide (j = e)) := by
  rw [pairMate, Nat.testBit_xor, Nat.testBit_two_pow]
  grind

@[simp] theorem pairOf_pairLo : pairOf e (pairLo e k) = k := by
  refine Nat.eq_of_testBit_eq fun j => ?_
  simp only [pairOf_testBit, pairLo_testBit]
  grind

@[simp] theorem pairOf_pairMate : pairOf e (pairMate e i) = pairOf e i := by
  refine Nat.eq_of_testBit_eq fun j => ?_
  simp only [pairOf_testBit, pairMate_testBit]
  grind

@[simp] theorem pairMate_pairMate : pairMate e (pairMate e i) = i := Nat.xor_xor_cancel_right ..

theorem pairLo_eq : pairLo e k = k / 2 ^ e * 2 ^ (e + 1) + k % 2 ^ e := by
  have hlow : k % 2 ^ e < 2 ^ (e + 1) := (Nat.mod_lt _ (Nat.two_pow_pos e)).trans (Nat.pow_lt_pow_succ Nat.one_lt_two)
  rw [pairLo, ← Nat.shiftLeft_add_eq_or_of_lt hlow, Nat.shiftRight_eq_div_pow, Nat.shiftLeft_eq]

/-- Bit e of the lower position is 0, so to flip it is to add 2^e. -/
theorem pairMate_pairLo : pairMate e (pairLo e k) = pairHi e k := by
  have hpos := Nat.two_pow_pos e
  have hlo : k % 2 ^ e + 2 ^ e * (2 * (k / 2 ^ e)) = pairLo e k := by rw [pairLo_eq, pow_succ]; ring
  obtain ⟨hdiv, hmod⟩ := (Nat.div_mod_unique hpos).mpr ⟨hlo, Nat.mod_lt k hpos⟩
  rw [pairMate, pairHi, ← Nat.div_add_mod (pairLo e k ^^^ 2 ^ e) (2 ^ e), Nat.xor_div_two_pow, Nat.xor_mod_two_pow,
    hdiv, hmod, Nat.div_self hpos, Nat.mod_self, Nat.xor_zero, Nat.xor_one_of_even (even_two_mul _), ← hlo]
  ring

theorem pairMate_pairHi : pairMate e (pairHi e k) = pairLo e k := by
  rw [← pairMate_pairLo, pairMate_pairMate]

theorem pairOf_pairHi : pairOf e (pairHi e k) = k := by
  rw [← pairMate_pairLo, pairOf_pairMate, pairOf_pairLo]

theorem eq_pairLo_or_eq_pairHi : i = pairLo e (pairOf e i) ∨ i = pairHi e (pairOf e i) := by
  rw [← pairMate_pairLo]
  cases hbit : i.testBit e with
  | false =>
    refine .inl (Nat.eq_of_testBit_eq fun j => ?_)
    simp only [pairOf_testBit, pairLo_testBit]
    grind
  | true =>
    refine .inr (Nat.eq_of_testBit_eq fun j => ?_)
    simp only [pairOf_testBit, pairLo_testBit, pairMate_testBit]
    grind

end

section
variable {m e : Nat} (h : e < m)
include h

theorem pairMate_lt {i : Nat} (hi : i < 2 ^ m) : pairMate e i < 2 ^ m :=
  Nat.xor_lt_two_pow hi (Nat.pow_lt_pow_right Nat.one_lt_two h)

theorem pairLo_lt {k : Nat} (hk : k < 2 ^ (m - 1)) : pairLo e k < 2 ^ m := by
  refine Nat.lt_pow_two_of_testBit _ fun j hj => ?_
  have hkj : k < 2 ^ (j - 1) := hk.trans_le (Nat.pow_le_pow_right Nat.two_pos (by omega))
  rw [pairLo_testBit, if_neg (by omega), Nat.testBit_lt_two_pow hkj, Bool.and_false]

theorem pairHi_lt {k : Nat} (hk : k < 2 ^ (m - 1)) : pairHi e k < 2 ^ m := by
  rw [← pairMate_pairLo]
  exact pairMate_lt h (pairLo_lt h hk)

theorem pairOf_lt {i : Nat} (hi : i < 2 ^ m) : pairOf e i < 2 ^ (m - 1) := by
  refine Nat.lt_pow_two_of_testBit _ fun j hj => ?_
  have hij : i < 2 ^ (j + 1) := hi.trans_le (Nat.pow_le_pow_right Nat.two_pos (by omega))
  rw [pairOf_testBit, if_neg (by omega), Nat.testBit_lt_two_pow hij]

end

theorem strideExp_lt {m l : Nat} (h : l < 2 * m - 1) : strideExp m l < m := by
  unfold strideExp
  split <;> omega

-- Where the layers take each position (43_benes.md R151, R153).

/-- The position whose entry layer l moves to position i. -/
def layerSource (m : Nat) (c : Array Byte) (l i : Nat) : Nat :=
  if controlBit m c l (pairOf (strideExp m l) i) then pairMate (strideExp m l) i else i

/-- The position whose entry the layers `ls`, first of the list first, move to position i. -/
def layersSource (m : Nat) (c : Array Byte) (ls : List Nat) (i : Nat) : Nat := ls.foldr (layerSource m c) i

section
variable (m : Nat) (c : Array Byte) (l : Nat)

theorem layerSource_involutive : Function.Involutive (layerSource m c l) := by
  intro i
  unfold layerSource
  split
  · next hc => rw [pairOf_pairMate, if_pos hc, pairMate_pairMate]
  · rfl

theorem layerSource_pairLo (k : Nat) : layerSource m c l (pairLo (strideExp m l) k) =
    if controlBit m c l k then pairHi (strideExp m l) k else pairLo (strideExp m l) k := by
  rw [layerSource, pairOf_pairLo, pairMate_pairLo]

theorem layerSource_pairHi (k : Nat) : layerSource m c l (pairHi (strideExp m l) k) =
    if controlBit m c l k then pairLo (strideExp m l) k else pairHi (strideExp m l) k := by
  rw [layerSource, pairOf_pairHi, pairMate_pairHi]

/-- Layers backwards undo the layers forwards, because each is an involution. -/
theorem layersSource_reverse_cancel (ls : List Nat) (i : Nat) :
    layersSource m c ls.reverse (layersSource m c ls i) = i := by
  induction ls with
  | nil => rfl
  | cons l ls ih =>
    rw [List.reverse_cons, layersSource, List.foldr_append, layersSource, List.foldr_cons, List.foldr_cons,
      List.foldr_nil, layerSource_involutive m c l]
    exact ih

end

section
variable {α : Type} {m l : Nat} {v : Array α} {i : Nat} {ls : List Nat}

theorem layerSource_lt (c : Array Byte) (hl : l < 2 * m - 1) (hi : i < 2 ^ m) : layerSource m c l i < 2 ^ m := by
  unfold layerSource
  split
  · exact pairMate_lt (strideExp_lt hl) hi
  · exact hi

theorem layersSource_lt (c : Array Byte) (hls : ∀ l ∈ ls, l < 2 * m - 1) (hi : i < 2 ^ m) :
    layersSource m c ls i < 2 ^ m := by
  induction ls with
  | nil => exact hi
  | cons l ls ih =>
    rw [List.forall_mem_cons] at hls
    exact layerSource_lt c hls.1 (ih hls.2)

theorem applyLayer_getElem? (c : Array Byte) (hl : l < 2 * m - 1) (hv : v.size = 2 ^ m) (hi : i < 2 ^ m) :
    (applyLayer m c l v)[i]? = v[layerSource m c l i]? := by
  have hmate : pairMate (strideExp m l) i < v.size := hv ▸ pairMate_lt (strideExp_lt hl) hi
  have hget : v[i]? = some v[i] := Array.getElem?_eq_getElem (hv ▸ hi)
  rw [applyLayer, Array.getElem?_mapIdx, hget, Option.map_some, layerSource]
  by_cases hc : controlBit m c l (pairOf (strideExp m l) i)
  · rw [if_pos hc, if_pos hc, Array.getD_eq_getD_getElem?, Array.getElem?_eq_getElem hmate, Option.getD_some]
  · rw [if_neg hc, if_neg hc, hget]

theorem applyLayers_getElem? (c : Array Byte) (hls : ∀ l ∈ ls, l < 2 * m - 1) (hv : v.size = 2 ^ m) (hi : i < 2 ^ m) :
    (applyLayers m c ls v)[i]? = v[layersSource m c ls i]? := by
  induction ls generalizing v with
  | nil => rfl
  | cons l ls ih =>
    rw [List.forall_mem_cons] at hls
    calc (applyLayers m c ls (applyLayer m c l v))[i]?
      _ = (applyLayer m c l v)[layersSource m c ls i]? := ih hls.2 ((applyLayer_size ..).trans hv)
      _ = v[layersSource m c (l :: ls) i]? := applyLayer_getElem? c hls.1 hv (layersSource_lt c hls.2 hi)

end

-- A pass (43_benes.md R153).

/-- The layers of a pass, in the order in which it applies them (43_benes.md R153). -/
def passLayers (m : Nat) (rev : Bool) : List Nat :=
  if rev then (List.range (2 * m - 1)).reverse else List.range (2 * m - 1)

theorem lt_of_mem_passLayers {m l : Nat} {rev : Bool} (h : l ∈ passLayers m rev) : l < 2 * m - 1 := by
  cases rev <;> simpa [passLayers] using h

section
variable {α : Type} {m : Nat} {v : Array α} (c : List Byte) {i : Nat}

theorem benesPass_getElem? (rev : Bool) (hv : v.size = 2 ^ m) (hi : i < 2 ^ m) :
    (benesPass m rev c.toArray v)[i]? = v[layersSource m c.toArray (passLayers m rev) i]? :=
  applyLayers_getElem? _ (fun _ => lt_of_mem_passLayers) hv hi

/-- σ_c is where the forward pass takes the positions from. -/
theorem networkPerm_eq (hi : i < 2 ^ m) : networkPerm m c i = layersSource m c.toArray (passLayers m false) i := by
  have hlt := layersSource_lt c.toArray (fun _ => lt_of_mem_passLayers (rev := false)) hi
  rw [networkPerm, Array.getD_eq_getD_getElem?, benesPass_getElem? c false Array.size_range hi,
    Array.getElem?_eq_getElem (Array.size_range.symm ▸ hlt), Array.getElem_range, Option.getD_some]

theorem networkPerm_lt (hi : i < 2 ^ m) : networkPerm m c i < 2 ^ m := by
  rw [networkPerm_eq c hi]
  exact layersSource_lt c.toArray (fun _ => lt_of_mem_passLayers) hi

theorem benesPass_forward_getElem? (hv : v.size = 2 ^ m) (hi : i < 2 ^ m) :
    (benesPass m false c.toArray v)[i]? = v[networkPerm m c i]? := by
  rw [benesPass_getElem? c false hv hi, networkPerm_eq c hi]

/-- The reverse pass takes the positions back. -/
theorem layersSource_reverse_networkPerm (hi : i < 2 ^ m) :
    layersSource m c.toArray (passLayers m true) (networkPerm m c i) = i := by
  rw [networkPerm_eq c hi]
  exact layersSource_reverse_cancel ..

theorem networkPerm_injOn : Set.InjOn (networkPerm m c) {i | i < 2 ^ m} := fun i hi j hj h => by
  rw [← layersSource_reverse_networkPerm c hi, h, layersSource_reverse_networkPerm c hj]

/-- The reverse pass takes position x from the position that the forward pass takes from x. -/
theorem exists_networkPerm_eq (hi : i < 2 ^ m) : ∃ j < 2 ^ m, networkPerm m c j = i := by
  have hlt := layersSource_lt c.toArray (fun _ => lt_of_mem_passLayers (rev := true)) hi
  refine ⟨_, hlt, ?_⟩
  rw [networkPerm_eq c hlt]
  have := layersSource_reverse_cancel m c.toArray (passLayers m true) i
  rwa [passLayers, if_pos rfl, List.reverse_reverse] at this

end

-- The layers one by one (43_benes.md R152, R153).

theorem controlBit_toArray (m : Nat) (c : List Byte) (l k : Nat) :
    controlBit m c.toArray l k = bit c (l * 2 ^ (m - 1) + k) := bitAt_toArray ..

theorem applyLayer_getD {α : Type} {m l i : Nat} {v : Array α} (c : Array Byte) (hl : l < 2 * m - 1)
    (hv : v.size = 2 ^ m) (hi : i < 2 ^ m) (d : α) :
    (applyLayer m c l v).getD i d = v.getD (layerSource m c l i) d := by
  rw [Array.getD_eq_getD_getElem?, Array.getD_eq_getD_getElem?, applyLayer_getElem? c hl hv hi]

/-- One layer swaps the pairs whose control bit is 1. -/
theorem layerSwaps_applyLayer {m l : Nat} {v : Array Bool} (c : List Byte) (hl : l < 2 * m - 1) (hv : v.size = 2 ^ m) :
    LayerSwaps m c l (v.getD · false) ((applyLayer m c.toArray l v).getD · false) := by
  intro k hk
  have he := strideExp_lt hl
  simp only [applyLayer_getD _ hl hv (pairLo_lt he hk), applyLayer_getD _ hl hv (pairHi_lt he hk), layerSource_pairLo,
    layerSource_pairHi, controlBit_toArray]
  split <;> exact ⟨rfl, rfl⟩

theorem length_passLayers (m : Nat) (rev : Bool) : (passLayers m rev).length = 2 * m - 1 := by
  cases rev <;> simp [passLayers]

theorem passLayers_getElem {m l : Nat} (rev : Bool) (hl : l < (passLayers m rev).length) :
    (passLayers m rev)[l] = if rev then 2 * m - 2 - l else l := by
  cases rev
  · simp [passLayers]
  · simp [passLayers]
    omega

/-- The vector after the first t layers of a pass (43_benes.md R153). -/
def afterLayers {α : Type} (m : Nat) (rev : Bool) (c : Array Byte) (v : Array α) (t : Nat) : Array α :=
  applyLayers m c ((passLayers m rev).take t) v

section
variable {α : Type} {m : Nat} (rev : Bool) (c : Array Byte) (v : Array α)

@[simp] theorem afterLayers_size (t : Nat) : (afterLayers m rev c v t).size = v.size := applyLayers_size ..

theorem afterLayers_zero : afterLayers m rev c v 0 = v := rfl

theorem afterLayers_succ {t : Nat} (ht : t < 2 * m - 1) :
    afterLayers m rev c v (t + 1) = applyLayer m c (if rev then 2 * m - 2 - t else t) (afterLayers m rev c v t) := by
  have ht' : t < (passLayers m rev).length := ht.trans_eq (length_passLayers m rev).symm
  rw [afterLayers, ← List.take_concat_get' _ _ ht', applyLayers, List.foldl_append, passLayers_getElem rev ht']
  rfl

theorem afterLayers_all : afterLayers m rev c v (2 * m - 1) = benesPass m rev c v := by
  rw [afterLayers, List.take_of_length_le (length_passLayers m rev).le]
  rfl

end

-- The support (43_benes.md R157).

theorem supportPlane_getD (f : Field) (c : List Byte) (j : Nat) {i : Nat} (hi : i < 2 ^ f.m) :
    (supportPlane f c.toArray j).getD i false = (gfRev f (BitVec.ofNat 16 (networkPerm f.m c i))).getLsbD j := by
  rw [supportPlane, Array.getD_eq_getD_getElem?, benesPass_forward_getElem? c (tabulate_size ..) hi,
    ← Array.getD_eq_getD_getElem?, tabulate_getD, if_pos (networkPerm_lt c hi)]

theorem supportOf_getElem (f : Field) {n : Nat} (c : List Byte) {i : Nat} (hi : i < (supportOf f n c).length)
    (hn : n ≤ 2 ^ f.m) : (supportOf f n c)[i] = gfRev f (BitVec.ofNat 16 (networkPerm f.m c i)) := by
  have hin : i < 2 ^ f.m := ((supportOf_length f n c) ▸ hi).trans_le hn
  refine BitVec.eq_of_getLsbD_eq fun j hj => ?_
  simp only [supportOf, List.getElem_map, List.getElem_range, List.map_map]
  rw [ofNat_natOfBits_getLsbD, Function.comp_apply, supportPlane_getD f c j hin, gfRev_getLsbD]
  simp [hj]

/-- The reversal of the low m bits has an inverse, itself. -/
theorem gfRev_gfRev {f : Field} {a : Gf} (ha : Canonical f a) : gfRev f (gfRev f a) = a := by
  refine BitVec.eq_of_getLsbD_eq fun j _ => ?_
  rw [gfRev_getLsbD, gfRev_getLsbD]
  by_cases hj : j < f.m
  · rw [decide_eq_true hj, decide_eq_true (by omega), Nat.sub_sub_self (by omega), Bool.true_and, Bool.true_and]
  · rw [decide_eq_false hj, Bool.false_and, (toNat_lt_two_pow_iff a f.m).mp ha j (by omega)]

theorem toNat_ofNat_of_lt_two_pow_m {f : Field} {x : Nat} (hx : x < 2 ^ f.m) : (BitVec.ofNat 16 x).toNat = x := by
  rw [BitVec.toNat_ofNat, Nat.mod_eq_of_lt (hx.trans (Nat.pow_lt_pow_right Nat.one_lt_two f.m_lt))]

theorem gfRev_ofNat_injOn {f : Field} {x y : Nat} (hx : x < 2 ^ f.m) (hy : y < 2 ^ f.m)
    (h : gfRev f (BitVec.ofNat 16 x) = gfRev f (BitVec.ofNat 16 y)) : x = y := by
  have hc {z : Nat} (hz : z < 2 ^ f.m) : Canonical f (BitVec.ofNat 16 z) := by
    rwa [Canonical, toNat_ofNat_of_lt_two_pow_m hz]
  have := congrArg (fun a => (gfRev f a).toNat) h
  rwa [gfRev_gfRev (hc hx), gfRev_gfRev (hc hy), toNat_ofNat_of_lt_two_pow_m hx, toNat_ofNat_of_lt_two_pow_m hy] at this

theorem Variant.n_le_nfull (v : Variant) : v.n ≤ v.nfull := by cases v <;> decide

end Sys2Proof.Machine

namespace Sys2Proof

open Sys2Proof.Machine

/-- Settles O24: the pair of a position is the position without the bit of the stride. -/
theorem benesPairsPartitionPositions : Obligations.BenesPairsPartitionPositions := by
  unfold Obligations.BenesPairsPartitionPositions
  intro m l _ hl e
  have he : e < m := strideExp_lt hl
  refine ⟨rfl, fun k hk => ⟨pairLo_eq e k, rfl, pairHi_lt he hk⟩, fun i hi =>
    ⟨pairOf e i, ⟨pairOf_lt he hi, eq_pairLo_or_eq_pairHi e i⟩, ?_⟩⟩
  rintro k ⟨-, rfl | rfl⟩
  · exact (pairOf_pairLo e k).symm
  · exact (pairOf_pairHi e k).symm

/-- Settles O25: the vector after t layers is x t, and the engine writes the one after all of them. -/
theorem benesAppliesLayersInOrder : Obligations.BenesAppliesLayersInOrder := by
  unfold Obligations.BenesAppliesLayersInOrder
  intro s rd rb rev hw v r c
  obtain ⟨hfault, hpass⟩ := exec_of_engineChecks hw (exec_benes s rd rb rev)
  refine ⟨hfault, fun rBytes cBytes hrlen hclen hrfit hcfit hr hc => ?_⟩
  refine ⟨bitVectorBytes (benesPass v.m rev cBytes.toArray (bitVector v.nfull rBytes)),
    fun t i => (afterLayers v.m rev cBytes.toArray (bitVector v.nfull rBytes) t).getD i false, ?_, ?_,
    fun i hi => ?_, fun l hl => ?_, fun i _ => ?_⟩
  · rw [hpass (by simp [hrfit, hcfit, v, r, c]), withBuf_of_holds hrlen hr, withBuf_of_holds hclen hc]
    exact completes_engineDone ..
  · rw [bitVectorBytes_length, benesPass_size, bitVector_size]
    exact Variant.nfull_div v
  · simp only [afterLayers_zero]
    exact bitVector_getD rBytes hi
  · simp only [afterLayers_succ _ _ _ hl]
    exact layerSwaps_applyLayer cBytes (by split <;> omega) ((afterLayers_size ..).trans (bitVector_size ..))
  · rw [bit_bitVectorBytes, ← afterLayers_all]

/-- Settles O26: the reverse pass takes every position back. -/
theorem benesMovesByOnePermutation : Obligations.BenesMovesByOnePermutation := by
  unfold Obligations.BenesMovesByOnePermutation
  intro m c _
  refine ⟨⟨fun i hi => networkPerm_lt c hi, fun x hx => exists_networkPerm_eq c hx⟩, fun α x hx i hi =>
    ⟨benesPass_forward_getElem? c hx hi, ?_⟩⟩
  rw [benesPass_getElem? c true hx (networkPerm_lt c hi), layersSource_reverse_networkPerm c hi]

/-- Settles O28: the planes are moved as one permutation moves them, and bitrev and that permutation are injective. -/
theorem supportResult : Obligations.SupportResult := by
  unfold Obligations.SupportResult
  intro s rd rb hw v out c
  obtain ⟨hfault, hdone⟩ := outInEngine hw (exec_support s rd rb)
  refine ⟨hfault, fun bs hlen hout hc hbs => ?_⟩
  have hlt {i : Nat} (hi : i < v.n) : i < 2 ^ v.m := hi.trans_le (Variant.n_le_nfull v)
  have helem (i : Nat) (hi : i < v.n) : half (bytesOf 2 (supportOf v.field v.n bs)) i =
      gfRev v.field (BitVec.ofNat 16 (networkPerm v.m bs i)) := by
    rw [readsArray_half.value_bytesOf (by simpa using hi)]
    exact supportOf_getElem v.field bs _ (Variant.n_le_nfull v)
  refine ⟨bytesOf 2 (supportOf v.field v.n bs), ?_, by simp, helem, fun i hi j hj h => ?_⟩
  · rw [hdone bs hlen hout hc hbs]
    exact completes_engineDone ..
  · rw [helem i hi, helem j hj] at h
    exact networkPerm_injOn bs (hlt hi) (hlt hj)
      (gfRev_ofNat_injOn (networkPerm_lt bs (hlt hi)) (networkPerm_lt bs (hlt hj)) h)

end Sys2Proof

/-!
The control bits (spec/43_benes.md R154 to R156). On the identity every working array of the algorithm holds each number
twice and is in order, so no sort moves an entry and every bit of the string is 0.
-/

namespace Sys2Proof.Machine

-- A number stored twice in a word (43_benes.md R155).

/-- The word that holds x from bit k up and below bit k: the entry of the working arrays for the identity. -/
def dup (k x : Nat) : Word := BitVec.ofNat 32 (x * 2 ^ k + x)

theorem ofNat_shiftLeft (a k : Nat) : BitVec.ofNat 32 a <<< k = BitVec.ofNat 32 (a * 2 ^ k) :=
  BitVec.eq_of_toNat_eq (by simp [Nat.shiftLeft_eq])

theorem ofNat_shiftLeft_or (a : Nat) {b k : Nat} (h : b < 2 ^ k) :
    BitVec.ofNat 32 a <<< k ||| BitVec.ofNat 32 b = BitVec.ofNat 32 (a * 2 ^ k + b) := by
  rw [ofNat_shiftLeft, ← BitVec.ofNat_or, ← Nat.shiftLeft_eq, ← Nat.shiftLeft_add_eq_or_of_lt h]

theorem ofNat_ushiftRight {a : Nat} (h : a < 2 ^ 32) (k : Nat) :
    BitVec.ofNat 32 a >>> k = BitVec.ofNat 32 (a / 2 ^ k) := by
  have hdiv : a / 2 ^ k < 2 ^ 32 := (Nat.div_le_self ..).trans_lt h
  refine BitVec.eq_of_toNat_eq ?_
  rw [BitVec.toNat_ushiftRight, BitVec.toNat_ofNat, BitVec.toNat_ofNat, Nat.mod_eq_of_lt h, Nat.mod_eq_of_lt hdiv,
    Nat.shiftRight_eq_div_pow]

theorem ofNat_sshiftRight {a : Nat} (h : a < 2 ^ 31) (k : Nat) :
    (BitVec.ofNat 32 a).sshiftRight k = BitVec.ofNat 32 (a / 2 ^ k) := by
  have hmsb : (BitVec.ofNat 32 a).msb = false := by
    rw [BitVec.msb_eq_false_iff_two_mul_lt, BitVec.toNat_ofNat]
    omega
  rw [BitVec.sshiftRight_eq_of_msb_false hmsb, ofNat_ushiftRight (h.trans (by decide))]

theorem ofNat_and_mask (a k : Nat) :
    BitVec.ofNat 32 a &&& BitVec.ofNat 32 (2 ^ k - 1) = BitVec.ofNat 32 (a % 2 ^ k) := by
  rw [← BitVec.ofNat_and, Nat.and_two_pow_sub_one_eq_mod]

theorem and_allOnes_shiftLeft (w : Word) (k : Nat) : w &&& (BitVec.allOnes 32 <<< k) = w >>> k <<< k := by
  refine BitVec.eq_of_getLsbD_eq fun i hi => ?_
  simp only [BitVec.getLsbD_and, BitVec.getLsbD_shiftLeft, BitVec.getLsbD_ushiftRight, BitVec.getLsbD_allOnes]
  grind

theorem minSigned_self (w : Word) : minSigned w w = w := ite_self w

section
variable {x k : Nat}

theorem shiftLeft_or_eq_dup (h : x < 2 ^ k) : BitVec.ofNat 32 x <<< k ||| BitVec.ofNat 32 x = dup k x :=
  ofNat_shiftLeft_or x h

theorem shiftLeft_add_eq_dup (x k : Nat) : BitVec.ofNat 32 x <<< k + BitVec.ofNat 32 x = dup k x := by
  rw [ofNat_shiftLeft, ← BitVec.ofNat_add, dup]

theorem dup_div (h : x < 2 ^ k) : (x * 2 ^ k + x) / 2 ^ k = x := by
  rw [Nat.add_div_of_dvd_right (dvd_mul_left ..), Nat.mul_div_cancel _ (Nat.two_pow_pos k), Nat.div_eq_of_lt h,
    Nat.add_zero]

theorem dup_and_mask (h : x < 2 ^ k) : dup k x &&& BitVec.ofNat 32 (2 ^ k - 1) = BitVec.ofNat 32 x := by
  rw [dup, ofNat_and_mask, Nat.mul_add_mod_self_right, Nat.mod_eq_of_lt h]

theorem dup_and_high (h : x < 2 ^ k) (hlt : x * 2 ^ k + x < 2 ^ 32) :
    dup k x &&& (BitVec.allOnes 32 <<< k) = BitVec.ofNat 32 x <<< k := by
  rw [and_allOnes_shiftLeft, dup, ofNat_ushiftRight hlt, dup_div h]

end

section
variable {x : Nat} (h : x < 2 ^ 15)
include h

theorem low16_dup : low16 (dup 16 x) = BitVec.ofNat 32 x := dup_and_mask (h.trans (by decide))

theorem shiftLeft_or_eq_dup16 : BitVec.ofNat 32 x <<< 16 ||| BitVec.ofNat 32 x = dup 16 x :=
  shiftLeft_or_eq_dup (h.trans (by decide))

theorem high16_dup : high16 (dup 16 x) = BitVec.ofNat 32 x <<< 16 := dup_and_high (by omega) (by omega)

theorem dup_sshiftRight : (dup 16 x).sshiftRight 16 = BitVec.ofNat 32 x := by
  rw [dup, ofNat_sshiftRight (by omega), dup_div (by omega)]

end

theorem dup_shiftLeft (x : Nat) : dup 16 x <<< 16 = BitVec.ofNat 32 x <<< 16 := by
  rw [dup, ofNat_shiftLeft, ofNat_shiftLeft]
  refine BitVec.eq_of_toNat_eq ?_
  simp only [BitVec.toNat_ofNat]
  omega

-- Working arrays (43_benes.md R155).

theorem tabulate_congr {α : Type} {n : Nat} {f g : Nat → α} (h : ∀ x < n, f x = g x) : tabulate n f = tabulate n g := by
  rw [tabulate, tabulate, List.map_congr_left fun x hx => h x (List.mem_range.mp hx)]

theorem at32_tabulate {n x : Nat} (f : Nat → Word) (h : x < n) : at32 (tabulate n f) x = f x := by
  rw [at32, tabulate_getD, if_pos h]

/-- The identity permutation as a working array. -/
def idArray (n : Nat) : Array Word := tabulate n (BitVec.ofNat 32)

/-- The working array whose entry x holds x twice. -/
def dupArray (k n : Nat) : Array Word := tabulate n (dup k)

section
variable {n x : Nat} (k : Nat) (h : x < n)
include h

theorem at32_idArray : at32 (idArray n) x = BitVec.ofNat 32 x := at32_tabulate _ h

theorem at32_dupArray : at32 (dupArray k n) x = dup k x := at32_tabulate _ h

end

/-- `SortS` gives the rearrangement in order, of which there is only one. -/
theorem sortSigned_eq_of_perm {xs ys : List Word} (hperm : xs.Perm ys)
    (hys : ys.Pairwise fun a b => a.toInt ≤ b.toInt) : sortSigned xs = ys :=
  ((sortBy_perm _ xs).trans hperm).eq_of_pairwise (fun _ _ _ _ hab hba => BitVec.eq_of_toInt_eq (le_antisymm hab hba))
    (sortSigned_pairwise xs) hys

theorem ofNat_toInt {a : Nat} (h : a < 2 ^ 31) : (BitVec.ofNat 32 a).toInt = a := by
  have hmod : a % 2 ^ 32 = a := Nat.mod_eq_of_lt (h.trans (by decide))
  rw [BitVec.toInt_eq_toNat_of_lt (by rw [BitVec.toNat_ofNat]; omega), BitVec.toNat_ofNat, hmod]

/-- An array that rearranges one whose entries increase is sorted into it. -/
theorem sortArray_eq_of_perm {n : Nat} {a : Array Word} {g : Nat → Nat}
    (hperm : a.toList.Perm ((List.range n).map fun x => BitVec.ofNat 32 (g x))) (hlt : ∀ x < n, g x < 2 ^ 31)
    (hmono : Monotone g) : sortArray a = tabulate n fun x => BitVec.ofNat 32 (g x) := by
  refine congrArg List.toArray (sortSigned_eq_of_perm hperm ?_)
  refine List.pairwise_map.mpr (List.pairwise_lt_range.imp_of_mem fun {x y} hx hy hxy => ?_)
  rw [ofNat_toInt (hlt x (List.mem_range.mp hx)), ofNat_toInt (hlt y (List.mem_range.mp hy))]
  exact_mod_cast hmono hxy.le

theorem dup_argument_monotone (k : Nat) : Monotone fun x => x * 2 ^ k + x := fun _ _ h =>
  Nat.add_le_add (Nat.mul_le_mul_right _ h) h

theorem sortArray_dupArray {n : Nat} (hn : n ≤ 2 ^ 14) : sortArray (dupArray 16 n) = dupArray 16 n :=
  sortArray_eq_of_perm (List.Perm.refl _) (fun x hx => by omega) (dup_argument_monotone 16)

theorem xor_one_lt {n x : Nat} (heven : Even n) (h : x < n) : x ^^^ 1 < n := by
  obtain ⟨k, rfl⟩ := heven
  rcases x.even_or_odd' with ⟨q, rfl | rfl⟩
  · rw [Nat.xor_one_of_even (even_two_mul q)]
    omega
  · rw [Nat.xor_one_of_odd ⟨q, rfl⟩]
    omega

theorem map_xor_one_perm_range {n : Nat} (heven : Even n) : ((List.range n).map (· ^^^ 1)).Perm (List.range n) := by
  refine (List.perm_ext_iff_of_nodup (List.nodup_range.map Nat.xor_left_injective) List.nodup_range).mpr fun x => ?_
  simp only [List.mem_map, List.mem_range]
  refine ⟨?_, fun hx => ⟨x ^^^ 1, xor_one_lt heven hx, Nat.xor_xor_cancel_right ..⟩⟩
  rintro ⟨y, hy, rfl⟩
  exact xor_one_lt heven hy

theorem sortArray_dup_xor_one {n : Nat} (heven : Even n) (hn : n ≤ 2 ^ 14) :
    sortArray (tabulate n fun x => dup 16 (x ^^^ 1)) = dupArray 16 n := by
  refine sortArray_eq_of_perm ?_ (fun x hx => by omega) (dup_argument_monotone 16)
  have hperm := (map_xor_one_perm_range heven).map (dup 16)
  rwa [List.map_map] at hperm

-- The stages of the algorithm on the identity (43_benes.md R155).

theorem cbStart_idArray {n : Nat} (heven : Even n) (hn : n ≤ 2 ^ 14) :
    cbStart n (idArray n) = (dupArray 16 n, dupArray 16 n) := by
  have h15 {x : Nat} (hx : x < n) : x < 2 ^ 15 := by omega
  have hswap : (tabulate n fun x => ((at32 (idArray n) x ^^^ 1) <<< 16) ||| at32 (idArray n) (x ^^^ 1)) =
      tabulate n fun x => dup 16 (x ^^^ 1) := tabulate_congr fun x hx => by
    have hx1 := xor_one_lt heven hx
    rw [at32_idArray hx, at32_idArray hx1, ← shiftLeft_or_eq_dup16 (h15 hx1), BitVec.ofNat_xor]
    rfl
  have hb : (tabulate n fun x => (low16 (at32 (dupArray 16 n) x) <<< 16) |||
      minSigned (low16 (at32 (dupArray 16 n) x)) (BitVec.ofNat 32 x)) = dupArray 16 n := tabulate_congr fun x hx => by
    rw [at32_dupArray _ hx, low16_dup (h15 hx), minSigned_self, shiftLeft_or_eq_dup16 (h15 hx)]
  have hinv : (tabulate n fun x => (at32 (dupArray 16 n) x <<< 16) ||| BitVec.ofNat 32 x) = dupArray 16 n :=
    tabulate_congr fun x hx => by rw [at32_dupArray _ hx, dup_shiftLeft, shiftLeft_or_eq_dup16 (h15 hx)]
  have hcomp : (tabulate n fun x => (at32 (dupArray 16 n) x <<< 16) + (at32 (dupArray 16 n) x).sshiftRight 16) =
      dupArray 16 n := tabulate_congr fun x hx => by
    rw [at32_dupArray _ hx, dup_shiftLeft, dup_sshiftRight (h15 hx), shiftLeft_add_eq_dup]
  simp only [cbStart, hswap, sortArray_dup_xor_one heven hn, hb, hinv, hcomp, sortArray_dupArray hn]

-- w at most 10.

/-- The entry of the sorted array in a round of the branch for w at most 10. -/
def triple (x : Nat) : Word := BitVec.ofNat 32 (x * 2 ^ 20 + (x * 2 ^ 10 + x))

section
variable {x : Nat} (h : x < 2 ^ 10)
include h

theorem dup_shiftLeft_or_eq_triple : dup 16 x <<< 20 ||| dup 10 x = triple x := by
  have hlow : x * 2 ^ 10 + x < 2 ^ 20 := by omega
  have hhigh : dup 16 x <<< 20 = BitVec.ofNat 32 x <<< 20 := by
    rw [dup, ofNat_shiftLeft, ofNat_shiftLeft]
    refine BitVec.eq_of_toNat_eq ?_
    simp only [BitVec.toNat_ofNat]
    omega
  rw [hhigh, dup, ofNat_shiftLeft_or x hlow, triple]

theorem triple_and_mask : triple x &&& 0xFFFFF = dup 10 x := by
  refine (ofNat_and_mask _ 20).trans ?_
  rw [Nat.mul_add_mod_self_right, Nat.mod_eq_of_lt (by omega), dup]

theorem dup_and_high10 : dup 10 x &&& (0xFFFFFC00 : Word) = BitVec.ofNat 32 x <<< 10 := dup_and_high h (by omega)

theorem triple_and_middle : triple x &&& (0xFFC00 : Word) = BitVec.ofNat 32 x <<< 10 := by
  rw [← dup_and_high10 h, ← triple_and_mask h, BitVec.and_assoc]
  rfl

theorem dup_and_low10 : dup 10 x &&& 0x3FF = BitVec.ofNat 32 x := dup_and_mask h

theorem dup16_and_low10 : dup 16 x &&& 0x3FF = BitVec.ofNat 32 x := by
  refine (ofNat_and_mask _ 10).trans (congrArg _ ?_)
  omega

end

theorem cbSmallRound_dupArray {n : Nat} (hn : n ≤ 2 ^ 10) : cbSmallRound n (dupArray 10 n) = dupArray 10 n := by
  have h10 {x : Nat} (hx : x < n) : x < 2 ^ 10 := hx.trans_le hn
  have h15 {x : Nat} (hx : x < n) : x < 2 ^ 15 := by omega
  have hinv : (tabulate n fun x => ((at32 (dupArray 10 n) x &&& 0xFFFFFC00) <<< 6) ||| BitVec.ofNat 32 x) =
      dupArray 16 n := tabulate_congr fun x hx => by
    rw [at32_dupArray _ hx, dup_and_high10 (h10 hx), ← BitVec.shiftLeft_add, shiftLeft_or_eq_dup16 (h15 hx)]
  have htriple : (tabulate n fun x => (at32 (dupArray 16 n) x <<< 20) ||| at32 (dupArray 10 n) x) = tabulate n triple :=
    tabulate_congr fun x hx => by rw [at32_dupArray _ hx, at32_dupArray _ hx, dup_shiftLeft_or_eq_triple (h10 hx)]
  have hsort : sortArray (tabulate n triple) = tabulate n triple :=
    sortArray_eq_of_perm (List.Perm.refl _) (fun x hx => by omega) fun x y hxy => by omega
  simp only [cbSmallRound, hinv, sortArray_dupArray (hn.trans (by decide)), htriple, hsort]
  refine tabulate_congr fun x hx => ?_
  rw [at32_tabulate _ hx, at32_dupArray _ hx, triple_and_mask (h10 hx), triple_and_middle (h10 hx),
    dup_and_low10 (h10 hx), shiftLeft_or_eq_dup (h10 hx), minSigned_self]

theorem cbSmall_dupArray (w : Nat) {n : Nat} (hn : n ≤ 2 ^ 10) :
    cbSmall w n (dupArray 16 n) (dupArray 16 n) = idArray n := by
  have h10 {x : Nat} (hx : x < n) : x < 2 ^ 10 := hx.trans_le hn
  have hb : (tabulate n fun x => (low16 (at32 (dupArray 16 n) x) <<< 10) ||| (at32 (dupArray 16 n) x &&& 0x3FF)) =
      dupArray 10 n := tabulate_congr fun x hx => by
    rw [at32_dupArray _ hx, low16_dup ((h10 hx).trans (by decide)), dup16_and_low10 (h10 hx),
      shiftLeft_or_eq_dup (h10 hx)]
  rw [cbSmall, hb, List.foldl_fixed' fun _ => cbSmallRound_dupArray hn]
  exact tabulate_congr fun x hx => by rw [at32_dupArray _ hx, dup_and_low10 (h10 hx)]

-- w above 10.

theorem pairLow_dupArray {n : Nat} (hn : n ≤ 2 ^ 14) :
    (tabulate n fun x => (at32 (dupArray 16 n) x <<< 16) ||| low16 (at32 (dupArray 16 n) x)) = dupArray 16 n :=
  tabulate_congr fun x hx => by
    have h15 : x < 2 ^ 15 := by omega
    rw [at32_dupArray _ hx, dup_shiftLeft, low16_dup h15, shiftLeft_or_eq_dup16 h15]

theorem cbLargeRound_dupArray {n : Nat} (hn : n ≤ 2 ^ 14) (last : Bool) :
    cbLargeRound n last (dupArray 16 n) = dupArray 16 n := by
  have h15 {x : Nat} (hx : x < n) : x < 2 ^ 15 := by omega
  have hinv : (tabulate n fun x => high16 (at32 (dupArray 16 n) x) ||| BitVec.ofNat 32 x) = dupArray 16 n :=
    tabulate_congr fun x hx => by rw [at32_dupArray _ hx, high16_dup (h15 hx), shiftLeft_or_eq_dup16 (h15 hx)]
  have hshift : (tabulate n fun x => high16 (at32 (dupArray 16 n) x) ||| (at32 (dupArray 16 n) x).sshiftRight 16) =
      dupArray 16 n := tabulate_congr fun x hx => by
    rw [at32_dupArray _ hx, high16_dup (h15 hx), dup_sshiftRight (h15 hx), shiftLeft_or_eq_dup16 (h15 hx)]
  simp only [cbLargeRound, hinv, pairLow_dupArray hn, hshift, sortArray_dupArray hn, ite_self]
  exact tabulate_congr fun x hx => by
    rw [at32_dupArray _ hx, high16_dup (h15 hx), low16_dup (h15 hx), shiftLeft_or_eq_dup16 (h15 hx), minSigned_self]

theorem cbLarge_dupArray (w : Nat) {n : Nat} (hn : n ≤ 2 ^ 14) :
    cbLarge w n (dupArray 16 n) (dupArray 16 n) = idArray n := by
  rw [cbLarge, pairLow_dupArray hn, List.foldl_fixed' fun _ => cbLargeRound_dupArray hn _]
  exact tabulate_congr fun x hx => by rw [at32_dupArray _ hx, low16_dup (by omega)]

-- Bits that are 0.

theorem flipAt_false (out : Array Bool) (pos : Nat) : flipAt out pos false = out := by
  refine Array.ext (by simp) fun i _ _ => ?_
  simp [flipAt, Array.getElem_modify]

theorem foldl_flipAt_false {b : Nat → Bool} (hb : ∀ j, b j = false) (js : List Nat) (pos : Nat → Nat)
    (out : Array Bool) : js.foldl (fun out j => flipAt out (pos j) (b j)) out = out :=
  List.foldl_fixed' (fun j => by rw [hb, flipAt_false]) js

theorem ofNat_even_getLsbD_zero {a : Nat} (h : a % 2 = 0) : (BitVec.ofNat 32 a).getLsbD 0 = false := by
  rw [BitVec.getLsbD_ofNat, Nat.testBit_zero, h]
  rfl

theorem ofNat_even_and_one {a : Nat} (h : a % 2 = 0) : BitVec.ofNat 32 a &&& 1 = 0 := by
  refine (ofNat_and_mask a 1).trans ?_
  rw [pow_one, h]
  rfl

theorem at32_tabulate_even_getLsbD_zero {n y : Nat} {g : Nat → Nat} (h : g y % 2 = 0) :
    (at32 (tabulate n fun x => BitVec.ofNat 32 (g x)) y).getLsbD 0 = false := by
  rw [at32, tabulate_getD]
  split
  · exact ofNat_even_getLsbD_zero h
  · rfl

-- The bits of the first and the last layer, and the inner layers.

theorem dup_even_and_one {x : Nat} (h : x % 2 = 0) : dup 16 x &&& 1 = 0 := ofNat_even_and_one (by omega)

/-- The image of x in a layer that leaves its pair as it is (43_benes.md R155, F_x and L_y). -/
theorem pairImage_eq {b : Word} (hb : b &&& 1 = 0) (x : Nat) :
    (if x % 2 = 0 then BitVec.ofNat 32 (2 * (x / 2)) + (b &&& 1)
      else (BitVec.ofNat 32 (2 * (x / 2)) + (b &&& 1)) ^^^ 1) = BitVec.ofNat 32 x := by
  have hflip : BitVec.ofNat 32 (2 * (x / 2)) ^^^ 1 = BitVec.ofNat 32 (2 * (x / 2) + 1) := by
    rw [← Nat.xor_one_of_even (even_two_mul _), BitVec.ofNat_xor]
    rfl
  rw [hb, show (0 : Word) = 0#32 from rfl, BitVec.add_zero, hflip]
  split <;> exact congrArg _ (by omega)

theorem idArray_shiftLeft_add (n : Nat) :
    (tabulate n fun x => (at32 (idArray n) x <<< 16) + BitVec.ofNat 32 x) = dupArray 16 n :=
  tabulate_congr fun x hx => by rw [at32_idArray hx, shiftLeft_add_eq_dup]

section
variable {n : Nat} (hn : n ≤ 2 ^ 14)
include hn

theorem firstLayer_idArray : (tabulate n fun x =>
    (at32 (dupArray 16 n) x <<< 16) |||
      (if x % 2 = 0 then BitVec.ofNat 32 (2 * (x / 2)) + (at32 (idArray n) (2 * (x / 2)) &&& 1)
        else (BitVec.ofNat 32 (2 * (x / 2)) + (at32 (idArray n) (2 * (x / 2)) &&& 1)) ^^^ 1)) = dupArray 16 n :=
  tabulate_congr fun x hx => by
    rw [at32_dupArray _ hx, at32_idArray (by omega), pairImage_eq (ofNat_even_and_one (Nat.mul_mod_right ..)),
      dup_shiftLeft, shiftLeft_or_eq_dup16 (by omega)]

theorem lastLayer_dupArray : (tabulate n fun y =>
    ((if y % 2 = 0 then BitVec.ofNat 32 (2 * (y / 2)) + (at32 (dupArray 16 n) (2 * (y / 2)) &&& 1)
        else (BitVec.ofNat 32 (2 * (y / 2)) + (at32 (dupArray 16 n) (2 * (y / 2)) &&& 1)) ^^^ 1) <<< 16) |||
      low16 (at32 (dupArray 16 n) y)) = dupArray 16 n :=
  tabulate_congr fun y hy => by
    rw [at32_dupArray _ hy, at32_dupArray _ (by omega), pairImage_eq (dup_even_and_one (Nat.mul_mod_right ..)),
      low16_dup (by omega), shiftLeft_or_eq_dup16 (by omega)]

theorem innerLayers_even :
    (tabulate (n / 2) fun j => low16 (at32 (dupArray 16 n) (2 * j)) >>> 1) = idArray (n / 2) :=
  tabulate_congr fun j hj => by
    rw [at32_dupArray _ (by omega), low16_dup (by omega), ofNat_ushiftRight (by omega)]
    exact congrArg _ (by omega)

theorem innerLayers_odd :
    (tabulate (n / 2) fun j => low16 (at32 (dupArray 16 n) (2 * j + 1)) >>> 1) = idArray (n / 2) :=
  tabulate_congr fun j hj => by
    rw [at32_dupArray _ (by omega), low16_dup (by omega), ofNat_ushiftRight (by omega)]
    exact congrArg _ (by omega)

end

theorem at32_idArray_even (n j : Nat) : (at32 (idArray n) (2 * j)).getLsbD 0 = false :=
  at32_tabulate_even_getLsbD_zero (g := id) (Nat.mul_mod_right 2 j)

theorem at32_dupArray_even (n j : Nat) : (at32 (dupArray 16 n) (2 * j)).getLsbD 0 = false :=
  at32_tabulate_even_getLsbD_zero (g := fun x => x * 2 ^ 16 + x) (by omega)

theorem cbBranch_dupArray {w : Nat} (hw : w ≤ 14) :
    (if w ≤ 10 then cbSmall w (2 ^ w) (dupArray 16 (2 ^ w)) (dupArray 16 (2 ^ w))
      else cbLarge w (2 ^ w) (dupArray 16 (2 ^ w)) (dupArray 16 (2 ^ w))) = idArray (2 ^ w) := by
  split
  · next h => exact cbSmall_dupArray _ (Nat.pow_le_pow_right Nat.two_pos h)
  · exact cbLarge_dupArray _ (Nat.pow_le_pow_right Nat.two_pos hw)

/-- On the identity the algorithm sets no bit. -/
theorem cbRecursion_idArray {w : Nat} (hw : w ≤ 14) (pos step : Nat) (out : Array Bool) :
    cbRecursion w pos step (idArray (2 ^ w)) out = out := by
  induction w generalizing pos step out with
  | zero => rfl
  | succ w ih =>
    cases w with
    | zero => exact flipAt_false ..
    | succ w =>
      have hn : 2 ^ (w + 2) ≤ 2 ^ 14 := Nat.pow_le_pow_right Nat.two_pos hw
      have hhalf : 2 ^ (w + 2) / 2 = 2 ^ (w + 1) := by rw [pow_succ, Nat.mul_div_cancel _ Nat.two_pos]
      have heven : Even (2 ^ (w + 2)) := even_two.pow_of_ne_zero (Nat.succ_ne_zero _)
      rw [cbRecursion]
      simp only [cbStart_idArray heven hn, cbBranch_dupArray hw, idArray_shiftLeft_add, firstLayer_idArray hn,
        lastLayer_dupArray hn, innerLayers_even hn, innerLayers_odd hn, sortArray_dupArray hn,
        foldl_flipAt_false (at32_idArray_even _), foldl_flipAt_false (at32_dupArray_even _)]
      rw [hhalf, ih (by omega), ih (by omega)]

theorem controlBits_identity {m : Nat} (hm : m ≤ 14) :
    controlBits m ((List.range (2 ^ m)).map (BitVec.ofNat 16)) = Array.replicate ((2 * m - 1) * 2 ^ (m - 1)) false := by
  have hn : 2 ^ m ≤ 2 ^ 14 := Nat.pow_le_pow_right Nat.two_pos hm
  have hid : (((List.range (2 ^ m)).map (BitVec.ofNat 16)).map fun p => p.zeroExtend 32).toArray = idArray (2 ^ m) := by
    rw [List.map_map]
    refine congrArg List.toArray (List.map_congr_left fun x hx => BitVec.eq_of_toNat_eq ?_)
    rw [List.mem_range] at hx
    simp only [Function.comp_apply, BitVec.zeroExtend_eq_setWidth, BitVec.toNat_setWidth, BitVec.toNat_ofNat]
    omega
  rw [controlBits, hid, cbRecursion_idArray hm]

theorem bitVectorBytes_replicate_false (len : Nat) :
    bitVectorBytes (Array.replicate len false) = List.replicate ((len + 7) / 8) 0 := by
  have hfalse (i : Nat) : (Array.replicate len false).getD i false = false := by
    rw [Array.getD_eq_getD_getElem?, Array.getElem?_replicate]
    split <;> rfl
  refine List.eq_replicate_iff.mpr ⟨by simp, fun b hb => ?_⟩
  obtain ⟨q, -, rfl⟩ := List.mem_map.mp hb
  refine BitVec.eq_of_getLsbD_eq fun j _ => ?_
  simp only [ofNat_natOfBits_getLsbD, hfalse, Bool.and_false]
  exact BitVec.getLsbD_zero.symm

theorem Variant.m_le (v : Variant) : v.m ≤ 14 := by cases v <;> decide

theorem isPermutation_iff {n : Nat} (p : Nat → BitVec 16) :
    isPermutation n ((List.range n).map p) = true ↔ IsPermutation n fun i => (p i).toNat := by
  simp [isPermutation, IsPermutation]

end Sys2Proof.Machine

namespace Sys2Proof

open Sys2Proof.Machine

/-- Settles O27: the engine tests and stores the 16-bit values in the buffer, and the identity flips no bit. -/
theorem cbitsResult : Obligations.CbitsResult := by
  unfold Obligations.CbitsResult
  intro s rd rb hw v out pi
  obtain ⟨hfault, hdone⟩ := outInEngine hw (exec_cbits s rd rb)
  refine ⟨hfault, fun bs hlen hout hpi hbs => ?_⟩
  have helems : elems16 bs = (List.range v.nfull).map (half bs) := readsArray_half.elems_eq_map_value hlen
  have hexec := hdone bs hlen hout hpi hbs
  rw [helems] at hexec
  refine ⟨fun hperm => ?_, fun hperm => ?_⟩
  · rw [if_pos ((isPermutation_iff _).mpr hperm)] at hexec
    refine ⟨bitVectorBytes (controlBits v.m ((List.range v.nfull).map (half bs))), ?_, ?_,
      fun p _ => bit_bitVectorBytes .., fun hid => ?_⟩
    · rw [hexec]
      exact completes_engineDone ..
    · rw [bitVectorBytes_length, controlBits_size]
      exact Variant.condBytes_eq v
    · have hrange : (List.range v.nfull).map (half bs) = (List.range v.nfull).map (BitVec.ofNat 16) :=
        List.map_congr_left fun i hi => by
          conv_rhs => rw [← hid i (List.mem_range.mp hi), BitVec.ofNat_toNat, BitVec.setWidth_eq]
      rw [hrange, Variant.nfull, controlBits_identity (Variant.m_le v), bitVectorBytes_replicate_false]
      exact congrArg (List.replicate · 0) (Variant.condBytes_eq v)
  · rw [if_neg ((isPermutation_iff _).not.mpr hperm)] at hexec
    rw [hexec]
    exact faults_raiseFault ..

end Sys2Proof

/-!
What the polynomial engines have in common (spec/44_poly.md): sums of field elements and the elements of a buffer, as
values in GF(2^m) (spec/00_scope.md R14, spec/20_memory.md R68).
-/

namespace Sys2Proof

open Polynomial Sys2Proof.Machine

-- GF(2^m).

theorem GF.charP_two (f : Field) : CharP (GF f) 2 := by
  have := fact_modulus_irreducible f
  exact charP_of_injective_algebraMap (algebraMap (ZMod 2) (GF f)).injective 2

theorem GF.add_self {f : Field} (x : GF f) : x + x = 0 := by
  have := GF.charP_two f
  exact CharTwo.add_self_eq_zero x

/-- Every element of GF(2^m) is the value of a canonical element. -/
theorem exists_canonical_gfVal_eq (f : Field) (x : GF f) : ∃ a : Gf, Canonical f a ∧ gfVal f a = x := by
  induction x using AdjoinRoot.induction_on with | ih p =>
  induction p using Polynomial.induction_on' with
  | add p q hp hq =>
    obtain ⟨a, ha, hpa⟩ := hp
    obtain ⟨b, hb, hqb⟩ := hq
    exact ⟨a ^^^ b, canonical_xor ha hb, by rw [gfVal_xor, hpa, hqb, map_add]⟩
  | monomial n c =>
    have hz : Canonical f 2#16 := canonical_zPow f 0
    have hroot : gfVal f (gfPow f 2#16 n) = AdjoinRoot.mk (modulus f) (X ^ n) := by
      rw [gfVal_gfPow hz, gfVal_two, map_pow, AdjoinRoot.mk_X]
    obtain rfl | rfl : c = 0 ∨ c = 1 := by revert c; decide
    · exact ⟨0#16, canonical_zero f, by rw [gfVal_zero, monomial_zero_right, map_zero]⟩
    · exact ⟨gfPow f 2#16 n, canonical_gfPow .., by rw [hroot, monomial_one_right_eq_X_pow]⟩

@[simp] theorem gfVal_gf_zero (f : Field) : gfVal f (0 : Gf) = 0 := gfVal_zero f

@[simp] theorem gfVal_gf_one (f : Field) : gfVal f (1 : Gf) = 1 := gfVal_one f

/-- The value of an entry of a unit vector. -/
theorem gfVal_delta (f : Field) (p : Prop) [Decidable p] :
    gfVal f (if p then (1 : Gf) else 0) = if p then 1 else 0 := by
  split
  · exact gfVal_one f
  · exact gfVal_zero f

-- Sums (41_gf.md R127).

theorem gfSum_map_range (n : Nat) (g : Nat → Gf) : gfSum ((List.range n).map g) = gfXor n g := by
  induction n with
  | zero => rfl
  | succ n ih =>
    rw [List.range_succ, List.map_append, gfSum, List.foldl_append, ← gfSum, ih]
    rfl

theorem canonical_gfXor {f : Field} {n : Nat} {g : Nat → Gf} (h : ∀ i < n, Canonical f (g i)) :
    Canonical f (gfXor n g) := by
  induction n with
  | zero => exact canonical_zero f
  | succ n ih => exact canonical_xor (ih fun i hi => h i (hi.trans n.lt_succ_self)) (h n n.lt_succ_self)

theorem gfVal_gfXor (f : Field) (n : Nat) (g : Nat → Gf) :
    gfVal f (gfXor n g) = ∑ i ∈ Finset.range n, gfVal f (g i) := by
  induction n with
  | zero => exact gfVal_zero f
  | succ n ih => rw [gfXor, gfVal_xor, ih, Finset.sum_range_succ]

-- The elements of a buffer (20_memory.md R68).

section
variable (f : Field) (bs : List Byte)

theorem element_eq_gfMask (i : Nat) : element f bs i = gfMask f (half bs i) := (gfMask_eq_and f _).symm

theorem canonical_element (i : Nat) : Canonical f (element f bs i) := by
  rw [element_eq_gfMask]
  exact canonical_gfMask ..

variable {bs} {n : Nat}

theorem gfElems_eq_map_element (hlen : bs.length = 2 * n) : gfElems f bs = (List.range n).map (element f bs) := by
  rw [gfElems, readsArray_half.elems_eq_map_value hlen, List.map_map]
  exact List.map_congr_left fun i _ => (element_eq_gfMask f bs i).symm

theorem gfElems_toArray (hlen : bs.length = 2 * n) : (gfElems f bs).toArray = elementArray f n bs := by
  rw [gfElems_eq_map_element f hlen]
  rfl

end

theorem gfAt_tabulate (n : Nat) (g : Nat → Gf) (k : Nat) : gfAt (tabulate n g) k = if k < n then g k else 0 :=
  tabulate_getD n g 0 k

theorem gfAt_elementArray {f : Field} {n k : Nat} (bs : List Byte) (hk : k < n) :
    gfAt (elementArray f n bs) k = element f bs k := by
  rw [elementArray, gfAt_tabulate, if_pos hk]

theorem canonical_ite {f : Field} {p : Prop} [Decidable p] {a b : Gf} (ha : Canonical f a) (hb : Canonical f b) :
    Canonical f (if p then a else b) := by
  split <;> assumption

theorem canonical_gfAt_tabulate {f : Field} {n : Nat} {g : Nat → Gf} (h : ∀ k < n, Canonical f (g k)) (k : Nat) :
    Canonical f (gfAt (tabulate n g) k) := by
  rw [gfAt_tabulate]
  split
  · next hk => exact h k hk
  · exact canonical_zero f

theorem canonical_gfAt_elementArray (f : Field) (n : Nat) (bs : List Byte) (k : Nat) :
    Canonical f (gfAt (elementArray f n bs) k) := canonical_gfAt_tabulate (fun k _ => canonical_element f bs k) k

/-- The values of a stored list of elements. -/
theorem half_bytesOf {xs : List Gf} {i : Nat} (hi : i < xs.length) : half (bytesOf 2 xs) i = xs.getD i 0 := by
  rw [readsArray_half.value_bytesOf hi, List.getD_eq_getElem _ _ hi]

/-- The values of a stored array of elements. -/
theorem half_bytesOf_toList {a : Array Gf} {i : Nat} (hi : i < a.size) : half (bytesOf 2 a.toList) i = gfAt a i := by
  rw [half_bytesOf (by simpa using hi), gfAt, List.getD_eq_getElem?_getD, Array.getElem?_toList,
    ← Array.getD_eq_getD_getElem?]

end Sys2Proof

/-!
Evaluation (spec/44_poly.md R175, R176) and the decoding syndrome (R180, R181): Horner's rule and the running powers
give the sums that the rules name.
-/

namespace Sys2Proof

open Sys2Proof.Machine

-- Horner's rule (44_poly.md R175).

theorem canonical_evalPoly {f : Field} {cs : List Gf} (hcs : ∀ c ∈ cs, Canonical f c) (a : Gf) :
    Canonical f (evalPoly f cs a) := by
  cases cs with
  | nil => exact canonical_zero f
  | cons c cs => exact canonical_xor (canonical_gfMul ..) (hcs c List.mem_cons_self)

theorem canonical_polyValue (f : Field) (n : Nat) (c : Nat → Gf) (a : Gf) : Canonical f (polyValue f n c a) :=
  canonical_gfXor fun _ _ => canonical_gfMul ..

section
variable {f : Field} {a : Gf} (ha : Canonical f a)
include ha

theorem gfVal_evalPoly {cs : List Gf} (hcs : ∀ c ∈ cs, Canonical f c) :
    gfVal f (evalPoly f cs a) = ∑ i ∈ Finset.range cs.length, gfVal f (cs.getD i 0) * gfVal f a ^ i := by
  induction cs with
  | nil => exact gfVal_zero f
  | cons c cs ih =>
    have hrest : ∀ d ∈ cs, Canonical f d := fun d hd => hcs d (List.mem_cons_of_mem c hd)
    have hcons : evalPoly f (c :: cs) a = gfMul f (evalPoly f cs a) a ^^^ c := rfl
    rw [hcons, gfVal_xor, gfVal_gfMul (canonical_evalPoly hrest a) ha, ih hrest, List.length_cons,
      Finset.sum_range_succ', Finset.sum_mul]
    simp only [List.getD_cons_succ, List.getD_cons_zero, pow_zero, mul_one, pow_succ, mul_assoc]

theorem gfVal_polyValue {n : Nat} {c : Nat → Gf} (hc : ∀ i < n, Canonical f (c i)) :
    gfVal f (polyValue f n c a) = ∑ i ∈ Finset.range n, gfVal f (c i) * gfVal f a ^ i := by
  rw [polyValue, gfVal_gfXor]
  refine Finset.sum_congr rfl fun i hi => ?_
  rw [gfVal_gfMul (hc i (Finset.mem_range.mp hi)) (canonical_gfPow f a i), gfVal_gfPow ha]

/-- Horner's rule gives the sum of F[i] a^i (44_poly.md R175). -/
theorem evalPoly_eq_polyValue {n : Nat} {c : Nat → Gf} (hc : ∀ i, Canonical f (c i)) :
    evalPoly f ((List.range n).map c) a = polyValue f n c a := by
  have hcs : ∀ x ∈ (List.range n).map c, Canonical f x := by simp [hc]
  refine gfVal_injOn (canonical_evalPoly hcs a) (canonical_polyValue ..) ?_
  rw [gfVal_evalPoly ha hcs, gfVal_polyValue ha fun i _ => hc i, List.length_map, List.length_range]
  refine Finset.sum_congr rfl fun i hi => ?_
  rw [Finset.mem_range] at hi
  simp [hi]

end

theorem evalPoly_gfElems {f : Field} {bs : List Byte} {n : Nat} (hlen : bs.length = 2 * n) {a : Gf}
    (ha : Canonical f a) : evalPoly f (gfElems f bs) a = polyValue f n (element f bs) a := by
  rw [gfElems_eq_map_element f hlen, evalPoly_eq_polyValue ha (canonical_element f bs)]

-- The decoding syndrome (44_poly.md R180).

section
variable {f : Field} {x : Gf} (hx : Canonical f x)
include hx

theorem gfSeries_getD {k j : Nat} (hj : j < k) {e : Gf} (he : Canonical f e) :
    (gfSeries f x k e).getD j 0 = gfMul f e (gfPow f x j) := by
  induction k generalizing j e with
  | zero => omega
  | succ k ih =>
    cases j with
    | zero => exact (gfMul_one he).symm
    | succ j =>
      rw [gfSeries, List.getD_cons_succ, ih (by omega) (canonical_gfMul ..), gfPow,
        gfMul_assoc he hx (canonical_gfPow f x j), gfMul_comm hx (canonical_gfPow f x j)]

end

theorem zipWith_xor_getD {xs ys : List Gf} {j : Nat} (hx : j < xs.length) (hy : j < ys.length) :
    (xs.zipWith (· ^^^ ·) ys).getD j 0 = xs.getD j 0 ^^^ ys.getD j 0 := by
  simp [hx, hy]

/-- What one position of the received word adds to the syndrome (44_poly.md R180). -/
def syndromeStep (f : Field) (t : Nat) (g : List Gf) (out : List Gf) (lr : Gf × Bool) : List Gf :=
  if lr.2 then
    out.zipWith (· ^^^ ·)
      (gfSeries f lr.1 (2 * t) (gfInv f (gfMul f (evalPoly f g lr.1) (evalPoly f g lr.1))))
  else out

theorem syndrome_eq_foldl (f : Field) (t : Nat) (g l : List Gf) (r : List Bool) :
    syndrome f t g l r = (l.zip r).foldl (syndromeStep f t g) (List.replicate (2 * t) 0) := rfl

theorem syndrome_getD {f : Field} {t d n j : Nat} {g l : Nat → Gf} (r : Nat → Bool) (hg : ∀ i, Canonical f (g i))
    (hl : ∀ i, Canonical f (l i)) (hj : j < 2 * t) :
    (syndrome f t ((List.range d).map g) ((List.range n).map l) ((List.range n).map r)).getD j 0 =
      syndromeValue f d g n l r j := by
  rw [syndrome_eq_foldl, List.zip_map', syndromeValue]
  induction n with
  | zero => simp [gfXor, hj]
  | succ n ih =>
    have hlen := syndrome_length f t ((List.range d).map g) ((List.range n).map l) ((List.range n).map r)
    rw [syndrome_eq_foldl, List.zip_map'] at hlen
    rw [List.range_succ, List.map_append, List.foldl_append, List.map_cons, List.map_nil, List.foldl_cons,
      List.foldl_nil, syndromeStep, gfXor, ← ih]
    cases r n with
    | false => simp
    | true =>
      rw [if_pos rfl, if_pos rfl, zipWith_xor_getD (by rwa [hlen]) (by simpa using hj),
        gfSeries_getD (hl n) hj (canonical_gfInv ..), evalPoly_eq_polyValue (hl n) hg]

theorem bitVector_toList (n : Nat) (bs : List Byte) : (bitVector n bs).toList = (List.range n).map (bit bs) :=
  List.map_congr_left fun i _ => bitAt_toArray bs i

-- The instructions.

namespace Machine

section
variable (s : State) (rd rb : Reg)

theorem exec_eval : exec (.eval rd rb) s =
    let v := s.build.variant
    engineChecks (.eval rd rb) s [(s.reg rb, 2 * (v.t + 1))]
      (withBuf s (s.reg rb, 2 * (v.t + 1)) fun fBytes =>
        engineDone s rd (gfWord (evalPoly v.field (gfElems v.field fBytes) (regElement s (rb + 1#4)))) []) := by
  rw [← s.operand_zero rb, regElement_eq]
  rfl

theorem exec_root : exec (.root rd rb) s =
    let v := s.build.variant
    engineChecks (.root rd rb) s
      [(s.reg rb, 2 * v.n), (s.reg (rb + 1#4), 2 * (v.t + 1)), (s.reg (rb + 2#4), 2 * v.n)]
      (withBuf s (s.reg (rb + 1#4), 2 * (v.t + 1)) fun fBytes =>
        withBuf s (s.reg (rb + 2#4), 2 * v.n) fun lBytes =>
          engineDone s rd 0
            [(s.reg rb, bytesOf 2 ((gfElems v.field lBytes).map (evalPoly v.field (gfElems v.field fBytes))))]) := by
  rw [← s.operand_zero rb]
  rfl

theorem exec_synd : exec (.synd rd rb) s =
    let v := s.build.variant
    engineChecks (.synd rd rb) s
      [(s.reg rb, 4 * v.t), (s.reg (rb + 1#4), 2 * (v.t + 1)), (s.reg (rb + 2#4), 2 * v.n), (s.reg (rb + 3#4), v.n / 8)]
      (withBuf s (s.reg (rb + 1#4), 2 * (v.t + 1)) fun gBytes =>
        withBuf s (s.reg (rb + 2#4), 2 * v.n) fun lBytes =>
          withBuf s (s.reg (rb + 3#4), v.n / 8) fun rBytes =>
            engineDone s rd 0
              [(s.reg rb, bytesOf 2 (syndrome v.field v.t (gfElems v.field gBytes) (gfElems v.field lBytes)
                (bitVector v.n rBytes).toList))]) := by
  rw [← s.operand_zero rb]
  rfl

end

end Machine

-- The statements.

/-- Settles O33: Horner's rule is the sum, at one element and at every element of the support. -/
theorem evalRootResults : Obligations.EvalRootResults := by
  unfold Obligations.EvalRootResults
  refine ⟨fun s rd rb hw => ?_, fun s rd rb hw => ?_⟩
  · intro v f
    obtain ⟨hfault, hpass⟩ := exec_of_engineChecks hw (exec_eval s rd rb)
    refine ⟨hfault, fun bs hlen hfit hbs => ?_⟩
    rw [hpass (by simp [hfit, v, f]), withBuf_of_holds hlen hbs,
      evalPoly_gfElems (f := v.field) hlen (canonical_regElement s (rb + 1#4)), append_eq_gfWord]
    exact completes_engineDone ..
  · intro v out f l
    obtain ⟨hfault, hpass⟩ := exec_of_engineChecks hw (exec_root s rd rb)
    refine ⟨hfault, fun bs ls hblen hllen hout hf hl hbs hls =>
      ⟨bytesOf 2 ((gfElems v.field ls).map (evalPoly v.field (gfElems v.field bs))), ?_, ?_, fun i hi => ?_⟩⟩
    · rw [hpass (by simp [hout, hf, hl, v, out, f, l]), withBuf_of_holds hblen hbs, withBuf_of_holds hllen hls]
      exact completes_engineDone ..
    · simp [hllen]
    · rw [half_bytesOf (by simp [hllen, hi]), gfElems_eq_map_element _ hllen, List.map_map,
        ← evalPoly_gfElems hblen (canonical_element v.field ls i)]
      simp [hi]

/-- Settles O36: the running power of a position is L_i^j / g(L_i)^2, and the positions add up. -/
theorem syndResult : Obligations.SyndResult := by
  unfold Obligations.SyndResult
  intro s rd rb hw v out g l r
  obtain ⟨hfault, hpass⟩ := exec_of_engineChecks hw (exec_synd s rd rb)
  refine ⟨hfault, fun gs ls rs hglen hllen hrlen hout hg hl hr hgs hls hrs =>
    ⟨bytesOf 2 (syndrome v.field v.t (gfElems v.field gs) (gfElems v.field ls) (bitVector v.n rs).toList), ?_, ?_,
      fun j hj => ?_⟩⟩
  · rw [hpass (by simp [hout, hg, hl, hr, v, out, g, l, r]), withBuf_of_holds hglen hgs, withBuf_of_holds hllen hls,
      withBuf_of_holds hrlen hrs]
    exact completes_engineDone ..
  · rw [bytesOf_length, syndrome_length]
    omega
  · rw [half_bytesOf (by rwa [syndrome_length]), gfElems_eq_map_element _ hglen, gfElems_eq_map_element _ hllen,
      bitVector_toList, syndrome_getD (bit rs) (canonical_element v.field gs) (canonical_element v.field ls) hj]

end Sys2Proof

/-!
The ring R_t (spec/44_poly.md R170, R171): an array of field elements is a polynomial over GF(2^m), and each step of the
reduction takes off a multiple of F(y), so the product in R_t is the remainder of the product of the polynomials.
-/

namespace Sys2Proof

open Polynomial Sys2Proof.Machine

-- The polynomial of an array (00_scope.md R14).

/-- The polynomial over GF(2^m) whose coefficients are the first n entries of an array. -/
noncomputable def arrayPoly (f : Field) (n : Nat) (a : Array Gf) : (GF f)[X] :=
  ∑ i ∈ Finset.range n, monomial i (gfVal f (gfAt a i))

section
variable {f : Field} {n : Nat} {a : Array Gf}

@[simp] theorem coeff_arrayPoly (k : Nat) :
    (arrayPoly f n a).coeff k = if k < n then gfVal f (gfAt a k) else 0 := by
  simp [arrayPoly, coeff_monomial]

theorem arrayPoly_succ : arrayPoly f (n + 1) a = arrayPoly f n a + monomial n (gfVal f (gfAt a n)) :=
  Finset.sum_range_succ ..

theorem degree_arrayPoly_lt : (arrayPoly f n a).degree < n :=
  (degree_lt_iff_coeff_zero _ _).mpr fun k hk => by rw [coeff_arrayPoly, if_neg (Nat.not_lt.mpr hk)]

theorem arrayPoly_eq_X_pow {j : Nat} (hj : j < n) (h : ∀ k < n, gfAt a k = if k = j then 1 else 0) :
    arrayPoly f n a = X ^ j := by
  ext k
  rw [coeff_arrayPoly, coeff_X_pow]
  by_cases hk : k < n
  · rw [if_pos hk, h k hk, gfVal_delta]
  · rw [if_neg hk, if_neg (by omega)]

/-- Every polynomial with n coefficients is the polynomial of an array. -/
theorem exists_arrayPoly_eq {p : (GF f)[X]} (hp : p.degree < n) :
    ∃ a : Array Gf, (∀ i, Canonical f (gfAt a i)) ∧ arrayPoly f n a = p := by
  choose c hcan hval using fun k => exists_canonical_gfVal_eq f (p.coeff k)
  refine ⟨tabulate n c, canonical_gfAt_tabulate fun k _ => hcan k, ?_⟩
  ext k
  rw [coeff_arrayPoly, gfAt_tabulate]
  split
  · exact hval k
  · next hk => exact ((degree_lt_iff_coeff_zero _ _).mp hp k (Nat.le_of_not_lt hk)).symm

/-- A coefficient of a product whose first factor has n coefficients. -/
theorem coeff_arrayPoly_mul (q : (GF f)[X]) (k : Nat) : (arrayPoly f n a * q).coeff k =
    ∑ i ∈ Finset.range n, if i ≤ k then gfVal f (gfAt a i) * q.coeff (k - i) else 0 := by
  rw [arrayPoly, Finset.sum_mul, finsetSum_coeff]
  refine Finset.sum_congr rfl fun i _ => ?_
  rw [← C_mul_X_pow_eq_monomial, mul_assoc, coeff_C_mul, coeff_X_pow_mul', mul_ite, mul_zero]

end

-- The product before reduction (44_poly.md R170).

theorem productCoeff_eq_gfXor (f : Field) (t : Nat) (a b : Array Gf) (k : Nat) : productCoeff f t a b k =
    gfXor t fun i => if i ≤ k ∧ k - i < t then gfMul f (gfAt a i) (gfAt b (k - i)) else 0 := gfSum_map_range ..

theorem canonical_productCoeff (f : Field) (t : Nat) (a b : Array Gf) (k : Nat) :
    Canonical f (productCoeff f t a b k) := by
  rw [productCoeff_eq_gfXor]
  exact canonical_gfXor fun i _ => canonical_ite (canonical_gfMul ..) (canonical_zero f)

section
variable {f : Field} {t : Nat} {a b : Array Gf} (ha : ∀ i < t, Canonical f (gfAt a i))
  (hb : ∀ i < t, Canonical f (gfAt b i))
include ha hb

theorem gfVal_productCoeff (k : Nat) :
    gfVal f (productCoeff f t a b k) = (arrayPoly f t a * arrayPoly f t b).coeff k := by
  rw [productCoeff_eq_gfXor, gfVal_gfXor, coeff_arrayPoly_mul]
  refine Finset.sum_congr rfl fun i hi => ?_
  rw [Finset.mem_range] at hi
  rw [coeff_arrayPoly]
  by_cases h1 : i ≤ k
  · by_cases h2 : k - i < t
    · rw [if_pos ⟨h1, h2⟩, if_pos h1, if_pos h2, gfVal_gfMul (ha i hi) (hb _ h2)]
    · rw [if_neg (by tauto), if_pos h1, if_neg h2, mul_zero, gfVal_gf_zero]
  · rw [if_neg (by tauto), if_neg h1, gfVal_gf_zero]

theorem arrayPoly_product :
    arrayPoly f (2 * t - 1) (tabulate (2 * t - 1) (productCoeff f t a b)) = arrayPoly f t a * arrayPoly f t b := by
  ext k
  rw [coeff_arrayPoly, gfAt_tabulate]
  by_cases hk : k < 2 * t - 1
  · rw [if_pos hk, if_pos hk, gfVal_productCoeff ha hb]
  · rw [if_neg hk, coeff_arrayPoly_mul]
    refine (Finset.sum_eq_zero fun i hi => ?_).symm
    rw [Finset.mem_range] at hi
    rw [coeff_arrayPoly, if_neg (show ¬ k - i < t by omega), mul_zero, ite_self]

end

-- F(y) (00_scope.md R10).

/-- The polynomial with the given terms (k, c), each c y^k. -/
noncomputable def termsPoly (f : Field) (ts : List (Nat × Gf)) : (GF f)[X] :=
  (ts.map fun kc => monomial kc.1 (gfVal f kc.2)).sum

theorem termsPoly_cons (f : Field) (kc : Nat × Gf) (ts : List (Nat × Gf)) :
    termsPoly f (kc :: ts) = monomial kc.1 (gfVal f kc.2) + termsPoly f ts := List.sum_cons

theorem degree_termsPoly_lt {f : Field} {n : Nat} {ts : List (Nat × Gf)} (h : ∀ kc ∈ ts, kc.1 < n) :
    (termsPoly f ts).degree < n := by
  induction ts with
  | nil => exact degree_zero.trans_lt (WithBot.bot_lt_coe n)
  | cons kc ts ih =>
    rw [List.forall_mem_cons] at h
    exact (degree_add_le _ _).trans_lt (max_lt ((degree_monomial_le ..).trans_lt (Nat.cast_lt.mpr h.1)) (ih h.2))

theorem coeff_termsPoly {f : Field} {ts : List (Nat × Gf)} (h : (ts.map Prod.fst).Nodup) (k : Nat) :
    (termsPoly f ts).coeff k = gfVal f ((ts.lookup k).getD 0) := by
  induction ts with
  | nil => exact (gfVal_zero f).symm
  | cons kc ts ih =>
    rw [List.map_cons, List.nodup_cons] at h
    rw [termsPoly_cons, coeff_add, coeff_monomial, List.lookup_cons, ih h.2]
    by_cases hk : k = kc.1
    · have hnone : ts.lookup k = none := List.lookup_eq_none_iff.mpr fun p hp => by
        rw [bne_iff_ne, hk]
        exact fun e => h.1 (e ▸ List.mem_map_of_mem hp)
      rw [if_pos hk.symm, hnone, beq_iff_eq.mpr hk, Option.getD_none, gfVal_gf_zero, add_zero]
      rfl
    · rw [if_neg (Ne.symm hk), beq_false_of_ne hk, zero_add]

section
variable (v : Variant)

theorem Variant.t_pos : 0 < v.t := by cases v <;> decide

theorem ringTerms_lt : ∀ kc ∈ v.ringTerms, kc.1 < v.t := by cases v <;> decide

theorem canonical_ringTerms : ∀ kc ∈ v.ringTerms, Canonical v.field kc.2 := by
  unfold Canonical
  cases v <;> decide

theorem canonical_modulusCoeff (k : Nat) : Canonical v.field (modulusCoeff v k) := by
  unfold Canonical
  cases v <;> dsimp only [modulusCoeff] <;> split_ifs <;> decide

/-- The table of R10 and the term lists of R170 give the same coefficients. -/
theorem modulusCoeff_eq_lookup (k : Nat) :
    modulusCoeff v k = if k = v.t then 1 else (v.ringTerms.lookup k).getD 0 := by
  cases v <;> simp only [Variant.ringTerms, Variant.t, modulusCoeff, List.lookup_cons, List.lookup_nil] <;> grind

/-- F(y) - y^t (44_poly.md R170). -/
noncomputable def ringTail : (GF v.field)[X] := termsPoly v.field v.ringTerms

/-- F(y) (00_scope.md R10). -/
noncomputable def ringPoly : (GF v.field)[X] := X ^ v.t + ringTail v

theorem degree_ringTail_lt : (ringTail v).degree < v.t := degree_termsPoly_lt (ringTerms_lt v)

theorem ringPoly_monic : (ringPoly v).Monic := monic_X_pow_add (degree_ringTail_lt v)

theorem degree_ringPoly : (ringPoly v).degree = v.t := by
  have := fact_modulus_irreducible v.field
  rw [ringPoly, degree_add_eq_left_of_degree_lt] <;> rw [degree_X_pow]
  exact degree_ringTail_lt v

theorem coeff_ringPoly (k : Nat) : (ringPoly v).coeff k = gfVal v.field (modulusCoeff v k) := by
  have hnodup : (v.ringTerms.map Prod.fst).Nodup := by cases v <;> decide
  rw [ringPoly, coeff_add, coeff_X_pow, modulusCoeff_eq_lookup]
  by_cases hk : k = v.t
  · rw [if_pos hk, if_pos hk, coeff_eq_zero_of_degree_lt (hk ▸ degree_ringTail_lt v), add_zero, gfVal_gf_one]
  · rw [if_neg hk, if_neg hk, ringTail, coeff_termsPoly hnodup, zero_add]

end

-- The reduction (44_poly.md R170).

theorem gfAt_modify (p : Array Gf) {k : Nat} (hk : k < p.size) (g : Gf → Gf) (i : Nat) :
    gfAt (p.modify k g) i = if i = k then g (gfAt p i) else gfAt p i := by
  rw [gfAt, gfAt, Array.getD_eq_getD_getElem?, Array.getD_eq_getD_getElem?, Array.getElem?_modify]
  by_cases hi : i = k
  · subst hi
    simp [hk]
  · rw [if_neg (Ne.symm hi), if_neg hi]

/-- The reduction of one coefficient x: x times the terms is added in from position e up (44_poly.md R170). -/
def addTerms (f : Field) (ts : List (Nat × Gf)) (x : Gf) (e : Nat) (p : Array Gf) : Array Gf :=
  ts.foldl (fun p kc => p.modify (e + kc.1) fun y => y ^^^ gfMul f x kc.2) p

theorem reduceCoeff_eq_addTerms (v : Variant) (p : Array Gf) (i : Nat) :
    reduceCoeff v p i = addTerms v.field v.ringTerms (gfAt p i) (i - v.t) p := rfl

@[simp] theorem addTerms_size (f : Field) (ts : List (Nat × Gf)) (x : Gf) (e : Nat) (p : Array Gf) :
    (addTerms f ts x e p).size = p.size := by
  induction ts generalizing p with
  | nil => rfl
  | cons kc ts ih => exact (ih _).trans (Array.size_modify ..)

section
variable {f : Field} {x : Gf} {e n : Nat}

theorem canonical_gfAt_modify {p : Array Gf} (hp : ∀ i, Canonical f (gfAt p i)) {k : Nat} (hk : k < p.size) {y : Gf}
    (hy : Canonical f y) (i : Nat) : Canonical f (gfAt (p.modify k fun z => z ^^^ y) i) := by
  rw [gfAt_modify p hk]
  exact canonical_ite (canonical_xor (hp i) hy) (hp i)

theorem arrayPoly_modify {p : Array Gf} {k : Nat} (hk : k < p.size) (hkn : k < n) (y : Gf) :
    arrayPoly f n (p.modify k fun z => z ^^^ y) = arrayPoly f n p + monomial k (gfVal f y) := by
  ext i
  rw [coeff_add, coeff_arrayPoly, coeff_arrayPoly, coeff_monomial, gfAt_modify p hk]
  by_cases hi : i = k
  · subst hi
    rw [if_pos hkn, if_pos rfl, if_pos hkn, if_pos rfl, gfVal_xor]
  · rw [if_neg hi, if_neg (Ne.symm hi), add_zero]

theorem canonical_addTerms {ts : List (Nat × Gf)} {p : Array Gf} (hts : ∀ kc ∈ ts, e + kc.1 < p.size)
    (hp : ∀ i, Canonical f (gfAt p i)) : ∀ i, Canonical f (gfAt (addTerms f ts x e p) i) := by
  induction ts generalizing p with
  | nil => exact hp
  | cons kc ts ih =>
    rw [List.forall_mem_cons] at hts
    refine ih (fun kc' h => ?_) (canonical_gfAt_modify hp hts.1 (canonical_gfMul ..))
    rw [Array.size_modify]
    exact hts.2 kc' h

theorem arrayPoly_addTerms {ts : List (Nat × Gf)} {p : Array Gf} (hx : Canonical f x)
    (hc : ∀ kc ∈ ts, Canonical f kc.2) (hn : ∀ kc ∈ ts, e + kc.1 < n) (hp : n ≤ p.size) :
    arrayPoly f n (addTerms f ts x e p) = arrayPoly f n p + C (gfVal f x) * X ^ e * termsPoly f ts := by
  induction ts generalizing p with
  | nil => exact (add_zero _).symm.trans (congrArg _ (mul_zero _).symm)
  | cons kc ts ih =>
    rw [List.forall_mem_cons] at hc hn
    have hmul : monomial (e + kc.1) (gfVal f (gfMul f x kc.2)) =
        C (gfVal f x) * X ^ e * monomial kc.1 (gfVal f kc.2) := by
      rw [gfVal_gfMul hx hc.1, C_mul_X_pow_eq_monomial, monomial_mul_monomial]
    rw [addTerms, List.foldl_cons, ← addTerms, ih hc.2 hn.2 (hp.trans_eq (Array.size_modify ..).symm),
      arrayPoly_modify (hn.1.trans_le hp) hn.1, hmul, termsPoly_cons, mul_add, add_assoc]

end

/-- The lowest n entries of the array differ from P by a multiple of F(y), whose other factor has t - 1 coefficients. -/
structure ReducedTo (v : Variant) (P : (GF v.field)[X]) (n : Nat) (p : Array Gf) : Prop where
  size : p.size = 2 * v.t - 1
  canonical : ∀ i, Canonical v.field (gfAt p i)
  congr : ∃ q, q.degree < ((v.t - 1 : Nat) : WithBot Nat) ∧ arrayPoly v.field n p + ringPoly v * q = P

theorem ReducedTo.after_reduceCoeff {v : Variant} {P : (GF v.field)[X]} {i : Nat} {p : Array Gf}
    (h : ReducedTo v P (i + 1) p) (hlo : v.t ≤ i) (hhi : i < 2 * v.t - 1) : ReducedTo v P i (reduceCoeff v p i) := by
  obtain ⟨hsize, hcan, q, hdeg, hq⟩ := h
  have hterm : ∀ kc ∈ v.ringTerms, i - v.t + kc.1 < i := fun kc hkc => by
    have := ringTerms_lt v kc hkc
    omega
  have hpoly := arrayPoly_addTerms (hcan i) (canonical_ringTerms v) hterm (hsize ▸ hhi.le)
  rw [reduceCoeff_eq_addTerms]
  refine ⟨by rw [addTerms_size, hsize], canonical_addTerms (fun kc hkc => ?_) hcan,
    q + C (gfVal v.field (gfAt p i)) * X ^ (i - v.t), ?_, ?_⟩
  · have := hterm kc hkc
    omega
  · have hlt : i - v.t < v.t - 1 := by omega
    exact (degree_add_le _ _).trans_lt
      (max_lt hdeg ((degree_C_mul_X_pow_le _ _).trans_lt (Nat.cast_lt.mpr hlt)))
  · have := GF.charP_two v.field
    have hX : (X : (GF v.field)[X]) ^ i = X ^ (i - v.t) * X ^ v.t := by rw [← pow_add, Nat.sub_add_cancel hlo]
    have htwo := CharTwo.add_self_eq_zero
      (C (gfVal v.field (gfAt p i)) * X ^ (i - v.t) * termsPoly v.field v.ringTerms)
    rw [← hq, hpoly, arrayPoly_succ, ringPoly, ringTail, ← C_mul_X_pow_eq_monomial, hX]
    linear_combination htwo

theorem reducedTo_foldl {v : Variant} {P : (GF v.field)[X]} {p : Array Gf} (h : ReducedTo v P (2 * v.t - 1) p) {n : Nat}
    (hn : n ≤ v.t - 1) :
    ReducedTo v P (2 * v.t - 1 - n) (((List.range n).map fun j => 2 * v.t - 2 - j).foldl (reduceCoeff v) p) := by
  induction n with
  | zero => exact h
  | succ n ih =>
    have hstep := ih (by omega)
    rw [show 2 * v.t - 1 - n = 2 * v.t - 2 - n + 1 by omega] at hstep
    rw [List.range_succ, List.map_append, List.foldl_append, show 2 * v.t - 1 - (n + 1) = 2 * v.t - 2 - n by omega]
    exact hstep.after_reduceCoeff (by omega) (by omega)

section
variable {v : Variant} {a b : Array Gf} (ha : ∀ i < v.t, Canonical v.field (gfAt a i))
  (hb : ∀ i < v.t, Canonical v.field (gfAt b i))
include ha hb

theorem exists_reducedTo_polymul : ∃ red, ReducedTo v (arrayPoly v.field v.t a * arrayPoly v.field v.t b) v.t red ∧
    polymul v a b = tabulate v.t (gfAt red) := by
  have ht := v.t_pos
  have hprod : ReducedTo v (arrayPoly v.field v.t a * arrayPoly v.field v.t b) (2 * v.t - 1)
      (tabulate (2 * v.t - 1) (productCoeff v.field v.t a b)) :=
    ⟨tabulate_size .., canonical_gfAt_tabulate fun k _ => canonical_productCoeff .., 0,
      degree_zero.trans_lt (WithBot.bot_lt_coe _), by rw [mul_zero, add_zero, arrayPoly_product ha hb]⟩
  have hred := reducedTo_foldl hprod le_rfl
  rw [show 2 * v.t - 1 - (v.t - 1) = v.t by omega] at hred
  exact ⟨_, hred, rfl⟩

theorem canonical_polymul (k : Nat) : Canonical v.field (gfAt (polymul v a b) k) := by
  obtain ⟨red, hred, e⟩ := exists_reducedTo_polymul ha hb
  rw [e]
  exact canonical_gfAt_tabulate (fun k _ => hred.canonical k) k

/-- The product in R_t is the product of the polynomials less a multiple of F(y) (44_poly.md R170). -/
theorem exists_arrayPoly_polymul_add : ∃ q, q.degree < ((v.t - 1 : Nat) : WithBot Nat) ∧
    arrayPoly v.field v.t (polymul v a b) + ringPoly v * q = arrayPoly v.field v.t a * arrayPoly v.field v.t b := by
  obtain ⟨red, hred, e⟩ := exists_reducedTo_polymul ha hb
  have hpoly : arrayPoly v.field v.t (polymul v a b) = arrayPoly v.field v.t red := by
    ext k
    rw [coeff_arrayPoly, coeff_arrayPoly, e, gfAt_tabulate]
    split <;> rfl
  rw [hpoly]
  exact hred.congr

/-- The product in R_t is the one remainder by F(y) of the product of the polynomials (44_poly.md R170). -/
theorem arrayPoly_polymul_eq {q r : (GF v.field)[X]} (hr : r.degree < v.t)
    (h : r + ringPoly v * q = arrayPoly v.field v.t a * arrayPoly v.field v.t b) :
    arrayPoly v.field v.t (polymul v a b) = r := by
  have hmod {q r : (GF v.field)[X]} (hr : r.degree < v.t)
      (h : r + ringPoly v * q = arrayPoly v.field v.t a * arrayPoly v.field v.t b) :=
    (div_modByMonic_unique q r (ringPoly_monic v) ⟨h, hr.trans_eq (degree_ringPoly v).symm⟩).2
  obtain ⟨p, -, hp⟩ := exists_arrayPoly_polymul_add ha hb
  rw [← hmod degree_arrayPoly_lt hp, hmod hr h]

theorem gfAt_polymul_eq {q r : (GF v.field)[X]} (hr : r.degree < v.t)
    (h : r + ringPoly v * q = arrayPoly v.field v.t a * arrayPoly v.field v.t b) {k : Nat} (hk : k < v.t) {x : Gf}
    (hx : Canonical v.field x) (hval : r.coeff k = gfVal v.field x) : gfAt (polymul v a b) k = x := by
  refine gfVal_injOn (canonical_polymul ha hb k) hx ?_
  rw [← hval, ← arrayPoly_polymul_eq ha hb hr h, coeff_arrayPoly, if_pos hk]

/-- The element 1 copies the second operand (44_poly.md R171). -/
theorem gfAt_polymul_one_left (hone : ∀ k < v.t, gfAt a k = if k = 0 then 1 else 0) {k : Nat} (hk : k < v.t) :
    gfAt (polymul v a b) k = gfAt b k := by
  refine gfAt_polymul_eq ha hb (q := 0) (r := arrayPoly v.field v.t b) degree_arrayPoly_lt ?_ hk (hb k hk) ?_
  · rw [arrayPoly_eq_X_pow v.t_pos hone, pow_zero, one_mul, mul_zero, add_zero]
  · rw [coeff_arrayPoly, if_pos hk]

/-- The element 1 copies the first operand (44_poly.md R171). -/
theorem gfAt_polymul_one_right (hone : ∀ k < v.t, gfAt b k = if k = 0 then 1 else 0) {k : Nat} (hk : k < v.t) :
    gfAt (polymul v a b) k = gfAt a k := by
  refine gfAt_polymul_eq ha hb (q := 0) (r := arrayPoly v.field v.t a) degree_arrayPoly_lt ?_ hk (ha k hk) ?_
  · rw [arrayPoly_eq_X_pow v.t_pos hone, pow_zero, mul_one, mul_zero, add_zero]
  · rw [coeff_arrayPoly, if_pos hk]

/-- y^(t - 1) times y is F(y) - y^t (44_poly.md R171). -/
theorem gfAt_polymul_top (htop : ∀ k < v.t, gfAt a k = if k = v.t - 1 then 1 else 0)
    (hy : ∀ k < v.t, gfAt b k = if k = 1 then 1 else 0) {k : Nat} (hk : k < v.t) :
    gfAt (polymul v a b) k = modulusCoeff v k := by
  have ht : 1 < v.t := by cases v <;> decide
  refine gfAt_polymul_eq ha hb (q := 1) (degree_ringTail_lt v) ?_ hk (canonical_modulusCoeff v k) ?_
  · have := GF.charP_two v.field
    rw [arrayPoly_eq_X_pow (by omega) htop, arrayPoly_eq_X_pow ht hy, ← pow_add, Nat.sub_add_cancel ht.le, ringPoly,
      mul_one, add_left_comm, CharTwo.add_self_eq_zero, add_zero]
  · rw [← coeff_ringPoly, ringPoly, coeff_add, coeff_X_pow, if_neg hk.ne, zero_add]

end

-- The instruction.

theorem exec_polymul (s : State) (rd rb : Reg) : exec (.polymul rd rb) s =
    let v := s.build.variant
    engineChecks (.polymul rd rb) s
      [(s.reg rb, 2 * v.t), (s.reg (rb + 1#4), 2 * v.t), (s.reg (rb + 2#4), 2 * v.t)]
      (withBuf s (s.reg (rb + 1#4), 2 * v.t) fun aBytes =>
        withBuf s (s.reg (rb + 2#4), 2 * v.t) fun bBytes =>
          engineDone s rd 0 [(s.reg rb, bytesOf 2
            (polymul v (gfElems v.field aBytes).toArray (gfElems v.field bBytes).toArray).toList)]) := by
  rw [← s.operand_zero rb]
  rfl

-- The statements.

/-- Settles O29: the corner cases are equations between polynomials, whose remainders by F(y) are unique. -/
theorem polymulResult : Obligations.PolymulResult := by
  unfold Obligations.PolymulResult
  intro s rd rb hw v out a b
  obtain ⟨hfault, hpass⟩ := exec_of_engineChecks hw (exec_polymul s rd rb)
  refine ⟨hfault, fun as bs halen hblen hout ha hb has hbs => ?_⟩
  have hcan (xs : List Byte) : ∀ i < v.t, Canonical v.field (gfAt (elementArray v.field v.t xs) i) := fun i _ =>
    canonical_gfAt_elementArray ..
  have hdelta {xs : List Byte} {j : Nat} (h : ∀ k < v.t, element v.field xs k = if k = j then 1 else 0) :
      ∀ k < v.t, gfAt (elementArray v.field v.t xs) k = if k = j then 1 else 0 := fun k hk => by
    rw [gfAt_elementArray xs hk, h k hk]
  have hval (k : Nat) (hk : k < v.t) :
      half (bytesOf 2 (polymul v (elementArray v.field v.t as) (elementArray v.field v.t bs)).toList) k =
        gfAt (polymul v (elementArray v.field v.t as) (elementArray v.field v.t bs)) k :=
    half_bytesOf_toList (by rwa [polymul_size])
  refine ⟨bytesOf 2 (polymul v (elementArray v.field v.t as) (elementArray v.field v.t bs)).toList, ?_, by simp,
    fun k hk => ⟨hval k hk, ?_⟩, fun h k hk => ?_, fun h k hk => ?_, fun h1 h2 k hk => ?_⟩
  · rw [hpass (by simp [hout, ha, hb, v, out, a, b]), withBuf_of_holds halen has, withBuf_of_holds hblen hbs,
      ← gfElems_toArray v.field halen, ← gfElems_toArray v.field hblen]
    exact completes_engineDone ..
  · rw [hval k hk]
    exact canonical_polymul (hcan as) (hcan bs) k
  · rw [hval k hk, gfAt_polymul_one_left (hcan as) (hcan bs) (hdelta h) hk, gfAt_elementArray bs hk]
  · rw [hval k hk, gfAt_polymul_one_right (hcan as) (hcan bs) (hdelta h) hk, gfAt_elementArray as hk]
  · rw [hval k hk, gfAt_polymul_top (hcan as) (hcan bs) (hdelta h1) (hdelta h2) hk]

/-- Settles O30: the quotient by F(y) has t - 1 coefficients, each the value of a canonical element. -/
theorem polymulIsRemainder : Obligations.PolymulIsRemainder := by
  unfold Obligations.PolymulIsRemainder
  intro v a b ha hb
  obtain ⟨p, hdeg, hp⟩ := exists_arrayPoly_polymul_add ha hb
  obtain ⟨q, hqcan, rfl⟩ := exists_arrayPoly_eq hdeg
  refine ⟨gfAt q, hqcan, fun k _ => ?_⟩
  rw [← productCoeff_eq_gfXor]
  refine gfVal_injOn (canonical_productCoeff ..) (canonical_xor
    (canonical_gfXor fun i _ => canonical_ite (canonical_gfMul ..) (canonical_zero _))
    (canonical_ite (canonical_polymul ha hb k) (canonical_zero _))) ?_
  rw [gfVal_productCoeff ha hb, ← hp, gfVal_xor, add_comm, coeff_add, coeff_arrayPoly, mul_comm, coeff_arrayPoly_mul,
    gfVal_gfXor]
  refine congrArg₂ _ (Finset.sum_congr rfl fun i _ => ?_) ?_
  · rw [coeff_ringPoly]
    split
    · exact (gfVal_gfMul (hqcan i) (canonical_modulusCoeff v _)).symm
    · exact (gfVal_zero _).symm
  · split
    · rfl
    · exact (gfVal_zero _).symm

end Sys2Proof

/-!
Minimal polynomials (spec/44_poly.md R172 to R174). The elimination keeps the linear relations among the columns of its
matrix: each of its steps adds a multiple of one coordinate to another or scales one. At the end the columns before the
last are unit vectors, or it has met a column that depends on those before it.
-/

namespace Sys2Proof

open Sys2Proof.Machine

-- Linear relations (44_poly.md R172).

/-- The coefficients g are a linear relation among the columns 0 to t of M: every coordinate below t of the sum is 0. -/
def IsRelation {K : Type*} [CommRing K] (t : Nat) (M : Nat → Nat → K) (g : Nat → K) : Prop :=
  ∀ k < t, ∑ c ∈ Finset.range (t + 1), g c * M c k = 0

section
variable {K : Type*} [CommRing K] {t i j : Nat} {M M' : Nat → Nat → K}

theorem sum_range_congr {h h' : Nat → K} (e : ∀ c ≤ t, h c = h' c) :
    ∑ c ∈ Finset.range (t + 1), h c = ∑ c ∈ Finset.range (t + 1), h' c :=
  Finset.sum_congr rfl fun c hc => e c (Nat.lt_succ_iff.mp (Finset.mem_range.mp hc))

theorem isRelation_congr (hM : ∀ c ≤ t, ∀ k < t, M' c k = M c k) (g : Nat → K) :
    IsRelation t M' g ↔ IsRelation t M g :=
  forall₂_congr fun k hk => by rw [sum_range_congr fun c hc => congrArg (g c * ·) (hM c hc k hk)]

/-- To add a multiple of one coordinate to another keeps the relations. -/
theorem isRelation_addCoord (hij : i ≠ j) (hi : i < t) (hj : j < t) (x : K)
    (hM : ∀ c ≤ t, ∀ k < t, M' c k = if k = i then M c i + M c j * x else M c k) (g : Nat → K) :
    IsRelation t M' g ↔ IsRelation t M g := by
  have hother {k : Nat} (hk : k < t) (hki : k ≠ i) :
      ∑ c ∈ Finset.range (t + 1), g c * M' c k = ∑ c ∈ Finset.range (t + 1), g c * M c k :=
    sum_range_congr fun c hc => by rw [hM c hc k hk, if_neg hki]
  have hsum : ∑ c ∈ Finset.range (t + 1), g c * M' c i =
      ∑ c ∈ Finset.range (t + 1), g c * M c i + (∑ c ∈ Finset.range (t + 1), g c * M c j) * x := by
    rw [Finset.sum_mul, ← Finset.sum_add_distrib]
    exact sum_range_congr fun c hc => by rw [hM c hc i hi, if_pos rfl]; ring
  constructor
  · intro hg k hk
    by_cases hki : k = i
    · have hgj := hg j hj
      have hgi := hg i hi
      rw [hother hj hij.symm] at hgj
      rwa [hsum, hgj, zero_mul, add_zero, ← hki] at hgi
    · rw [← hother hk hki, hg k hk]
  · intro hg k hk
    by_cases hki : k = i
    · rw [hki, hsum, hg i hi, hg j hj, zero_mul, add_zero]
    · rw [hother hk hki, hg k hk]

/-- To scale a coordinate by a unit keeps the relations. -/
theorem isRelation_scaleCoord {x y : K} (hxy : x * y = 1)
    (hM : ∀ c ≤ t, ∀ k < t, M' c k = if k = j then M c j * x else M c k) (g : Nat → K) :
    IsRelation t M' g ↔ IsRelation t M g := by
  refine forall₂_congr fun k hk => ?_
  by_cases hkj : k = j
  · have hsum : ∑ c ∈ Finset.range (t + 1), g c * M' c k = (∑ c ∈ Finset.range (t + 1), g c * M c k) * x := by
      rw [Finset.sum_mul]
      exact sum_range_congr fun c hc => by rw [hM c hc k hk, if_pos hkj, hkj, mul_assoc]
    rw [hsum]
    refine ⟨fun h => ?_, fun h => by rw [h, zero_mul]⟩
    rw [← mul_one (∑ c ∈ _, _), ← hxy, ← mul_assoc, h, zero_mul]
  · rw [sum_range_congr fun c hc => by rw [hM c hc k hk, if_neg hkj]]

/-- Among unit vectors and one more column, a relation is determined by its last coefficient. -/
theorem isRelation_iff_of_unit (hM : ∀ c < t, ∀ k < t, M c k = if k = c then 1 else 0) (g : Nat → K) :
    IsRelation t M g ↔ ∀ k < t, g k + g t * M t k = 0 := by
  refine forall₂_congr fun k hk => ?_
  have hsum : ∑ c ∈ Finset.range t, g c * M c k = g k := by
    rw [Finset.sum_eq_single_of_mem k (Finset.mem_range.mpr hk) fun c hc hck => by
      rw [hM c (Finset.mem_range.mp hc) k hk, if_neg hck.symm, mul_zero], hM k hk k hk, if_pos rfl, mul_one]
  rw [Finset.sum_range_succ, hsum]

/-- The relation that says that column j is the sum of the unit vectors before it. -/
def columnRelation (j : Nat) (M : Nat → Nat → K) (c : Nat) : K := if c < j then M j c else if c = j then -1 else 0

theorem isRelation_columnRelation (hj : j < t) (hunit : ∀ c < j, ∀ k < t, M c k = if k = c then 1 else 0)
    (hzero : ∀ k < t, j ≤ k → M j k = 0) : IsRelation t M (columnRelation j M) := by
  intro k hk
  have hterm (c : Nat) : columnRelation j M c * M c k =
      (if c = k then if k < j then M j k else 0 else 0) + if c = j then -M j k else 0 := by
    unfold columnRelation
    rcases lt_trichotomy c j with hc | rfl | hc
    · rw [if_pos hc, if_neg hc.ne, hunit c hc k hk]
      by_cases hck : k = c
      · simp [hck, hc]
      · simp [hck, Ne.symm hck]
    · by_cases hck : c = k
      · simp [hck]
      · simp [hck]
    · rw [if_neg hc.not_gt, if_neg hc.ne', if_neg hc.ne']
      by_cases hck : c = k
      · simp [← hck, hc.not_gt]
      · simp [hck]
  rw [Finset.sum_congr rfl fun c _ => hterm c, Finset.sum_add_distrib, Finset.sum_ite_eq', Finset.sum_ite_eq',
    if_pos (Finset.mem_range.mpr (by omega)), if_pos (Finset.mem_range.mpr (by omega))]
  split
  · exact add_neg_cancel _
  · rw [hzero k hk (by omega), neg_zero, add_zero]

end

-- The matrix of the elimination (44_poly.md R173).

/-- The matrix has t + 1 columns of t entries. -/
structure MatrixShape (t : Nat) (mat : Array (Array Gf)) : Prop where
  size : mat.size = t + 1
  column : ∀ c ≤ t, (mat.getD c #[]).size = t

section
variable {t : Nat} {mat : Array (Array Gf)} (h : MatrixShape t mat)
include h

theorem MatrixShape.getD_matCol (j i : Nat) (g : Array Gf → Gf) {c : Nat} (hc : c ≤ t) :
    (matCol mat j i g).getD c #[] =
      if j ≤ c then (mat.getD c #[]).setIfInBounds i (g (mat.getD c #[])) else mat.getD c #[] := by
  have hlt : c < mat.size := by
    rw [h.size]
    omega
  simp [matCol, Array.getD_eq_getD_getElem?, hlt]

theorem MatrixShape.after_matCol (j i : Nat) (g : Array Gf → Gf) : MatrixShape t (matCol mat j i g) where
  size := (Array.size_mapIdx ..).trans h.size
  column c hc := by
    rw [h.getD_matCol j i g hc]
    split
    · rw [Array.size_setIfInBounds, h.column c hc]
    · exact h.column c hc

theorem MatrixShape.matAt_matCol (j : Nat) {i : Nat} (g : Array Gf → Gf) {c : Nat} (hc : c ≤ t) (hi : i < t) (k : Nat) :
    matAt (matCol mat j i g) c k = if j ≤ c ∧ k = i then g (mat.getD c #[]) else matAt mat c k := by
  rw [matAt, h.getD_matCol j i g hc]
  by_cases hjc : j ≤ c
  · rw [if_pos hjc, gfAt, Array.getD_eq_getD_getElem?, Array.getElem?_setIfInBounds]
    by_cases hk : k = i
    · subst hk
      have hik : k < (mat.getD c #[]).size := (h.column c hc).symm ▸ hi
      rw [if_pos rfl, if_pos hik, if_pos ⟨hjc, rfl⟩, Option.getD_some]
    · rw [if_neg (Ne.symm hk), if_neg (by tauto), ← Array.getD_eq_getD_getElem?]
      rfl
  · rw [if_neg hjc, if_neg (by tauto)]
    rfl

end

/-- What the elimination keeps before its step j: the columns before j are the unit vectors, and the relations are those
of the columns P. -/
structure Eliminated (f : Field) (t : Nat) (P : Nat → Nat → GF f) (j : Nat) (mat : Array (Array Gf)) : Prop where
  shape : MatrixShape t mat
  canonical : ∀ c ≤ t, ∀ k < t, Canonical f (matAt mat c k)
  unit : ∀ c < j, ∀ k < t, matAt mat c k = if k = c then 1 else 0
  relations : ∀ g, IsRelation t (fun c k => gfVal f (matAt mat c k)) g ↔ IsRelation t P g

section
variable {f : Field} {t : Nat} {P : Nat → Nat → GF f} {j : Nat} {mat : Array (Array Gf)}

theorem Eliminated.matAt_eq_zero (h : Eliminated f t P j mat) {c l : Nat} (hc : c < j) (hjl : j ≤ l) (hl : l < t) :
    matAt mat c l = 0 := by
  rw [h.unit c hc l hl, if_neg (by omega)]

/-- A step adds x times coordinate l to coordinate i (44_poly.md R173). -/
structure AddsCoord (f : Field) (g : Array Gf → Gf) (i l : Nat) (x : Gf) : Prop where
  canonical : Canonical f x
  eq : ∀ col, Canonical f (gfAt col l) → g col = gfAt col i ^^^ gfMul f (gfAt col l) x

section
variable (h : Eliminated f t P j mat) {g : Array Gf → Gf} {i l : Nat} {x : Gf} (hg : AddsCoord f g i l x)
  (hi : i < t) (hl : l < t)
include h hg hi hl

theorem Eliminated.matAt_addCoord (hjl : j ≤ l) {c : Nat} (hc : c ≤ t) (k : Nat) :
    matAt (matCol mat j i g) c k = if k = i then matAt mat c i ^^^ gfMul f (matAt mat c l) x else matAt mat c k := by
  rw [h.shape.matAt_matCol j g hc hi]
  by_cases hki : k = i
  · by_cases hjc : j ≤ c
    · rw [if_pos ⟨hjc, hki⟩, if_pos hki, hg.eq _ (h.canonical c hc l hl)]
      rfl
    · rw [if_neg (by tauto), if_pos hki, h.matAt_eq_zero (Nat.lt_of_not_le hjc) hjl hl, hki]
      rw [BitVec.ofNat_eq_ofNat, zero_gfMul hg.canonical, BitVec.xor_zero]
  · rw [if_neg (by tauto), if_neg hki]

theorem Eliminated.addCoord (hil : i ≠ l) (hjl : j ≤ l) : Eliminated f t P j (matCol mat j i g) where
  shape := h.shape.after_matCol j i g
  canonical c hc k hk := by
    rw [h.matAt_addCoord hg hi hl hjl hc k]
    exact canonical_ite (canonical_xor (h.canonical c hc i hi) (canonical_gfMul ..)) (h.canonical c hc k hk)
  unit c hc k hk := by
    rw [h.shape.matAt_matCol j g (by omega) hi, if_neg (by omega), h.unit c hc k hk]
  relations r := by
    rw [← h.relations]
    refine isRelation_addCoord hil hi hl (gfVal f x) (fun c hc k hk => ?_) r
    rw [h.matAt_addCoord hg hi hl hjl hc k]
    split
    · rw [gfVal_xor, gfVal_gfMul (h.canonical c hc l hl) hg.canonical]
    · rfl

end

-- The parts of step j (44_poly.md R173).

/-- The first part of step j: coordinates k after j are added to coordinate j while the pivot is 0. -/
def makePivot (j : Nat) (ks : List Nat) (mat : Array (Array Gf)) : Array (Array Gf) :=
  ks.foldl (fun mat k => matCol mat j j fun col => gfAt col j ^^^ (gfAt col k &&& gfIsz (matAt mat j j))) mat

/-- The second part of step j: coordinate j is divided by the pivot. -/
def scalePivot (f : Field) (j : Nat) (mat : Array (Array Gf)) : Array (Array Gf) :=
  matCol mat j j fun col => gfMul f (gfAt col j) (gfInv f (matAt mat j j))

/-- The third part of step j: the other coordinates of column j are cleared. -/
def clearOthers (f : Field) (j : Nat) (ks : List Nat) (mat : Array (Array Gf)) : Array (Array Gf) :=
  ks.foldl (fun mat k => matCol mat j k fun col => gfAt col k ^^^ gfMul f (gfAt col j) (matAt mat j k)) mat

theorem elimStep_eq (f : Field) (t j : Nat) (acc : Bool × Array (Array Gf)) : elimStep f t acc j =
    let mat := makePivot j ((List.range t).filter (j < ·)) acc.2
    (acc.1 && matAt mat j j != 0, clearOthers f j ((List.range t).filter (· ≠ j)) (scalePivot f j mat)) := rfl

/-- The mask of the zero test keeps a canonical element or clears it (41_gf.md R125). -/
theorem and_gfIsz {a : Gf} (ha : Canonical f a) (p : Gf) : a &&& gfIsz p = gfMul f a (if p = 0 then 1 else 0) := by
  unfold gfIsz
  split
  · have h13 : Canonical .m13 a := ha.trans_le (Nat.pow_le_pow_right Nat.two_pos (by cases f <;> decide))
    exact (gfMask_of_canonical h13).trans (gfMul_one ha).symm
  · exact BitVec.and_zero.trans (gfMul_zero ha).symm

theorem addsCoord_makePivot (f : Field) (j k : Nat) (p : Gf) :
    AddsCoord f (fun col => gfAt col j ^^^ (gfAt col k &&& gfIsz p)) j k (if p = 0 then 1 else 0) where
  canonical := canonical_ite (canonical_one f) (canonical_zero f)
  eq col h := by rw [and_gfIsz h]

theorem addsCoord_clearOthers (j k : Nat) {x : Gf} (hx : Canonical f x) :
    AddsCoord f (fun col => gfAt col k ^^^ gfMul f (gfAt col j) x) k j x where
  canonical := hx
  eq _ _ := rfl

theorem Eliminated.after_makePivot (h : Eliminated f t P j mat) (hj : j < t) {ks : List Nat}
    (hks : ∀ k ∈ ks, j < k ∧ k < t) :
    Eliminated f t P j (makePivot j ks mat) ∧
    (∀ k, k ≠ j → matAt (makePivot j ks mat) j k = matAt mat j k) ∧
    (matAt (makePivot j ks mat) j j = 0 → matAt mat j j = 0 ∧ ∀ k ∈ ks, matAt mat j k = 0) := by
  induction ks generalizing mat with
  | nil => exact ⟨h, fun _ _ => rfl, fun h0 => ⟨h0, by simp⟩⟩
  | cons k ks ih =>
    rw [List.forall_mem_cons] at hks
    obtain ⟨⟨hjk, hk⟩, hks⟩ := hks
    have hadds := addsCoord_makePivot f j k (matAt mat j j)
    have hval := h.matAt_addCoord hadds hj hk hjk.le hj.le
    obtain ⟨helim, hother, hpivot⟩ := ih (h.addCoord hadds hj hk hjk.ne hjk.le) hks
    refine ⟨helim, fun i hi => ?_, fun h0 => ?_⟩
    · exact (hother i hi).trans ((hval i).trans (if_neg hi))
    · obtain ⟨hj0, hks0⟩ := hpivot h0
      rw [hval j, if_pos rfl] at hj0
      have hcan := h.canonical j hj.le k hk
      by_cases hp : matAt mat j j = 0
      · rw [if_pos hp, hp, BitVec.ofNat_eq_ofNat, BitVec.ofNat_eq_ofNat, gfMul_one hcan, BitVec.zero_xor] at hj0
        refine ⟨hp, List.forall_mem_cons.mpr ⟨hj0, fun i hi => ?_⟩⟩
        rw [← hks0 i hi, hval i, if_neg (hks i hi).1.ne']
      · rw [if_neg hp, BitVec.ofNat_eq_ofNat, gfMul_zero hcan, BitVec.xor_zero] at hj0
        exact absurd hj0 hp

theorem Eliminated.after_scalePivot (h : Eliminated f t P j mat) (hj : j < t) (hp : matAt mat j j ≠ 0) :
    Eliminated f t P j (scalePivot f j mat) ∧ matAt (scalePivot f j mat) j j = 1 := by
  have hcan := h.canonical j hj.le j hj
  have hval {c : Nat} (hc : c ≤ t) (k : Nat) : matAt (scalePivot f j mat) c k =
      if k = j then gfMul f (matAt mat c j) (gfInv f (matAt mat j j)) else matAt mat c k := by
    rw [scalePivot, h.shape.matAt_matCol j _ hc hj]
    by_cases hk : k = j
    · by_cases hjc : j ≤ c
      · rw [if_pos ⟨hjc, hk⟩, if_pos hk]
        rfl
      · rw [if_neg (by tauto), if_pos hk, hk, h.matAt_eq_zero (Nat.lt_of_not_le hjc) le_rfl hj]
        exact (zero_gfMul (canonical_gfInv f _)).symm
    · rw [if_neg (by tauto), if_neg hk]
  refine ⟨⟨h.shape.after_matCol .., fun c hc k hk => ?_, fun c hc k hk => ?_, fun g => ?_⟩, ?_⟩
  · rw [hval hc]
    exact canonical_ite (canonical_gfMul ..) (h.canonical c hc k hk)
  · rw [scalePivot, h.shape.matAt_matCol j _ (by omega) hj, if_neg (by omega), h.unit c hc k hk]
  · rw [← h.relations]
    refine isRelation_scaleCoord (j := j) ((mul_comm _ _).trans (gfVal_gfInv_of_ne_zero hcan hp))
      (fun c hc k hk => ?_) g
    rw [hval hc]
    split
    · rw [gfVal_gfMul (h.canonical c hc j hj) (canonical_gfInv f _)]
    · rfl
  · rw [hval hj.le, if_pos rfl]
    exact gfMul_gfInv hcan hp

theorem Eliminated.after_clearOthers (h : Eliminated f t P j mat) (hj : j < t) (hpivot : matAt mat j j = 1)
    {ks : List Nat} (hks : ∀ k ∈ ks, k ≠ j ∧ k < t) :
    Eliminated f t P j (clearOthers f j ks mat) ∧ matAt (clearOthers f j ks mat) j j = 1 ∧
    ∀ k, k ≠ j → k ∈ ks ∨ matAt mat j k = 0 → matAt (clearOthers f j ks mat) j k = 0 := by
  induction ks generalizing mat with
  | nil => exact ⟨h, hpivot, fun k _ hk => hk.resolve_left List.not_mem_nil⟩
  | cons k ks ih =>
    rw [List.forall_mem_cons] at hks
    obtain ⟨⟨hkj, hk⟩, hks⟩ := hks
    have hcan := h.canonical j hj.le k hk
    have hadds := addsCoord_clearOthers j k hcan
    have hval := h.matAt_addCoord hadds hk hj le_rfl hj.le
    have hzero : matAt (matCol mat j k fun col => gfAt col k ^^^ gfMul f (gfAt col j) (matAt mat j k)) j k = 0 := by
      rw [hval k, if_pos rfl, hpivot, BitVec.ofNat_eq_ofNat, gfMul_comm (canonical_one f) hcan, gfMul_one hcan,
        BitVec.xor_self, BitVec.ofNat_eq_ofNat]
    obtain ⟨helim, hone, hother⟩ := ih (h.addCoord hadds hk hj hkj le_rfl)
      ((hval j).trans ((if_neg hkj.symm).trans hpivot)) hks
    refine ⟨helim, hone, fun i hij hi => hother i hij ?_⟩
    by_cases hik : i = k
    · exact .inr (hik ▸ hzero)
    · rw [hval i, if_neg hik]
      exact hi.imp_left fun hmem => (List.mem_cons.mp hmem).resolve_left hik

end

-- The elimination (44_poly.md R172, R173).

/-- Some relation among the columns before the last is not trivial. -/
def Dependent {K : Type*} [CommRing K] (t : Nat) (P : Nat → Nat → K) : Prop :=
  ∃ g : Nat → K, IsRelation t P g ∧ g t = 0 ∧ ∃ j < t, g j ≠ 0

section
variable {f : Field} {t : Nat} {P : Nat → Nat → GF f} {j : Nat}

/-- Step j goes on with one more unit vector, or the pivot is 0 and the columns depend on one another. -/
theorem elimStep_cases {acc : Bool × Array (Array Gf)} (h : Eliminated f t P j acc.2) (hj : j < t) :
    (elimStep f t acc j).1 = acc.1 ∧ Eliminated f t P (j + 1) (elimStep f t acc j).2 ∨
      (elimStep f t acc j).1 = false ∧ Dependent t P := by
  rw [elimStep_eq]
  obtain ⟨helim, hother, hpivot⟩ :=
    h.after_makePivot hj (ks := (List.range t).filter (j < ·)) fun k hk => by simpa [and_comm] using hk
  generalize makePivot j ((List.range t).filter (j < ·)) acc.2 = mat at helim hother hpivot ⊢
  by_cases hp : matAt mat j j = 0
  · obtain ⟨-, hks⟩ := hpivot hp
    have hzero (k : Nat) (hk : k < t) (hjk : j ≤ k) : matAt mat j k = 0 := by
      rcases hjk.eq_or_lt with rfl | hjk
      · exact hp
      · rw [hother k hjk.ne']
        exact hks k (by simp [hk, hjk])
    refine .inr ⟨?_, columnRelation j _, (helim.relations _).mp (isRelation_columnRelation hj (fun c hc k hk => ?_)
      fun k hk hjk => ?_), ?_, j, hj, ?_⟩
    · exact (congrArg _ (bne_eq_false_iff_eq.mpr hp)).trans (Bool.and_false _)
    · rw [helim.unit c hc k hk, gfVal_delta]
    · rw [hzero k hk hjk, gfVal_gf_zero]
    · rw [columnRelation, if_neg hj.not_gt, if_neg hj.ne']
    · have := fact_modulus_irreducible f
      rw [columnRelation, if_neg (lt_irrefl j), if_pos rfl]
      exact neg_ne_zero.mpr one_ne_zero
  · obtain ⟨hscale, hone⟩ := helim.after_scalePivot hj hp
    obtain ⟨hclear, hone', hzero⟩ :=
      hscale.after_clearOthers hj hone (ks := (List.range t).filter (· ≠ j)) (fun k hk => by simpa [and_comm] using hk)
    refine .inl ⟨?_, hclear.shape, hclear.canonical, fun c hc k hk => ?_, hclear.relations⟩
    · exact (congrArg _ (bne_iff_ne.mpr hp)).trans (Bool.and_true _)
    · rcases Nat.lt_succ_iff_lt_or_eq.mp hc with hc | rfl
      · exact hclear.unit c hc k hk
      · by_cases hkc : k = c
        · rw [if_pos hkc, hkc, hone']
        · rw [if_neg hkc, hzero k hkc (.inl (by simp [hk, hkc]))]

/-- The elimination after its first n steps (44_poly.md R173). -/
def elimination (f : Field) (t : Nat) (mat : Array (Array Gf)) (n : Nat) : Bool × Array (Array Gf) :=
  (List.range n).foldl (elimStep f t) (true, mat)

theorem elimination_succ (f : Field) (t : Nat) (mat : Array (Array Gf)) (n : Nat) :
    elimination f t mat (n + 1) = elimStep f t (elimination f t mat n) n := by
  rw [elimination, List.range_succ, List.foldl_append]
  rfl

theorem minimalPoly_eq (v : Variant) (p : Array Gf) : minimalPoly v p =
    let r := elimination v.field v.t (powersRev v p v.t).reverse.toArray v.t
    (r.1, (List.range v.t).map (matAt r.2 v.t)) := rfl

/-- The elimination keeps its flag while it finds pivots; when it clears it, the columns depend on one another. -/
theorem elimination_cases {mat : Array (Array Gf)} (h : Eliminated f t P 0 mat) {n : Nat} (hn : n ≤ t) :
    ((elimination f t mat n).1 = true ∧ Eliminated f t P n (elimination f t mat n).2) ∨
      ((elimination f t mat n).1 = false ∧ Dependent t P) := by
  induction n with
  | zero => exact .inl ⟨rfl, h⟩
  | succ n ih =>
    rw [elimination_succ]
    rcases ih (by omega) with ⟨hok, helim⟩ | ⟨hok, hdep⟩
    · rcases elimStep_cases helim hn with ⟨hstep, hnext⟩ | hfail
      · exact .inl ⟨hstep.trans hok, hnext⟩
      · exact .inr hfail
    · refine .inr ⟨?_, hdep⟩
      rw [elimStep_eq, hok]
      rfl

end

-- The powers of f (44_poly.md R172).

theorem map_range_succ_reverse {α : Type*} (h : Nat → α) (n : Nat) :
    ((List.range (n + 1)).map h).reverse = h n :: ((List.range n).map h).reverse := by
  rw [List.range_succ, List.map_append, List.reverse_append]
  rfl

theorem canonical_ringCombination (v : Variant) (f : Array Gf) (g : Nat → Gf) (k : Nat) :
    Canonical v.field (ringCombination v f g k) :=
  canonical_gfXor fun _ _ => canonical_gfMul ..

section
variable {v : Variant} {f : Array Gf} (hf : ∀ k < v.t, Canonical v.field (gfAt f k))
include hf

theorem canonical_ringPow : ∀ j k, Canonical v.field (gfAt (ringPow v f j) k)
  | 0 => canonical_gfAt_tabulate fun _ _ => canonical_ite (canonical_one _) (canonical_zero _)
  | j + 1 => canonical_polymul (fun k _ => canonical_ringPow j k) hf

theorem ringPow_one : ringPow v f 1 = tabulate v.t (gfAt f) := by
  obtain ⟨red, -, e⟩ := exists_reducedTo_polymul (fun k _ => canonical_ringPow hf 0 k) hf
  have hcopy {k : Nat} (hk : k < v.t) : gfAt (ringPow v f 1) k = gfAt f k :=
    gfAt_polymul_one_left (fun k _ => canonical_ringPow hf 0 k) hf
      (fun k hk => (gfAt_tabulate ..).trans (if_pos hk)) hk
  rw [ringPow, e]
  refine tabulate_congr fun k hk => ?_
  rw [← hcopy hk, ringPow, e, gfAt_tabulate, if_pos hk]

theorem powersRev_eq : ∀ n, powersRev v f n = ((List.range (n + 1)).map (ringPow v f)).reverse
  | 0 => rfl
  | 1 => congrArg (· :: [ringPow v f 0]) (ringPow_one hf).symm
  | n + 2 => by
    rw [powersRev, powersRev_eq (n + 1), map_range_succ_reverse _ (n + 1), map_range_succ_reverse _ (n + 2),
      map_range_succ_reverse _ (n + 1)]
    rfl

/-- The matrix of R173: column c is the power c of f. -/
theorem eliminated_powers : Eliminated v.field v.t (fun c k => gfVal v.field (gfAt (ringPow v f c) k)) 0
    (powersRev v f v.t).reverse.toArray := by
  have hmat : (powersRev v f v.t).reverse.toArray = tabulate (v.t + 1) (ringPow v f) := by
    rw [powersRev_eq hf, List.reverse_reverse]
    rfl
  have hcol {c : Nat} (hc : c ≤ v.t) : (tabulate (v.t + 1) (ringPow v f)).getD c #[] = ringPow v f c := by
    rw [tabulate_getD, if_pos (Nat.lt_succ_of_le hc)]
  have hval {c : Nat} (hc : c ≤ v.t) (k : Nat) :
      matAt (tabulate (v.t + 1) (ringPow v f)) c k = gfAt (ringPow v f c) k := by rw [matAt, hcol hc]
  rw [hmat]
  refine ⟨⟨tabulate_size .., fun c hc => ?_⟩, fun c hc k hk => ?_, by simp, fun g => ?_⟩
  · rw [hcol hc]
    cases c with
    | zero => exact tabulate_size ..
    | succ c => exact polymul_size ..
  · rw [hval hc]
    exact canonical_ringPow hf c k
  · exact isRelation_congr (fun c hc k _ => congrArg (gfVal v.field) (hval hc k)) g

theorem gfVal_ringCombination {g : Nat → Gf} (hg : ∀ j < v.t, Canonical v.field (g j)) (k : Nat) :
    gfVal v.field (ringCombination v f g k) =
      ∑ j ∈ Finset.range v.t, gfVal v.field (g j) * gfVal v.field (gfAt (ringPow v f j) k) := by
  rw [ringCombination, gfVal_gfXor]
  exact Finset.sum_congr rfl fun j hj =>
    gfVal_gfMul (hg j (Finset.mem_range.mp hj)) (canonical_ringPow hf j k)

/-- The relations among the powers, in the terms of the spec (44_poly.md R172). -/
theorem isRelation_powers_iff {g : Nat → Gf} (hg : ∀ j < v.t, Canonical v.field (g j)) {h : Nat → GF v.field}
    (hh : ∀ j < v.t, h j = gfVal v.field (g j)) :
    IsRelation v.t (fun c k => gfVal v.field (gfAt (ringPow v f c) k)) h ↔
      ∀ k < v.t, gfVal v.field (ringCombination v f g k) + h v.t * gfVal v.field (gfAt (ringPow v f v.t) k) = 0 := by
  refine forall₂_congr fun k _ => ?_
  rw [Finset.sum_range_succ, gfVal_ringCombination hf hg]
  refine Eq.congr_left (congrArg (· + _) (Finset.sum_congr rfl fun j hj => ?_))
  rw [hh j (Finset.mem_range.mp hj)]

/-- Where the elimination succeeds, a relation among the powers is determined by its last coefficient. -/
theorem Eliminated.combination_iff {mat : Array (Array Gf)}
    (helim : Eliminated v.field v.t (fun c k => gfVal v.field (gfAt (ringPow v f c) k)) v.t mat) {g : Nat → Gf}
    (hg : ∀ j < v.t, Canonical v.field (g j)) (x : GF v.field) :
    (∀ k < v.t, gfVal v.field (ringCombination v f g k) + x * gfVal v.field (gfAt (ringPow v f v.t) k) = 0) ↔
      ∀ k < v.t, gfVal v.field (g k) + x * gfVal v.field (matAt mat v.t k) = 0 := by
  have hh : ∀ j < v.t, Function.update (fun j => gfVal v.field (g j)) v.t x j = gfVal v.field (g j) := fun j hj =>
    Function.update_of_ne hj.ne ..
  have hunit : ∀ c < v.t, ∀ k < v.t, gfVal v.field (matAt mat c k) = if k = c then 1 else 0 := fun c hc k hk => by
    rw [helim.unit c hc k hk, gfVal_delta]
  have hrel := isRelation_powers_iff hf hg hh
  rw [← helim.relations, isRelation_iff_of_unit hunit, Function.update_self] at hrel
  rw [← hrel]
  exact forall₂_congr fun k hk => by rw [hh k hk]

section
variable {mat : Array (Array Gf)} {g : Nat → Gf}
  (helim : Eliminated v.field v.t (fun c k => gfVal v.field (gfAt (ringPow v f c) k)) v.t mat)
include helim

theorem Eliminated.independent (hg : ∀ j < v.t, Canonical v.field (g j))
    (hzero : ∀ k < v.t, ringCombination v f g k = 0) {j : Nat} (hj : j < v.t) : g j = 0 := by
  have hval := (helim.combination_iff hf hg 0).mp (fun k hk => by
    rw [hzero k hk, gfVal_gf_zero, zero_mul, add_zero]) j hj
  rw [zero_mul, add_zero] at hval
  exact (gfVal_eq_zero_iff (hg j hj)).mp hval

/-- The last column holds the coefficients of f^t. -/
theorem Eliminated.last_power (hg : ∀ j < v.t, g j = matAt mat v.t j) {k : Nat} (hk : k < v.t) :
    gfAt (ringPow v f v.t) k = ringCombination v f g k := by
  have hcan : ∀ j < v.t, Canonical v.field (g j) := fun j hj => (hg j hj).symm ▸ helim.canonical v.t le_rfl j hj
  have hsum := (helim.combination_iff hf hcan 1).mpr (fun j hj => by rw [hg j hj, one_mul, GF.add_self]) k hk
  have := GF.charP_two v.field
  rw [one_mul, CharTwo.add_eq_zero] at hsum
  exact gfVal_injOn (canonical_ringPow hf v.t k) (canonical_ringCombination v f g k) hsum.symm

end

/-- A dependence among the powers has canonical coefficients. -/
theorem Dependent.exists_canonical
    (hdep : Dependent v.t fun c k => gfVal v.field (gfAt (ringPow v f c) k)) :
    ∃ g : Nat → Gf, (∀ j, Canonical v.field (g j)) ∧ (∀ k < v.t, ringCombination v f g k = 0) ∧
      ∃ j < v.t, g j ≠ 0 := by
  obtain ⟨h, hrel, hlast, j, hj, hne⟩ := hdep
  choose g hcan hval using fun j => exists_canonical_gfVal_eq v.field (h j)
  have hcomb := (isRelation_powers_iff hf (fun j _ => hcan j) fun j _ => (hval j).symm).mp hrel
  refine ⟨g, hcan, fun k hk => (gfVal_eq_zero_iff (canonical_ringCombination v f g k)).mp ?_, j, hj, fun h0 => hne ?_⟩
  · rw [← hcomb k hk, hlast, zero_mul, add_zero]
  · rw [← hval j, h0, gfVal_gf_zero]

end

-- The instruction.

theorem exec_genpoly (s : State) (rd rb : Reg) : exec (.genpoly rd rb) s =
    let v := s.build.variant
    engineChecks (.genpoly rd rb) s [(s.reg rb, 2 * v.t), (s.reg (rb + 1#4), 2 * v.t)]
      (withBuf s (s.reg (rb + 1#4), 2 * v.t) fun fBytes =>
        let r := minimalPoly v (gfElems v.field fBytes).toArray
        engineDone s rd (statusOf r.1) (if r.1 then [(s.reg rb, bytesOf 2 r.2)] else [])) := by
  rw [← s.operand_zero rb]
  rfl

-- The statements.

/-- Settles O31: the two outcomes are the two values of the flag of the elimination. -/
theorem genpolyResult : Obligations.GenpolyResult := by
  unfold Obligations.GenpolyResult
  intro s rd rb hw v out f
  obtain ⟨hfault, hdone⟩ := outInEngine hw (exec_genpoly s rd rb)
  refine ⟨hfault, fun bs hlen hout hf hbs => ⟨bytesOf 2 (minimalPoly v (elementArray v.field v.t bs)).2, by simp,
    fun k hk => half_bytesOf (by simpa using hk), ?_⟩⟩
  rw [hdone bs hlen hout hf hbs, ← gfElems_toArray v.field hlen]
  exact completes_engineDone ..

/-- Settles O32: the elimination keeps the relations among the powers, and ends at unit vectors or at a dependence. -/
theorem genpolyContract : Obligations.GenpolyContract := by
  unfold Obligations.GenpolyContract
  intro v f _ hf
  rcases elimination_cases (eliminated_powers hf) le_rfl with ⟨hok, helim⟩ | ⟨hok, hdep⟩
  · have hres : ∀ j < v.t, (minimalPoly v f).2.getD j 0 = matAt _ v.t j := fun j hj => by
      rw [minimalPoly_eq, List.getD_eq_getElem _ _ (by simpa using hj), List.getElem_map, List.getElem_range]
    exact ⟨iff_of_true hok fun g hg hzero j hj => helim.independent hf (fun j _ => hg j) hzero hj,
      fun _ => ⟨fun j hj => (hres j hj).symm ▸ helim.canonical v.t le_rfl j hj,
        fun k hk => helim.last_power hf hres hk⟩⟩
  · obtain ⟨g, hg, hzero, j, hj, hne⟩ := hdep.exists_canonical hf
    have hfalse : ¬ (minimalPoly v f).1 = true := Bool.eq_false_iff.mp hok
    exact ⟨iff_of_false hfalse fun hind => hne (hind g hg hzero j hj), fun htrue => absurd htrue hfalse⟩

end Sys2Proof

/-!
Berlekamp-Massey (spec/44_poly.md R177, R178). With C, B and the sequence s as power series, entry n of C s is the
discrepancy of C at n: C keeps it 0 from L up to the iteration N, and B has it 0 from N + 1 - L up to N and b at N. The
entries that the arrays cannot hold are those of a B that no later iteration with L at most t uses.
-/

namespace Sys2Proof

open PowerSeries Sys2Proof.Machine

-- The computation (44_poly.md R177).

/-- The discrepancy d of iteration i. -/
def bmDiscrepancy (f : Field) (t : Nat) (s c : Array Gf) (i : Nat) : Gf :=
  gfXor (min i t + 1) fun j => gfMul f (gfAt c j) (gfAt s (i - j))

/-- The new C of an iteration whose discrepancy d is not 0. -/
def bmConnection (f : Field) (t : Nat) (st : BmState) (d : Gf) : Array Gf :=
  tabulate (t + 1) fun j => gfAt st.c j ^^^ gfMul f (gfFrac f st.last d) (gfAt st.b j)

/-- An array of t + 1 entries shifted by one place, without the entry that leaves it. -/
def bmShift (t : Nat) (b : Array Gf) : Array Gf := tabulate (t + 1) fun j => if j = 0 then 0 else gfAt b (j - 1)

section
variable {f : Field} {t i : Nat} {s : Array Gf} {st : BmState}

theorem bmStep_of_zero (hd : bmDiscrepancy f t s st.c i = 0) :
    bmStep f t s st i = { st with b := bmShift t st.b } := by
  rw [bmDiscrepancy, ← gfSum_map_range] at hd
  simp only [bmStep, hd]
  rfl

theorem bmStep_of_lt (hd : bmDiscrepancy f t s st.c i ≠ 0) (hlt : i < 2 * st.len) : bmStep f t s st i =
    { st with c := bmConnection f t st (bmDiscrepancy f t s st.c i), b := bmShift t st.b } := by
  rw [bmDiscrepancy, ← gfSum_map_range] at hd ⊢
  simp only [bmStep, bne_iff_ne.mpr hd, decide_eq_false (Nat.not_le.mpr hlt), Bool.and_false, if_true]
  rfl

theorem bmStep_of_le (hd : bmDiscrepancy f t s st.c i ≠ 0) (hle : 2 * st.len ≤ i) : bmStep f t s st i =
    { c := bmConnection f t st (bmDiscrepancy f t s st.c i), b := bmShift t st.c, len := i + 1 - st.len,
      last := bmDiscrepancy f t s st.c i } := by
  rw [bmDiscrepancy, ← gfSum_map_range] at hd ⊢
  simp only [bmStep, bne_iff_ne.mpr hd, decide_eq_true hle, Bool.and_true, if_true]
  rfl

/-- The three kinds of iterations, for a fact about the next state. -/
theorem bmStep_induction {motive : BmState → Prop}
    (zero : bmDiscrepancy f t s st.c i = 0 → motive { st with b := bmShift t st.b })
    (lt : bmDiscrepancy f t s st.c i ≠ 0 → i < 2 * st.len →
      motive { st with c := bmConnection f t st (bmDiscrepancy f t s st.c i), b := bmShift t st.b })
    (le : bmDiscrepancy f t s st.c i ≠ 0 → 2 * st.len ≤ i →
      motive { c := bmConnection f t st (bmDiscrepancy f t s st.c i), b := bmShift t st.c, len := i + 1 - st.len,
               last := bmDiscrepancy f t s st.c i }) : motive (bmStep f t s st i) := by
  by_cases hd : bmDiscrepancy f t s st.c i = 0
  · exact bmStep_of_zero hd ▸ zero hd
  · rcases Nat.lt_or_ge i (2 * st.len) with h | h
    · exact bmStep_of_lt hd h ▸ lt hd h
    · exact bmStep_of_le hd h ▸ le hd h

theorem len_le_bmStep : st.len ≤ (bmStep f t s st i).len :=
  bmStep_induction (motive := fun st' => st.len ≤ st'.len) (fun _ => le_rfl) (fun _ _ => le_rfl) fun _ h => by
    dsimp only
    omega

theorem bmRun_succ (f : Field) (t : Nat) (s : Array Gf) (k : Nat) :
    bmRun f t s (k + 1) = bmStep f t s (bmRun f t s k) k := by
  rw [bmRun, List.range_succ, List.foldl_append]
  rfl

end

-- Every value is canonical.

theorem canonical_gfFrac (f : Field) (den num : Gf) : Canonical f (gfFrac f den num) := canonical_gfMul ..

theorem canonical_bmDiscrepancy (f : Field) (t : Nat) (s c : Array Gf) (i : Nat) :
    Canonical f (bmDiscrepancy f t s c i) := canonical_gfXor fun _ _ => canonical_gfMul ..

theorem canonical_bmShift {f : Field} {b : Array Gf} (hb : ∀ i, Canonical f (gfAt b i)) (t i : Nat) :
    Canonical f (gfAt (bmShift t b) i) :=
  canonical_gfAt_tabulate (fun _ _ => canonical_ite (canonical_zero f) (hb _)) i

/-- The arrays hold canonical elements, and b is canonical and not 0. -/
structure BmCanonical (f : Field) (st : BmState) : Prop where
  c : ∀ i, Canonical f (gfAt st.c i)
  b : ∀ i, Canonical f (gfAt st.b i)
  last : Canonical f st.last
  last_ne_zero : st.last ≠ 0

theorem BmCanonical.after_bmConnection {f : Field} {st : BmState} (h : BmCanonical f st) (t : Nat) (d : Gf) (i : Nat) :
    Canonical f (gfAt (bmConnection f t st d) i) :=
  canonical_gfAt_tabulate (fun j _ => canonical_xor (h.c j) (canonical_gfMul ..)) i

theorem BmCanonical.after_bmStep {f : Field} {st : BmState} (h : BmCanonical f st) (t : Nat) (s : Array Gf) (i : Nat) :
    BmCanonical f (bmStep f t s st i) :=
  bmStep_induction (fun _ => ⟨h.c, canonical_bmShift h.b t, h.last, h.last_ne_zero⟩)
    (fun _ _ => ⟨h.after_bmConnection t _, canonical_bmShift h.b t, h.last, h.last_ne_zero⟩)
    fun hd _ => ⟨h.after_bmConnection t _, canonical_bmShift h.c t, canonical_bmDiscrepancy .., hd⟩

theorem bmCanonical_bmRun (f : Field) (t : Nat) (s : Array Gf) (k : Nat) : BmCanonical f (bmRun f t s k) := by
  induction k with
  | zero =>
    have hcan (j : Nat) : ∀ i, Canonical f (gfAt (tabulate (t + 1) fun i => if i = j then 1 else 0) i) :=
      canonical_gfAt_tabulate fun _ _ => canonical_ite (canonical_one f) (canonical_zero f)
    exact ⟨hcan 0, hcan 1, canonical_one f, (by decide : (1 : Gf) ≠ 0)⟩
  | succ k ih =>
    rw [bmRun_succ]
    exact ih.after_bmStep t s k

-- The zero syndrome (44_poly.md R178).

theorem bmRun_c_of_zero (f : Field) {t : Nat} {s : Array Gf} (hs : ∀ i < 2 * t, gfAt s i = 0) {k : Nat}
    (hk : k ≤ 2 * t) : (bmRun f t s k).c = (bmStart t).c := by
  induction k with
  | zero => rfl
  | succ k ih =>
    have hd : bmDiscrepancy f t s (bmRun f t s k).c k = 0 := by
      refine gfVal_injOn (canonical_bmDiscrepancy ..) (canonical_zero f) ?_
      rw [bmDiscrepancy, gfVal_gfXor, gfVal_gf_zero]
      refine Finset.sum_eq_zero fun j _ => ?_
      rw [hs (k - j) (by omega), BitVec.ofNat_eq_ofNat, gfMul_zero ((bmCanonical_bmRun f t s k).c j), gfVal_zero]
    rw [bmRun_succ, bmStep_of_zero hd]
    exact ih (by omega)

theorem locator_getD (f : Field) {t i : Nat} (s : Array Gf) (hi : i < t + 1) :
    (locator f t s).getD i 0 = gfAt (bmRun f t s (2 * t)).c (t - i) := by
  rw [locator, List.getD_eq_getElem _ _ (by simpa using hi), List.getElem_map, List.getElem_range]

-- Discrepancies as entries of a product of power series.

/-- The power series of an array. -/
noncomputable def arraySeries (f : Field) (a : Array Gf) : (GF f)⟦X⟧ := PowerSeries.mk fun i => gfVal f (gfAt a i)

/-- Entry n of the product with the sequence s: the discrepancy of a at n, with all the entries of a. -/
noncomputable def discrepancyAt (f : Field) (s a : Array Gf) (n : Nat) : GF f :=
  coeff n (arraySeries f a * arraySeries f s)

section
variable {f : Field} {t : Nat} {s : Array Gf}

theorem discrepancyAt_eq_sum (a : Array Gf) (n : Nat) :
    discrepancyAt f s a n = ∑ j ∈ Finset.range (n + 1), gfVal f (gfAt a j) * gfVal f (gfAt s (n - j)) := by
  rw [discrepancyAt, coeff_mul, Finset.Nat.sum_antidiagonal_eq_sum_range_succ_mk]
  simp only [arraySeries, coeff_mk]

theorem gfVal_bmDiscrepancy {c : Array Gf} {i : Nat} (hc : ∀ j, Canonical f (gfAt c j))
    (hs : ∀ j ≤ i, Canonical f (gfAt s j)) (hend : ∀ j, t < j → gfAt c j = 0) :
    gfVal f (bmDiscrepancy f t s c i) = discrepancyAt f s c i := by
  have hsub : Finset.range (min i t + 1) ⊆ Finset.range (i + 1) := Finset.range_subset_range.mpr (by omega)
  rw [bmDiscrepancy, gfVal_gfXor, discrepancyAt_eq_sum, ← Finset.sum_subset hsub fun j hj hj' => ?_]
  · exact Finset.sum_congr rfl fun j _ => gfVal_gfMul (hc j) (hs _ (Nat.sub_le ..))
  · rw [Finset.mem_range] at hj hj'
    rw [hend j (by omega), gfVal_gf_zero, zero_mul]

/-- The array a has no entry past lo, and discrepancy 0 from lo up to hi. -/
structure GeneratesBetween (f : Field) (s : Array Gf) (lo hi : Nat) (a : Array Gf) : Prop where
  ends : ∀ i, lo < i → gfAt a i = 0
  zero : ∀ n, lo ≤ n → n < hi → discrepancyAt f s a n = 0

namespace GeneratesBetween

variable {lo hi : Nat} {a : Array Gf}

theorem mono (h : GeneratesBetween f s lo hi a) {lo' : Nat} (hlo : lo ≤ lo') : GeneratesBetween f s lo' hi a :=
  ⟨fun i hi => h.ends i (hlo.trans_lt hi), fun n hn => h.zero n (hlo.trans hn)⟩

theorem succ (h : GeneratesBetween f s lo hi a) (hd : discrepancyAt f s a hi = 0) :
    GeneratesBetween f s lo (hi + 1) a :=
  ⟨h.ends, fun n hn hlt => (Nat.lt_succ_iff_lt_or_eq.mp hlt).elim (h.zero n hn) fun e => e ▸ hd⟩

section
variable (h : GeneratesBetween f s lo hi a) (hlo : lo < t)
include h hlo

theorem arraySeries_bmShift : arraySeries f (bmShift t a) = X * arraySeries f a := by
  ext n
  rw [arraySeries, coeff_mk, bmShift, gfAt_tabulate]
  cases n with
  | zero =>
    rw [coeff_zero_X_mul, if_pos (Nat.succ_pos t), if_pos rfl, gfVal_gf_zero]
  | succ n =>
    rw [coeff_succ_X_mul, arraySeries, coeff_mk, if_neg n.succ_ne_zero, Nat.add_sub_cancel]
    split
    · rfl
    · rw [h.ends n (by omega)]

theorem discrepancyAt_bmShift (n : Nat) : discrepancyAt f s (bmShift t a) (n + 1) = discrepancyAt f s a n := by
  rw [discrepancyAt, h.arraySeries_bmShift hlo, mul_assoc, coeff_succ_X_mul, discrepancyAt]

theorem after_bmShift : GeneratesBetween f s (lo + 1) (hi + 1) (bmShift t a) where
  ends i hi := by
    rw [bmShift, gfAt_tabulate]
    split
    · rw [if_neg (by omega), h.ends _ (by omega)]
    · rfl
  zero n hn hlt := by
    obtain ⟨k, rfl⟩ := Nat.exists_eq_add_one_of_ne_zero (by omega : n ≠ 0)
    rw [h.discrepancyAt_bmShift hlo]
    exact h.zero k (by omega) (by omega)

end

section
variable {st : BmState} (hcan : BmCanonical f st) {d : Gf}
  (hc : GeneratesBetween f s lo hi st.c) (hb : GeneratesBetween f s lo hi st.b) (hlo : lo ≤ t)
include hcan hc hb hlo

theorem arraySeries_bmConnection : arraySeries f (bmConnection f t st d) =
    arraySeries f st.c + C (gfVal f (gfFrac f st.last d)) * arraySeries f st.b := by
  have hq := canonical_gfFrac f st.last d
  ext n
  rw [map_add, coeff_C_mul, arraySeries, arraySeries, arraySeries, coeff_mk, coeff_mk, coeff_mk, bmConnection,
    gfAt_tabulate]
  split
  · rw [gfVal_xor, gfVal_gfMul hq (hcan.b n)]
  · rw [hc.ends n (by omega), hb.ends n (by omega), gfVal_gf_zero, mul_zero, add_zero]

theorem discrepancyAt_bmConnection (n : Nat) : discrepancyAt f s (bmConnection f t st d) n =
    discrepancyAt f s st.c n + gfVal f (gfFrac f st.last d) * discrepancyAt f s st.b n := by
  rw [discrepancyAt, arraySeries_bmConnection hcan hc hb hlo, add_mul, map_add, mul_assoc, coeff_C_mul]
  rfl

/-- The new C also has discrepancy 0 at hi: that of C is d, and d / b times that of B is d as well. -/
theorem after_bmConnection (hd : Canonical f d) (hcd : discrepancyAt f s st.c hi = gfVal f d)
    (hbd : lo ≤ hi → discrepancyAt f s st.b hi = gfVal f st.last) :
    GeneratesBetween f s lo (hi + 1) (bmConnection f t st d) := by
  have hdisc := discrepancyAt_bmConnection (d := d) hcan hc hb hlo
  refine ⟨fun i hi => ?_, fun n hn hlt => ?_⟩
  · rw [bmConnection, gfAt_tabulate]
    split
    · rw [hc.ends i hi, hb.ends i hi, BitVec.ofNat_eq_ofNat, gfMul_zero (canonical_gfFrac ..), BitVec.xor_self]
    · rfl
  · rw [hdisc]
    rcases Nat.lt_succ_iff_lt_or_eq.mp hlt with hlt | rfl
    · rw [hc.zero n hn hlt, hb.zero n hn hlt, mul_zero, add_zero]
    · have hinv := gfVal_gfInv_of_ne_zero hcan.last hcan.last_ne_zero
      rw [hcd, hbd hn, gfFrac, gfMask_of_canonical hd, gfVal_gfMul (canonical_gfInv ..) hd, mul_right_comm,
        mul_comm (gfVal f (gfInv f st.last)), hinv, one_mul, GF.add_self]

end

end GeneratesBetween

end

-- The invariant (44_poly.md R177).

/-- Before iteration i: C has at most L + 1 entries, the first of them 1, and generates the sequence from L up to i; and
B, while the arrays hold it, has at most i + 2 - L entries, discrepancy 0 from i + 1 - L up to i, and b at i. -/
structure BmInvariant (f : Field) (t : Nat) (s : Array Gf) (i : Nat) (st : BmState) : Prop where
  len_le : st.len ≤ i
  c_zero : gfAt st.c 0 = 1
  b_zero : gfAt st.b 0 = 0
  c_generates : GeneratesBetween f s st.len i st.c
  b_generates : i + 1 - st.len ≤ t → GeneratesBetween f s (i + 1 - st.len) i st.b
  b_discrepancy : i + 1 - st.len ≤ t → 0 < st.len → discrepancyAt f s st.b i = gfVal f st.last

theorem gfAt_bmShift_zero (t : Nat) (b : Array Gf) : gfAt (bmShift t b) 0 = 0 := by
  rw [bmShift, gfAt_tabulate, if_pos (Nat.succ_pos t), if_pos rfl]

theorem gfAt_bmConnection_zero (f : Field) (t : Nat) {st : BmState} (hc : gfAt st.c 0 = 1) (hb : gfAt st.b 0 = 0)
    (d : Gf) : gfAt (bmConnection f t st d) 0 = 1 := by
  rw [bmConnection, gfAt_tabulate, if_pos (Nat.succ_pos t), hc, hb, BitVec.ofNat_eq_ofNat,
    BitVec.ofNat_eq_ofNat, gfMul_zero (canonical_gfFrac ..), BitVec.xor_zero]

theorem bmInvariant_bmStart (f : Field) (t : Nat) (s : Array Gf) : BmInvariant f t s 0 (bmStart t) where
  len_le := le_rfl
  c_zero := by rw [bmStart, gfAt_tabulate, if_pos (Nat.succ_pos t), if_pos rfl]
  b_zero := by rw [bmStart, gfAt_tabulate, if_pos (Nat.succ_pos t), if_neg (by decide)]
  c_generates := ⟨fun i hi => by
    rw [bmStart, gfAt_tabulate, if_neg (show i ≠ 0 from Nat.ne_of_gt hi), ite_self],
    fun n _ hn => absurd hn (Nat.not_lt_zero n)⟩
  b_generates _ := ⟨fun i hi => by
    rw [bmStart, gfAt_tabulate, if_neg (show i ≠ 1 from Nat.ne_of_gt hi), ite_self],
    fun n _ hn => absurd hn (Nat.not_lt_zero n)⟩
  b_discrepancy _ h := absurd h (lt_irrefl 0)

theorem BmInvariant.after_bmStep {f : Field} {t i : Nat} {s : Array Gf} {st : BmState} (h : BmInvariant f t s i st)
    (hcan : BmCanonical f st) (hs : ∀ j ≤ i, Canonical f (gfAt s j)) (ht : (bmStep f t s st i).len ≤ t) :
    BmInvariant f t s (i + 1) (bmStep f t s st i) := by
  have hlen := h.len_le
  have hlent : st.len ≤ t := len_le_bmStep.trans ht
  have hd : discrepancyAt f s st.c i = gfVal f (bmDiscrepancy f t s st.c i) :=
    (gfVal_bmDiscrepancy hcan.c hs fun j hj => h.c_generates.ends j (by omega)).symm
  have hdcan := canonical_bmDiscrepancy f t s st.c i
  have hi : i + 1 + 1 - st.len = i + 1 - st.len + 1 := by omega
  -- B, shifted, where L stays
  have hshift (hle : i + 1 + 1 - st.len ≤ t) :
      GeneratesBetween f s (i + 1 + 1 - st.len) (i + 1) (bmShift t st.b) ∧
        (0 < st.len → discrepancyAt f s (bmShift t st.b) (i + 1) = gfVal f st.last) := by
    have hb := h.b_generates (by omega)
    rw [hi]
    refine ⟨hb.after_bmShift (by omega), fun hpos => ?_⟩
    rw [hb.discrepancyAt_bmShift (by omega), h.b_discrepancy (by omega) hpos]
  revert ht
  refine bmStep_induction (motive := fun st' => st'.len ≤ t → BmInvariant f t s (i + 1) st') (fun h0 _ => ?_)
    (fun h0 hlt _ => ?_) fun h0 hle ht => ?_
  · have hz : discrepancyAt f s st.c i = 0 := by
      rw [hd, h0, gfVal_gf_zero]
    exact ⟨by dsimp only; omega, h.c_zero, gfAt_bmShift_zero .., h.c_generates.succ hz, fun hle => (hshift hle).1,
      fun hle => (hshift hle).2⟩
  · have hb := (h.b_generates (by omega)).mono (show i + 1 - st.len ≤ st.len by omega)
    have hc := GeneratesBetween.after_bmConnection hcan h.c_generates hb hlent hdcan hd fun _ =>
      h.b_discrepancy (by omega) (by omega)
    exact ⟨by dsimp only; omega, gfAt_bmConnection_zero f t h.c_zero h.b_zero _, gfAt_bmShift_zero .., hc,
      fun hle => (hshift hle).1, fun hle => (hshift hle).2⟩
  · have hb := h.b_generates ht
    have hc := GeneratesBetween.after_bmConnection hcan
      (h.c_generates.mono (show st.len ≤ i + 1 - st.len by omega)) hb ht hdcan hd fun hpos =>
        h.b_discrepancy ht (by omega)
    have hnew : i + 1 + 1 - (i + 1 - st.len) = st.len + 1 := by omega
    refine ⟨Nat.sub_le .., gfAt_bmConnection_zero f t h.c_zero h.b_zero _, gfAt_bmShift_zero .., hc, ?_, ?_⟩
    · dsimp only
      rw [hnew]
      exact fun hle => h.c_generates.after_bmShift hle
    · dsimp only
      rw [hnew]
      intro hle _
      rw [h.c_generates.discrepancyAt_bmShift hle, hd]

theorem bmInvariant_bmRun {f : Field} {t : Nat} {s : Array Gf} (hs : ∀ i < 2 * t, Canonical f (gfAt s i)) {k : Nat}
    (hk : k ≤ 2 * t) (ht : (bmRun f t s k).len ≤ t) : BmInvariant f t s k (bmRun f t s k) := by
  induction k with
  | zero => exact bmInvariant_bmStart f t s
  | succ k ih =>
    rw [bmRun_succ] at ht ⊢
    exact (ih (by omega) (len_le_bmStep.trans ht)).after_bmStep (bmCanonical_bmRun f t s k)
      (fun j hj => hs j (by omega)) ht

-- The instruction.

theorem exec_bm (s : State) (rd rb : Reg) : exec (.bm rd rb) s =
    let v := s.build.variant
    engineChecks (.bm rd rb) s [(s.reg rb, 2 * (v.t + 1)), (s.reg (rb + 1#4), 4 * v.t)]
      (withBuf s (s.reg (rb + 1#4), 4 * v.t) fun sBytes =>
        engineDone s rd 0 [(s.reg rb, bytesOf 2 (locator v.field v.t (gfElems v.field sBytes).toArray))]) := by
  rw [← s.operand_zero rb]
  rfl

-- The statements.

/-- Settles O34: the arrays stay canonical, and the zero syndrome never changes C. -/
theorem bmResult : Obligations.BmResult := by
  unfold Obligations.BmResult
  intro s rd rb hw v out a
  obtain ⟨hfault, hdone⟩ := outInEngine hw (exec_bm s rd rb)
  refine ⟨hfault, fun bs hlen hout ha hbs => ?_⟩
  have hval (i : Nat) (hi : i < v.t + 1) :
      half (bytesOf 2 (locator v.field v.t (elementArray v.field (2 * v.t) bs))) i =
        (locator v.field v.t (elementArray v.field (2 * v.t) bs)).getD i 0 := half_bytesOf (by simpa using hi)
  refine ⟨bytesOf 2 (locator v.field v.t (elementArray v.field (2 * v.t) bs)), ?_, by simp,
    fun i hi => ⟨hval i hi, ?_⟩, fun hzero i hi => ?_⟩
  · rw [hdone bs hlen hout ha hbs, ← gfElems_toArray v.field (n := 2 * v.t) (by omega)]
    exact completes_engineDone ..
  · rw [hval i hi, locator_getD _ _ hi]
    exact (bmCanonical_bmRun ..).c _
  · have hs (j : Nat) (hj : j < 2 * v.t) : gfAt (elementArray v.field (2 * v.t) bs) j = 0 := by
      rw [gfAt_elementArray bs hj, hzero j hj]
    rw [hval i hi, locator_getD _ _ hi, bmRun_c_of_zero _ hs le_rfl, bmStart, gfAt_tabulate, if_pos (by omega)]
    exact if_congr (by omega) rfl rfl

/-- Settles O35: the invariant after the last iteration. -/
theorem bmOutputGeneratesSyndrome : Obligations.BmOutputGeneratesSyndrome := by
  unfold Obligations.BmOutputGeneratesSyndrome
  intro f t s hs st hlen
  have hinv := bmInvariant_bmRun hs le_rfl hlen
  have hcan := bmCanonical_bmRun f t s (2 * t)
  refine ⟨hinv.c_zero, hinv.c_generates.ends, fun n hn hlt => ?_, fun i hi => locator_getD f s hi⟩
  refine gfVal_injOn (canonical_bmDiscrepancy f t s st.c n) (canonical_zero f) ?_
  have hdisc := gfVal_bmDiscrepancy (i := n) hcan.c (fun j hj => hs j (by omega)) fun j hj =>
    hinv.c_generates.ends j (hlen.trans_lt hj)
  exact hdisc.trans ((hinv.c_generates.zero n hn hlt).trans (gfVal_zero f).symm)

end Sys2Proof

/-!
PKGEN: the instruction and the packing of its key (spec/45_pkgen.md R190, R195), the order of the keys (R191), and the
parity-check matrix (R192).
-/

namespace Sys2Proof

open Sys2Proof.Machine

-- The public key's bytes (45_pkgen.md R195).

namespace Machine

theorem bit_append_left {bs rest : List Byte} {p : Nat} (h : p < 8 * bs.length) : bit (bs ++ rest) p = bit bs p := by
  rw [bit, bit, List.getD_append _ _ _ _ (by omega)]

theorem bit_append_right (bs rest : List Byte) (p : Nat) : bit (bs ++ rest) (8 * bs.length + p) = bit rest p := by
  rw [bit, bit, Nat.mul_add_div (by decide), Nat.mul_add_mod, List.getD_append_right _ _ _ _ (Nat.le_add_right ..),
    Nat.add_sub_cancel_left]

/-- The bit strings of a list of rows, k bytes each, one after the other. -/
theorem bit_flatMap {α : Type} {k : Nat} {f : α → List Byte} (hf : ∀ a, (f a).length = k) {xs : List α} {q c : Nat}
    (hq : q < xs.length) (hc : c < 8 * k) : bit (xs.flatMap f) (8 * (q * k) + c) = bit (f xs[q]) c := by
  induction xs generalizing q with
  | nil => exact absurd hq (Nat.not_lt_zero q)
  | cons x xs ih =>
    rw [List.flatMap_cons]
    cases q with
    | zero =>
      rw [Nat.zero_mul, Nat.mul_zero, Nat.zero_add, bit_append_left (by rwa [hf])]
      rfl
    | succ q =>
      have hpos : 8 * ((q + 1) * k) + c = 8 * (f x).length + (8 * (q * k) + c) := by
        rw [hf]
        ring
      rw [hpos, bit_append_right, ih (by simpa using hq), List.getElem_cons_succ]

theorem bit_publicKeyBytes {v : Variant} {h : Array (Row v.n)} {q c : Nat} (hq : q < h.size)
    (hc : c < 8 * v.pkRowBytes) : bit (publicKeyBytes v h) (8 * (q * v.pkRowBytes) + c) =
      (decide (c < v.pkNcols) && (h.getD q 0).getLsbD (v.pkNrows + c)) := by
  have hlen (row : Row v.n) : (packBits v.pkNcols fun c => row.getLsbD (v.pkNrows + c)).length = v.pkRowBytes :=
    packBits_length ..
  rw [publicKeyBytes, bit_flatMap hlen (by simpa using hq) hc, bit_packBits]
  simp [hq]

theorem quad_leBytes (x : Lane) : quad (leBytes 8 x.toNat) 0 = x := by
  have hbytes : leBytes 8 x.toNat = bytesOf 8 [x] := by simp [bytesOf]
  rw [hbytes]
  exact readsArray_quad.value_bytesOf Nat.zero_lt_one

-- The instruction (45_pkgen.md R190).

theorem exec_pkgen (s : State) (rd rb : Reg) : exec (.pkgen rd rb) s =
    let v := s.build.variant
    engineChecks (.pkgen rd rb) s
      [(s.reg rb, v.pkBytes), (s.reg (rb + 1#4), 2 * v.t), (s.reg (rb + 2#4), 4 * v.nfull),
        (s.reg (rb + 3#4), 2 * v.nfull), (s.reg (rb + 4#4), 8)]
      (withBuf s (s.reg (rb + 1#4), 2 * v.t) fun gBytes =>
        withBuf s (s.reg (rb + 2#4), 4 * v.nfull) fun permBytes =>
          let r := publicKey v (gfElems v.field gBytes ++ [1]) (elems32 permBytes)
          engineDone s rd (statusOf r.isSome)
            (match r with
            | some k => [(s.reg rb, publicKeyBytes v k.h), (s.reg (rb + 3#4), bytesOf 2 k.pi.toList),
                (s.reg (rb + 4#4), leBytes 8 k.pivots.toNat)]
            | none => [])) := by
  rw [← s.operand_zero rb]
  rfl

end Machine

-- The parity-check matrix (45_pkgen.md R192).

theorem canonical_getD {f : Field} {xs : List Gf} (h : ∀ x ∈ xs, Canonical f x) (i : Nat) :
    Canonical f (xs.getD i 0) := by
  by_cases hi : i < xs.length
  · rw [List.getD_eq_getElem _ _ hi]
    exact h _ (List.getElem_mem hi)
  · rw [List.getD_eq_default _ _ (Nat.le_of_not_lt hi)]
    exact canonical_zero f

theorem bitRow_getLsbD {n : Nat} {xs : List Gf} (k : Nat) {j : Nat} (hj : j < n) :
    (bitRow n xs k).getLsbD j = (xs.getD j 0).getLsbD k := by
  rw [bitRow, BitVec.getLsbD_ofNat, natOfBits_testBit, decide_eq_true hj, Bool.true_and]
  by_cases h : j < xs.length <;> simp [h]

/-- Row i m + k has bit k of the element j times L_j^i in column j. -/
theorem parityRows_getLsbD {f : Field} {n : Nat} {l : List Gf} (hl : ∀ x ∈ l, Canonical f x) {j k : Nat} (hj : j < n)
    (hjl : j < l.length) (hk : k < f.m) {count i : Nat} (hi : i < count) {inv : List Gf}
    (hinv : ∀ x ∈ inv, Canonical f x) (hji : j < inv.length) :
    ((parityRows f n l count inv).getD (i * f.m + k) 0).getLsbD j =
      (gfMul f (inv.getD j 0) (gfPow f (l.getD j 0) i)).getLsbD k := by
  have hcanl := canonical_getD hl j
  induction count generalizing i inv with
  | zero => exact absurd hi (Nat.not_lt_zero i)
  | succ count ih =>
    have hcan := canonical_getD hinv j
    have hlen : ((List.range f.m).map (bitRow n inv)).length = f.m := by simp
    rw [parityRows]
    cases i with
    | zero =>
      have hone : gfMul f (inv.getD j 0) (gfPow f (l.getD j 0) 0) = inv.getD j 0 := gfMul_one hcan
      rw [Nat.zero_mul, Nat.zero_add, List.getD_append _ _ _ _ (by rwa [hlen]), hone, ← bitRow_getLsbD k hj]
      simp [hk]
    | succ i =>
      have hnext : ∀ x ∈ inv.zipWith (gfMul f) l, Canonical f x := by
        intro x hx
        obtain ⟨q, hq, rfl⟩ := List.mem_iff_getElem.mp hx
        rw [List.getElem_zipWith]
        exact canonical_gfMul ..
      have hstep : (inv.zipWith (gfMul f) l).getD j 0 = gfMul f (inv.getD j 0) (l.getD j 0) := by simp [hji, hjl]
      have hrow : (i + 1) * f.m + k - f.m = i * f.m + k := by
        rw [Nat.succ_mul]
        omega
      have hge : f.m ≤ (i + 1) * f.m + k := by
        rw [Nat.succ_mul]
        omega
      rw [List.getD_append_right _ _ _ _ (by rwa [hlen]), hlen, hrow,
        ih (Nat.lt_of_succ_lt_succ hi) hnext (by simp [hji, hjl]), hstep, gfMul_assoc hcan hcanl (canonical_gfPow ..),
        gfMul_comm hcanl (canonical_gfPow ..), gfPow]

theorem evalPoly_eq_polyValue_getD {f : Field} {g : List Gf} (hg : ∀ x ∈ g, Canonical f x) {a : Gf}
    (ha : Canonical f a) : evalPoly f g a = polyValue f g.length (fun e => g.getD e 0) a := by
  have hlist : (List.range g.length).map (fun e => g.getD e 0) = g := by
    refine List.ext_getElem (by simp) fun i _ hi => ?_
    rw [List.getElem_map, List.getElem_range, List.getD_eq_getElem]
  rw [← evalPoly_eq_polyValue ha (canonical_getD hg), hlist]

/-- Settles O37: the bytes of the key are the rows' bit strings, and the two outcomes are those of `publicKey`. -/
theorem pkgenResult : Obligations.PkgenResult := by
  unfold Obligations.PkgenResult
  intro s rd rb hw v pk g perm pi pivots bufs
  obtain ⟨hfault, hpass⟩ := exec_of_engineChecks hw (exec_pkgen s rd rb)
  refine ⟨hfault, fun gs ps hglen hplen hfit hgs hps => ?_⟩
  rw [hpass hfit, withBuf_of_holds hglen hgs, withBuf_of_holds hplen hps, gfElems_eq_map_element _ hglen,
    readsArray_word.elems_eq_map_value hplen]
  cases hk : publicKey v ((List.range v.t).map (element v.field gs) ++ [1]) ((List.range v.nfull).map (word ps)) with
  | none => exact completes_engineDone ..
  | some k =>
    have hsize := publicKey_sizes hk
    rw [List.length_map, List.length_range] at hsize
    refine ⟨_, _, _, completes_engineDone .., ?_, ?_, leBytes_length .., fun q hq c hc => ?_, fun i hi => ?_, ?_⟩
    · rw [publicKeyBytes_length, hsize.1]
      rfl
    · rw [bytesOf_length, Array.length_toList, hsize.2]
    · exact bit_publicKeyBytes (by rwa [hsize.1]) hc
    · exact half_bytesOf_toList (by rwa [hsize.2])
    · exact quad_leBytes k.pivots

/-- Settles O39: a power of L_j is added to the factor of column j at each round of m rows. -/
theorem parityMatrixEntries : Obligations.ParityMatrixEntries := by
  unfold Obligations.ParityMatrixEntries
  intro v g l hg hl hlen
  refine ⟨parityMatrix_size v g l, fun i hi k hk j hj => ?_⟩
  have hjl : j < l.length := hlen ▸ hj
  have hinv : ∀ x ∈ l.map fun x => gfInv v.field (evalPoly v.field g x), Canonical v.field x := by
    simp only [List.mem_map]
    rintro _ ⟨x, -, rfl⟩
    exact canonical_gfInv ..
  have hval : (l.map fun x => gfInv v.field (evalPoly v.field g x)).getD j 0 =
      gfInv v.field (evalPoly v.field g (l.getD j 0)) := by
    simp [hjl]
  rw [← evalPoly_eq_polyValue_getD hg (canonical_getD hl j), ← hval,
    ← parityRows_getLsbD hl hj hjl hk hi hinv (by simpa using hjl)]
  simp [parityMatrix, Variant.m]

end Sys2Proof

/-!
Step 1 of PKGEN (spec/45_pkgen.md R191): the sorted list holds a key and its position in each element, so its positions
are the one list of the positions in the order of their keys, and two equal keys become neighbours.
-/

namespace Sys2Proof

open Sys2Proof.Machine

-- The elements of the list.

theorem sortKey_toNat {i : Nat} (hi : i < 2 ^ 31) (p : Word) : (sortKey i p).toNat = p.toNat * 2 ^ 31 + i := by
  have hp := p.isLt
  have hshift : ((p.zeroExtend 64 : Lane) <<< 31).toNat = p.toNat <<< 31 := by
    rw [BitVec.toNat_shiftLeft, BitVec.zeroExtend_eq_setWidth, BitVec.toNat_setWidth, Nat.mod_eq_of_lt (a := p.toNat),
      Nat.mod_eq_of_lt]
    · rw [Nat.shiftLeft_eq]
      omega
    · omega
  have hofNat : (BitVec.ofNat 64 i).toNat = i := Nat.mod_eq_of_lt (by omega)
  have hor : (sortKey i p).toNat = p.toNat <<< 31 ||| i := by
    rw [sortKey, BitVec.toNat_or, hshift, hofNat]
  rw [hor, ← Nat.shiftLeft_add_eq_or_of_lt hi, Nat.shiftLeft_eq]

/-- The key in an element of the list (45_pkgen.md R191). -/
def keyPart (b : Lane) : Nat := (b >>> 31).toNat

theorem keyPart_sortKey {i : Nat} (hi : i < 2 ^ 31) (p : Word) : keyPart (sortKey i p) = p.toNat := by
  rw [keyPart, BitVec.toNat_ushiftRight, sortKey_toNat hi, Nat.shiftRight_eq_div_pow]
  omega

theorem keyPart_le {a b : Lane} (h : a.toNat ≤ b.toNat) : keyPart a ≤ keyPart b := by
  rw [keyPart, keyPart, BitVec.toNat_ushiftRight, BitVec.toNat_ushiftRight, Nat.shiftRight_eq_div_pow,
    Nat.shiftRight_eq_div_pow]
  exact Nat.div_le_div_right h

theorem positionOf_sortKey {f : Field} {i : Nat} (hi : i < 2 ^ f.m) (p : Word) :
    (positionOf f (sortKey i p)).toNat = i := by
  have hm : 2 ^ f.m ≤ 2 ^ 16 := Nat.pow_le_pow_right Nat.two_pos f.m_lt.le
  have hlow : ((sortKey i p).truncate 16).toNat = i := by
    rw [BitVec.truncate_eq_setWidth, BitVec.toNat_setWidth, sortKey_toNat (by omega)]
    omega
  rw [positionOf, toNat_gfMask, hlow, Nat.mod_eq_of_lt hi]

/-- In a sorted list no two neighbours have the same key exactly when the keys rise strictly. -/
theorem keyCollision_eq_false_iff {bs : List Lane} (h : bs.Pairwise fun a b => a.toNat ≤ b.toNat) :
    keyCollision bs = false ↔ (bs.map keyPart).SortedLT := by
  rw [List.sortedLT_iff_isChain]
  induction bs with
  | nil => simp [keyCollision]
  | cons a bs ih =>
    obtain ⟨ha, hbs⟩ := List.pairwise_cons.mp h
    cases bs with
    | nil => simp [keyCollision]
    | cons b bs =>
      have hne : (a >>> 31 == b >>> 31) = false ↔ keyPart a < keyPart b := by
        rw [beq_eq_false_iff_ne, ← BitVec.toNat_ne_iff_ne, (keyPart_le (ha b List.mem_cons_self)).lt_iff_ne]
        rfl
      simp only [keyCollision, Bool.or_eq_false_iff, ih hbs, hne, List.map_cons, List.isChain_cons_cons]

-- The list of the positions.

/-- A function lists 0, ..., n - 1 in some order exactly when its values are a rearrangement of them. -/
theorem isPermutation_iff_perm {n : Nat} {p : Nat → Nat} :
    IsPermutation n p ↔ ((List.range n).map p).Perm (List.range n) := by
  constructor
  · rintro ⟨-, hsurj⟩
    have hsub : List.range n ⊆ (List.range n).map p := fun x hx => by
      obtain ⟨i, hi, rfl⟩ := hsurj x (List.mem_range.mp hx)
      exact List.mem_map_of_mem (List.mem_range.mpr hi)
    exact ((List.subperm_of_subset List.nodup_range hsub).perm_of_length_le (by simp)).symm
  · intro hperm
    refine ⟨fun i hi => ?_, fun x hx => ?_⟩
    · exact List.mem_range.mp (hperm.subset (List.mem_map_of_mem (List.mem_range.mpr hi)))
    · obtain ⟨i, hi, rfl⟩ := List.mem_map.mp (hperm.symm.subset (List.mem_range.mpr hx))
      exact ⟨i, List.mem_range.mp hi, rfl⟩

/-- The positions that an array of N elements lists, as numbers. -/
def positionList (v : Variant) (p : Array Gf) : List Nat := (List.range v.nfull).map fun i => (gfAt p i).toNat

theorem positionList_injOn {v : Variant} {p p' : Array Gf} (hp : p.size = v.nfull) (hp' : p'.size = v.nfull)
    (h : positionList v p = positionList v p') : p = p' := by
  refine Array.ext (hp.trans hp'.symm) fun i hi hi' => ?_
  have hval := List.map_inj_left.mp h i (List.mem_range.mpr (hp ▸ hi))
  simpa [gfAt, hi, hi', BitVec.toNat_inj] using hval

/-- An array lists the positions in the order of their keys exactly when its list is a rearrangement of all positions
along which the keys rise. -/
theorem sortsKeys_iff {v : Variant} {keys : List Word} {p : Array Gf} : SortsKeys v keys p ↔
    p.size = v.nfull ∧ (positionList v p).Perm (List.range v.nfull) ∧
      (positionList v p).Pairwise fun i j => (keys.getD i 0).toNat < (keys.getD j 0).toNat := by
  have horder : ((positionList v p).Pairwise fun i j => (keys.getD i 0).toNat < (keys.getD j 0).toNat) ↔
      ∀ i j, i < j → j < v.nfull →
        (keys.getD (gfAt p i).toNat 0).toNat < (keys.getD (gfAt p j).toNat 0).toNat := by
    rw [List.pairwise_iff_getElem]
    simp only [positionList, List.length_map, List.length_range, List.getElem_map, List.getElem_range]
    exact ⟨fun h i j hij hj => h i j (hij.trans hj) hj hij, fun h i j _ hj hij => h i j hij hj⟩
  rw [horder, positionList, ← isPermutation_iff_perm]
  exact ⟨fun h => ⟨h.size, h.perm, h.order⟩, fun ⟨hsize, hperm, ho⟩ => ⟨hsize, hperm, ho⟩⟩

theorem Machine.SortsKeys.unique {v : Variant} {keys : List Word} {p p' : Array Gf} (h : SortsKeys v keys p)
    (h' : SortsKeys v keys p') : p = p' := by
  obtain ⟨hsize, hperm, horder⟩ := sortsKeys_iff.mp h
  obtain ⟨hsize', hperm', horder'⟩ := sortsKeys_iff.mp h'
  exact positionList_injOn hsize hsize'
    ((hperm.trans hperm'.symm).eq_of_pairwise (fun _ _ _ _ hab hba => absurd hab hba.asymm) horder horder')

-- The sorted list.

/-- The array π of step 1. -/
def sortedPositions (f : Field) (keys : List Word) : Array Gf := ((sortedKeys keys).map (positionOf f)).toArray

section
variable {v : Variant} {keys : List Word} (hlen : keys.length = v.nfull)
include hlen

theorem sortedPositions_size : (sortedPositions v.field keys).size = v.nfull := by
  simp [sortedPositions, sortedKeys, hlen]

theorem sortedKeys_perm :
    (sortedKeys keys).Perm ((List.range v.nfull).map fun i => sortKey i (keys.getD i 0)) := by
  have hmap : keys.mapIdx sortKey = (List.range v.nfull).map fun i => sortKey i (keys.getD i 0) := by
    refine List.ext_getElem (by simp [hlen]) fun i hi _ => ?_
    rw [List.getElem_mapIdx, List.getElem_map, List.getElem_range, List.getD_eq_getElem]
  rw [← hmap]
  exact sortBy_perm ..

theorem positionList_sortedPositions :
    positionList v (sortedPositions v.field keys) = (sortedKeys keys).map fun b => (positionOf v.field b).toNat := by
  have hsorted : (sortedKeys keys).length = v.nfull := by simpa using (sortedKeys_perm hlen).length_eq
  refine List.ext_getElem (by simp [positionList, hsorted]) fun i _ hi => ?_
  simp only [List.length_map] at hi
  simp [positionList, sortedPositions, gfAt, hi]

theorem positionList_perm : (positionList v (sortedPositions v.field keys)).Perm (List.range v.nfull) := by
  have hpos : (List.range v.nfull).map ((fun b => (positionOf v.field b).toNat) ∘ fun i => sortKey i (keys.getD i 0)) =
      List.range v.nfull :=
    (List.map_congr_left fun i hi => positionOf_sortKey (List.mem_range.mp hi) _).trans (List.map_id _)
  rw [positionList_sortedPositions hlen]
  conv_rhs => rw [← hpos, ← List.map_map]
  exact (sortedKeys_perm hlen).map _

/-- The keys in the sorted list are those of its positions. -/
theorem map_keyPart_sortedKeys : ((sortedKeys keys).map keyPart) =
    (positionList v (sortedPositions v.field keys)).map fun i => (keys.getD i 0).toNat := by
  rw [positionList_sortedPositions hlen, List.map_map]
  refine List.map_congr_left fun b hb => ?_
  obtain ⟨i, hi, rfl⟩ := List.mem_map.mp ((sortedKeys_perm hlen).subset hb)
  have hlt : i < 2 ^ v.m := List.mem_range.mp hi
  have hm : 2 ^ v.m ≤ 2 ^ 14 := Nat.pow_le_pow_right Nat.two_pos (Variant.m_le v)
  rw [Function.comp_apply, positionOf_sortKey hlt, keyPart_sortKey (by omega)]

/-- The keys in the sorted list rise strictly exactly when no two keys are equal. -/
theorem sortedLT_keyPart_iff : ((sortedKeys keys).map keyPart).SortedLT ↔ keys.Nodup := by
  have hle : ((sortedKeys keys).map keyPart).SortedLE :=
    (List.pairwise_map.mpr ((sortUnsigned_pairwise _).imp keyPart_le)).sortedLE
  have hkeys : (List.range v.nfull).map (fun i => (keys.getD i 0).toNat) = keys.map BitVec.toNat := by
    refine List.ext_getElem (by simp [hlen]) fun i _ hi => ?_
    rw [List.length_map] at hi
    simp [hi]
  have hperm : ((sortedKeys keys).map keyPart).Perm (keys.map BitVec.toNat) := by
    rw [map_keyPart_sortedKeys hlen, ← hkeys]
    exact (positionList_perm hlen).map _
  rw [List.sortedLT_iff_nodup_and_sortedLE, and_iff_left hle, hperm.nodup_iff,
    List.nodup_map_iff fun _ _ => BitVec.eq_of_toNat_eq]

theorem keyCollision_sortedKeys : keyCollision (sortedKeys keys) = false ↔ keys.Nodup :=
  (keyCollision_eq_false_iff (sortUnsigned_pairwise _)).trans (sortedLT_keyPart_iff hlen)

theorem sortsKeys_sortedPositions (hnodup : keys.Nodup) : SortsKeys v keys (sortedPositions v.field keys) := by
  have hlt := ((sortedLT_keyPart_iff hlen).mpr hnodup).pairwise
  rw [map_keyPart_sortedKeys hlen, List.pairwise_map] at hlt
  exact sortsKeys_iff.mpr ⟨sortedPositions_size hlen, positionList_perm hlen, hlt⟩

theorem publicKey_of_nodup (hnodup : keys.Nodup) (g : List Gf) : publicKey v g keys =
    let pi := sortedPositions v.field keys
    let h := parityMatrix v g ((List.range v.n).map fun j => gfRev v.field (gfAt pi j))
    if v.fast then fastElim v h pi else plainElim v h pi := by
  have hsupport : (((sortedKeys keys).map (positionOf v.field)).take v.n).map (gfRev v.field) =
      (List.range v.n).map fun j => gfRev v.field (gfAt (sortedPositions v.field keys) j) := by
    have hsize := sortedPositions_size hlen
    have hn := Variant.n_le_nfull v
    rw [sortedPositions, List.size_toArray, List.length_map] at hsize
    refine List.ext_getElem (by simpa [hsize] using hn) fun j _ hj => ?_
    simp only [List.length_map, List.length_range] at hj
    simp [sortedPositions, gfAt, hsize, hj.trans_le hn]
  rw [publicKey, if_neg ((keyCollision_sortedKeys hlen).mpr hnodup ▸ Bool.false_ne_true)]
  dsimp only
  rw [hsupport]
  rfl

end

/-- Settles O38: equal keys become neighbours, and distinct keys have one order. -/
theorem pkgenPermutationSortsKeys : Obligations.PkgenPermutationSortsKeys := by
  unfold Obligations.PkgenPermutationSortsKeys
  intro v keys hlen pi support
  have hcollision : keyCollision (sortedKeys keys) = true ↔ ¬ keys.Nodup := by
    rw [← keyCollision_sortedKeys hlen, Bool.not_eq_false]
  refine ⟨hcollision, fun hdup g => ?_, fun hnodup => ⟨sortsKeys_sortedPositions hlen hnodup,
    fun p hp => hp.unique (sortsKeys_sortedPositions hlen hnodup), publicKey_of_nodup hlen hnodup⟩⟩
  rw [publicKey, hcollision.mpr hdup]
  rfl

end Sys2Proof

/-!
Step 3 of PKGEN (spec/45_pkgen.md R193): the elimination keeps the sums of rows, as a space over GF(2). Each step makes
one more unit column, or meets a column that is a sum of the unit columns before it; so it fails exactly when the
columns are dependent.
-/

namespace Sys2Proof

open Sys2Proof.Machine

-- Rows as vectors over GF(2).

/-- The bits of a row as elements of GF(2), 0 past its end. -/
def rowVec {n : Nat} (a : Row n) (c : Nat) : ZMod 2 := bitValue (a.getLsbD c)

@[simp] theorem rowVec_apply {n : Nat} (a : Row n) (c : Nat) : rowVec a c = bitValue (a.getLsbD c) := rfl

@[simp] theorem rowVec_xor {n : Nat} (a b : Row n) : rowVec (a ^^^ b) = rowVec a + rowVec b := by
  ext c
  simp

/-- The sums of rows of a list. -/
noncomputable def rowSpace {n : Nat} (rows : List (Row n)) : Submodule (ZMod 2) (Nat → ZMod 2) :=
  Submodule.span (ZMod 2) (rowVec '' {w | w ∈ rows})

theorem bitValue_eq_one_iff {b : Bool} : bitValue b = 1 ↔ b = true := bitValue_injective.eq_iff' bitValue_true

theorem bitValue_eq_zero_iff {b : Bool} : bitValue b = 0 ↔ b = false := bitValue_injective.eq_iff' bitValue_false

theorem bitValue_decide (p : Prop) [Decidable p] : bitValue (decide p) = if p then 1 else 0 := by
  by_cases h : p <;> simp [h]

theorem bitValue_decide_ne_zero (a : ZMod 2) : bitValue (decide (a ≠ 0)) = a := by
  revert a
  decide

section
variable {n : Nat} {rows : List (Row n)} {V : Submodule (ZMod 2) (Nat → ZMod 2)}

theorem rowVec_mem_rowSpace {w : Row n} (h : w ∈ rows) : rowVec w ∈ rowSpace rows :=
  Submodule.subset_span (Set.mem_image_of_mem rowVec h)

theorem rowSpace_le_iff : rowSpace rows ≤ V ↔ ∀ w ∈ rows, rowVec w ∈ V := by
  rw [rowSpace, Submodule.span_le, Set.image_subset_iff]
  rfl

theorem rowVec_xor_mem_iff {p : Row n} (hp : rowVec p ∈ V) (w : Row n) : rowVec (w ^^^ p) ∈ V ↔ rowVec w ∈ V := by
  rw [rowVec_xor]
  exact V.add_mem_iff_left hp

/-- Two linear functions that agree on the rows agree on the sums of rows. -/
theorem eqOn_rowSpace {M : Type*} [AddCommMonoid M] [Module (ZMod 2) M] {F G : (Nat → ZMod 2) →ₗ[ZMod 2] M}
    (h : ∀ w ∈ rows, F (rowVec w) = G (rowVec w)) {x : Nat → ZMod 2} (hx : x ∈ rowSpace rows) : F x = G x :=
  LinearMap.eqOn_span (Set.forall_mem_image.mpr h) hx

end

/-- Row w with p added to it when it has bit r (45_pkgen.md R193). -/
def clearBit {n : Nat} (r : Nat) (p w : Row n) : Row n := if w.getLsbD r then w ^^^ p else w

section
variable {n r : Nat} {p : Row n} (w : Row n)

theorem clearBit_getLsbD_pivot (hp : p.getLsbD r = true) : (clearBit r p w).getLsbD r = false := by
  unfold clearBit
  split
  case isTrue hw => rw [BitVec.getLsbD_xor, hw, hp, Bool.xor_self]
  case isFalse hw => exact Bool.eq_false_of_not_eq_true hw

theorem clearBit_getLsbD_of_false {c : Nat} (hp : p.getLsbD c = false) :
    (clearBit r p w).getLsbD c = w.getLsbD c := by
  unfold clearBit
  split
  · rw [BitVec.getLsbD_xor, hp, Bool.xor_false]
  · rfl

theorem rowVec_clearBit_mem_iff {V : Submodule (ZMod 2) (Nat → ZMod 2)} (hp : rowVec p ∈ V) :
    rowVec (clearBit r p w) ∈ V ↔ rowVec w ∈ V := by
  unfold clearBit
  split
  · exact rowVec_xor_mem_iff hp w
  · exact Iff.rfl

end

-- The rows of a matrix.

section
variable {n : Nat} {h : Array (Row n)}

theorem mem_toList_iff_getD {w : Row n} : w ∈ h.toList ↔ ∃ q < h.size, h.getD q 0 = w := by
  simp only [Array.mem_toList_iff, Array.mem_iff_getElem]
  constructor
  · rintro ⟨q, hq, rfl⟩
    exact ⟨q, hq, by simp [hq]⟩
  · rintro ⟨q, hq, rfl⟩
    exact ⟨q, hq, by simp [hq]⟩

theorem getD_mem_toList {q : Nat} (hq : q < h.size) : h.getD q 0 ∈ h.toList := mem_toList_iff_getD.mpr ⟨q, hq, rfl⟩

theorem mem_drop_iff_getD {w : Row n} (r : Nat) :
    w ∈ h.toList.drop r ↔ ∃ q, r ≤ q ∧ q < h.size ∧ h.getD q 0 = w := by
  rw [List.mem_drop_iff_getElem]
  constructor
  · rintro ⟨i, hi, rfl⟩
    have hq : r + i < h.size := by simpa [Nat.add_comm] using hi
    exact ⟨r + i, Nat.le_add_right .., hq, by simp [hq]⟩
  · rintro ⟨q, hrq, hq, rfl⟩
    obtain ⟨i, rfl⟩ := Nat.exists_eq_add_of_le hrq
    exact ⟨i, by simpa [Nat.add_comm] using hq, by simp [hq]⟩

/-- A sum of rows, by coefficients in GF(2) and by the rows it takes. -/
theorem sum_smul_rowVec {g : Fin h.size → ZMod 2} {z : Nat → Bool} (hz : ∀ q : Fin h.size, bitValue (z q) = g q) :
    ∑ q, g q • rowVec (h.getD q 0) = fun c => bitValue (rowSum h.size h z c) := by
  ext c
  rw [rowSum, bitValue_parity, Finset.sum_range, Finset.sum_apply]
  refine Finset.sum_congr rfl fun q _ => ?_
  rw [bitValue_and, hz, Pi.smul_apply, smul_eq_mul, rowVec_apply]

theorem rowSpace_eq_span_range :
    rowSpace h.toList = Submodule.span (ZMod 2) (Set.range fun q : Fin h.size => rowVec (h.getD q 0)) := by
  refine congrArg _ (Set.ext fun x => ?_)
  simp only [Set.mem_image, Set.mem_ofPred_eq, mem_toList_iff_getD, Set.mem_range, Fin.exists_iff]
  constructor
  · rintro ⟨_, ⟨q, hq, rfl⟩, hx⟩
    exact ⟨q, hq, hx⟩
  · rintro ⟨q, hq, hx⟩
    exact ⟨_, ⟨q, hq, rfl⟩, hx⟩

/-- The coefficients below k as the rows that a sum takes. -/
def selection {k : Nat} (g : Fin k → ZMod 2) (q : Nat) : Bool := if hq : q < k then decide (g ⟨q, hq⟩ ≠ 0) else false

theorem bitValue_selection {k : Nat} (g : Fin k → ZMod 2) (q : Fin k) : bitValue (selection g q) = g q := by
  rw [selection, dif_pos q.isLt, bitValue_decide_ne_zero]

theorem mem_rowSpace_iff {x : Nat → ZMod 2} :
    x ∈ rowSpace h.toList ↔ ∃ z : Nat → Bool, x = fun c => bitValue (rowSum h.size h z c) := by
  rw [rowSpace_eq_span_range, Submodule.mem_span_range_iff_exists_fun]
  constructor
  · rintro ⟨g, rfl⟩
    exact ⟨selection g, sum_smul_rowVec (bitValue_selection g)⟩
  · rintro ⟨z, rfl⟩
    exact ⟨fun q => bitValue (z q), sum_smul_rowVec fun _ => rfl⟩

end

-- Dependent columns.

/-- The sum of the entries of a vector before k that y takes. -/
noncomputable def columnSum (k : Nat) (y : Nat → ZMod 2) : (Nat → ZMod 2) →ₗ[ZMod 2] ZMod 2 :=
  ∑ c ∈ Finset.range k, y c • LinearMap.proj c

theorem columnSum_apply (k : Nat) (y x : Nat → ZMod 2) : columnSum k y x = ∑ c ∈ Finset.range k, y c * x c := by
  simp [columnSum]

/-- Some of the first k columns, at least one, add up to 0. -/
def ColumnsDependent (V : Submodule (ZMod 2) (Nat → ZMod 2)) (k : Nat) : Prop :=
  ∃ y : Nat → ZMod 2, (∃ c < k, y c ≠ 0) ∧ ∀ x ∈ V, columnSum k y x = 0

/-- Column k is the sum of some of the columns before it. -/
def ColumnDepends (V : Submodule (ZMod 2) (Nat → ZMod 2)) (k : Nat) : Prop :=
  ∃ y : Nat → ZMod 2, ∀ x ∈ V, x k = columnSum k y x

theorem ColumnDepends.columnsDependent {V : Submodule (ZMod 2) (Nat → ZMod 2)} {c k : Nat} (h : ColumnDepends V c)
    (hc : c < k) : ColumnsDependent V k := by
  obtain ⟨y, hy⟩ := h
  refine ⟨fun i => if i < c then y i else if i = c then 1 else 0, ⟨c, hc, by simp⟩, fun x hx => ?_⟩
  have hbefore : ∑ i ∈ Finset.range c, (if i < c then y i else if i = c then 1 else 0) * x i = columnSum c y x := by
    rw [columnSum_apply]
    exact Finset.sum_congr rfl fun i hi => by rw [if_pos (Finset.mem_range.mp hi)]
  rw [columnSum_apply, ← Finset.sum_subset (Finset.range_subset_range.mpr hc) fun i _ hi => ?_,
    Finset.sum_range_succ, hbefore, ← hy x hx, if_neg (lt_irrefl c), if_pos rfl, one_mul, CharTwo.add_self_eq_zero]
  rw [Finset.mem_range] at hi
  rw [if_neg (by omega), if_neg (by omega), zero_mul]

theorem columnsDependent_rowSpace_iff {n : Nat} {h : Array (Row n)} {k : Nat} : ColumnsDependent (rowSpace h.toList) k ↔
    ∃ y : Nat → Bool, (∃ c < k, y c = true) ∧
      ∀ q < h.size, parity k (fun c => (h.getD q 0).getLsbD c && y c) = false := by
  have hrow (y : Nat → Bool) (q : Nat) : bitValue (parity k fun c => (h.getD q 0).getLsbD c && y c) =
      columnSum k (fun c => bitValue (y c)) (rowVec (h.getD q 0)) := by
    rw [bitValue_parity, columnSum_apply]
    exact Finset.sum_congr rfl fun c _ => by rw [bitValue_and, mul_comm, rowVec_apply]
  constructor
  · rintro ⟨y, ⟨c, hc, hyc⟩, hy⟩
    refine ⟨fun c => decide (y c ≠ 0), ⟨c, hc, decide_eq_true hyc⟩, fun q hq => ?_⟩
    rw [← bitValue_eq_zero_iff, hrow]
    simp only [bitValue_decide_ne_zero]
    exact hy _ (rowVec_mem_rowSpace (getD_mem_toList hq))
  · rintro ⟨y, ⟨c, hc, hyc⟩, hy⟩
    refine ⟨fun c => bitValue (y c), ⟨c, hc, bitValue_eq_zero_iff.not.mpr (by simp [hyc])⟩, fun x hx => ?_⟩
    refine eqOn_rowSpace (G := 0) (fun w hw => ?_) hx
    obtain ⟨q, hq, rfl⟩ := mem_toList_iff_getD.mp hw
    rw [← hrow, hy q hq]
    rfl

-- One step (45_pkgen.md R193).

section
variable {n r : Nat} {h h' : Array (Row n)} {p : Row n}

theorem pivotRow_eq_some (e : pivotRow h r = some p) :
    p.getLsbD r = true ∧ (p = h.getD r 0 ∨ ∃ q, r < q ∧ q < h.size ∧ p = h.getD r 0 ^^^ h.getD q 0) := by
  unfold pivotRow at e
  dsimp only at e
  split at e
  case isTrue hrow =>
    cases e
    exact ⟨hrow, .inl rfl⟩
  case isFalse hrow =>
    obtain ⟨w, hfind, rfl⟩ := Option.map_eq_some_iff.mp e
    have hbit : w.getLsbD r = true := by simpa using List.find?_some hfind
    obtain ⟨q, hq, hsize, rfl⟩ := (mem_drop_iff_getD _).mp (List.mem_of_find?_eq_some hfind)
    refine ⟨?_, .inr ⟨q, hq, hsize, rfl⟩⟩
    rw [BitVec.getLsbD_xor, hbit, Bool.eq_false_of_not_eq_true hrow]
    rfl

theorem pivotRow_eq_none (e : pivotRow h r = none) {q : Nat} (hrq : r ≤ q) (hq : q < h.size) :
    (h.getD q 0).getLsbD r = false := by
  unfold pivotRow at e
  dsimp only at e
  split at e
  case isTrue => cases e
  case isFalse hrow =>
    rcases hrq.eq_or_lt with rfl | hlt
    · exact Bool.eq_false_of_not_eq_true hrow
    · simpa using List.find?_eq_none.mp (Option.map_eq_none_iff.mp e) _ ((mem_drop_iff_getD _).mpr ⟨q, hlt, hq, rfl⟩)

theorem reduceStep_eq_some (e : reduceStep h r = some h') : ∃ p, pivotRow h r = some p ∧
    ∀ q < h.size, h'.getD q 0 = if q = r then p else clearBit r p (h.getD q 0) := by
  obtain ⟨p, hp, rfl⟩ := Option.map_eq_some_iff.mp e
  exact ⟨p, hp, fun q hq => by simp [hq, clearBit]⟩

theorem rowSpace_reduceStep (hr : r < h.size) (e : reduceStep h r = some h') :
    rowSpace h'.toList = rowSpace h.toList := by
  obtain ⟨p, hp, hrow⟩ := reduceStep_eq_some e
  have hsize := reduceStep_size e
  have hpivot : h'.getD r 0 = p := by rw [hrow r hr, if_pos rfl]
  have hold {q : Nat} (hq : q < h.size) := rowVec_mem_rowSpace (getD_mem_toList hq)
  have hp' : rowVec p ∈ rowSpace h'.toList := by
    rw [← hpivot]
    exact rowVec_mem_rowSpace (getD_mem_toList (hsize ▸ hr))
  have hnew {q : Nat} (hq : q < h.size) (hqr : q ≠ r) : rowVec (h.getD q 0) ∈ rowSpace h'.toList := by
    have hmem := rowVec_mem_rowSpace (getD_mem_toList (hsize.symm ▸ hq : q < h'.size))
    rwa [hrow q hq, if_neg hqr, rowVec_clearBit_mem_iff _ hp'] at hmem
  obtain ⟨-, hcases⟩ := pivotRow_eq_some hp
  refine le_antisymm (rowSpace_le_iff.mpr fun w hw => ?_) (rowSpace_le_iff.mpr fun w hw => ?_)
  · have hpold : rowVec p ∈ rowSpace h.toList := by
      rcases hcases with rfl | ⟨q, -, hq, rfl⟩
      · exact hold hr
      · exact (rowVec_xor_mem_iff (hold hq) _).mpr (hold hr)
    obtain ⟨q, hq, rfl⟩ := mem_toList_iff_getD.mp hw
    rw [hsize] at hq
    by_cases hqr : q = r
    · rwa [hqr, hpivot]
    · rw [hrow q hq, if_neg hqr]
      exact (rowVec_clearBit_mem_iff _ hpold).mpr (hold hq)
  · obtain ⟨q, hq, rfl⟩ := mem_toList_iff_getD.mp hw
    by_cases hqr : q = r
    · subst hqr
      rcases hcases with rfl | ⟨i, hqi, hi, rfl⟩
      · exact hp'
      · exact (rowVec_xor_mem_iff (hnew hi hqi.ne') _).mp hp'
    · exact hnew hq hqr

end

-- The elimination (45_pkgen.md R193).

/-- What the elimination keeps before its step r: the columns before r are the unit vectors, and the sums of rows are
those of V. -/
structure Reduced {n : Nat} (R : Nat) (V : Submodule (ZMod 2) (Nat → ZMod 2)) (r : Nat) (h : Array (Row n)) : Prop where
  size : h.size = R
  space : rowSpace h.toList = V
  unit : ∀ q < R, ∀ c < r, (h.getD q 0).getLsbD c = decide (q = c)

section
variable {n R r : Nat} {V : Submodule (ZMod 2) (Nat → ZMod 2)} {h h' : Array (Row n)}

theorem reduced_zero (h : Array (Row n)) : Reduced h.size (rowSpace h.toList) 0 h :=
  ⟨rfl, rfl, fun _ _ c hc => absurd hc (Nat.not_lt_zero c)⟩

theorem Reduced.exists_unit (hred : Reduced R V r h) {q : Nat} (hq : q < R) :
    ∃ x ∈ V, ∀ c < r, x c = if q = c then 1 else 0 := by
  refine ⟨rowVec (h.getD q 0), ?_, fun c hc => ?_⟩
  · rw [← hred.space]
    exact rowVec_mem_rowSpace (getD_mem_toList (hred.size.symm ▸ hq))
  · rw [rowVec_apply, hred.unit q hq c hc, bitValue_decide]

theorem Reduced.not_columnsDependent (hred : Reduced R V r h) (hr : r ≤ R) : ¬ ColumnsDependent V r := by
  rintro ⟨y, ⟨c, hc, hyc⟩, hy⟩
  obtain ⟨x, hx, hunit⟩ := hred.exists_unit (hc.trans_le hr)
  have hsum : columnSum r y x = y c := by
    rw [columnSum_apply, Finset.sum_eq_single_of_mem c (Finset.mem_range.mpr hc) fun i hi hic => by
      rw [hunit i (Finset.mem_range.mp hi), if_neg hic.symm, mul_zero], hunit c hc, if_pos rfl, mul_one]
  exact hyc (hsum.symm.trans (hy x hx))

theorem Reduced.after_reduceStep (hred : Reduced R V r h) (hr : r < R) (e : reduceStep h r = some h') :
    Reduced R V (r + 1) h' := by
  obtain ⟨p, hp, hrow⟩ := reduceStep_eq_some e
  obtain ⟨hbit, hcases⟩ := pivotRow_eq_some hp
  have hsize := hred.size
  have hbefore (c : Nat) (hc : c < r) : p.getLsbD c = false := by
    rcases hcases with rfl | ⟨q, hrq, hq, rfl⟩
    · rw [hred.unit r hr c hc, decide_eq_false hc.ne']
    · rw [BitVec.getLsbD_xor, hred.unit r hr c hc, hred.unit q (hsize ▸ hq) c hc, decide_eq_false hc.ne',
        decide_eq_false (hc.trans hrq).ne']
      rfl
  refine ⟨(reduceStep_size e).trans hsize, (rowSpace_reduceStep (hsize.symm ▸ hr) e).trans hred.space,
    fun q hq c hc => ?_⟩
  rw [hrow q (hsize.symm ▸ hq)]
  rcases Nat.lt_succ_iff_lt_or_eq.mp hc with hc | rfl
  · by_cases hqr : q = r
    · rw [if_pos hqr, hbefore c hc, hqr, decide_eq_false hc.ne']
    · rw [if_neg hqr, clearBit_getLsbD_of_false _ (hbefore c hc), hred.unit q hq c hc]
  · by_cases hqc : q = c
    · rw [if_pos hqc, hbit, decide_eq_true hqc]
    · rw [if_neg hqc, clearBit_getLsbD_pivot _ hbit, decide_eq_false hqc]

/-- Where no row has the pivot, the pivot's column is the sum of unit columns before it. -/
theorem Reduced.columnDepends (hred : Reduced R V r h) (e : reduceStep h r = none) : ColumnDepends V r := by
  refine ⟨fun c => rowVec (h.getD c 0) r, fun x hx => ?_⟩
  rw [← hred.space] at hx
  refine eqOn_rowSpace (F := LinearMap.proj r) (fun w hw => ?_) hx
  obtain ⟨q, hq, rfl⟩ := mem_toList_iff_getD.mp hw
  have hterm (c : Nat) (hc : c ∈ Finset.range r) : rowVec (h.getD c 0) r * rowVec (h.getD q 0) c =
      if q = c then rowVec (h.getD q 0) r else 0 := by
    rw [rowVec_apply (h.getD q 0) c, hred.unit q (hred.size ▸ hq) c (Finset.mem_range.mp hc), bitValue_decide]
    by_cases hqc : q = c
    · rw [if_pos hqc, if_pos hqc, hqc, mul_one]
    · rw [if_neg hqc, if_neg hqc, mul_zero]
  rw [columnSum_apply, Finset.sum_congr rfl hterm, Finset.sum_ite_eq]
  by_cases hqr : q < r
  · rw [if_pos (Finset.mem_range.mpr hqr)]
    rfl
  · rw [if_neg (Finset.mem_range.not.mpr hqr)]
    exact bitValue_eq_zero_iff.mpr (pivotRow_eq_none (Option.map_eq_none_iff.mp e) (Nat.le_of_not_lt hqr) hq)

/-- Steps r to r + k - 1 make as many unit columns, or one of their columns depends on those before it. -/
theorem Reduced.reduceSteps_cases {k : Nat} (hred : Reduced R V r h) (hk : r + k ≤ R) :
    (∃ h', reduceSteps (List.range' r k) h = some h' ∧ Reduced R V (r + k) h') ∨
      (reduceSteps (List.range' r k) h = none ∧ ∃ c, r ≤ c ∧ c < r + k ∧ ColumnDepends V c) := by
  induction k generalizing r h with
  | zero => exact .inl ⟨h, rfl, hred⟩
  | succ k ih =>
    rw [List.range'_succ, reduceSteps]
    cases e : reduceStep h r with
    | none => exact .inr ⟨rfl, r, le_rfl, by omega, hred.columnDepends e⟩
    | some h1 =>
      rcases ih (hred.after_reduceStep (by omega) e) (by omega) with ⟨h', e', hred'⟩ | ⟨e', c, hrc, hc, hdep⟩
      · rw [Nat.succ_add_eq_add_succ] at hred'
        exact .inl ⟨h', e', hred'⟩
      · exact .inr ⟨e', c, by omega, by omega, hdep⟩

end

/-- The elimination on the first k columns makes them the unit vectors, or fails because they are dependent. -/
theorem reduceSteps_range_cases {n k : Nat} {h : Array (Row n)} (hk : k ≤ h.size) :
    (∃ h', reduceSteps (List.range k) h = some h' ∧ Reduced h.size (rowSpace h.toList) k h' ∧
      ¬ ColumnsDependent (rowSpace h.toList) k) ∨
    (reduceSteps (List.range k) h = none ∧ ColumnsDependent (rowSpace h.toList) k) := by
  have hcases := (reduced_zero h).reduceSteps_cases (k := k) (by omega)
  rw [← List.range_eq_range', Nat.zero_add] at hcases
  rcases hcases with ⟨h', e, hred⟩ | ⟨e, c, -, hc, hdep⟩
  · exact .inl ⟨h', e, hred, hred.not_columnsDependent hk⟩
  · exact .inr ⟨e, hdep.columnsDependent hc⟩

/-- Settles O40: the elimination keeps the sums of rows, and ends at unit columns or at a dependence. -/
theorem plainEliminationIsReduction : Obligations.PlainEliminationIsReduction := by
  unfold Obligations.PlainEliminationIsReduction
  intro v h pi hsize
  rw [← hsize, ← columnsDependent_rowSpace_iff, plainElim, ← hsize]
  rcases reduceSteps_range_cases (le_refl h.size) with ⟨h', e, hred, hindep⟩ | ⟨e, hdep⟩
  · rw [e]
    refine ⟨iff_of_false (Option.some_ne_none _) hindep, fun k hk => ?_⟩
    cases hk
    refine ⟨rfl, rfl, hred.unit, fun q hq => ?_⟩
    have hmem := rowVec_mem_rowSpace (getD_mem_toList (hred.size.symm ▸ hq : q < h'.size))
    rw [hred.space, mem_rowSpace_iff] at hmem
    obtain ⟨z, hz⟩ := hmem
    exact ⟨z, fun c _ => bitValue_injective (congrFun hz c)⟩
  · rw [e]
    exact ⟨iff_of_true rfl hdep, fun k hk => absurd hk (Option.some_ne_none k).symm⟩

end Sys2Proof

/-!
The search for the moved pivot columns (spec/45_pkgen.md R194 items 2, 3): the columns it finds are those where some sum
of rows has its first 1, and it fails exactly when the rows of the window have too low a rank.
-/

namespace Sys2Proof

open Sys2Proof.Machine

-- Sums of rows.

section
variable {n : Nat} {rows : List (Row n)}

theorem apply_eq_zero_of_mem_rowSpace {c : Nat} (h : ∀ w ∈ rows, w.getLsbD c = false) {x : Nat → ZMod 2}
    (hx : x ∈ rowSpace rows) : x c = 0 :=
  eqOn_rowSpace (F := LinearMap.proj c) (G := 0) (fun w hw => bitValue_eq_zero_iff.mpr (h w hw)) hx

theorem rowSpace_append (rows rows' : List (Row n)) : rowSpace (rows ++ rows') = rowSpace rows ⊔ rowSpace rows' := by
  rw [rowSpace, rowSpace, rowSpace, ← Submodule.span_union, ← Set.image_union]
  congr 2
  ext w
  exact List.mem_append

theorem mem_rowSpace_cons {w : Row n} {x : Nat → ZMod 2} :
    x ∈ rowSpace (w :: rows) ↔ ∃ a : ZMod 2, ∃ y ∈ rowSpace rows, x = a • rowVec w + y := by
  have hset : rowVec '' {u | u ∈ w :: rows} = insert (rowVec w) (rowVec '' {u | u ∈ rows}) := by
    rw [← Set.image_insert_eq]
    congr 1
    ext u
    exact List.mem_cons
  rw [rowSpace, hset, Submodule.mem_span_insert]
  rfl

theorem finite_rowSpace (rows : List (Row n)) : Module.Finite (ZMod 2) (rowSpace rows) :=
  FiniteDimensional.span_of_finite (ZMod 2) (rows.finite_toSet.image rowVec)

theorem finrank_rowSpace_append_le (rows rows' : List (Row n)) : Module.finrank (ZMod 2) (rowSpace (rows ++ rows')) ≤
    Module.finrank (ZMod 2) (rowSpace rows) + Module.finrank (ZMod 2) (rowSpace rows') := by
  have := finite_rowSpace rows
  have := finite_rowSpace rows'
  rw [rowSpace_append]
  exact Submodule.finrank_add_le_finrank_add_finrank _ _

theorem finrank_rowSpace_le_length (rows : List (Row n)) : Module.finrank (ZMod 2) (rowSpace rows) ≤ rows.length := by
  classical
  have hset : rowVec '' {w | w ∈ rows} = ((rows.map rowVec).toFinset : Set (Nat → ZMod 2)) := by
    ext x
    simp
  rw [rowSpace, hset]
  calc _ ≤ (rows.map rowVec).toFinset.card := finrank_span_finset_le_card _
    _ ≤ (rows.map rowVec).length := List.toFinset_card_le _
    _ = rows.length := List.length_map ..

theorem finrank_rowSpace_cons_le (w : Row n) (rows : List (Row n)) : Module.finrank (ZMod 2) (rowSpace (w :: rows)) ≤
    Module.finrank (ZMod 2) (rowSpace rows) + 1 := by
  have happend := finrank_rowSpace_append_le [w] rows
  have hone := finrank_rowSpace_le_length [w]
  rw [List.singleton_append] at happend
  rw [List.length_singleton] at hone
  omega

theorem rowSpace_eq_bot (h : ∀ w ∈ rows, w = 0) : rowSpace rows = ⊥ :=
  le_bot_iff.mp (rowSpace_le_iff.mpr fun w hw => by
    rw [h w hw]
    ext c
    simp)

theorem rowSpace_map {m : Nat} {g : Row n → Row m} {L : (Nat → ZMod 2) →ₗ[ZMod 2] (Nat → ZMod 2)}
    (h : ∀ w, rowVec (g w) = L (rowVec w)) (rows : List (Row n)) : rowSpace (rows.map g) = (rowSpace rows).map L := by
  rw [rowSpace, rowSpace, Submodule.map_span, Set.image_image]
  congr 1
  ext x
  simp [h]

end

-- First ones.

/-- Some vector has its first 1 at b. -/
def Leads (V : Submodule (ZMod 2) (Nat → ZMod 2)) (b : Nat) : Prop := ∃ x ∈ V, (∀ c < b, x c = 0) ∧ x b = 1

theorem ColumnDepends.not_leads {V : Submodule (ZMod 2) (Nat → ZMod 2)} {c : Nat} (h : ColumnDepends V c) :
    ¬ Leads V c := by
  rintro ⟨x, hx, hzero, hone⟩
  obtain ⟨y, hy⟩ := h
  have hsum : columnSum c y x = 0 := by
    rw [columnSum_apply]
    exact Finset.sum_eq_zero fun i hi => by rw [hzero i (Finset.mem_range.mp hi), mul_zero]
  exact one_ne_zero (hone.symm.trans ((hy x hx).trans hsum))

theorem not_leads_bot (b : Nat) : ¬ Leads ⊥ b := by
  rintro ⟨x, hx, -, hone⟩
  rw [(Submodule.mem_bot _).mp hx] at hone
  exact zero_ne_one hone

theorem leads_rowSpace_iff {n : Nat} {h : Array (Row n)} {b : Nat} : Leads (rowSpace h.toList) b ↔
    ∃ z : Nat → Bool, (∀ c < b, rowSum h.size h z c = false) ∧ rowSum h.size h z b = true := by
  constructor
  · rintro ⟨x, hx, hzero, hone⟩
    obtain ⟨z, rfl⟩ := mem_rowSpace_iff.mp hx
    exact ⟨z, fun c hc => bitValue_eq_zero_iff.mp (hzero c hc), bitValue_eq_one_iff.mp hone⟩
  · rintro ⟨z, hzero, hone⟩
    exact ⟨_, mem_rowSpace_iff.mpr ⟨z, rfl⟩, fun c hc => bitValue_eq_zero_iff.mpr (hzero c hc),
      bitValue_eq_one_iff.mpr hone⟩

/-- A row whose first 1 is at s, before those of the other rows. -/
theorem leads_cons_iff {n s b : Nat} {w : Row n} {rows : List (Row n)} (hbit : w.getLsbD s = true)
    (hw : ∀ c < s, w.getLsbD c = false) (hrows : ∀ u ∈ rows, ∀ c ≤ s, u.getLsbD c = false) :
    Leads (rowSpace (w :: rows)) b ↔ b = s ∨ Leads (rowSpace rows) b := by
  constructor
  · rintro ⟨x, hx, hzero, hone⟩
    obtain ⟨a, y, hy, rfl⟩ := mem_rowSpace_cons.mp hx
    have hy0 (c : Nat) (hc : c ≤ s) : y c = 0 := apply_eq_zero_of_mem_rowSpace (fun u hu => hrows u hu c hc) hy
    have hbits : ∀ a : ZMod 2, a = 0 ∨ a = 1 := by decide
    obtain rfl | rfl := hbits a
    · rw [zero_smul, zero_add] at hzero hone
      exact .inr ⟨y, hy, hzero, hone⟩
    · rw [one_smul] at hzero hone
      refine .inl (le_antisymm (Nat.le_of_not_lt fun hsb => ?_) (Nat.le_of_not_lt fun hbs => ?_))
      · have h1 := hzero s hsb
        rw [Pi.add_apply, hy0 s le_rfl, rowVec_apply, hbit] at h1
        exact one_ne_zero h1
      · rw [Pi.add_apply, hy0 b hbs.le, rowVec_apply, hw b hbs] at hone
        exact zero_ne_one hone
  · rintro (rfl | ⟨x, hx, hzero, hone⟩)
    · exact ⟨rowVec w, rowVec_mem_rowSpace List.mem_cons_self, fun c hc => bitValue_eq_zero_iff.mpr (hw c hc),
        bitValue_eq_one_iff.mpr hbit⟩
    · exact ⟨x, mem_rowSpace_cons.mpr ⟨0, x, hx, by rw [zero_smul, zero_add]⟩, hzero, hone⟩

-- The rounds of the search (45_pkgen.md R194 item 3).

theorem lowestBit_eq_some {u : Lane} {s : Nat} (e : lowestBit u = some s) :
    u.getLsbD s = true ∧ ∀ c < s, u.getLsbD c = false := by
  rw [lowestBit, List.find?_range_eq_some] at e
  obtain ⟨hbit, -, hbefore⟩ := e
  exact ⟨hbit, fun c hc => by simpa using hbefore c hc⟩

theorem lowestBit_eq_none {u : Lane} (e : lowestBit u = none) (c : Nat) : u.getLsbD c = false := by
  by_cases hc : c < 64
  · simpa using List.find?_eq_none.mp e c (List.mem_range.mpr hc)
  · exact BitVec.getLsbD_of_ge _ _ (Nat.le_of_not_lt hc)

theorem foldl_or_getLsbD_eq_false_iff {w : Lane} {ws : List Lane} {c : Nat} :
    (ws.foldl (· ||| ·) w).getLsbD c = false ↔ ∀ x ∈ w :: ws, x.getLsbD c = false := by
  induction ws generalizing w with
  | nil => simp
  | cons x ws ih =>
    rw [List.foldl_cons, ih]
    simp [and_assoc]

/-- The pivot row of a round: rows are added to w while it has not bit s. -/
def windowHead (s : Nat) (w : Lane) (ws : List Lane) : Lane :=
  ws.foldl (fun w x => if w.getLsbD s then w else w ^^^ x) w

/-- The other rows after a round: those with bit s have the pivot row added. -/
def windowRest (s : Nat) (w : Lane) (ws : List Lane) : List Lane := ws.map (clearBit s (windowHead s w ws))

section
variable (s : Nat) (w : Lane) (ws : List Lane)

theorem windowHead_cons (x : Lane) :
    windowHead s w (x :: ws) = windowHead s (if w.getLsbD s then w else w ^^^ x) ws := rfl

theorem windowPivots_cons (k : Nat) : windowPivots (k + 1) (w :: ws) =
    (lowestBit (ws.foldl (· ||| ·) w)).bind fun s => (windowPivots k (windowRest s w ws)).map (s :: ·) := by
  rw [windowPivots]
  cases lowestBit (ws.foldl (· ||| ·) w) with
  | none => rfl
  | some s =>
    dsimp only [Option.bind_some]
    have hrest : windowRest s w ws =
        ws.map fun x => if x.getLsbD s then x ^^^ windowHead s w ws else x := rfl
    rw [hrest]
    unfold windowHead
    cases windowPivots k _ <;> rfl

variable {s w ws}

theorem windowHead_getLsbD_pivot (h : ∃ x ∈ w :: ws, x.getLsbD s = true) : (windowHead s w ws).getLsbD s = true := by
  induction ws generalizing w with
  | nil => simpa [windowHead] using h
  | cons x ws ih =>
    rw [windowHead_cons]
    refine ih ((List.exists_mem_cons_iff _ _ _).mpr ?_)
    rw [List.exists_mem_cons_iff] at h
    by_cases hw : w.getLsbD s = true
    · exact .inl (by rwa [if_pos hw])
    · rw [if_neg hw, BitVec.getLsbD_xor, Bool.eq_false_of_not_eq_true hw, Bool.false_xor]
      exact (List.exists_mem_cons_iff _ _ _).mp (h.resolve_left hw)

theorem windowHead_getLsbD_of_false {c : Nat} (h : ∀ x ∈ w :: ws, x.getLsbD c = false) :
    (windowHead s w ws).getLsbD c = false := by
  induction ws generalizing w with
  | nil => simpa [windowHead] using h
  | cons x ws ih =>
    rw [List.forall_mem_cons, List.forall_mem_cons] at h
    obtain ⟨hw, hx, hws⟩ := h
    rw [windowHead_cons]
    refine ih (List.forall_mem_cons.mpr ⟨?_, hws⟩)
    split
    · exact hw
    · rw [BitVec.getLsbD_xor, hw, hx]
      rfl

theorem rowVec_windowHead_mem_iff {V : Submodule (ZMod 2) (Nat → ZMod 2)} (h : ∀ x ∈ ws, rowVec x ∈ V) :
    rowVec (windowHead s w ws) ∈ V ↔ rowVec w ∈ V := by
  induction ws generalizing w with
  | nil => exact Iff.rfl
  | cons x ws ih =>
    rw [List.forall_mem_cons] at h
    obtain ⟨hx, hws⟩ := h
    rw [windowHead_cons, ih hws]
    split
    · exact Iff.rfl
    · exact rowVec_xor_mem_iff hx w

/-- A round keeps the sums of rows. -/
theorem rowSpace_window_round : rowSpace (windowHead s w ws :: windowRest s w ws) = rowSpace (w :: ws) := by
  refine le_antisymm (rowSpace_le_iff.mpr ?_) (rowSpace_le_iff.mpr ?_)
  · have hws (x : Lane) (hx : x ∈ ws) : rowVec x ∈ rowSpace (w :: ws) :=
      rowVec_mem_rowSpace (List.mem_cons_of_mem _ hx)
    have hhead : rowVec (windowHead s w ws) ∈ rowSpace (w :: ws) :=
      (rowVec_windowHead_mem_iff hws).mpr (rowVec_mem_rowSpace List.mem_cons_self)
    rw [List.forall_mem_cons, windowRest, List.forall_mem_map]
    exact ⟨hhead, fun x hx => (rowVec_clearBit_mem_iff x hhead).mpr (hws x hx)⟩
  · have hhead := rowVec_mem_rowSpace (rows := windowHead s w ws :: windowRest s w ws) List.mem_cons_self
    have hws (x : Lane) (hx : x ∈ ws) := (rowVec_clearBit_mem_iff x hhead).mp
      (rowVec_mem_rowSpace (List.mem_cons_of_mem _ (List.mem_map_of_mem hx)))
    exact List.forall_mem_cons.mpr ⟨(rowVec_windowHead_mem_iff hws).mp hhead, hws⟩

/-- A round at the lowest bit s of all rows: the pivot row has its first 1 there, and the other rows have theirs
later. -/
theorem window_round_getLsbD (hs : lowestBit (ws.foldl (· ||| ·) w) = some s) :
    (windowHead s w ws).getLsbD s = true ∧ (∀ c < s, (windowHead s w ws).getLsbD c = false) ∧
      ∀ u ∈ windowRest s w ws, ∀ c ≤ s, u.getLsbD c = false := by
  obtain ⟨hbit, hbefore⟩ := lowestBit_eq_some hs
  have hzero (c : Nat) (hc : c < s) := foldl_or_getLsbD_eq_false_iff.mp (hbefore c hc)
  have hexists : ∃ x ∈ w :: ws, x.getLsbD s = true := by
    by_contra hnone
    push Not at hnone
    rw [foldl_or_getLsbD_eq_false_iff.mpr fun x hx => Bool.eq_false_of_not_eq_true (hnone x hx)] at hbit
    exact Bool.false_ne_true hbit
  have hpivot := windowHead_getLsbD_pivot hexists
  have hhead (c : Nat) (hc : c < s) : (windowHead s w ws).getLsbD c = false :=
    windowHead_getLsbD_of_false (hzero c hc)
  refine ⟨hpivot, hhead, List.forall_mem_map.mpr fun x hx c hc => ?_⟩
  rcases hc.eq_or_lt with rfl | hlt
  · exact clearBit_getLsbD_pivot x hpivot
  · rw [clearBit_getLsbD_of_false x (hhead c hlt), hzero c hlt x (List.mem_cons_of_mem _ hx)]

theorem rowSpace_eq_bot_of_lowestBit (h : lowestBit (ws.foldl (· ||| ·) w) = none) : rowSpace (w :: ws) = ⊥ :=
  rowSpace_eq_bot fun x hx => BitVec.eq_of_getLsbD_eq fun c _ => by
    rw [foldl_or_getLsbD_eq_false_iff.mp (lowestBit_eq_none h c) x hx, BitVec.ofNat_eq_ofNat, BitVec.getLsbD_zero]

end

/-- The list holds the positions of the first ones of the vectors, in order. -/
structure ListsLeads (V : Submodule (ZMod 2) (Nat → ZMod 2)) (ss : List Nat) : Prop where
  sorted : ss.Pairwise (· < ·)
  mem_iff : ∀ b, b ∈ ss ↔ Leads V b

/-- The search finds the positions of the first ones, as many as there are rows, or the rows have too low a rank. -/
theorem windowPivots_cases {k : Nat} {ws : List Lane} (hlen : ws.length = k) :
    (∃ ss, windowPivots k ws = some ss ∧ ss.length = k ∧ ListsLeads (rowSpace ws) ss) ∨
      (windowPivots k ws = none ∧ Module.finrank (ZMod 2) (rowSpace ws) < k) := by
  induction k generalizing ws with
  | zero =>
    obtain rfl := List.eq_nil_of_length_eq_zero hlen
    have hbot : rowSpace ([] : List Lane) = ⊥ := rowSpace_eq_bot (by simp)
    exact .inl ⟨[], rfl, rfl, List.Pairwise.nil, fun b => by simp [hbot, not_leads_bot]⟩
  | succ k ih =>
    obtain ⟨w, ws, rfl⟩ := List.exists_cons_of_length_eq_add_one hlen
    rw [windowPivots_cons]
    cases hs : lowestBit (ws.foldl (· ||| ·) w) with
    | none =>
      refine .inr ⟨rfl, ?_⟩
      rw [rowSpace_eq_bot_of_lowestBit hs, finrank_bot]
      exact k.succ_pos
    | some s =>
      obtain ⟨hpivot, hhead, hrest⟩ := window_round_getLsbD hs
      rw [Option.bind_some, ← rowSpace_window_round (s := s)]
      rcases ih (ws := windowRest s w ws) (by simpa [windowRest] using hlen) with
        ⟨ss, hss, hcount, hleads⟩ | ⟨hnone, hrank⟩
      · rw [hss]
        refine .inl ⟨s :: ss, rfl, congrArg (· + 1) hcount, ?_, fun b => ?_⟩
        · refine List.pairwise_cons.mpr ⟨fun b hb => Nat.lt_of_not_le fun hbs => ?_, hleads.sorted⟩
          obtain ⟨x, hx, -, hone⟩ := (hleads.mem_iff b).mp hb
          rw [apply_eq_zero_of_mem_rowSpace (fun u hu => hrest u hu b hbs) hx] at hone
          exact zero_ne_one hone
        · rw [leads_cons_iff hpivot hhead hrest, List.mem_cons, hleads.mem_iff]
      · rw [hnone]
        have hcons := finrank_rowSpace_cons_le (windowHead s w ws) (windowRest s w ws)
        exact .inr ⟨rfl, by omega⟩

-- Chosen columns.

/-- The columns p 0, ..., p (N - 1) of a vector. -/
def columns (N : Nat) (p : Nat → Nat) : (Nat → ZMod 2) →ₗ[ZMod 2] (Nat → ZMod 2) where
  toFun x c := if c < N then x (p c) else 0
  map_add' x y := by
    ext c
    by_cases hc : c < N <;> simp [hc]
  map_smul' a x := by
    ext c
    by_cases hc : c < N <;> simp [hc]

theorem columns_apply (N : Nat) (p : Nat → Nat) (x : Nat → ZMod 2) (c : Nat) :
    columns N p x c = if c < N then x (p c) else 0 := rfl

theorem columns_apply_of_lt {N c : Nat} (p : Nat → Nat) (x : Nat → ZMod 2) (hc : c < N) : columns N p x c = x (p c) :=
  if_pos hc

/-- Some rows, at least one, add up to 0 in the first N columns exactly when the rank in those columns is too low. -/
theorem rowsDependent_iff {n : Nat} {h : Array (Row n)} (N : Nat) :
    (∃ z : Nat → Bool, (∃ q < h.size, z q = true) ∧ ∀ c < N, rowSum h.size h z c = false) ↔
      Module.finrank (ZMod 2) ((rowSpace h.toList).map (columns N id)) < h.size := by
  have hspan : (rowSpace h.toList).map (columns N id) =
      Submodule.span (ZMod 2) (Set.range fun q : Fin h.size => columns N id (rowVec (h.getD q 0))) := by
    rw [rowSpace_eq_span_range, Submodule.map_span, ← Set.range_comp]
    rfl
  have hsum (z : Nat → Bool) : columns N id (fun c => bitValue (rowSum h.size h z c)) = 0 ↔
      ∀ c < N, rowSum h.size h z c = false := by
    rw [funext_iff]
    refine forall_congr' fun c => ?_
    rw [columns_apply, Pi.zero_apply, ite_eq_right_iff]
    exact imp_congr_right fun _ => bitValue_eq_zero_iff
  have hrank := linearIndependent_iff_card_le_finrank_span (R := ZMod 2)
    (b := fun q : Fin h.size => columns N id (rowVec (h.getD q 0)))
  rw [Fintype.card_fin, Set.finrank, ← hspan] at hrank
  rw [← not_le, ← hrank, Fintype.not_linearIndependent_iff]
  simp only [← map_smul, ← map_sum]
  constructor
  · rintro ⟨z, ⟨q, hq, hz⟩, hzero⟩
    refine ⟨fun q => bitValue (z q), ?_, ⟨q, hq⟩, bitValue_eq_zero_iff.not.mpr (by simp [hz])⟩
    rwa [sum_smul_rowVec fun _ => rfl, hsum]
  · rintro ⟨g, hzero, q, hq⟩
    rw [sum_smul_rowVec (bitValue_selection g), hsum] at hzero
    refine ⟨selection g, ⟨q, q.isLt, ?_⟩, hzero⟩
    rwa [← bitValue_selection g q, ne_eq, bitValue_eq_zero_iff, Bool.not_eq_false] at hq

-- The window below r unit columns (45_pkgen.md R194 item 2).

/-- A sum of rows has in a unit column whether it takes that column's row. -/
theorem rowSum_of_unit {n R c : Nat} {h : Array (Row n)} (hunit : ∀ q < R, (h.getD q 0).getLsbD c = decide (q = c))
    (hc : c < R) (z : Nat → Bool) : rowSum R h z c = z c := by
  refine bitValue_injective ?_
  rw [rowSum, bitValue_parity, Finset.sum_eq_single_of_mem c (Finset.mem_range.mpr hc) fun q hq hqc => ?_, hunit c hc,
    decide_eq_true rfl, Bool.and_true]
  rw [hunit q (Finset.mem_range.mp hq), decide_eq_false hqc, Bool.and_false, bitValue_false]

/-- The window of 64 columns from column r on, of the rows from row r on. -/
def windowRows {n : Nat} (r : Nat) (h : Array (Row n)) : List Lane :=
  (h.toList.drop r).map fun row => row.extractLsb' r 64

theorem rowSpace_windowRows {n : Nat} (r : Nat) (h : Array (Row n)) :
    rowSpace (windowRows r h) = (rowSpace (h.toList.drop r)).map (columns 64 (r + ·)) := by
  refine rowSpace_map (fun w => funext fun c => ?_) _
  rw [rowVec_apply, BitVec.getLsbD_extractLsb', columns_apply]
  by_cases hc : c < 64 <;> simp [hc]

section
variable {n R r : Nat} {V : Submodule (ZMod 2) (Nat → ZMod 2)} {h : Array (Row n)} (hred : Reduced R V r h)
include hred

theorem Reduced.windowRows_length : (windowRows r h).length = R - r := by
  simp [windowRows, hred.size]

/-- The vectors that are 0 in the unit columns are the sums of the rows below them. -/
theorem Reduced.mem_rowSpace_drop_iff (hr : r ≤ R) {x : Nat → ZMod 2} :
    x ∈ rowSpace (h.toList.drop r) ↔ x ∈ V ∧ ∀ c < r, x c = 0 := by
  have hsize := hred.size
  constructor
  · intro hx
    refine ⟨?_, fun c hc => apply_eq_zero_of_mem_rowSpace (fun w hw => ?_) hx⟩
    · rw [← hred.space]
      exact rowSpace_le_iff.mpr (fun w hw => rowVec_mem_rowSpace (List.mem_of_mem_drop hw)) hx
    · obtain ⟨q, hrq, hq, rfl⟩ := (mem_drop_iff_getD r).mp hw
      rw [hred.unit q (hsize ▸ hq) c hc, decide_eq_false (by omega)]
  · rintro ⟨hx, hzero⟩
    rw [← hred.space, mem_rowSpace_iff] at hx
    obtain ⟨z, rfl⟩ := hx
    have hz (q : Nat) (hq : q < r) : z q = false := by
      rw [← rowSum_of_unit (fun i hi => hred.unit i hi q hq) (hq.trans_le hr) z, ← hsize]
      exact bitValue_eq_zero_iff.mp (hzero q hq)
    rw [← sum_smul_rowVec fun _ => rfl]
    refine Submodule.sum_mem _ fun q _ => ?_
    by_cases hq : q < r
    · rw [hz q hq, bitValue_false, zero_smul]
      exact Submodule.zero_mem _
    · exact Submodule.smul_mem _ _
        (rowVec_mem_rowSpace ((mem_drop_iff_getD r).mpr ⟨q, Nat.le_of_not_lt hq, q.isLt, rfl⟩))

theorem Reduced.leads_windowRows_iff (hr : r ≤ R) {b : Nat} (hb : b < 64) :
    Leads (rowSpace (windowRows r h)) b ↔ Leads V (r + b) := by
  have hwindow (x : Nat → ZMod 2) (hx : ∀ c < r, x c = 0) :
      (∀ c < b, columns 64 (r + ·) x c = 0) ↔ ∀ c < r + b, x c = 0 := by
    constructor
    · intro hzero c hc
      by_cases hcr : c < r
      · exact hx c hcr
      · obtain ⟨i, rfl⟩ := Nat.exists_eq_add_of_le (Nat.le_of_not_lt hcr)
        have hi := hzero i (by omega)
        rwa [columns_apply_of_lt _ _ (by omega)] at hi
    · intro hzero c hc
      rw [columns_apply_of_lt _ _ (by omega), hzero _ (by omega)]
  rw [rowSpace_windowRows]
  constructor
  · rintro ⟨_, ⟨x, hx, rfl⟩, hzero, hone⟩
    obtain ⟨hxV, hxr⟩ := (hred.mem_rowSpace_drop_iff hr).mp hx
    rw [columns_apply_of_lt _ _ hb] at hone
    exact ⟨x, hxV, (hwindow x hxr).mp hzero, hone⟩
  · rintro ⟨x, hx, hzero, hone⟩
    have hxr : ∀ c < r, x c = 0 := fun c hc => hzero c (by omega)
    refine ⟨_, ⟨x, (hred.mem_rowSpace_drop_iff hr).mpr ⟨hx, hxr⟩, rfl⟩, (hwindow x hxr).mpr hzero, ?_⟩
    rwa [columns_apply_of_lt _ _ hb]

/-- The rank of the matrix in its first r + 64 columns is that of the window and at most r. -/
theorem Reduced.finrank_columns_le (hr : r ≤ R) : Module.finrank (ZMod 2) (V.map (columns (r + 64) id)) ≤
    r + Module.finrank (ZMod 2) (rowSpace (windowRows r h)) := by
  have := finite_rowSpace (h.toList.take r)
  have := finite_rowSpace (windowRows r h)
  have hdrop : (rowSpace (h.toList.drop r)).map (columns (r + 64) id) ≤
      (rowSpace (windowRows r h)).map (columns (r + 64) fun c => if c < r then 64 else c - r) := by
    rw [rowSpace_windowRows]
    rintro _ ⟨x, hx, rfl⟩
    refine ⟨_, ⟨x, hx, rfl⟩, funext fun c => ?_⟩
    rw [columns_apply (r + 64), columns_apply (r + 64) id]
    by_cases hc : c < r + 64
    · rw [if_pos hc, if_pos hc]
      by_cases hcr : c < r
      · rw [if_pos hcr, columns_apply, if_neg (lt_irrefl 64), id, ((hred.mem_rowSpace_drop_iff hr).mp hx).2 c hcr]
      · rw [if_neg hcr, columns_apply_of_lt _ _ (by omega), Nat.add_sub_cancel' (Nat.le_of_not_lt hcr), id]
    · rw [if_neg hc, if_neg hc]
  have htake : Module.finrank (ZMod 2) (rowSpace (h.toList.take r)) ≤ r :=
    (finrank_rowSpace_le_length _).trans (List.length_take_le ..)
  rw [← hred.space, ← List.take_append_drop r h.toList, rowSpace_append, Submodule.map_sup]
  calc _ ≤ Module.finrank (ZMod 2) ((rowSpace (h.toList.take r)).map (columns (r + 64) id)) +
        Module.finrank (ZMod 2) ((rowSpace (windowRows r h)).map
          (columns (r + 64) fun c => if c < r then 64 else c - r)) :=
      (Submodule.finrank_mono (sup_le_sup_left hdrop _)).trans (Submodule.finrank_add_le_finrank_add_finrank _ _)
    _ ≤ Module.finrank (ZMod 2) (rowSpace (h.toList.take r)) + Module.finrank (ZMod 2) (rowSpace (windowRows r h)) :=
      Nat.add_le_add (Submodule.finrank_map_le _ _) (Submodule.finrank_map_le _ _)
    _ ≤ _ := Nat.add_le_add_right htake _

end

end Sys2Proof

/-!
Step 3f of PKGEN (spec/45_pkgen.md R194, R196): the swaps move the columns that the search found to the front of the
window, and the same positions of π; the elimination of the moved columns then cannot fail.
-/

namespace Sys2Proof

open Sys2Proof.Machine

-- The columns after the swaps (45_pkgen.md R194 item 5).

section
variable {r k : Nat} {s : Nat → Nat}

theorem movedColumn_succ (r : Nat) (s : Nat → Nat) (k i : Nat) :
    movedColumn r s (k + 1) i = movedColumn r s k (Equiv.swap (r + k) (r + s k) i) := by
  rw [Equiv.swap_apply_def]
  rfl

theorem movedColumn_of_forall_ne {i : Nat} (h : ∀ j < k, i ≠ r + j ∧ i ≠ r + s j) : movedColumn r s k i = i := by
  induction k with
  | zero => rfl
  | succ k ih =>
    obtain ⟨hleft, hright⟩ := h k k.lt_succ_self
    rw [movedColumn_succ, Equiv.swap_apply_of_ne_of_ne hleft hright, ih fun j hj => h j (hj.trans k.lt_succ_self)]

/-- No column outside the window moves. -/
theorem movedColumn_outside {w i : Nat} (hk : k ≤ w) (hs : ∀ j < k, s j < w) (hi : i < r ∨ r + w ≤ i) :
    movedColumn r s k i = i :=
  movedColumn_of_forall_ne fun j hj => by
    have := hs j hj
    omega

/-- Position r + j of the window holds its column s j. -/
theorem movedColumn_window (hle : ∀ j < k, j ≤ s j) (hinj : ∀ i j, i < j → j < k → s i ≠ s j) {j : Nat} (hj : j < k) :
    movedColumn r s k (r + j) = r + s j := by
  induction k with
  | zero => exact absurd hj (Nat.not_lt_zero j)
  | succ k ih =>
    have hk := hle k k.lt_succ_self
    rw [movedColumn_succ]
    rcases Nat.lt_succ_iff_lt_or_eq.mp hj with hlt | rfl
    · rw [Equiv.swap_apply_of_ne_of_ne (by omega) (by omega)]
      exact ih (fun j hj => hle j (by omega)) (fun i j hij hj => hinj i j hij (by omega)) hlt
    · rw [Equiv.swap_apply_left]
      refine movedColumn_of_forall_ne fun i hi => ⟨by omega, fun h => ?_⟩
      exact hinj i j hi j.lt_succ_self (Nat.add_left_cancel h).symm

theorem swap_apply_lt {n a b i : Nat} (ha : a < n) (hb : b < n) (hi : i < n) : Equiv.swap a b i < n := by
  rw [Equiv.swap_apply_def]
  split
  · exact hb
  · split
    · exact ha
    · exact hi

theorem isPermutation_movedColumn {n : Nat} (h : ∀ j < k, r + j < n ∧ r + s j < n) :
    IsPermutation n (movedColumn r s k) := by
  induction k with
  | zero => exact ⟨fun _ hi => hi, fun x hx => ⟨x, hx, rfl⟩⟩
  | succ k ih =>
    obtain ⟨hmap, hsurj⟩ := ih fun j hj => h j (hj.trans k.lt_succ_self)
    obtain ⟨ha, hb⟩ := h k k.lt_succ_self
    refine ⟨fun i hi => ?_, fun x hx => ?_⟩
    · rw [movedColumn_succ]
      exact hmap _ (swap_apply_lt ha hb hi)
    · obtain ⟨i, hi, rfl⟩ := hsurj x hx
      refine ⟨Equiv.swap (r + k) (r + s k) i, swap_apply_lt ha hb hi, ?_⟩
      rw [movedColumn_succ, Equiv.swap_apply_self]

end

-- The swaps of the engine (45_pkgen.md R194 item 5).

/-- The swaps of the columns of a row. -/
def moveColumns {n : Nat} (r : Nat) (moves : List (Nat × Nat)) (row : Row n) : Row n :=
  moves.foldl (fun row js => swapColumns (r + js.1) (r + js.2) row) row

/-- The swaps of the positions of π. -/
def movePositions (r : Nat) (moves : List (Nat × Nat)) (p : Array Gf) : Array Gf :=
  moves.foldl (fun p js => p.swapIfInBounds (r + js.1) (r + js.2)) p

/-- The first k swaps for the pivot columns s. -/
def pivotMoves (s : Nat → Nat) (k : Nat) : List (Nat × Nat) := (List.range k).map fun j => (j, s j)

theorem pivotMoves_succ (s : Nat → Nat) (k : Nat) : pivotMoves s (k + 1) = pivotMoves s k ++ [(k, s k)] := by
  rw [pivotMoves, List.range_succ, List.map_append]
  rfl

/-- Element j of a list of pivot columns. -/
def pivotAt (ss : List Nat) (j : Nat) : Nat := ss.getD j 0

theorem range_zip_eq_pivotMoves (ss : List Nat) :
    (List.range ss.length).zip ss = pivotMoves (pivotAt ss) ss.length := by
  refine List.ext_getElem (by simp [pivotMoves]) fun j hj _ => ?_
  have hlt : j < ss.length := by simpa using hj
  simp [pivotMoves, pivotAt, hlt]

theorem getLsbD_swapColumns {n a b : Nat} (ha : a < n) (hb : b < n) (row : Row n) (c : Nat) :
    (swapColumns a b row).getLsbD c = row.getLsbD (Equiv.swap a b c) := by
  unfold swapColumns
  rw [Equiv.swap_apply_def]
  by_cases hab : row.getLsbD a = row.getLsbD b
  · rw [if_pos hab]
    by_cases hca : c = a
    · rw [if_pos hca, hca, hab]
    · by_cases hcb : c = b
      · rw [if_neg hca, if_pos hcb, hcb, hab]
      · rw [if_neg hca, if_neg hcb]
  · have hflip : row.getLsbD b = !row.getLsbD a := Bool.eq_not.mpr (Ne.symm hab)
    rw [if_neg hab, BitVec.getLsbD_xor, BitVec.getLsbD_or, BitVec.getLsbD_twoPow, BitVec.getLsbD_twoPow]
    by_cases hca : c = a
    · simp [hca, ha, hflip]
    · rw [if_neg hca]
      by_cases hcb : c = b
      · simpa [hcb, hb] using hflip
      · simp [hcb, Ne.symm hca, Ne.symm hcb]

theorem gfAt_swapIfInBounds {p : Array Gf} {a b : Nat} (ha : a < p.size) (hb : b < p.size) (i : Nat) :
    gfAt (p.swapIfInBounds a b) i = gfAt p (Equiv.swap a b i) := by
  rw [Equiv.swap_comm, Equiv.swap_apply_def, Array.swapIfInBounds_def, dif_pos ha, dif_pos hb, gfAt, gfAt,
    Array.getD_eq_getD_getElem?, Array.getElem?_swap]
  by_cases hib : i = b
  · simp [hib, ha]
  · rw [if_neg (Ne.symm hib), if_neg hib]
    by_cases hia : i = a
    · simp [hia, hb]
    · simp [hia, Ne.symm hia]

section
variable {r k : Nat} {s : Nat → Nat}

theorem getLsbD_moveColumns {n : Nat} (h : ∀ j < k, r + j < n ∧ r + s j < n) (row : Row n) (c : Nat) :
    (moveColumns r (pivotMoves s k) row).getLsbD c = row.getLsbD (movedColumn r s k c) := by
  induction k generalizing c with
  | zero => rfl
  | succ k ih =>
    obtain ⟨ha, hb⟩ := h k k.lt_succ_self
    have hlast : moveColumns r (pivotMoves s (k + 1)) row =
        swapColumns (r + k) (r + s k) (moveColumns r (pivotMoves s k) row) := by
      rw [pivotMoves_succ, moveColumns, List.foldl_append]
      rfl
    rw [hlast, getLsbD_swapColumns ha hb, ih fun j hj => h j (hj.trans k.lt_succ_self), movedColumn_succ]

theorem gfAt_movePositions {p : Array Gf} (h : ∀ j < k, r + j < p.size ∧ r + s j < p.size) (i : Nat) :
    gfAt (movePositions r (pivotMoves s k) p) i = gfAt p (movedColumn r s k i) := by
  induction k generalizing i with
  | zero => rfl
  | succ k ih =>
    obtain ⟨ha, hb⟩ := h k k.lt_succ_self
    have hsize : (movePositions r (pivotMoves s k) p).size = p.size := foldl_swap_size ..
    have hlast : movePositions r (pivotMoves s (k + 1)) p =
        (movePositions r (pivotMoves s k) p).swapIfInBounds (r + k) (r + s k) := by
      rw [pivotMoves_succ, movePositions, List.foldl_append]
      rfl
    rw [hlast, gfAt_swapIfInBounds (hsize.symm ▸ ha) (hsize.symm ▸ hb), ih fun j hj => h j (hj.trans k.lt_succ_self),
      movedColumn_succ]

end

-- The pivot mask (45_pkgen.md R194 item 4).

/-- The mask with the bits of a list. -/
def pivotMask (ss : List Nat) : Lane := ss.foldl (fun m s => m ||| BitVec.twoPow 64 s) 0

theorem getLsbD_pivotMask (ss : List Nat) {b : Nat} (hb : b < 64) :
    (pivotMask ss).getLsbD b = decide (b ∈ ss) := by
  have hfold (m : Lane) : (ss.foldl (fun m s => m ||| BitVec.twoPow 64 s) m).getLsbD b =
      (m.getLsbD b || decide (b ∈ ss)) := by
    induction ss generalizing m with
    | nil => simp
    | cons s ss ih =>
      rw [List.foldl_cons, ih, BitVec.getLsbD_or, BitVec.getLsbD_twoPow]
      by_cases hbs : b = s
      · simp [hbs, hbs ▸ hb]
      · simp [hbs, Ne.symm hbs]
  rw [pivotMask, hfold]
  simp

theorem filter_pivotMask {ss : List Nat} (hsorted : ss.Pairwise (· < ·)) (hlt : ∀ s ∈ ss, s < 64) :
    (List.range 64).filter (fun b => (pivotMask ss).getLsbD b) = ss := by
  have hmask : ((List.range 64).filter fun b => (pivotMask ss).getLsbD b).Pairwise (· < ·) :=
    List.pairwise_lt_range.filter _
  refine List.Perm.eq_of_pairwise (fun a b _ _ hab hba => absurd hab hba.asymm) hmask hsorted
    ((List.perm_ext_iff_of_nodup (hmask.imp Nat.ne_of_lt) (hsorted.imp Nat.ne_of_lt)).mpr fun b => ?_)
  rw [List.mem_filter, List.mem_range]
  constructor
  · rintro ⟨hb, hbit⟩
    rwa [getLsbD_pivotMask ss hb, decide_eq_true_iff] at hbit
  · intro hb
    exact ⟨hlt b hb, by rwa [getLsbD_pivotMask ss (hlt b hb), decide_eq_true_iff]⟩

-- The pivot columns (45_pkgen.md R194 item 3).

/-- The list holds 32 columns of the window from column r on, in order: those where some vector has its first 1. -/
structure WindowColumns (V : Submodule (ZMod 2) (Nat → ZMod 2)) (r : Nat) (ss : List Nat) : Prop where
  length : ss.length = 32
  sorted : ss.Pairwise (· < ·)
  lt : ∀ s ∈ ss, s < 64
  mem_iff : ∀ b < 64, b ∈ ss ↔ Leads V (r + b)

/-- The search finds the pivot columns of the window, or the rank in the first r + 64 columns is too low. -/
theorem Reduced.windowPivots_cases {n R r : Nat} {V : Submodule (ZMod 2) (Nat → ZMod 2)} {h : Array (Row n)}
    (hred : Reduced R V r h) (hr : r + 32 = R) :
    (∃ ss, windowPivots 32 (windowRows r h) = some ss ∧ WindowColumns V r ss) ∨
      (windowPivots 32 (windowRows r h) = none ∧
        Module.finrank (ZMod 2) (V.map (columns (r + 64) id)) < R) := by
  have hlen : (windowRows r h).length = 32 := by
    rw [hred.windowRows_length]
    omega
  rcases Sys2Proof.windowPivots_cases hlen with ⟨ss, e, hcount, hleads⟩ | ⟨e, hrank⟩
  · refine .inl ⟨ss, e, hcount, hleads.sorted, fun s hs => Nat.lt_of_not_le fun hge => ?_, fun b hb => ?_⟩
    · obtain ⟨x, hx, -, hone⟩ := (hleads.mem_iff s).mp hs
      rw [apply_eq_zero_of_mem_rowSpace (fun w _ => BitVec.getLsbD_of_ge w s hge) hx] at hone
      exact zero_ne_one hone
    · rw [hleads.mem_iff, hred.leads_windowRows_iff (by omega) hb]
  · have hle := hred.finrank_columns_le (by omega)
    exact .inr ⟨e, by omega⟩

section
variable {V : Submodule (ZMod 2) (Nat → ZMod 2)} {r : Nat} {ss : List Nat} (hss : WindowColumns V r ss)
include hss

theorem WindowColumns.pivotAt_mem {j : Nat} (hj : j < 32) : pivotAt ss j ∈ ss := by
  have hlen : j < ss.length := hss.length.symm ▸ hj
  rw [pivotAt, List.getD_eq_getElem _ _ hlen]
  exact List.getElem_mem hlen

theorem WindowColumns.pivotAt_lt {j : Nat} (hj : j < 32) : pivotAt ss j < 64 := hss.lt _ (hss.pivotAt_mem hj)

theorem WindowColumns.pivotAt_lt_pivotAt {i j : Nat} (hij : i < j) (hj : j < 32) : pivotAt ss i < pivotAt ss j := by
  have hlen : j < ss.length := hss.length.symm ▸ hj
  rw [pivotAt, pivotAt, List.getD_eq_getElem _ _ hlen, List.getD_eq_getElem _ _ (hij.trans hlen)]
  exact List.pairwise_iff_getElem.mp hss.sorted i j _ _ hij

theorem WindowColumns.le_pivotAt {j : Nat} (hj : j < 32) : j ≤ pivotAt ss j := by
  induction j with
  | zero => exact Nat.zero_le _
  | succ j ih => exact (ih (by omega)).trans_lt (hss.pivotAt_lt_pivotAt j.lt_succ_self hj)

theorem WindowColumns.maskBit_pivotMask : maskBit (pivotMask ss) = pivotAt ss := by
  funext j
  rw [maskBit, filter_pivotMask hss.sorted hss.lt, pivotAt]

theorem WindowColumns.weight_pivotMask : weight 64 (fun i => (pivotMask ss).getLsbD i) = 32 := by
  rw [weight, filter_pivotMask hss.sorted hss.lt, hss.length]

theorem WindowColumns.pivotMask_iff {b : Nat} (hb : b < 64) : (pivotMask ss).getLsbD b = true ↔ Leads V (r + b) := by
  rw [getLsbD_pivotMask ss hb, decide_eq_true_iff, hss.mem_iff b hb]

theorem WindowColumns.movedColumn_window {j : Nat} (hj : j < 32) :
    movedColumn r (pivotAt ss) 32 (r + j) = r + pivotAt ss j :=
  Sys2Proof.movedColumn_window (fun _ => hss.le_pivotAt) (fun _ _ hij hj => (hss.pivotAt_lt_pivotAt hij hj).ne) hj

theorem WindowColumns.movedColumn_outside {c : Nat} (hc : c < r ∨ r + 64 ≤ c) :
    movedColumn r (pivotAt ss) 32 c = c :=
  Sys2Proof.movedColumn_outside (by decide) (fun _ => hss.pivotAt_lt) hc

theorem WindowColumns.moves_lt {n : Nat} (hn : r + 64 ≤ n) : ∀ j < 32, r + j < n ∧ r + pivotAt ss j < n := by
  intro j hj
  have := hss.pivotAt_lt hj
  omega

/-- After the moves the first ones of the window stand at its first 32 columns. -/
theorem WindowColumns.leads_moved {n : Nat} (hn : r + 64 ≤ n) {j : Nat} (hj : j < 32) :
    Leads (V.map (columns n (movedColumn r (pivotAt ss) 32))) (r + j) := by
  obtain ⟨x, hx, hzero, hone⟩ := (hss.mem_iff _ (hss.pivotAt_lt hj)).mp (hss.pivotAt_mem hj)
  refine ⟨_, ⟨x, hx, rfl⟩, fun c hc => ?_, ?_⟩
  · rw [columns_apply_of_lt _ _ (by omega)]
    by_cases hcr : c < r
    · rw [hss.movedColumn_outside (.inl hcr), hzero c (by omega)]
    · obtain ⟨i, rfl⟩ := Nat.exists_eq_add_of_le (Nat.le_of_not_lt hcr)
      have hij : i < j := by omega
      have hlt := hss.pivotAt_lt_pivotAt hij hj
      rw [hss.movedColumn_window (hij.trans hj), hzero _ (by omega)]
  · rw [columns_apply_of_lt _ _ (by omega), hss.movedColumn_window hj, hone]

/-- R unit columns among the first r + 64 make R the rank. -/
theorem WindowColumns.le_finrank_columns {n R : Nat} (hn : r + 64 ≤ n) {h' : Array (Row n)} (hr : r + 32 = R)
    (hred' : Reduced R (V.map (columns n (movedColumn r (pivotAt ss) 32))) R h')
    (hfin : Module.Finite (ZMod 2) V) : R ≤ Module.finrank (ZMod 2) (V.map (columns (r + 64) id)) := by
  have hsize := hred'.size
  have hindep : ¬ ∃ z : Nat → Bool, (∃ q < h'.size, z q = true) ∧ ∀ c < R, rowSum h'.size h' z c = false := by
    rintro ⟨z, ⟨q, hq, hz⟩, hzero⟩
    rw [hsize] at hq hzero
    rw [← rowSum_of_unit (fun i hi => hred'.unit i hi q hq) hq z, hzero q hq] at hz
    exact Bool.false_ne_true hz
  have hmap : (V.map (columns n (movedColumn r (pivotAt ss) 32))).map (columns R id) =
      (V.map (columns (r + 64) id)).map (columns R (movedColumn r (pivotAt ss) 32)) := by
    rw [← Submodule.map_comp, ← Submodule.map_comp]
    refine congrArg V.map (LinearMap.ext fun x => funext fun c => ?_)
    rw [LinearMap.comp_apply, LinearMap.comp_apply, columns_apply R, columns_apply R]
    split
    case isFalse => rfl
    case isTrue hc =>
      have hcol := (isPermutation_movedColumn (hss.moves_lt (le_refl (r + 64)))).1 c (by omega)
      rw [id, columns_apply_of_lt _ _ (by omega), columns_apply_of_lt _ _ hcol, id]
  rw [rowsDependent_iff, hred'.space, hsize, not_lt, hmap] at hindep
  exact hindep.trans (Submodule.finrank_map_le _ _)

end

-- The elimination of the moved columns (45_pkgen.md R194 item 6).

section
variable {n R r : Nat} {V : Submodule (ZMod 2) (Nat → ZMod 2)} {h : Array (Row n)} {ss : List Nat}
  (hred : Reduced R V r h) (hss : WindowColumns V r ss) (hn : r + 64 ≤ n)
include hred hss hn

theorem Reduced.after_moveColumns :
    Reduced R (V.map (columns n (movedColumn r (pivotAt ss) 32))) r
      (h.map (moveColumns r (pivotMoves (pivotAt ss) 32))) := by
  have hmoves := hss.moves_lt hn
  refine ⟨(Array.size_map ..).trans hred.size, ?_, fun q hq c hc => ?_⟩
  · rw [Array.toList_map, ← hred.space]
    refine rowSpace_map (fun w => funext fun c => ?_) _
    rw [rowVec_apply, getLsbD_moveColumns hmoves, columns_apply]
    split
    case isTrue => rfl
    case isFalse hc =>
      rw [hss.movedColumn_outside (.inr (by omega)), BitVec.getLsbD_of_ge _ _ (Nat.le_of_not_lt hc), bitValue_false]
  · have hrow : (h.map (moveColumns r (pivotMoves (pivotAt ss) 32))).getD q 0 =
        moveColumns r (pivotMoves (pivotAt ss) 32) (h.getD q 0) := by
      simp [hred.size, hq]
    rw [hrow, getLsbD_moveColumns hmoves, hss.movedColumn_outside (.inl hc), hred.unit q hq c hc]

/-- The elimination of the moved columns cannot fail. -/
theorem Reduced.reduceSteps_moved (hr : r + 32 = R) : ∃ h',
    reduceSteps (List.range' r 32) (h.map (moveColumns r (pivotMoves (pivotAt ss) 32))) = some h' ∧
    Reduced R (V.map (columns n (movedColumn r (pivotAt ss) 32))) R h' := by
  rcases (hred.after_moveColumns hss hn).reduceSteps_cases (k := 32) hr.le with ⟨h', e, hred'⟩ | ⟨-, c, hrc, hc, hdep⟩
  · rw [hr] at hred'
    exact ⟨h', e, hred'⟩
  · obtain ⟨j, rfl⟩ := Nat.exists_eq_add_of_le hrc
    exact absurd (hss.leads_moved hn (by omega)) hdep.not_leads

end

-- The whole of step 3f.

/-- What step 3f leaves when it succeeds with the pivot columns ss. -/
structure FastEliminated (v : Variant) (r : Nat) (h : Array (Row v.n)) (pi : Array Gf) (ss : List Nat)
    (k : PkResult v.n) : Prop where
  windowColumns : WindowColumns (rowSpace h.toList) r ss
  reduced : Reduced h.size ((rowSpace h.toList).map (columns v.n (movedColumn r (pivotAt ss) 32))) h.size k.h
  pi_eq : k.pi = movePositions r (pivotMoves (pivotAt ss) 32) pi
  pivots_eq : k.pivots = pivotMask ss

theorem fastElim_eq {v : Variant} {r : Nat} (hr : v.pkNrows - 32 = r) (h : Array (Row v.n)) (pi : Array Gf) :
    fastElim v h pi =
      (reduceSteps (List.range r) h).bind fun h1 => (windowPivots 32 (windowRows r h1)).bind fun ss =>
        (reduceSteps (List.range' r 32) (h1.map (moveColumns r ((List.range 32).zip ss)))).map fun h3 =>
          { h := h3, pi := movePositions r ((List.range 32).zip ss) pi, pivots := pivotMask ss } := by
  unfold fastElim
  dsimp only
  rw [hr]
  cases reduceSteps (List.range r) h with
  | none => rfl
  | some h1 =>
    have hwindow : ((h1.toList.drop r).map fun row => row.extractLsb' r 64) = windowRows r h1 := rfl
    dsimp only [Option.bind_some]
    rw [hwindow]
    cases windowPivots 32 (windowRows r h1) with
    | none => rfl
    | some ss =>
      rw [List.range'_eq_map_range]
      rfl

theorem Variant.thirtyTwo_le_pkNrows (v : Variant) : 32 ≤ v.pkNrows := by cases v <;> decide

theorem Variant.pkNrows_add_le (v : Variant) : v.pkNrows + 32 ≤ v.n := by cases v <;> decide

/-- Step 3f succeeds where the first r columns are independent and the first r + 64 have full rank, and fails where one
of the two is not so. -/
theorem fastElim_cases {v : Variant} {h : Array (Row v.n)} (hsize : h.size = v.pkNrows) (pi : Array Gf) {r : Nat}
    (hr : r + 32 = h.size) :
    (∃ ss k, fastElim v h pi = some k ∧ FastEliminated v r h pi ss k ∧ ¬ (ColumnsDependent (rowSpace h.toList) r ∨
      Module.finrank (ZMod 2) ((rowSpace h.toList).map (columns (r + 64) id)) < h.size)) ∨
    (fastElim v h pi = none ∧ (ColumnsDependent (rowSpace h.toList) r ∨
      Module.finrank (ZMod 2) ((rowSpace h.toList).map (columns (r + 64) id)) < h.size)) := by
  have hn := Variant.pkNrows_add_le v
  rw [fastElim_eq (r := r) (by omega)]
  rcases reduceSteps_range_cases (k := r) (h := h) (by omega) with ⟨h1, e1, hred, hindep⟩ | ⟨e1, hdep⟩
  · rw [e1, Option.bind_some]
    rcases hred.windowPivots_cases hr with ⟨ss, e2, hss⟩ | ⟨e2, hrank⟩
    · obtain ⟨h3, e3, hred3⟩ := hred.reduceSteps_moved hss (by omega) hr
      have hrank := hss.le_finrank_columns (by omega) hr hred3 (finite_rowSpace _)
      have hmoves := range_zip_eq_pivotMoves ss
      rw [hss.length] at hmoves
      rw [e2, Option.bind_some, hmoves, e3, Option.map_some]
      exact .inl ⟨ss, _, rfl, ⟨hss, hred3, by dsimp only, by dsimp only⟩, not_or.mpr ⟨hindep, not_lt.mpr hrank⟩⟩
    · rw [e2]
      exact .inr ⟨rfl, .inr hrank⟩
  · rw [e1]
    exact .inr ⟨rfl, .inl hdep⟩

/-- Settles O41: the pivot columns of the window are where sums of rows have their first 1, and after the moves the
elimination meets a 1 at each of them. -/
theorem fastEliminationMovesColumns : Obligations.FastEliminationMovesColumns := by
  unfold Obligations.FastEliminationMovesColumns
  intro v h pi hsize hpi rows r0
  have hrows : rows = h.size := hsize.symm
  have hR := Variant.thirtyTwo_le_pkNrows v
  have hn := Variant.pkNrows_add_le v
  have hr : r0 + 32 = h.size := by omega
  have hnfull := Variant.n_le_nfull v
  rw [hrows, ← columnsDependent_rowSpace_iff, rowsDependent_iff]
  rcases fastElim_cases hsize pi hr with ⟨ss, k', e, hfast, hindep⟩ | ⟨e, hdep⟩
  · refine ⟨iff_of_false (by rw [e]; exact Option.some_ne_none _) hindep, fun k hk => ?_⟩
    obtain rfl : k' = k := Option.some.inj (e.symm.trans hk)
    obtain ⟨hss, hred, hpieq, hpivots⟩ := hfast
    have hmoves := hss.moves_lt (show r0 + 64 ≤ v.nfull by omega)
    rw [hpivots, hss.maskBit_pivotMask, hpieq]
    refine ⟨hred.unit, hss.weight_pivotMask, fun b hb => (hss.pivotMask_iff hb).trans leads_rowSpace_iff,
      fun j hj => hss.movedColumn_window hj, isPermutation_movedColumn hmoves, fun c hc => hss.movedColumn_outside hc,
      fun i _ => gfAt_movePositions (by rwa [hpi]) i, fun q hq => ?_⟩
    have hmem := rowVec_mem_rowSpace (getD_mem_toList (hred.size.symm ▸ hq : q < k'.h.size))
    rw [hred.space] at hmem
    obtain ⟨x, hx, hrow⟩ := hmem
    obtain ⟨z, rfl⟩ := mem_rowSpace_iff.mp hx
    refine ⟨z, fun c hc => bitValue_injective ?_⟩
    rw [← rowVec_apply, ← hrow, columns_apply_of_lt _ _ hc]
  · exact ⟨iff_of_true e hdep, fun k hk => absurd (e.symm.trans hk) (Option.some_ne_none k).symm⟩

end Sys2Proof

/-!
GENE (spec/46_niederreiter.md R200): the accepted values are the positions of the 1s, so t distinct ones give weight t.
-/

namespace Sys2Proof

open Sys2Proof.Machine

-- The number of positions that are selected.

theorem weight_congr {n : Nat} {b c : Nat → Bool} (h : ∀ i < n, b i = c i) : weight n b = weight n c :=
  congrArg List.length (List.filter_congr fun i hi => h i (List.mem_range.mp hi))

/-- The vector with a 1 at each of k distinct positions has weight k. -/
theorem weight_decide_mem {n : Nat} {xs : List Nat} (hnodup : xs.Nodup) (hlt : ∀ x ∈ xs, x < n) :
    weight n (fun i => decide (i ∈ xs)) = xs.length := by
  have hperm : ((List.range n).filter fun i => decide (i ∈ xs)).Perm xs := by
    refine (List.perm_ext_iff_of_nodup (List.nodup_range.filter _) hnodup).mpr fun x => ?_
    simpa using hlt x
  exact hperm.length_eq

-- The accepted values and the vector (46_niederreiter.md R200).

namespace Machine

/-- RAND is a whole number of 16-bit values (00_scope.md R8). -/
theorem Variant.geRandBytes_eq (v : Variant) : v.geRandBytes = 2 * (v.geRandBytes / 2) := by cases v <;> rfl

theorem acceptedIndices_gfElems (v : Variant) {bs : List Byte} (hlen : bs.length = v.geRandBytes) :
    acceptedIndices v (gfElems v.field bs) =
      (((List.range (v.geRandBytes / 2)).map fun i => (element v.field bs i).toNat).filter
        fun x => decide (x < v.n)).take v.t := by
  rw [acceptedIndices, gfElems_eq_map_element _ (hlen.trans (Variant.geRandBytes_eq v)), List.map_map]
  rfl

theorem lt_of_mem_acceptedIndices {v : Variant} {rand : List Gf} {x : Nat} (h : x ∈ acceptedIndices v rand) :
    x < v.n := by
  have hfilter := List.mem_of_mem_take h
  simpa using (List.mem_filter.mp hfilter).2

theorem indicesOk_iff {v : Variant} {ind : List Nat} : indicesOk v ind = true ↔ ind.length = v.t ∧ ind.Nodup := by
  simp [indicesOk]

theorem bit_errorVectorBytes (v : Variant) (ind : List Nat) {j : Nat} (hj : j < v.n) :
    bit (errorVectorBytes v ind) j = decide (j ∈ ind) := by
  rw [errorVectorBytes, bit_packBits, decide_eq_true hj, Bool.true_and, List.contains_eq_mem]

theorem exec_gene (s : State) (rd rb : Reg) : exec (.gene rd rb) s =
    let v := s.build.variant
    engineChecks (.gene rd rb) s [(s.reg rb, v.n / 8), (s.reg (rb + 1#4), v.geRandBytes)]
      (withBuf s (s.reg (rb + 1#4), v.geRandBytes) fun randBytes =>
        let ind := acceptedIndices v (gfElems v.field randBytes)
        engineDone s rd (statusOf (indicesOk v ind))
          (if indicesOk v ind then [(s.reg rb, errorVectorBytes v ind)] else [])) := by
  rw [← s.operand_zero rb]
  rfl

end Machine

/-- Settles O42, by whether the accepted values are t and distinct. -/
theorem geneResult : Obligations.GeneResult := by
  unfold Obligations.GeneResult
  intro s rd rb hw v e rand
  obtain ⟨hfault, hdone⟩ := outInEngine hw (exec_gene s rd rb)
  refine ⟨hfault, fun bs hlen he hrand hbs => ?_⟩
  dsimp only
  rw [← acceptedIndices_gfElems v hlen]
  set ind := acceptedIndices v (gfElems v.field bs)
  have hrun : exec (.gene rd rb) s = engineDone s rd (statusOf (indicesOk v ind))
      (if indicesOk v ind then [(e, errorVectorBytes v ind)] else []) := hdone bs hlen he hrand hbs
  rw [hrun]
  refine ⟨fun ⟨hcount, hnodup⟩ => ?_, fun hbad => ?_⟩
  · have hbit (j : Nat) (hj : j < v.n) := bit_errorVectorBytes v ind hj
    rw [indicesOk_iff.mpr ⟨hcount, hnodup⟩]
    refine ⟨_, completes_engineDone .., (errorVectorBytes_length ..).trans (Variant.n_div v), hbit, ?_⟩
    rw [weight_congr hbit, weight_decide_mem hnodup fun _ => lt_of_mem_acceptedIndices, hcount]
  · rw [Bool.eq_false_iff.mpr (mt indicesOk_iff.mp hbad)]
    exact completes_engineDone ..

end Sys2Proof

/-!
ENCODE (spec/46_niederreiter.md R201): each bit of the syndrome is a bit of e and the parity of one row of T on the rest.
-/

namespace Sys2Proof

open Sys2Proof.Machine

namespace Machine

/-- A running sum over GF(2) that starts at b. -/
theorem foldl_xor_range (g : Nat → Bool) (n : Nat) (b : Bool) :
    (List.range n).foldl (fun p c => p ^^ g c) b = (b ^^ parity n g) := by
  induction n with
  | zero => exact (Bool.xor_false b).symm
  | succ n ih => rw [List.range_succ, List.foldl_append, ih, parity, ← Bool.xor_assoc, List.foldl_cons, List.foldl_nil]

theorem syndromeBit_toArray (v : Variant) (pks es : List Byte) (q : Nat) :
    syndromeBit v pks.toArray es.toArray q = (bit es q ^^
      parity v.pkNcols fun c => bit pks (8 * (q * v.pkRowBytes) + c) && bit es (v.pkNrows + c)) := by
  simp only [syndromeBit, bitAt_toArray]
  exact foldl_xor_range ..

theorem exec_encode (s : State) (rd rb : Reg) : exec (.encode rd rb) s =
    let v := s.build.variant
    engineChecks (.encode rd rb) s
      [(s.reg rb, v.syndBytes), (s.reg (rb + 1#4), v.pkBytes), (s.reg (rb + 2#4), v.n / 8)]
      (withBuf s (s.reg (rb + 1#4), v.pkBytes) fun pkBytes =>
        withBuf s (s.reg (rb + 2#4), v.n / 8) fun eBytes =>
          engineDone s rd 0 [(s.reg rb, encodeBytes v pkBytes eBytes)]) := by
  rw [← s.operand_zero rb]
  rfl

end Machine

/-- Settles O43: the bytes written are the bit string of the R syndrome bits. -/
theorem encodeResult : Obligations.EncodeResult := by
  unfold Obligations.EncodeResult
  intro s rd rb hw v syn pk e
  obtain ⟨hfault, hpass⟩ := exec_of_engineChecks hw (exec_encode s rd rb)
  refine ⟨hfault, fun pks es hplen helen hsyn hpk he hpks hes =>
    ⟨encodeBytes v pks es, ?_, encodeBytes_length .., fun q _ => ?_⟩⟩
  · rw [hpass (by simp [hsyn, hpk, he, v, syn, pk, e]), withBuf_of_holds hplen hpks, withBuf_of_holds helen hes]
    exact completes_engineDone ..
  · rw [encodeBytes, bit_packBits, syndromeBit_toArray]

end Sys2Proof

/-!
DECRYPT (spec/46_niederreiter.md R202, R204): the support, the syndrome and the locator are those of SUPPORT, SYND and BM,
and both the vector written and the re-check are in terms of them.
-/

namespace Sys2Proof

open Sys2Proof.Machine

-- The inputs (46_niederreiter.md R202).

/-- Coefficient i of g, its leading 1 among them (46_niederreiter.md R202). -/
def goppaCoeff (v : Variant) (gs : List Byte) (i : Nat) : Gf := if i < v.t then element v.field gs i else 1

/-- Element i of the support that the control bits give (43_benes.md R157). -/
def supportElement (v : Variant) (cs : List Byte) (i : Nat) : Gf :=
  gfRev v.field (BitVec.ofNat 16 (networkPerm v.m cs i))

/-- Bit i of the received word: the bytes of the ciphertext as they are, then zeros (46_niederreiter.md R202). -/
def receivedBit (v : Variant) (ss : List Byte) (i : Nat) : Bool := decide (i < 8 * v.syndBytes) && bit ss i

theorem canonical_goppaCoeff (v : Variant) (gs : List Byte) (i : Nat) : Canonical v.field (goppaCoeff v gs i) :=
  canonical_ite (canonical_element ..) (canonical_one v.field)

theorem canonical_gfRev (f : Field) (a : Gf) : Canonical f (gfRev f a) :=
  (toNat_lt_two_pow_iff _ f.m).mpr fun j hj => by
    rw [gfRev_getLsbD, decide_eq_false (Nat.not_lt.mpr hj), Bool.false_and]

theorem canonical_supportElement (v : Variant) (cs : List Byte) (i : Nat) : Canonical v.field (supportElement v cs i) :=
  canonical_gfRev ..

theorem gfElems_append_one (v : Variant) {gs : List Byte} (hlen : gs.length = 2 * v.t) :
    gfElems v.field gs ++ [1] = (List.range (v.t + 1)).map (goppaCoeff v gs) := by
  have hlow : (List.range v.t).map (element v.field gs) = (List.range v.t).map (goppaCoeff v gs) :=
    List.map_congr_left fun i hi => (if_pos (List.mem_range.mp hi)).symm
  have hlead : goppaCoeff v gs v.t = 1 := if_neg (Nat.lt_irrefl _)
  rw [gfElems_eq_map_element _ hlen, hlow, List.range_succ, List.map_append, List.map_singleton, hlead]

theorem supportOf_eq_map (v : Variant) (cs : List Byte) :
    supportOf v.field v.n cs = (List.range v.n).map (supportElement v cs) := by
  refine List.ext_getElem (by simp) fun i hi _ => ?_
  rw [supportOf_getElem v.field cs hi (Variant.n_le_nfull v), List.getElem_map, List.getElem_range]
  rfl

theorem bit_of_length_le {bs : List Byte} {p : Nat} (h : 8 * bs.length ≤ p) : bit bs p = false := by
  rw [bit, List.getD_eq_default _ _ (by omega)]
  exact BitVec.getLsbD_zero

theorem receivedWord_eq_map (v : Variant) {ss : List Byte} (hlen : ss.length = v.syndBytes) :
    receivedWord v ss = (List.range v.n).map (receivedBit v ss) := by
  rw [receivedWord, bitVector_toList]
  refine List.map_congr_left fun i _ => ?_
  rw [receivedBit]
  by_cases hi : i < 8 * v.syndBytes
  · rw [decide_eq_true hi, Bool.true_and]
  · rw [bit_of_length_le (hlen ▸ Nat.le_of_not_lt hi), Bool.and_false]

-- Decoding (46_niederreiter.md R202).

/-- The syndrome of the positions that r selects, for the g and the support of the key (46_niederreiter.md R202). -/
def keySyndrome (v : Variant) (gs cs : List Byte) (r : Nat → Bool) : Nat → Gf :=
  syndromeValue v.field (v.t + 1) (goppaCoeff v gs) v.n (supportElement v cs) r

/-- The error at position i: whether the support element is a root of the locator of the received word's syndrome
(46_niederreiter.md R202). -/
def decodedBit (v : Variant) (gs cs ss : List Byte) (i : Nat) : Bool :=
  let loc := locator v.field v.t (tabulate (2 * v.t) (keySyndrome v gs cs (receivedBit v ss)))
  decide (polyValue v.field (v.t + 1) (fun k => loc.getD k 0) (supportElement v cs i) = 0)

/-- The re-check of a vector: weight t, and the syndrome of the received word (46_niederreiter.md R202). -/
abbrev Rechecks (v : Variant) (gs cs ss : List Byte) (e : Nat → Bool) : Prop :=
  weight v.n e = v.t ∧ ∀ j < 2 * v.t, keySyndrome v gs cs e j = keySyndrome v gs cs (receivedBit v ss) j

theorem gfXor_congr {n : Nat} {g g' : Nat → Gf} (h : ∀ i < n, g i = g' i) : gfXor n g = gfXor n g' := by
  rw [← gfSum_map_range, ← gfSum_map_range, List.map_congr_left fun i hi => h i (List.mem_range.mp hi)]

/-- The re-check looks at the n positions only. -/
theorem rechecks_congr {v : Variant} {e e' : Nat → Bool} (h : ∀ i < v.n, e i = e' i) (gs cs ss : List Byte) :
    Rechecks v gs cs ss e ↔ Rechecks v gs cs ss e' := by
  have hsyn (j : Nat) : keySyndrome v gs cs e j = keySyndrome v gs cs e' j := gfXor_congr fun i hi => by rw [h i hi]
  rw [Rechecks, Rechecks, weight_congr h]
  simp only [hsyn]

theorem syndrome_of_key (v : Variant) {gs : List Byte} (hlen : gs.length = 2 * v.t) (cs : List Byte) (r : Nat → Bool) :
    syndrome v.field v.t (gfElems v.field gs ++ [1]) (supportOf v.field v.n cs) ((List.range v.n).map r) =
      (List.range (2 * v.t)).map (keySyndrome v gs cs r) := by
  refine List.ext_getElem (by simp) fun j hj _ => ?_
  rw [List.getElem_map, List.getElem_range, ← List.getD_eq_getElem _ 0 hj, gfElems_append_one v hlen, supportOf_eq_map,
    syndrome_getD r (canonical_goppaCoeff v gs) (canonical_supportElement v cs) (by rwa [syndrome_length] at hj)]
  rfl

theorem evalPoly_locator (f : Field) (t : Nat) (syn : Array Gf) {a : Gf} (ha : Canonical f a) :
    evalPoly f (locator f t syn) a = polyValue f (t + 1) (fun i => (locator f t syn).getD i 0) a := by
  have hcan : ∀ x ∈ locator f t syn, Canonical f x := by
    simp only [locator, List.mem_map]
    rintro _ ⟨i, -, rfl⟩
    exact (bmCanonical_bmRun f t syn (2 * t)).c _
  rw [evalPoly_eq_polyValue_getD hcan ha, locator_length]

theorem map_evalPoly_locator (v : Variant) (gs cs ss : List Byte) :
    (supportOf v.field v.n cs).map (fun x => evalPoly v.field
      (locator v.field v.t (tabulate (2 * v.t) (keySyndrome v gs cs (receivedBit v ss)))) x == 0) =
      (List.range v.n).map (decodedBit v gs cs ss) := by
  rw [supportOf_eq_map, List.map_map]
  refine List.map_congr_left fun i _ => ?_
  rw [Function.comp_apply, evalPoly_locator _ _ _ (canonical_supportElement v cs i)]
  rfl

theorem length_filter_map_range (n : Nat) (b : Nat → Bool) :
    (((List.range n).map b).filter id).length = weight n b := by
  rw [List.filter_map, List.length_map]
  rfl

/-- The vector and the re-check that the meaning computes (46_niederreiter.md R202). -/
theorem decodeWordWith_eq {v : Variant} {gs ss : List Byte} (hg : gs.length = 2 * v.t) (hs : ss.length = v.syndBytes)
    (cs : List Byte) :
    decodeWordWith v (gfElems v.field gs ++ [1]) (supportOf v.field v.n cs) (receivedWord v ss) =
      ((List.range v.n).map (decodedBit v gs cs ss), decide (Rechecks v gs cs ss (decodedBit v gs cs ss))) := by
  have hcheck : decide (Rechecks v gs cs ss (decodedBit v gs cs ss)) =
      ((((List.range v.n).map (decodedBit v gs cs ss)).filter id).length == v.t &&
        (List.range (2 * v.t)).map (keySyndrome v gs cs (decodedBit v gs cs ss)) ==
          (List.range (2 * v.t)).map (keySyndrome v gs cs (receivedBit v ss))) := by
    rw [length_filter_map_range, Bool.eq_iff_iff, decide_eq_true_iff, Bool.and_eq_true, beq_iff_eq, beq_iff_eq,
      List.map_inj_left]
    simp only [List.mem_range, Rechecks]
  rw [hcheck, ← syndrome_of_key v hg cs (decodedBit v gs cs ss), ← map_evalPoly_locator, decodeWordWith,
    receivedWord_eq_map v hs, syndrome_of_key v hg]
  rfl

namespace Machine

theorem exec_decrypt (s : State) (rd rb : Reg) : exec (.decrypt rd rb) s =
    let v := s.build.variant
    engineChecks (.decrypt rd rb) s
      [(s.reg rb, v.n / 8), (s.reg (rb + 1#4), 2 * v.t), (s.reg (rb + 2#4), v.condBytes), (s.reg (rb + 3#4), v.syndBytes)]
      (withBuf s (s.reg (rb + 1#4), 2 * v.t) fun gBytes =>
        withBuf s (s.reg (rb + 2#4), v.condBytes) fun cbBytes =>
          withBuf s (s.reg (rb + 3#4), v.syndBytes) fun cBytes =>
            let r := decodeWordWith v (gfElems v.field gBytes ++ [1]) (supportOf v.field v.n cbBytes)
              (receivedWord v cBytes)
            engineDone s rd (statusOf r.2) [(s.reg rb, bitVectorBytes r.1.toArray)]) := by
  rw [← s.operand_zero rb]
  rfl

theorem statusOf_eq_zero_or_one (ok : Bool) : statusOf ok = 0#32 ∨ statusOf ok = 1#32 := by cases ok <;> decide

theorem statusOf_eq_zero_iff {ok : Bool} : statusOf ok = 0#32 ↔ ok = true := by cases ok <;> decide

end Machine

/-- Settles O44: the vector holds the roots of the locator, and the status is that of the re-check on this vector. -/
theorem decryptResult : Obligations.DecryptResult := by
  unfold Obligations.DecryptResult
  intro s rd rb hw v f e g c syn bufs
  obtain ⟨hfault, hpass⟩ := exec_of_engineChecks hw (exec_decrypt s rd rb)
  refine ⟨hfault, fun gs cs ss hglen hclen hslen hfit hgs hcs hss => ?_⟩
  have hrun : exec (.decrypt rd rb) s = engineDone s rd
      (statusOf (decide (Rechecks v gs cs ss (decodedBit v gs cs ss))))
      [(e, bitVectorBytes ((List.range v.n).map (decodedBit v gs cs ss)).toArray)] := by
    rw [hpass hfit, withBuf_of_holds hglen hgs, withBuf_of_holds hclen hcs, withBuf_of_holds hslen hss,
      decodeWordWith_eq hglen hslen]
  have hbit (i : Nat) (hi : i < v.n) :
      bit (bitVectorBytes ((List.range v.n).map (decodedBit v gs cs ss)).toArray) i = decodedBit v gs cs ss i := by
    rw [bit_bitVectorBytes]
    simp [hi]
  refine ⟨_, _, hrun ▸ completes_engineDone .., ?_, hbit, statusOf_eq_zero_or_one _, ?_⟩
  · rw [bitVectorBytes_length, List.size_toArray, List.length_map, List.length_range]
    exact Variant.n_div v
  · rw [statusOf_eq_zero_iff, decide_eq_true_iff]
    exact (rechecks_congr hbit gs cs ss).symm

end Sys2Proof

/-!
SHAKE256 (spec/47_shake.md R220 to R225): the lanes of a Keccak round, its tables, the bytes of a block, the
absorption of the padded message, and the output stream.
-/

namespace Sys2Proof.Machine

-- The lanes of a state (47_shake.md R220, R223).

theorem lane_mod_left (a : Keccak) (x y : Nat) : lane a (x % 5) y = lane a x y := by rw [lane, lane, Nat.mod_mod]

theorem lane_mod_right (a : Keccak) (x y : Nat) : lane a x (y % 5) = lane a x y := by rw [lane, lane, Nat.mod_mod]

/-- Lane A[x][y] with x and y below 5 is element x + 5 y (47_shake.md R220). -/
theorem lane_of_lt (a : Keccak) {x y : Nat} (hx : x < 5) (hy : y < 5) : lane a x y = a.getD (x + 5 * y) 0 := by
  rw [lane, Nat.mod_eq_of_lt hx, Nat.mod_eq_of_lt hy]

theorem lane_tabulate (f : Nat → Lane) (x y : Nat) : lane (tabulate 25 f) x y = f (x % 5 + 5 * (y % 5)) := by
  rw [lane, tabulate_getD, if_pos (by omega)]

theorem laneIndex_mod (x y : Nat) : (x % 5 + 5 * (y % 5)) % 5 = x % 5 := by omega

theorem laneIndex_div (x y : Nat) : (x % 5 + 5 * (y % 5)) / 5 = y % 5 := by omega

theorem thetaColumns_getD (a : Keccak) (x : Nat) : (thetaColumns a).getD (x % 5) 0 =
    lane a x 0 ^^^ lane a x 1 ^^^ lane a x 2 ^^^ lane a x 3 ^^^ lane a x 4 := by
  rw [thetaColumns, tabulate_getD, if_pos (Nat.mod_lt x (by decide))]
  simp only [lane_mod_left]

theorem lane_theta (a : Keccak) (x y : Nat) : lane (theta a) x y = lane a x y ^^^
    ((thetaColumns a).getD ((x + 4) % 5) 0 ^^^ ((thetaColumns a).getD ((x + 1) % 5) 0).rotateLeft 1) := by
  rw [theta, lane_tabulate, laneIndex_mod, tabulate_getD, if_pos (Nat.mod_lt x (by decide)), Nat.mod_add_mod,
    Nat.mod_add_mod]
  rfl

/-- The two spellings of the table of rotation offsets (47_shake.md R222). -/
theorem rotationOffsets_getD : ∀ x < 5, ∀ y < 5, rotationOffsets.getD (x + 5 * y) 0 = rotationOffset x y := by decide

theorem lane_rhoPi (a : Keccak) {x y : Nat} (hx : x < 5) (hy : y < 5) :
    lane (rhoPi a) y (2 * x + 3 * y) = (lane a x y).rotateLeft (rotationOffset x y) := by
  have hsource : (y % 5 + 3 * ((2 * x + 3 * y) % 5)) % 5 = x := by omega
  rw [rhoPi, lane_tabulate]
  dsimp only
  rw [laneIndex_mod, laneIndex_div, hsource, lane_mod_right, Nat.mod_eq_of_lt hy, rotationOffsets_getD x hx y hy]

theorem lane_chi (b : Keccak) (x y : Nat) :
    lane (chi b) x y = lane b x y ^^^ (~~~(lane b (x + 1) y) &&& lane b (x + 2) y) := by
  rw [chi, lane_tabulate]
  dsimp only
  rw [laneIndex_mod, laneIndex_div, ← lane_mod_left b (x % 5 + 1), ← lane_mod_left b (x % 5 + 2), Nat.mod_add_mod,
    Nat.mod_add_mod]
  simp only [lane_mod_left, lane_mod_right]

/-- The step iota changes lane A[0][0] only (47_shake.md R223). -/
theorem lane_keccakRound (a : Keccak) (rc : Lane) {x y : Nat} (hx : x < 5) (hy : y < 5) :
    lane (keccakRound a rc) x y = lane (chi (rhoPi (theta a))) x y ^^^ (if x = 0 ∧ y = 0 then rc else 0) := by
  have hsize : (chi (rhoPi (theta a))).size = 25 := tabulate_size ..
  have hindex : 0 = x + 5 * y ↔ x = 0 ∧ y = 0 := by omega
  rw [keccakRound, lane_of_lt _ hx hy, lane_of_lt _ hx hy]
  simp only [Array.getD_eq_getD_getElem?, Array.getElem?_modify, hindex]
  split
  · rw [Array.getElem?_eq_getElem (by omega)]
    rfl
  · exact BitVec.xor_zero.symm

-- The tables (47_shake.md R221, R222).

theorem rotationOffset_rotationWalk : ∀ s < 24,
    rotationOffset (rotationWalk s).1 (rotationWalk s).2 = (s + 1) * (s + 2) / 2 % 64 := by decide

theorem roundConstants_eq_map : roundConstants = (List.range 24).map roundConstant := by decide

/-- Keccak-f is the rounds 0 to 23, each with the constant of the LFSR (47_shake.md R221, R223). -/
theorem keccakF_eq_foldl (a : Keccak) :
    keccakF a = (List.range 24).foldl (fun b ir => keccakRound b (roundConstant ir)) a := by
  rw [keccakF, roundConstants_eq_map, List.foldl_map]

-- The bytes and the words of a block (47_shake.md R220, R224).

/-- Element j of lists of k elements each, put one after the other. -/
theorem getElem?_flatMap_of_length {α β : Type} {k : Nat} {f : α → List β} {xs : List α} (hk : 0 < k)
    (hf : ∀ x ∈ xs, (f x).length = k) (j : Nat) : (xs.flatMap f)[j]? = xs[j / k]?.bind fun x => (f x)[j % k]? := by
  induction xs generalizing j with
  | nil => rfl
  | cons x xs ih =>
    have hx : (f x).length = k := hf x List.mem_cons_self
    rw [List.flatMap_cons]
    rcases Nat.lt_or_ge j k with hj | hj
    · rw [List.getElem?_append_left (by rwa [hx]), Nat.div_eq_of_lt hj, Nat.mod_eq_of_lt hj]
      rfl
    · obtain ⟨i, rfl⟩ := Nat.exists_eq_add_of_le hj
      rw [List.getElem?_append_right (by rwa [hx]), hx, Nat.add_sub_cancel_left,
        ih fun y hy => hf y (List.mem_cons_of_mem x hy), Nat.add_div_left i hk, Nat.add_mod_left]
      rfl

theorem getElem?_leBytes_toNat (l : Lane) {c : Nat} (hc : c < 8) :
    (leBytes 8 l.toNat)[c]? = some (l.extractLsb' (8 * c) 8) := by
  rw [List.getElem?_eq_getElem (by rwa [leBytes_length]), leBytes_getElem, BitVec.extractLsb',
    Nat.shiftRight_eq_div_pow]

/-- Byte j of the output block is byte j mod 8 of lane floor(j / 8) (47_shake.md R220). -/
theorem squeezeBlock_getD {a : Keccak} (ha : a.size = 25) {j : Nat} (hj : j < 136) :
    (squeezeBlock a).getD j 0 = (lane a (j / 8 % 5) (j / 8 / 5)).extractLsb' (8 * (j % 8)) 8 := by
  have hlane : lane a (j / 8 % 5) (j / 8 / 5) = a[j / 8] := by
    rw [lane_of_lt a (by omega) (by omega), Nat.mod_add_div, Array.getD_eq_getD_getElem?, Array.getElem?_eq_getElem]
    rfl
  rw [hlane, squeezeBlock, rateBytes, List.getD_eq_getElem?_getD, List.getElem?_take_of_lt hj, bytesOf,
    getElem?_flatMap_of_length (by decide) (fun _ _ => leBytes_length ..), Array.getElem?_toList,
    Array.getElem?_eq_getElem (by omega), Option.bind_some, getElem?_leBytes_toNat _ (by omega)]
  rfl

/-- The state that a block is XORed into, before the permutation (47_shake.md R224). -/
def addBlock (a : Keccak) (block : List Byte) : Keccak :=
  tabulate 25 fun i => if i < 17 then a.getD i 0 ^^^ (elems64 block).toArray.getD i 0 else a.getD i 0

theorem absorbBlock_eq (a : Keccak) (block : List Byte) : absorbBlock a block = keccakF (addBlock a block) := rfl

theorem lane_addBlock (a : Keccak) {block : List Byte} (hlen : block.length = 136) {x y : Nat} (hx : x < 5)
    (hy : y < 5) : lane (addBlock a block) x y =
      lane a x y ^^^ (if x + 5 * y < 17 then quad block (x + 5 * y) else 0) := by
  rw [addBlock, lane_tabulate, Nat.mod_eq_of_lt hx, Nat.mod_eq_of_lt hy, lane_of_lt a hx hy,
    readsArray_quad.elems_eq_map_value (n := 17) hlen]
  split
  · next h => simp [h]
  · exact BitVec.xor_zero.symm

-- The padding and the absorption (47_shake.md R224).

theorem paddedMessage_length_mod (m : List Byte) : (paddedMessage m).length % 136 = 0 := by
  simp only [paddedMessage, List.length_modify, List.length_append, List.length_cons, List.length_replicate]
  omega

theorem padBlock_length {m : List Byte} (h : m.length < 136) : (padBlock m).length = 136 := by
  simp only [padBlock, rateBytes, List.length_modify, List.length_append, List.length_replicate, List.length_singleton]
  omega

/-- A message that is shorter than a block is padded to one block. -/
theorem paddedMessage_of_lt {m : List Byte} (h : m.length < 136) : paddedMessage m = padBlock m := by
  have hzeros : (136 - (m.length + 1) % 136) % 136 = 136 - (m.length + 1) := by omega
  have hlen : (m ++ 0x1F :: List.replicate (136 - (m.length + 1)) (0 : Byte)).length = 136 := by
    simp only [List.length_append, List.length_cons, List.length_replicate]
    omega
  simp only [paddedMessage, hzeros]
  rw [hlen, padBlock, rateBytes, List.append_assoc]
  rfl

/-- A full block in front of a message stays in front of its padding. -/
theorem paddedMessage_append {block : List Byte} (hlen : block.length = 136) (m : List Byte) :
    paddedMessage (block ++ m) = block ++ paddedMessage m := by
  have hzeros : ((block ++ m).length + 1) % 136 = (m.length + 1) % 136 := by
    rw [List.length_append, hlen]
    omega
  simp only [paddedMessage, hzeros, List.append_assoc]
  rw [List.length_append, Nat.add_sub_assoc (by simp only [List.length_append, List.length_cons]; omega)]
  exact List.modifyTailIdx_add _ _ block _

/-- The absorption of the blocks of a padded message into a state (47_shake.md R224). -/
def absorbBlocks (a : Keccak) (p : List Byte) : Keccak :=
  (List.range (p.length / 136)).foldl (fun b j => absorbBlock b ((p.drop (136 * j)).take 136)) a

theorem absorbed_eq (m : List Byte) : absorbed m = absorbBlocks keccakZero (paddedMessage m) := rfl

theorem absorbBlocks_nil (a : Keccak) : absorbBlocks a [] = a := rfl

theorem absorbBlocks_append (a : Keccak) {block : List Byte} (hlen : block.length = 136) (p : List Byte) :
    absorbBlocks a (block ++ p) = absorbBlocks (absorbBlock a block) p := by
  have hcount : (block ++ p).length / 136 = p.length / 136 + 1 := by
    rw [List.length_append, hlen]
    omega
  have hdrop (j : Nat) : (block ++ p).drop (136 * (j + 1)) = p.drop (136 * j) := by
    rw [Nat.mul_succ, Nat.add_comm, ← hlen, List.drop_length_add_append]
  have hfirst : ((block ++ p).drop (136 * 0)).take 136 = block := List.take_left' hlen
  rw [absorbBlocks, hcount, List.range_succ_eq_map, List.foldl_cons, List.foldl_map, hfirst]
  simp only [Nat.succ_eq_add_one, hdrop]
  rfl

/-- The engine's absorption is that of the padded message (47_shake.md R224). -/
theorem absorb_eq_absorbBlocks (m : List Byte) (a : Keccak) :
    absorb (m.length / 136) m a = absorbBlocks a (paddedMessage m) := by
  generalize hn : m.length / 136 = n
  induction n generalizing m a with
  | zero =>
    have happend := absorbBlocks_append a (padBlock_length (m := m) (by omega)) []
    rw [List.append_nil, absorbBlocks_nil] at happend
    rw [absorb, paddedMessage_of_lt (by omega), happend]
  | succ n ih =>
    have htake : (m.take 136).length = 136 := List.length_take_of_le (by omega)
    have hrest : paddedMessage m = m.take 136 ++ paddedMessage (m.drop 136) := by
      rw [← paddedMessage_append htake, List.take_append_drop]
    rw [absorb, rateBytes, ih _ _ (by rw [List.length_drop]; omega), hrest, absorbBlocks_append a htake]

-- The output stream (47_shake.md R224).

theorem keccakIterate_keccakF (n : Nat) (a : Keccak) : keccakIterate n (keccakF a) = keccakIterate (n + 1) a := by
  induction n with
  | zero => rfl
  | succ n ih => exact congrArg keccakF ih

theorem keccakIterate_size {a : Keccak} (ha : a.size = 25) (n : Nat) : (keccakIterate n a).size = 25 := by
  cases n with
  | zero => exact ha
  | succ n => exact keccakF_size _

/-- Output block q is that of the state after q more permutations. -/
theorem squeezeBlocks_eq_map (extra : Nat) (a : Keccak) :
    squeezeBlocks extra a = (List.range (extra + 1)).map fun q => squeezeBlock (keccakIterate q a) := by
  induction extra generalizing a with
  | zero => rfl
  | succ n ih =>
    rw [squeezeBlocks, ih, List.range_succ_eq_map (n := n + 1), List.map_cons, List.map_map]
    simp only [keccakIterate_keccakF]
    rfl

/-- The output byte by byte (47_shake.md R224). -/
theorem getElem?_shake256 (m : List Byte) {len j : Nat} (hj : j < len) :
    (shake256 m len)[j]? = (squeezeBlock (keccakIterate (j / 136) (absorbed m)))[j % 136]? := by
  have hblock : ∀ q ∈ List.range (len / 136 + 1), (squeezeBlock (keccakIterate q (absorbed m))).length = 136 := by
    intro q _
    refine squeezeBlock_length (keccakIterate_size ?_ q)
    rw [absorbed_eq, ← absorb_eq_absorbBlocks]
    exact absorb_size ..
  rw [shake256, rateBytes, absorb_eq_absorbBlocks, ← absorbed_eq, List.getElem?_take_of_lt hj, squeezeBlocks_eq_map,
    ← List.flatMap_def, getElem?_flatMap_of_length (by decide) hblock, List.getElem?_range (by omega), Option.bind_some]

theorem shake256_take (m : List Byte) {len more : Nat} (h : len ≤ more) :
    (shake256 m more).take len = shake256 m len := by
  refine List.ext_getElem? fun j => ?_
  rcases Nat.lt_or_ge j len with hj | hj
  · rw [List.getElem?_take_of_lt hj, getElem?_shake256 m (by omega), getElem?_shake256 m hj]
  · rw [List.getElem?_eq_none (by simp; omega), List.getElem?_eq_none (by simpa using hj)]

-- The instruction (47_shake.md R225).

theorem exec_shake256 (s : State) (rd rb : Reg) : exec (.shake256 rd rb) s =
    let out := s.reg rb
    let outlen := (s.reg (rb + 1#4)).toNat
    let inp := s.reg (rb + 2#4)
    let inlen := (s.reg (rb + 3#4)).toNat
    engineChecks (.shake256 rd rb) s [(out, outlen), (inp, inlen)]
      (withBuf s (inp, inlen) fun m => engineDone s rd 0 [(out, shake256 m outlen)]) := by
  rw [← s.operand_zero rb]
  rfl

end Sys2Proof.Machine

namespace Sys2Proof

open Sys2Proof.Machine

/-- Settles O45: the engine checks its two buffers, reads the message and writes its hash. -/
theorem shakeResult : Obligations.ShakeResult := by
  unfold Obligations.ShakeResult
  intro s rd rb hw out outlen inp inlen
  obtain ⟨hfault, hdone⟩ := outInEngine hw (exec_shake256 s rd rb)
  refine ⟨hfault, fun msg hlen hout hinp hmsg => ⟨?_, shake256_length msg outlen⟩⟩
  rw [hdone msg hlen hout hinp hmsg]
  exact completes_engineDone ..

/-- Settles O46: the output byte by byte; a shorter output has the same bytes. -/
theorem shakeIsSponge : Obligations.ShakeIsSponge := by
  unfold Obligations.ShakeIsSponge
  intro msg len
  have hzero (x y : Nat) : lane keccakZero x y = 0 := by
    rw [lane, keccakZero, Array.getD_eq_getD_getElem?, Array.getElem?_replicate, if_pos (by omega)]
    rfl
  exact ⟨hzero, paddedMessage_length_mod msg, shake256_length msg len, fun _ hj => getElem?_shake256 msg hj,
    fun _ hmore => shake256_take msg hmore⟩

/-- Settles O47: each step of a round by the lemma about its lanes, the tables by evaluation, a block by its bytes. -/
theorem keccakRoundLanes : Obligations.KeccakRoundLanes := by
  unfold Obligations.KeccakRoundLanes
  intro a rc ha
  refine ⟨fun x y => ?_, fun x hx y hy => lane_rhoPi a hx hy, ⟨rfl, rotationOffset_rotationWalk⟩, lane_chi a,
    fun x hx y hy => lane_keccakRound a rc hx hy, keccakF_eq_foldl a,
    ⟨squeezeBlock_length ha, fun j hj => squeezeBlock_getD ha hj⟩, fun block hlen => ?_⟩
  · rw [lane_theta, thetaColumns_getD, thetaColumns_getD]
  · exact ⟨addBlock a block, tabulate_size .., absorbBlock_eq a block, fun x hx y hy => lane_addBlock a hlen hx hy⟩

end Sys2Proof

/-!
The base instructions (spec/48_base.md R230 to R267): the word operations of the meanings as the arithmetic of the rules,
PARAMTAB by its columns, what a load, a store, a branch and a jump leave, and the statements about them.
-/

namespace Sys2Proof.Machine

-- The word operations as arithmetic (48_base.md R230 to R249).

theorem sub_eq_ofInt (a b : Word) : a - b = BitVec.ofInt 32 ((a.toNat : Int) - b.toNat) := by
  apply BitVec.eq_of_toInt_eq
  rw [BitVec.toInt_sub, BitVec.toInt_ofInt, BitVec.toInt_eq_toNat_bmod, BitVec.toInt_eq_toNat_bmod, Int.bmod_sub_bmod,
    Int.sub_bmod_bmod]

theorem mul_eq_ofNat (a b : Word) : a * b = BitVec.ofNat 32 (a.toNat * b.toNat) := by
  rw [BitVec.ofNat_mul, BitVec.ofNat_toNat, BitVec.ofNat_toNat, BitVec.setWidth_eq, BitVec.setWidth_eq]

theorem shiftLeft_eq_ofNat (a : Word) (k : Nat) : a <<< k = BitVec.ofNat 32 (a.toNat * 2 ^ k) := by
  rw [← Nat.shiftLeft_eq]
  rfl

theorem ushiftRight_eq_ofNat (a : Word) (k : Nat) : a >>> k = BitVec.ofNat 32 (a.toNat / 2 ^ k) := by
  rw [← Nat.shiftRight_eq_div_pow, ← BitVec.toNat_ushiftRight, BitVec.ofNat_toNat, BitVec.setWidth_eq]

/-- SRA rounds toward minus infinity (48_base.md R238, R248). -/
theorem sshiftRight_eq_ofInt (a : Word) (k : Nat) : a.sshiftRight k = BitVec.ofInt 32 (a.toInt.fdiv (2 ^ k)) := by
  rw [Int.fdiv_eq_ediv_of_nonneg _ (by positivity), BitVec.sshiftRight, Int.shiftRight_eq_div_pow, Nat.cast_pow]
  rfl

theorem boolWord_decide (p : Prop) [Decidable p] : boolWord (decide p) = if p then 1 else 0 := by
  simp only [boolWord, decide_eq_true_eq]

theorem zext16_eq_append (imm : BitVec 16) : zext16 imm = 0#16 ++ imm := (append_eq_gfWord imm).symm

theorem append_zero_eq_ofNat (imm : BitVec 16) : imm ++ 0#16 = BitVec.ofNat 32 (imm.toNat * 2 ^ 16) := by
  have himm := imm.isLt
  refine BitVec.eq_of_toNat_eq ?_
  rw [toNat_append_eq, BitVec.toNat_zero, BitVec.toNat_ofNat]
  omega

/-- An instruction that writes back a value leaves it under any name the rule gives it. -/
theorem completes_writeBack_of_eq (s : State) (rd : Reg) {v v' : Word} (h : v = v') :
    Completes s (writeBack s rd v) rd v' (s.pc + 4) [] :=
  h ▸ completes_writeBack s rd v

-- The words of a shift, LUI and PARAM whose fixed bits are not 0 (30_encoding.md R101, R102).

theorem zeroFrom_iff_extractLsb' (w : Word) (lo : Nat) : zeroFrom w lo = true ↔ w.extractLsb' lo (32 - lo) = 0 := by
  rw [zeroFrom_iff_bitMask]
  exact (extractLsb'_eq_zero_iff_bitMask w lo (32 - lo)).symm

theorem decodeWord_shift_mustBeZero {w : Word} (hop : fieldOp w = 0x14#8 ∨ fieldOp w = 0x15#8 ∨ fieldOp w = 0x16#8)
    (h : w.extractLsb' 21 11 ≠ 0#11) : decodeWord w = .error .mustBeZero := by
  have hshift (mk : Reg → Reg → BitVec 5 → Instr) : decodeShift w mk = .error .mustBeZero :=
    if_neg fun hzero => h ((zeroFrom_iff_extractLsb' w 21).mp hzero)
  rcases hop with hop | hop | hop <;> simp only [decodeWord, hop] <;> exact hshift _

theorem decodeWord_lui_mustBeZero {w : Word} (hop : fieldOp w = 0x17#8) (h : fieldB w ≠ 0#4) :
    decodeWord w = .error .mustBeZero := by
  simp only [decodeWord, hop]
  exact if_neg h

theorem toNat_fieldImm_le_of_zeroFrom {w : Word} (h : zeroFrom w 20 = true) : (fieldImm w).toNat ≤ 15 := by
  have hhigh : w >>> 20 = 0#32 := beq_iff_eq.mp h
  rw [← BitVec.toNat_inj, BitVec.toNat_ushiftRight, BitVec.toNat_ofNat, Nat.shiftRight_eq_div_pow] at hhigh
  rw [fieldImm, BitVec.extractLsb'_toNat, Nat.shiftRight_eq_div_pow]
  omega

theorem decodeWord_param_mustBeZero {w : Word} (hop : fieldOp w = 0x18#8)
    (h : fieldB w ≠ 0#4 ∨ 15 < (fieldImm w).toNat) : decodeWord w = .error .mustBeZero := by
  simp only [decodeWord, hop]
  refine if_neg fun hok => ?_
  obtain ⟨hB, hzero⟩ := Bool.and_eq_true_iff.mp hok
  rcases h with hne | hlt
  · exact hne (of_decide_eq_true hB)
  · exact absurd (toNat_fieldImm_le_of_zeroFrom hzero) (Nat.not_le.mpr hlt)

-- PARAMTAB (48_base.md R250).

/-- The printed columns of PARAMTAB are the sizes of 00_scope.md R7 and R8. -/
theorem paramColumn_eq (v : Variant) : paramColumn v =
    [v.number, v.m, v.n, v.t, v.fast.toNat, v.irrBytes, v.condBytes, v.pkNrows, v.pkRowBytes, v.syndBytes, v.skBytes,
      v.pkBytes, v.ctBytes, v.geRandBytes] := by
  cases v <;> rfl

theorem paramTab_eq (b : Build) (idx : BitVec 4) : b.paramTab idx = BitVec.ofNat 32 (paramValue b idx) := by
  rw [Build.paramTab, paramValue, paramColumn_eq]
  have hidx : idx.toNat < 16 := idx.isLt
  interval_cases idx.toNat <;> rfl

-- Loads and stores (20_memory.md R64; 48_base.md R251 to R257).

/-- A scalar access x with its three ends faults where ea is misaligned, then where it passes the end of local memory, and
otherwise goes on as `done` (20_memory.md R64). -/
theorem scalarAccess {s : State} {k : Nat} {ea w : Word} {c c' : Cause} {x done : Host.Outcome State Fault Refusal}
    (h : (ea.toNat % k ≠ 0 ∧ x = raiseFault s c ea w) ∨
      (ea.toNat % k = 0 ∧ s.lmemBytes < ea.toNat + k ∧ x = raiseFault s c' ea w) ∨
      (ea.toNat % k = 0 ∧ ea.toNat + k ≤ s.lmemBytes ∧ x = done)) :
    (ea.toNat % k ≠ 0 → Faults s x c ea w) ∧
    (ea.toNat % k = 0 → s.lmemBytes < ea.toNat + k → Faults s x c' ea w) ∧
    (ea.toNat % k = 0 → ea.toNat + k ≤ s.lmemBytes → x = done) := by
  rcases h with ⟨hmis, rfl⟩ | ⟨hal, hend, rfl⟩ | ⟨hal, hfit, rfl⟩
  · exact ⟨fun _ => faults_raiseFault .., fun h => absurd h hmis, fun h => absurd h hmis⟩
  · exact ⟨fun h => absurd hal h, fun _ _ => faults_raiseFault .., fun _ h => absurd hend (Nat.not_lt.mpr h)⟩
  · exact ⟨fun h => absurd hal h, fun _ h => absurd hfit (Nat.not_le.mpr h), fun _ _ => rfl⟩

section
variable (k : Nat) (w : Word) (r rs1 : Reg) (imm : BitVec 16) (s : State)

/-- A load with its bytes written leaves their value in rd (48_base.md R252 to R254). -/
theorem loadOp_ends :
    let ea := dataAddress s rs1 imm
    (ea.toNat % k ≠ 0 → Faults s (loadOp k w r rs1 imm s) .loadMisaligned ea w) ∧
    (ea.toNat % k = 0 → s.lmemBytes < ea.toNat + k → Faults s (loadOp k w r rs1 imm s) .loadAccess ea w) ∧
    ∀ (bs : List Byte) (v : Word), ea.toNat % k = 0 → ea.toNat + k ≤ s.lmemBytes →
      Memory.read s.mem ea.toNat k = .ok bs → BitVec.ofNat 32 (leNat bs) = v →
      Completes s (loadOp k w r rs1 imm s) r v (s.pc + 4) [] := by
  obtain ⟨hmis, hend, hdone⟩ := scalarAccess (loadOp_cases k w r rs1 imm s)
  refine ⟨hmis, hend, fun bs v hal hfit hread hv => ?_⟩
  rw [hdone hal hfit, withRead_ok hread]
  exact completes_writeBack_of_eq s r hv

/-- A store leaves the low bytes of its register at ea, lowest first (48_base.md R255 to R257). -/
theorem storeOp_ends :
    let ea := dataAddress s rs1 imm
    (ea.toNat % k ≠ 0 → Faults s (storeOp k w r rs1 imm s) .storeMisaligned ea w) ∧
    (ea.toNat % k = 0 → s.lmemBytes < ea.toNat + k → Faults s (storeOp k w r rs1 imm s) .storeAccess ea w) ∧
    (ea.toNat % k = 0 → ea.toNat + k ≤ s.lmemBytes →
      Completes s (storeOp k w r rs1 imm s) 0#4 0#32 (s.pc + 4)
        [(ea, (List.range k).map fun j => (s.reg r).extractLsb' (8 * j) 8)]) := by
  obtain ⟨hmis, hend, hdone⟩ := scalarAccess (storeOp_cases k w r rs1 imm s)
  refine ⟨hmis, hend, fun hal hfit => ?_⟩
  rw [hdone hal hfit, leBytes_toNat]
  exact completes_writeMem_advance ..

end

theorem Memory.read_cons {m : Memory} {a n : Nat} {b : Byte} {bs : List Byte} (hb : m.byte a = some b)
    (hbs : m.read (a + 1) n = .ok bs) : m.read a (n + 1) = .ok (b :: bs) := by
  simp only [Memory.read, hb, hbs]

/-- A byte, zero-extended (48_base.md R252). -/
theorem ofNat_leNat_one (b0 : Byte) : BitVec.ofNat 32 (leNat [b0]) = 0#24 ++ b0 := by
  have h0 := b0.isLt
  refine BitVec.eq_of_toNat_eq ?_
  rw [BitVec.toNat_ofNat, toNat_append_eq, BitVec.toNat_zero, leNat, leNat]
  omega

/-- Two bytes, zero-extended (48_base.md R253). -/
theorem ofNat_leNat_two (b0 b1 : Byte) : BitVec.ofNat 32 (leNat [b0, b1]) = 0#16 ++ b1 ++ b0 := by
  have h0 := b0.isLt
  have h1 := b1.isLt
  refine BitVec.eq_of_toNat_eq ?_
  rw [BitVec.toNat_ofNat, toNat_append_eq, toNat_append_eq, BitVec.toNat_zero, leNat, leNat, leNat]
  omega

-- Branches and jumps (48_base.md R258 to R266).

theorem completes_branchOp_of_iff (s : State) (off : BitVec 16) {taken : Bool} {p : Prop} [Decidable p]
    (h : taken = true ↔ p) : Completes s (branchOp taken off s) 0#4 0#32
      (if p then BitVec.ofInt 32 (s.pc.toNat + 4 * off.toInt) else s.pc + 4) [] := by
  have hbranch := completes_branchOp s taken off
  simp only [h, branchTarget_eq] at hbranch
  exact hbranch

theorem not_lessSigned_iff (a b : Word) : (!lessSigned a b) = true ↔ b.toInt ≤ a.toInt := by
  rw [lessSigned, Bool.not_eq_true', decide_eq_false_iff_not, not_lt]

theorem not_lessUnsigned_iff (a b : Word) : (!lessUnsigned a b) = true ↔ b.toNat ≤ a.toNat := by
  rw [lessUnsigned, Bool.not_eq_true', decide_eq_false_iff_not, not_lt]

theorem exec_jal (s : State) (rd : Reg) (off : BitVec 20) : exec (.jal rd off) s =
    .next ((s.setPc (BitVec.ofInt 32 (s.pc.toNat + 4 * off.toInt))).setReg rd (s.pc + 4)) := by
  rw [← jumpTarget_eq]
  rfl

theorem exec_jalr (s : State) (rd rs1 : Reg) (imm : BitVec 16) : exec (.jalr rd rs1 imm) s =
    if (dataAddress s rs1 imm).toNat % 4 ≠ 0 then
      raiseFault s .fetchMisaligned (dataAddress s rs1 imm) (encode (.jalr rd rs1 imm))
    else .next ((s.setPc (dataAddress s rs1 imm)).setReg rd (s.pc + 4)) := by
  rw [← effectiveAddr_eq]
  rfl

theorem exec_halt (s : State) : exec .halt s = .next s.halt := rfl

end Sys2Proof.Machine

namespace Sys2Proof

open Sys2Proof.Machine Laws

/-- Settles O8: each instruction writes back its word operation, which is the arithmetic of its rule. -/
theorem aluRegisterResults : Obligations.AluRegisterResults := by
  unfold Obligations.AluRegisterResults
  intro s rd rs1 rs2 a b sh
  refine ⟨⟨OpcodeByte.add .., ?add⟩, ⟨OpcodeByte.sub .., ?sub⟩, ⟨OpcodeByte.and .., ?and⟩, ⟨OpcodeByte.or .., ?or⟩,
    ⟨OpcodeByte.xor .., ?xor⟩, ⟨OpcodeByte.sll .., ?sll⟩, ⟨OpcodeByte.srl .., ?srl⟩, ⟨OpcodeByte.sra .., ?sra⟩,
    ⟨OpcodeByte.slt .., ?slt⟩, ⟨OpcodeByte.sltu .., ?sltu⟩, ⟨OpcodeByte.mul .., ?mul⟩⟩
  case add => exact completes_writeBack_of_eq s rd (BitVec.add_def a b)
  case sub => exact completes_writeBack_of_eq s rd (sub_eq_ofInt a b)
  case and | or | xor => exact completes_writeBack s rd _
  case sll => exact completes_writeBack_of_eq s rd (shiftLeft_eq_ofNat a sh)
  case srl => exact completes_writeBack_of_eq s rd (ushiftRight_eq_ofNat a sh)
  case sra => exact completes_writeBack_of_eq s rd (sshiftRight_eq_ofInt a sh)
  case slt => exact completes_writeBack_of_eq s rd (boolWord_decide (a.toInt < b.toInt))
  case sltu => exact completes_writeBack_of_eq s rd (boolWord_decide (a.toNat < b.toNat))
  case mul => exact completes_writeBack_of_eq s rd (mul_eq_ofNat a b)

/-- Settles O9: each instruction writes back its word operation on the extended immediate, and the decoder tests the bits
that must be 0. -/
theorem aluImmediateResults : Obligations.AluImmediateResults := by
  unfold Obligations.AluImmediateResults
  refine ⟨fun s rd rs1 imm sh => ?_, fun w => decodeWord_shift_mustBeZero, fun w => decodeWord_lui_mustBeZero⟩
  intro a
  refine ⟨⟨OpcodeByte.addi .., ?addi⟩, ⟨OpcodeByte.andi .., ?andi⟩, ⟨OpcodeByte.ori .., ?ori⟩,
    ⟨OpcodeByte.xori .., ?xori⟩, ⟨OpcodeByte.slli .., ?slli⟩, ⟨OpcodeByte.srli .., ?srli⟩, ⟨OpcodeByte.srai .., ?srai⟩,
    ⟨OpcodeByte.lui .., ?lui⟩⟩
  case addi => exact completes_writeBack_of_eq s rd (toNat_add_sext16 a imm)
  case andi => exact completes_writeBack_of_eq s rd (congrArg (a &&& ·) (zext16_eq_append imm))
  case ori => exact completes_writeBack_of_eq s rd (congrArg (a ||| ·) (zext16_eq_append imm))
  case xori => exact completes_writeBack_of_eq s rd (congrArg (a ^^^ ·) (zext16_eq_append imm))
  case slli => exact completes_writeBack_of_eq s rd (shiftLeft_eq_ofNat a sh.toNat)
  case srli => exact completes_writeBack_of_eq s rd (ushiftRight_eq_ofNat a sh.toNat)
  case srai => exact completes_writeBack_of_eq s rd (sshiftRight_eq_ofInt a sh.toNat)
  case lui => exact completes_writeBack_of_eq s rd (append_zero_eq_ofNat imm)

/-- Settles O10: the printed columns are the sizes of the build. -/
theorem paramReadsBuildTable : Obligations.ParamReadsBuildTable := by
  unfold Obligations.ParamReadsBuildTable
  refine ⟨fun s rd idx => ⟨OpcodeByte.param rd idx, ?_⟩, fun w => decodeWord_param_mustBeZero⟩
  exact completes_writeBack_of_eq s rd (paramTab_eq s.build idx)

/-- Settles O11, by the three ends of each load; a byte is always aligned. -/
theorem loadResults : Obligations.LoadResults := by
  unfold Obligations.LoadResults
  intro s rd rs1 imm b0 b1 b2 b3 ea
  have hbyte : ea.toNat % 1 = 0 := Nat.mod_one _
  obtain ⟨-, hend1, hdone1⟩ := loadOp_ends 1 (encode (.lbu rd rs1 imm)) rd rs1 imm s
  obtain ⟨hmis2, hend2, hdone2⟩ := loadOp_ends 2 (encode (.lhu rd rs1 imm)) rd rs1 imm s
  obtain ⟨hmis4, hend4, hdone4⟩ := loadOp_ends 4 (encode (.lw rd rs1 imm)) rd rs1 imm s
  refine ⟨fun hend => hend1 hbyte (Nat.lt_succ_of_le hend), fun hfit h0 => ?lbu, hmis2, hend2,
    fun hal hfit h0 h1 => ?lhu, hmis4, hend4, fun hal hfit h0 h1 h2 h3 => ?lw⟩
  case lbu => exact hdone1 _ _ hbyte hfit (Memory.read_cons h0 rfl) (ofNat_leNat_one b0)
  case lhu => exact hdone2 _ _ hal hfit (Memory.read_cons h0 (Memory.read_cons h1 rfl)) (ofNat_leNat_two b0 b1)
  case lw => exact hdone4 _ _ hal hfit (Memory.read_four h0 h1 h2 h3) (append_four_eq_ofNat_leNat b0 b1 b2 b3).symm

/-- Settles O12, by the three ends of each store; a byte is always aligned. -/
theorem storeResults : Obligations.StoreResults := by
  unfold Obligations.StoreResults
  intro s rs2 rs1 imm ea d
  have hbyte : ea.toNat % 1 = 0 := Nat.mod_one _
  obtain ⟨-, hend1, hdone1⟩ := storeOp_ends 1 (encode (.sb rs2 rs1 imm)) rs2 rs1 imm s
  obtain ⟨hmis2, hend2, hdone2⟩ := storeOp_ends 2 (encode (.sh rs2 rs1 imm)) rs2 rs1 imm s
  obtain ⟨hmis4, hend4, hdone4⟩ := storeOp_ends 4 (encode (.sw rs2 rs1 imm)) rs2 rs1 imm s
  exact ⟨fun hend => hend1 hbyte (Nat.lt_succ_of_le hend), fun hfit => hdone1 hbyte hfit, hmis2, hend2, hdone2, hmis4,
    hend4, hdone4⟩

/-- Settles O14, by the condition of each branch. -/
theorem branchResults : Obligations.BranchResults := by
  unfold Obligations.BranchResults
  intro s rs1 rs2 off a b target
  refine ⟨⟨OpcodeByte.beq .., ?beq⟩, ⟨OpcodeByte.bne .., ?bne⟩, ⟨OpcodeByte.blt .., ?blt⟩, ⟨OpcodeByte.bge .., ?bge⟩,
    ⟨OpcodeByte.bltu .., ?bltu⟩, ⟨OpcodeByte.bgeu .., ?bgeu⟩⟩
  case beq => exact completes_branchOp_of_iff s off beq_iff_eq
  case bne => exact completes_branchOp_of_iff s off bne_iff_ne
  case blt => exact completes_branchOp_of_iff s off decide_eq_true_iff
  case bge => exact completes_branchOp_of_iff s off (not_lessSigned_iff a b)
  case bltu => exact completes_branchOp_of_iff s off decide_eq_true_iff
  case bgeu => exact completes_branchOp_of_iff s off (not_lessUnsigned_iff a b)

/-- Settles O15, by the target of each jump; JALR by its alignment. -/
theorem jumpResults : Obligations.JumpResults := by
  unfold Obligations.JumpResults
  refine ⟨fun s rd off => ⟨OpcodeByte.jal rd off, ?_⟩, fun s rd rs1 imm => ⟨OpcodeByte.jalr rd rs1 imm, fun h => ?_,
    fun h => ?_⟩⟩
  · rw [exec_jal]
    exact ⟨_, rfl, changed_setPc_setReg ..⟩
  · rw [exec_jalr, if_pos h]
    exact faults_raiseFault ..
  · rw [exec_jalr, if_neg (not_not.mpr h)]
    exact ⟨_, rfl, changed_setPc_setReg ..⟩

/-- Settles O16: HALT leaves the fault record alone, which is clear while RUN = 1. -/
theorem haltEndsRun : Obligations.HaltEndsRun := by
  unfold Obligations.HaltEndsRun
  refine fun s => ⟨exec_halt s, fun hinv hrun => ?_⟩
  obtain ⟨-, -, -, hcause, hinfo, hinsn⟩ := hinv.runClear hrun
  exact ⟨s.halt, exec_halt s, rfl, hcause, hinfo, hinsn⟩

end Sys2Proof

/-!
Reset and the ends of a run (spec/60_exceptions.md R272 to R278; spec/70_reset_and_hazards.md R300 to R304): what an
executed instruction leaves of the run, the moves of SEQ by RUN and STOPREQ, and that no step is refused.
-/

namespace Sys2Proof.Machine

-- What an executed instruction leaves of the run (60_exceptions.md R272, R277).

/-- What the fetch and the execution at s leave of the run: it goes on, a fetched HALT ends it, or a fault does
(70_reset_and_hazards.md R304). -/
inductive Executed (s : State) : State → Prop where
  | goesOn {t : State} (hostSide : SameHostSide s t) (runState : SameRun s t) : Executed s t
  | halts (fits : s.pc.toNat + 4 ≤ s.lmemBytes)
      (bytes : Memory.read s.mem s.pc.toNat 4 = .ok (bytesOfWord (encode .halt))) : Executed s s.halt
  | faults (c : Cause) (info w : Word) (h : c ≠ .none) : Executed s (s.raise c info w)

theorem executed_of_exec {s t : State} {w : Word} {i : Instr} (hfits : s.pc.toNat + 4 ≤ s.lmemBytes)
    (hbytes : Memory.read s.mem s.pc.toNat 4 = .ok (bytesOfWord w)) (hd : decodeWord w = .ok i)
    (e : exec i s = .next t) : Executed s t := by
  have hdid := exec_did i s
  rw [e] at hdid
  cases hdid with
  | faults c info hc => exact .faults c info _ hc
  | goesOn v pc outs =>
    have ht := changed_setPc s (destReg i) v pc outs
    exact .goesOn ht.hostSide ht.runState
  | halts hi =>
    subst hi
    exact .halts hfits ((encodeOfDecode w .halt hd).1 ▸ hbytes)

theorem executed_of_fetchAndRun {s t : State} (e : fetchAndRun s = .next t) : Executed s t := by
  rcases fetchAndRun_cases s with ⟨-, e'⟩ | ⟨hfits, w, hbytes, ⟨i, hd, e'⟩ | ⟨-, e'⟩⟩ | ⟨a, -, -, e'⟩ <;> rw [e'] at e
  · cases e
    exact .faults _ _ _ (by decide)
  · exact executed_of_exec hfits hbytes hd e
  · cases e
    exact .faults _ _ _ (by decide)
  · cases e

-- Moves of SEQ by RUN and STOPREQ (60_exceptions.md R278; 70_reset_and_hazards.md R302).

theorem seqStep_stopped {s : State} (h : s.run = false) : seqStep s = .next s := if_pos h

theorem seqStep_honoursStop {s : State} (hr : s.run = true) (hb : s.begun = false) (hs : s.stopReq = true) :
    seqStep s = .next s.honourStop := by
  rw [seqStep, if_neg (by simp [hr]), if_pos (s.stopTaken_eq_true.mpr ⟨hs, hb⟩)]

theorem State.beginInstr_stopped {s : State} (h : s.run = false) : s.beginInstr = s := if_pos h

theorem State.beginInstr_honoursStop {s : State} (hr : s.run = true) (hb : s.begun = false) (hs : s.stopReq = true) :
    s.beginInstr = s.honourStop := by
  rw [State.beginInstr, if_neg (by simp [hr]), if_pos (s.stopTaken_eq_true.mpr ⟨hs, hb⟩)]

theorem State.beginInstr_running {s : State} (hr : s.run = true) (hs : s.stopReq = false) :
    s.beginInstr = { s with begun := true } := by
  rw [State.beginInstr, if_neg (by simp [hr]), if_neg (by simp [hs])]

theorem State.withHost_of_host {s : State} {rest : List HostEvent} (h : s.host = rest) : s.withHost rest = s := by
  subst h
  rfl

-- No step is refused, and only an unwritten byte stops the model (93_implementation_defined.md U3).

/-- The outcome o at s is a next state, or the stop at a byte of local memory that nothing has written. -/
def NextOrUnwritten (s : State) (o : Host.Outcome State Fault Refusal) : Prop :=
  (∃ t, o = .next t) ∨ ∃ a, s.byte a = none ∧ a < s.lmemBytes ∧ o = .fault (.unwritten a)

theorem Did.nextOrUnwritten {i : Instr} {s : State} {o : Host.Outcome State Fault Refusal} (h : Did i s o) :
    NextOrUnwritten s o := by
  cases h with
  | faults | goesOn | halts => exact .inl ⟨_, rfl⟩
  | unwritten a hbyte hlt => exact .inr ⟨a, hbyte, hlt, rfl⟩

theorem nextOrUnwritten_fetchAndRun (s : State) : NextOrUnwritten s (fetchAndRun s) := by
  rcases fetchAndRun_cases s with ⟨-, e⟩ | ⟨-, w, -, ⟨i, -, e⟩ | ⟨-, e⟩⟩ | h
  · exact .inl ⟨_, e⟩
  · exact e ▸ (exec_did i s).nextOrUnwritten
  · exact .inl ⟨_, e⟩
  · exact .inr h

theorem nextOrUnwritten_seqStep (s : State) : NextOrUnwritten s (seqStep s) := by
  rcases seqStep_cases s with ⟨-, e⟩ | ⟨-, -, -, e⟩ | ⟨-, -, e⟩
  · exact .inl ⟨_, e⟩
  · exact .inl ⟨_, e⟩
  · exact e ▸ nextOrUnwritten_fetchAndRun s.finish

theorem nextOrUnwritten_hostRead (s : State) (off : BitVec 25) (k : Nat) : NextOrUnwritten s (hostRead s off k) := by
  rcases hostRead_cases s off k with ⟨d, herr, draws, e⟩ | ⟨-, h⟩
  · exact .inl ⟨_, e⟩
  · exact .inr h

theorem nextOrUnwritten_step (s : State) : NextOrUnwritten s (step s) := by
  cases hh : s.host with
  | nil => exact step_nil hh ▸ nextOrUnwritten_seqStep s
  | cons event rest =>
    cases event with
    | idle => exact step_idle hh ▸ nextOrUnwritten_seqStep (s.withHost rest)
    | begins => exact .inl ⟨_, step_begins hh⟩
    | read off k => exact step_read hh ▸ nextOrUnwritten_hostRead (s.withHost rest) off k
    | write off k d => exact .inl ⟨_, step_write hh⟩
    | reset => exact .inl ⟨_, step_reset hh⟩

-- Reset (70_reset_and_hazards.md R300, R301).

theorem resetValues_resetEvent (s : State) : ResetValues s.resetEvent where
  zero := State.reg_zero _
  ctrl := ⟨rfl, rfl, rfl⟩
  status := ⟨rfl, rfl, rfl, rfl, rfl, rfl⟩
  entry := rfl
  pcReg := rfl
  faultInfo := rfl
  faultInsn := rfl
  irq := rfl
  stopReq := rfl
  begun := rfl

/-- The state right after reset is as a reset event leaves it. -/
theorem State.resetEvent_resetOf (b : Build) : (State.resetOf b).resetEvent = State.resetOf b := rfl

theorem resetValues_resetOf (b : Build) : ResetValues (State.resetOf b) :=
  State.resetEvent_resetOf b ▸ resetValues_resetEvent (State.resetOf b)

theorem inv_resetOf (b : Build) : Inv (State.resetOf b) :=
  State.resetEvent_resetOf b ▸ inv_resetEvent (State.resetOf b)

end Sys2Proof.Machine

namespace Sys2Proof

open Sys2Proof.Machine

/-- Settles O60, by the moves of SEQ and what an executed instruction leaves; an outcome that is no next state stops at
an unwritten byte. -/
theorem runEndsInOneOfThreeWays : Obligations.RunEndsInOneOfThreeWays := by
  unfold Obligations.RunEndsInOneOfThreeWays
  refine ⟨fun s t hinv hr hh e hend => ?_, fun s => ?_⟩
  · obtain ⟨hdone, hfault, hstopped, hcause, -, -⟩ := hinv.runClear hr
    rw [step_nil hh] at e
    rcases seqStep_cases s with ⟨hr', -⟩ | ⟨-, hs, hb, e'⟩ | ⟨-, hgo, e'⟩
    · exact absurd (hr.symm.trans hr') Bool.noConfusion
    · cases e'.symm.trans e
      exact ⟨rfl, .inr (.inr ⟨hdone, hfault, rfl, hcause, hs, hb⟩)⟩
    · cases executed_of_fetchAndRun (e'.symm.trans e) with
      | goesOn _ hrun => exact absurd (hr.symm.trans (hrun.run.symm.trans hend)) Bool.noConfusion
      | halts hfits hbytes => exact ⟨rfl, .inl ⟨rfl, hfault, hstopped, hcause, ⟨⟨hr, hgo, hh⟩, hfits, hbytes⟩⟩⟩
      | faults c info w hc =>
        exact ⟨rfl, .inr (.inl ⟨hdone, rfl, hstopped, hgo, c, info, w, hc, faultEntry_raise s.finish c info w⟩)⟩
  · rcases nextOrUnwritten_step s with ⟨t, e⟩ | ⟨a, hbyte, hlt, e⟩ <;> rw [e]
    · exact ⟨nofun, nofun⟩
    · refine ⟨nofun, fun _ h => ?_⟩
      cases h
      exact ⟨hbyte, hlt⟩

/-- Settles O7, by the moves of SEQ; an instruction that has begun leaves the run as `Executed` says. -/
theorem stopHonouredAndStoppedSeqIdle : Obligations.StopHonouredAndStoppedSeqIdle := by
  unfold Obligations.StopHonouredAndStoppedSeqIdle
  refine ⟨fun s hr hb hs hh => (step_nil hh).trans (seqStep_honoursStop hr hb hs), fun s rest hr hb hh => ?_,
    fun s hr hb hs hh => ⟨fun h => ?_, fun t e => ?_⟩, fun s hr hh => ?_⟩
  · rw [step_begins hh]
    refine ⟨fun hs => ?_, fun hs => ?_⟩
    · rw [State.beginInstr_running (s := s.withHost rest) hr hs]
      rfl
    · rw [State.beginInstr_honoursStop (s := s.withHost rest) hr hb hs]
      rfl
  · exact (stepRunsDecodedInstruction s _ .halt h (decodeWord_encode rfl)).1
  · have hrunning : Running s := ⟨hr, .inl hb, hh⟩
    cases executed_of_fetchAndRun (hrunning.step_eq.symm.trans e) with
    | goesOn hhost hrun =>
      have htrue : t.run = true := hrun.run.trans hr
      exact ⟨hhost.begun, hrun.isStopped, fun hend => absurd (htrue.symm.trans hend) Bool.noConfusion,
        fun _ => hrun.stopReq.trans hs⟩
    | halts => exact ⟨rfl, rfl, fun _ => ⟨rfl, .inl rfl⟩, fun h => absurd h Bool.noConfusion⟩
    | faults => exact ⟨rfl, rfl, fun _ => ⟨rfl, .inr rfl⟩, fun h => absurd h Bool.noConfusion⟩
  · rcases hh with hh | hh
    · rw [step_nil hh, seqStep_stopped hr, State.withHost_of_host hh]
    · rw [step_begins hh, State.beginInstr_stopped (s := s.withHost []) hr]

/-- Settles O56: the state after reset is as a reset event leaves it, and that has the table's values. -/
theorem resetLeavesTableValues : Obligations.ResetLeavesTableValues := by
  unfold Obligations.ResetLeavesTableValues
  exact ⟨resetValues_resetOf _, fun b => ⟨resetValues_resetOf b, rfl⟩,
    fun s rest hh => ⟨_, step_reset hh, resetValues_resetEvent (s.withHost rest), rfl, rfl⟩⟩

/-- Settles O57: the invariant holds after a reset event whatever came before. -/
theorem invariantAtReset : Obligations.InvariantAtReset := by
  unfold Obligations.InvariantAtReset
  exact ⟨inv_resetOf _, inv_resetOf⟩

end Sys2Proof
